-- ==== Sys2Proof/Word.lean ====
section
/-! DEFINITION. The word types of the LN8 and their plainest arithmetic (R3, R4, R6). -/

namespace Sys2Proof

/-- A byte of memory. -/
abbrev Byte := BitVec 8

/-- A 64-bit doubleword: CSR contents, generic pointers, engine registers. -/
abbrev Word := BitVec 64

/-- One plane of the vector file: 128 lanes of 4 bits, lane l in bits 4l + 3 : 4l (R159, R46). -/
abbrev Plane := BitVec 512

/-- One predicate: bit i governs element i (R169). -/
abbrev Pred := BitVec 1024

/-- A table held as a list of key and value pairs, keys strictly rising, no value equal to what an
unlisted key reads as. -/
abbrev Sparse (α : Type) := List (Nat × α)

end Sys2Proof
end

