-- ==== Sys2Proof/Syntax.lean ====
section
/-! DEFINITION. The instructions: one constructor per row of spec/opcode_table.json, over the operand
forms of R78 to R86; the rows that are steps of the device and no encodings carry the data the
environment or the device's own schedule supplies. -/

namespace Sys2Proof

/-- A scalar span `ss<start>.<w1 + 1>` (R7, R78, R157). -/
structure SSpan where
  start : BitVec 9
  w1 : BitVec 4
  deriving DecidableEq, Repr

/-- A vector span `vs<start>.<w1 + 1>` (R7, R78, R159). -/
structure VSpan where
  start : BitVec 12
  w1 : BitVec 3
  deriving DecidableEq, Repr

/-- Element types, by the TYPE codes 0x0 to 0xE of R79. -/
inductive ETy where
  | i4 | i8 | i16 | i32 | n4 | n8 | n16 | n32 | e4m3 | e5m2 | bf16 | f16 | f32 | mxi8 | mxf4
  deriving DecidableEq, Repr

/-- The slots of a bundle in the order of R66; the number of a slot is its presence bit. -/
inductive Slot where
  | b | s | va | vb | m | ca | cb | q
  deriving DecidableEq, Repr

/-- The two vector slots (R90). -/
inductive VSlot where
  | va | vb
  deriving DecidableEq, Repr

/-- The two channels of a core's copy engine, driven by CA and CB (R113). -/
inductive Chan where
  | a | b
  deriving DecidableEq, Repr

/-- The ORD field (R82, R103). -/
inductive Ord where
  | relaxed | acq | rel | acqRel
  deriving DecidableEq, Repr

/-- The SCOPE codes 0 to 4 (R328). -/
inductive Scope where
  | core | node | chip | domain | system
  deriving DecidableEq, Repr

/-- The order of a FENCE (R88, R338). -/
inductive FenceOrder where
  | acq | rel | acqRel | sc
  deriving DecidableEq, Repr

/-- The two kinds of core (R13). -/
inductive CoreKind where
  | a | g
  deriving DecidableEq, Repr

/-- Format B.J; `x` is the extension word of template 7 (R76, R77, R81). -/
structure FBJ where
  disp : BitVec 26
  x : Option Word
  deriving DecidableEq, Repr

/-- Format B.C (R81). -/
structure FBC where
  disp : BitVec 19
  neg : Bool
  pred : BitVec 6
  x : Option Word
  deriving DecidableEq, Repr

/-- Format B.Z (R81). -/
structure FBZ where
  disp : BitVec 13
  sa : SSpan
  deriving DecidableEq, Repr

/-- Format B.R (R81). -/
structure FBR where
  imm : BitVec 13
  sa : SSpan
  deriving DecidableEq, Repr

/-- Format S.R (R82). -/
structure FSR where
  src2 : SSpan
  src1 : SSpan
  dst : SSpan
  fn : BitVec 4
  d : Bool
  deriving DecidableEq, Repr

/-- Format S.R as CMP uses it: a destination predicate in place of DST (R185). -/
structure FSCmp where
  src2 : SSpan
  src1 : SSpan
  pd : BitVec 6
  fn : BitVec 4
  deriving DecidableEq, Repr

/-- Format S.R as SEL uses it: bits 58:53 name the selecting predicate (R186). -/
structure FSSel where
  ps : BitVec 6
  src2 : SSpan
  src1 : SSpan
  dst : SSpan
  d : Bool
  deriving DecidableEq, Repr

/-- Format S.I; `x` is the extension word of template 1 (R77, R82). -/
structure FSI where
  imm : BitVec 24
  src1 : SSpan
  dst : SSpan
  fn : BitVec 4
  d : Bool
  x : Option (BitVec 32)
  deriving DecidableEq, Repr

/-- Format S.L (R82). -/
structure FSL where
  imm : BitVec 32
  dst : SSpan
  d : Bool
  x : Option (BitVec 32)
  deriving DecidableEq, Repr

/-- Format S.M (R82). -/
structure FSM where
  off : BitVec 16
  evict : BitVec 3
  scope : Scope
  ord : Ord
  base : SSpan
  data : SSpan
  fn : BitVec 4
  d : Bool
  x : Option (BitVec 32)
  deriving DecidableEq, Repr

/-- Format S.A (R82). -/
structure FSA where
  evict : BitVec 3
  scope : Scope
  ord : Ord
  src : SSpan
  base : SSpan
  dst : SSpan
  fn : BitVec 4
  deriving DecidableEq, Repr

/-- Format S.C (R82, R201). -/
structure FSC where
  csr : BitVec 12
  src : SSpan
  dst : SSpan
  d : Bool
  deriving DecidableEq, Repr

/-- Format V.R (R83). -/
structure FVR where
  sl : VSlot
  pm : BitVec 5
  vb : VSpan
  va : VSpan
  vd : VSpan
  ty : ETy
  d : Bool
  deriving DecidableEq, Repr

/-- Format V.U (R83). -/
structure FVU where
  sl : VSlot
  pm : BitVec 6
  ns : Bool
  cls : BitVec 4
  rm : BitVec 3
  ty2 : ETy
  va : VSpan
  vd : VSpan
  ty : ETy
  d : Bool
  deriving DecidableEq, Repr

/-- Format V.C (R83). -/
structure FVC where
  sl : VSlot
  pm : BitVec 5
  vb : VSpan
  va : VSpan
  cond : BitVec 3
  pd : BitVec 6
  ty : ETy
  d : Bool
  deriving DecidableEq, Repr

/-- Format V.I; `x` is the extension word of template 2, 3 or 4 (R76, R83). -/
structure FVI where
  sl : VSlot
  imm : BitVec 20
  va : VSpan
  vd : VSpan
  ty : ETy
  d : Bool
  x : Option Word
  deriving DecidableEq, Repr

/-- Format V.X (R83, R255). -/
structure FVX where
  sl : VSlot
  dir : Bool
  k : BitVec 4
  j : BitVec 4
  pay : VSpan
  key : VSpan
  ty : ETy
  d : Bool
  deriving DecidableEq, Repr

/-- Format V.M (R83). -/
structure FVM where
  sl : VSlot
  off : BitVec 16
  pm : BitVec 6
  base : SSpan
  data : VSpan
  ty : ETy
  d : Bool
  deriving DecidableEq, Repr

/-- Format V.G (R83). -/
structure FVG where
  sl : VSlot
  vidx : VSpan
  pm : BitVec 6
  base : SSpan
  data : VSpan
  ty : ETy
  d : Bool
  deriving DecidableEq, Repr

/-- Format V.S (R83). -/
structure FVS where
  sl : VSlot
  stride : SSpan
  pm : BitVec 6
  base : SSpan
  data : VSpan
  ty : ETy
  d : Bool
  deriving DecidableEq, Repr

/-- Format V.P (R83). -/
structure FVP where
  sl : VSlot
  sd : SSpan
  pb : BitVec 6
  pa : BitVec 6
  pd : BitVec 6
  ty : ETy
  d : Bool
  deriving DecidableEq, Repr

/-- Format M.A (R84). -/
structure FMA where
  mcnt : BitVec 5
  atile : BitVec 5
  page : BitVec 2
  half : Bool
  mac : BitVec 8
  latch : BitVec 3
  ty : ETy
  deriving DecidableEq, Repr

/-- Format M.L (R84). -/
structure FML where
  evict : BitVec 3
  src : SSpan
  page : BitVec 2
  half : Bool
  mac : BitVec 8
  ty : ETy
  deriving DecidableEq, Repr

/-- Format M.V (R84). -/
structure FMV where
  ns : Bool
  cls : BitVec 4
  rm : BitVec 3
  sa : SSpan
  vs : VSpan
  atile : BitVec 5
  latch : BitVec 3
  ty : ETy
  deriving DecidableEq, Repr

/-- Format M.S (R84). -/
structure FMS where
  row : BitVec 8
  page : BitVec 2
  half : Bool
  mac : BitVec 8
  vs : VSpan
  ty : ETy
  deriving DecidableEq, Repr

/-- Format M.C; `x` is the extension word of template 6 (R77, R84). -/
structure FMC where
  imm : BitVec 25
  sa : SSpan
  ct : BitVec 5
  mac : BitVec 8
  fn : BitVec 4
  x : Option (BitVec 32)
  deriving DecidableEq, Repr

/-- Format C; `x` is the extension word of template 5 (R77, R85). -/
structure FC where
  ch : Chan
  evict : BitVec 3
  scope : Scope
  ord : Ord
  sc : SSpan
  sb : SSpan
  sa : SSpan
  fn : BitVec 4
  x : Option Word
  deriving DecidableEq, Repr

/-- Format Q.R (R86). -/
structure FQR where
  len : BitVec 2
  cls : BitVec 4
  qs : BitVec 3
  qb : BitVec 3
  qa : BitVec 3
  qd : BitVec 3
  deriving DecidableEq, Repr

/-- Format Q.V (R86). -/
structure FQV where
  cls : BitVec 4
  vs : VSpan
  q : BitVec 3
  deriving DecidableEq, Repr

/-- Format Q.P (R86). -/
structure FQP where
  qb : BitVec 3
  qa : BitVec 3
  pd : BitVec 6
  deriving DecidableEq, Repr

/-- Format Q.S; the MODE bit chooses the row (R86, R322). -/
structure FQS where
  cls : BitVec 4
  sa : SSpan
  deriving DecidableEq, Repr

/-- The states of a line at its home and in a cache: I, S, E, M, O (R20, R22, R26). -/
inductive LineSt where
  | i | s | e | m | o
  deriving DecidableEq, Repr

/-- The snoops a home sends (R24). -/
inductive SnoopKind where
  | fwdS | fwdX | inv | rcl
  deriving DecidableEq, Repr

/-- The answers to a snoop (R26). -/
inductive SnoopAns where
  | dirty | clean | notHeld | ack
  deriving DecidableEq, Repr

/-- How the host link trains (R427): one link of 16 or of 8 lanes, or two of 8. -/
inductive HostLink where
  | x16 | x8 | two8
  deriving DecidableEq, Repr

/-- What the test of a shelf finds at bring-up (R282, R417): the shelf, and the failing positions as physical
site and position. -/
structure ShelfTest where
  shelf : BitVec 3
  failing : List (Nat × Nat)
  deriving DecidableEq, Repr

/-- A party to a snoop (R23, R38): a chip by its owner ID, or the host for one of the four sectors of the
line. -/
inductive Party where
  | chip (id : BitVec 8)
  | host (sector : BitVec 2)
  deriving DecidableEq, Repr

/-- The four sectors of a line, with a bit for each one whose check has failed on the way (R409, R410). -/
structure LineData where
  bits : BitVec 2048
  bad : BitVec 4
  deriving DecidableEq, Repr

/-- What comes with a completion (R23, R25, R26): the home's data, the dirty data of an owner, or nothing. -/
inductive Supply where
  | home (d : LineData)
  | owner (d : LineData)
  | nothing
  deriving DecidableEq, Repr

/-- How an access to a line is lost (R31, R32, R36): a party is silent, or the home has told this chip a
cause. -/
inductive Silence where
  | here (line : Nat)
  | told (line : Nat) (cause : BitVec 7)
  deriving DecidableEq, Repr

/-- One constructor per row of the opcode table. The first part holds the encoded instructions, in
the order of the slot maps (R88 to R93); the second part the steps of the device. -/
inductive Instr where
  -- header-only bundle (R69)
  | emptyBundle (join : Bool) (stall : BitVec 4)
  -- B slot (R88)
  | br (o : FBC)
  | brz (o : FBZ)
  | brnz (o : FBZ)
  | jmp (o : FBJ)
  | jmpi (o : FBR)
  | call (o : FBJ)
  | calli (o : FBR)
  | ret (sa : SSpan)
  | cloop (disp : BitVec 19)
  | waitt (mask : BitVec 5)
  | waita (mask : BitVec 8) (dst : SSpan)
  | barg (g : BitVec 8)
  | trig (g : BitVec 8)
  | trigNode
  | exit
  | fence (order : FenceOrder) (scope : Scope)
  | trap (imm : BitVec 13)
  | tret
  | bkpt (imm : BitVec 13)
  | rfcl (mask : BitVec 5)
  | lend (owner : BitVec 2) (c : BitVec 3)
  -- S slot (R89)
  | add (o : FSR)
  | sub (o : FSR)
  | addi (o : FSI)
  | mul (o : FSR)
  | mulh (o : FSR)
  | mulhn (o : FSR)
  | div (o : FSR)
  | divn (o : FSR)
  | rem (o : FSR)
  | remn (o : FSR)
  | and (o : FSR)
  | or (o : FSR)
  | xor (o : FSR)
  | andn (o : FSR)
  | shl (o : FSR)
  | shr (o : FSR)
  | sra (o : FSR)
  | rotl (o : FSR)
  | clz (o : FSR)
  | ctz (o : FSR)
  | popc (o : FSR)
  | min (o : FSR)
  | max (o : FSR)
  | minn (o : FSR)
  | maxn (o : FSR)
  | cmp (o : FSCmp)
  | sel (o : FSSel)
  | li (o : FSL)
  | movs (o : FSR)
  | exts (o : FSI)
  | inss (o : FSI)
  | lea (o : FSI)
  | ld (o : FSM)
  | st (o : FSM)
  | ldg (o : FSM)
  | stg (o : FSM)
  | amo (o : FSA)
  | cas (o : FSA)
  | csrr (o : FSC)
  | csrw (o : FSC)
  | csrs (o : FSC)
  | csrc (o : FSC)
  | engw (o : FSC)
  | engr (o : FSC)
  | hchk (o : FSR)
  -- VA and VB slots (R90)
  | vadd (o : FVR)
  | vsub (o : FVR)
  | vmul (o : FVR)
  | vmulh (o : FVR)
  | vmad (o : FVR)
  | vmin (o : FVR)
  | vmax (o : FVR)
  | vabs (o : FVR)
  | vneg (o : FVR)
  | vand (o : FVR)
  | vor (o : FVR)
  | vxor (o : FVR)
  | vandn (o : FVR)
  | vshl (o : FVR)
  | vshr (o : FVR)
  | vsra (o : FVR)
  | vpopc (o : FVR)
  | vclz (o : FVR)
  | vadds (o : FVR)
  | vsubs (o : FVR)
  | vshlImm (o : FVI)
  | vshrImm (o : FVI)
  | vsraImm (o : FVI)
  | vfadd (o : FVR)
  | vfsub (o : FVR)
  | vfmul (o : FVR)
  | vfma (o : FVR)
  | vfms (o : FVR)
  | vfmin (o : FVR)
  | vfmax (o : FVR)
  | vfabs (o : FVR)
  | vfneg (o : FVR)
  | vcmp (o : FVC)
  | vfcmp (o : FVC)
  | vsel (o : FVR)
  | vclass (o : FVU)
  | vcvt (o : FVU)
  | vwiden (o : FVU)
  | vnarrow (o : FVU)
  | vmxq (o : FVU)
  | vmxd (o : FVU)
  | vrsum (o : FVU)
  | vrfsum (o : FVU)
  | vrmax (o : FVU)
  | vrmin (o : FVU)
  | vperm (o : FVR)
  | vslide (o : FVI)
  | vbcast (o : FVI)
  | vextr (o : FVI)
  | vins (o : FVI)
  | vzip (o : FVR)
  | vunzip (o : FVR)
  | vcxs (o : FVX)
  | vexp2 (o : FVU)
  | vlog2 (o : FVU)
  | vrcp (o : FVU)
  | vrsqrt (o : FVU)
  | vsqrt (o : FVU)
  | vtanh (o : FVU)
  | vsigm (o : FVU)
  | vsinp (o : FVU)
  | vcosp (o : FVU)
  | pand (o : FVP)
  | por (o : FVP)
  | pxor (o : FVP)
  | pnot (o : FVP)
  | pcnt (o : FVP)
  | pfirst (o : FVP)
  | vld (o : FVM)
  | vst (o : FVM)
  | vldx (o : FVG)
  | vstx (o : FVG)
  | vlds (o : FVS)
  | vmov (o : FVU)
  | vli (o : FVI)
  | vchk (o : FVR)
  | viota (o : FVU)
  -- M slot (R91)
  | mmode (o : FMC)
  | mpageRd (o : FMC)
  | mpageClr (o : FMC)
  | mload (o : FML)
  | mlatch (o : FMV)
  | mdot (o : FMA)
  | mcoll (o : FMA)
  | mchain (o : FMV)
  | moutl (o : FMV)
  | macz (o : FMC)
  | macrd (o : FMV)
  | macwr (o : FMV)
  | mread (o : FMS)
  | mwrite (o : FMS)
  | mrmw (o : FMS)
  | mmask (o : FMC)
  | mmaskClr (o : FMC)
  | mwideOn (o : FMC)
  | mwideOff (o : FMC)
  | mrange (o : FMC)
  | lwake (o : FMC)
  | lsleep (o : FMC)
  | mscrub (o : FMC)
  -- CA and CB slots (R92)
  | cpy (o : FC)
  | cgo (o : FC)
  | cgoClr (o : FC)
  | cwin (o : FC)
  | cadv (o : FC)
  | cadvEnd (o : FC)
  | town (o : FC)
  | ttake (o : FC)
  | tstate (o : FC)
  | tstateClaim (o : FC)
  | tstateRelease (o : FC)
  | tidld (o : FC)
  | tidrd (o : FC)
  | tidinv (o : FC)
  | binit (o : FC)
  | barv (o : FC)
  | bexp (o : FC)
  | bwatch (o : FC)
  | bwatchOff (o : FC)
  | cred (o : FC)
  | cbcst (o : FC)
  | cpref (o : FC)
  | cflush (o : FC)
  | cinv (o : FC)
  | cmig (o : FC)
  | gload (o : FC)
  | gloadFree (o : FC)
  | glaunch (o : FC)
  -- Q slot (R93)
  | qlen (o : FQR)
  | qseedLfsr (o : FQS)
  | qseedRamp (o : FQS)
  | qgen (o : FQV)
  | qregen (o : FQR)
  | qmul (o : FQR)
  | qmin (o : FQR)
  | qmax (o : FQR)
  | qabsd (o : FQR)
  | qnot (o : FQR)
  | qmuxa (o : FQR)
  | qcnt (o : FQV)
  | qcmp (o : FQP)
  | qmov (o : FQR)
  | qclr (o : FQR)
  -- steps of the device: landing, completion, translation
  | exposedResultLand
  | trackedAccessComplete (k : Nat)
  | walkComplete (k : Nat)
  | fltretry
  | tlbiVa (va : Word)
  | tlbiAsid
  | tlbiAsidGlobal
  | tlbiAll
  -- coherence (R23 to R38)
  | rds (req : BitVec 8) (line : Nat)
  | rdx (req : BitVec 8) (line : Nat)
  | wbd (req : BitVec 8) (line : Nat) (dirty : BitVec 4) (data : BitVec 2048)
  | waitingRequestResolve (line : Nat)
  | fwds (req : BitVec 8) (line : Nat)
  | fwdx (req : BitVec 8) (line : Nat)
  | inv (req : BitVec 8) (line : Nat)
  | rcl (req : BitVec 8) (line : Nat)
  | snoopAnswer (sender : Party) (line : Nat) (ans : SnoopAns) (data : LineData)
  | completion (line : Nat) (grant : LineSt) (data : Supply)
  | coherenceTimeout (what : Silence)
  | memrd (pa : Nat) (excl : Bool)
  | memwr (pa : Nat) (enable : BitVec 64) (data : BitVec 512) (keeps : Bool)
  | hostSnoop (pa : Nat) (kind : SnoopKind)
  | hostCacheGrant (pa : Nat) (grant : LineSt) (data : BitVec 512)
  -- copy engines, tensor records, queues
  | copySector (ch : Chan)
  | channelOpComplete (ch : Chan)
  | ringFillComplete (ch : Chan)
  | collectiveStart (g : BitVec 8)
  | tidldFill (slot : BitVec 6)
  | queuePacketServe (q : BitVec 6)
  | queueTableWrite (q : BitVec 6) (hi : Bool) (v : Word)
  -- ends of waits
  | barrierWaitEnd
  | fenceComplete
  | bargEpisodeComplete
  | waittComplete
  -- M-slot completions, clusters, shelves
  | mloadComplete (k : Nat)
  | mdotComplete (k : Nat)
  | mcollComplete (k : Nat)
  | outlierListComplete (k : Nat)
  | clusterWakeComplete (c : BitVec 3)
  | scrubTick
  | parityRefetchComplete
  | segmentWakeComplete (seg : BitVec 3)
  | canaryMeasure (region : BitVec 3) (drift : BitVec 8)
  | temperatureSwing (temp : Int)
  | busRetest
  | busRepair (failing : Nat)
  | remapWrite (core : BitVec 10) (n : BitVec 4) (v : Word)
  -- kiln and pool
  | kilnRefill
  | nodeDispatch (kind : CoreKind)
  | positionBind (kind : CoreKind)
  | priorityAging (slot : BitVec 12)
  | watchdogExpiry
  | sequencerLaunch
  | hcmdLoad (pa : Word)
  | hcmdLaunch (h : BitVec 16) (bucket : Option (BitVec 6))
  | hcmdFree (h : BitVec 16)
  | preempt (slot : BitVec 12)
  | positionSave
  -- debugging
  | singleStep
  | debugHaltRequest (core : BitVec 10)
  | debugHalt
  | debugResume (core : BitVec 10)
  -- bring-up
  | powerGood
  | firmwareVerify
  | hostLinkTrain (shape : HostLink)
  | configurationChoice
  | l2PoolInit
  | gcoreBringup
  | acoreGroupBringup (g : BitVec 5)
  | shelfBringup (test : ShelfTest)
  | hbmStackBringup (k : BitVec 4)
  | portTrain (p : BitVec 4) (pass : BitVec 16)
  | recoveryMailboxImage (image : List Byte)
  | measExtend (index : Word)
  | attestationRequest
  | attestationComplete
  -- catalogue and links
  | retireAcoreSite (site : Nat)
  | retireGcoreSite (site : Nat)
  | retireSpare (site : Nat) (shelf : BitVec 3) (spare : Bool)
  | retireChannel (k : Nat)
  | retireLane (port : Nat) (lane : Nat)
  | flitCrcFail (p : BitVec 4)
  | portRetrain (p : BitVec 4) (good : BitVec 16)
  -- registers and the remaining completions
  | registerWrite (off : BitVec 28) (v : Word)
  | trackedMSlotOperationComplete (k : Nat)
  | graphLoadComplete (k : Nat)
  | tlbInvalidationComplete
  | csrWriteLands (k : Nat)
  | barrierUpdatePerformed (k : Nat)
  | catalogueRecordComplete
  | measurementExtensionComplete
  deriving DecidableEq, Repr

end Sys2Proof
end

