-- ==== Sys2Proof/Decode.lean ====
section
/-! DEFINITION. Decoding a bundle (R66 to R86), the opcode maps (R88 to R93), the static field faults
(R87 and the entries of the instructions), and the encoder. -/

namespace Sys2Proof

/-! ### Codes of the small fields -/

/-- The TYPE codes of R79; code 0xF is reserved. -/
def ETy.ofCode (c : BitVec 4) : Option ETy :=
  match c.toNat with
  | 0 => some .i4 | 1 => some .i8 | 2 => some .i16 | 3 => some .i32
  | 4 => some .n4 | 5 => some .n8 | 6 => some .n16 | 7 => some .n32
  | 8 => some .e4m3 | 9 => some .e5m2 | 10 => some .bf16 | 11 => some .f16
  | 12 => some .f32 | 13 => some .mxi8 | 14 => some .mxf4 | _ => none

def ETy.code : ETy → BitVec 4
  | .i4 => 0 | .i8 => 1 | .i16 => 2 | .i32 => 3 | .n4 => 4 | .n8 => 5 | .n16 => 6 | .n32 => 7
  | .e4m3 => 8 | .e5m2 => 9 | .bf16 => 10 | .f16 => 11 | .f32 => 12 | .mxi8 => 13 | .mxf4 => 14

/-- The class INT of R238: codes 0x0 to 0x7. -/
def ETy.isInt : ETy → Bool
  | .i4 | .i8 | .i16 | .i32 | .n4 | .n8 | .n16 | .n32 => true
  | _ => false

/-- The i-types, read as signed. -/
def ETy.isSigned : ETy → Bool
  | .i4 | .i8 | .i16 | .i32 => true
  | _ => false

/-- The class FLT of R238: codes 0x8 to 0xC. -/
def ETy.isFlt : ETy → Bool
  | .e4m3 | .e5m2 | .bf16 | .f16 | .f32 => true
  | _ => false

/-- The two FP8 formats. -/
def ETy.isFp8 : ETy → Bool
  | .e4m3 | .e5m2 => true
  | _ => false

/-- The element width of a type in bits (R146). -/
def ETy.bits : ETy → Nat
  | .i4 | .n4 | .mxf4 => 4
  | .i8 | .n8 | .e4m3 | .e5m2 | .mxi8 => 8
  | .i16 | .n16 | .bf16 | .f16 => 16
  | .i32 | .n32 | .f32 => 32

/-- The ORD codes (R82). -/
def Ord.ofCode (c : BitVec 2) : Ord :=
  match c.toNat with
  | 0 => .relaxed | 1 => .acq | 2 => .rel | _ => .acqRel

def Ord.code : Ord → BitVec 2
  | .relaxed => 0 | .acq => 1 | .rel => 2 | .acqRel => 3

/-- The SCOPE codes of R328; codes 5 to 7 are reserved (R82). -/
def Scope.ofCode (c : BitVec 3) : Option Scope :=
  match c.toNat with
  | 0 => some .core | 1 => some .node | 2 => some .chip | 3 => some .domain | 4 => some .system
  | _ => none

def Scope.code : Scope → BitVec 3
  | .core => 0 | .node => 1 | .chip => 2 | .domain => 3 | .system => 4

def FenceOrder.ofCode (c : BitVec 2) : FenceOrder :=
  match c.toNat with
  | 0 => .acq | 1 => .rel | 2 => .acqRel | _ => .sc

def FenceOrder.code : FenceOrder → BitVec 2
  | .acq => 0 | .rel => 1 | .acqRel => 2 | .sc => 3

/-- The presence-bit number of a slot (R66). -/
def Slot.num : Slot → Nat
  | .b => 0 | .s => 1 | .va => 2 | .vb => 3 | .m => 4 | .ca => 5 | .cb => 6 | .q => 7

/-- The width of a slot in bytes (R66). -/
def Slot.bytes : Slot → Nat
  | .b | .q => 4
  | _ => 8

def VSlot.slot : VSlot → Slot
  | .va => .va
  | .vb => .vb

def Chan.slot : Chan → Slot
  | .a => .ca
  | .b => .cb

def Chan.num : Chan → Nat
  | .a => 0
  | .b => 1

/-! ### Spans in a word (R78) -/

/-- The width of a scalar span in slices. -/
def SSpan.w (s : SSpan) : Nat := s.w1.toNat + 1

/-- The width of a vector span in planes. -/
def VSpan.w (s : VSpan) : Nat := s.w1.toNat + 1

def SSpan.isZero (s : SSpan) : Bool := s.start == 0 && s.w1 == 0
def VSpan.isZero (s : VSpan) : Bool := s.start == 0 && s.w1 == 0

/-- The scalar span in bits lo + 12 : lo. -/
def sspanAt {n : Nat} (w : BitVec n) (lo : Nat) : SSpan :=
  ⟨w.extractLsb' (lo + 4) 9, w.extractLsb' lo 4⟩

/-- The vector span in bits lo + 14 : lo. -/
def vspanAt {n : Nat} (w : BitVec n) (lo : Nat) : VSpan :=
  ⟨w.extractLsb' (lo + 3) 12, w.extractLsb' lo 3⟩

def SSpan.enc (s : SSpan) : BitVec 13 := s.start ++ s.w1
def VSpan.enc (s : VSpan) : BitVec 15 := s.start ++ s.w1

/-- The bits hi .. lo of a word are zero. -/
def zeroBits {n : Nat} (w : BitVec n) (lo len : Nat) : Bool := w.extractLsb' lo len == 0

/-- What the opcode map and the format give for a slot word: nothing where the OP or the TYPE is not
listed (0x03); else the instruction, and whether every field that the format reserves is as it must be
(0x04). A reserved code in a field that must be zero is read as 0 there. -/
abbrev Dec := Option (Instr × Bool)

def acc (i : Instr) : Dec := some (i, true)
def accIf (c : Bool) (i : Instr) : Dec := some (i, c)
def listed (c : Bool) (r : Dec) : Dec := if c then r else none

/-- The decoded word with one more test on its reserved fields. -/
def alsoIf (c : Bool) (r : Dec) : Dec := r.map fun p => (p.1, p.2 && c)

/-! ### B slot (R81, R88) -/

def decodeB (w : BitVec 32) (x : Option Word) : Dec :=
  let fbj : FBJ := ⟨w.extractLsb' 6 26, x⟩
  let fbc : FBC := ⟨w.extractLsb' 13 19, w.getLsbD 12, w.extractLsb' 6 6, x⟩
  let fbz : FBZ := ⟨w.extractLsb' 19 13, sspanAt w 6⟩
  let fbr : FBR := ⟨w.extractLsb' 19 13, sspanAt w 6⟩
  let sa0 := zeroBits w 6 13
  let imm0 := zeroBits w 19 13
  match (w.extractLsb' 0 6).toNat with
  | 0x01 => acc (.br fbc)
  | 0x02 => acc (.brz fbz)
  | 0x03 => acc (.brnz fbz)
  | 0x04 => acc (.jmp fbj)
  | 0x05 => acc (.jmpi fbr)
  | 0x06 => acc (.call fbj)
  | 0x07 => acc (.calli fbr)
  | 0x08 => accIf imm0 (.ret (sspanAt w 6))
  | 0x09 => accIf (zeroBits w 6 7) (.cloop (w.extractLsb' 13 19))
  | 0x0A => accIf (sa0 && zeroBits w 24 8) (.waitt (w.extractLsb' 19 5))
  | 0x0B => accIf (zeroBits w 27 5) (.waita (w.extractLsb' 19 8) (sspanAt w 6))
  | 0x0C => accIf (sa0 && zeroBits w 27 5) (.barg (w.extractLsb' 19 8))
  | 0x0D =>
    if w.getLsbD 27 then accIf (sa0 && zeroBits w 19 8 && zeroBits w 28 4) .trigNode
    else accIf (sa0 && zeroBits w 28 4) (.trig (w.extractLsb' 19 8))
  | 0x0E => accIf (sa0 && imm0) .exit
  | 0x0F =>
    let sc := Scope.ofCode (w.extractLsb' 21 3)
    accIf (sa0 && zeroBits w 24 8 && sc.isSome)
      (.fence (FenceOrder.ofCode (w.extractLsb' 19 2)) (sc.getD .core))
  | 0x10 => accIf sa0 (.trap (w.extractLsb' 19 13))
  | 0x11 => accIf (sa0 && imm0) .tret
  | 0x12 => accIf sa0 (.bkpt (w.extractLsb' 19 13))
  | 0x13 => accIf (sa0 && zeroBits w 24 8) (.rfcl (w.extractLsb' 19 5))
  | 0x14 => accIf (sa0 && zeroBits w 24 8) (.lend (w.extractLsb' 22 2) (w.extractLsb' 19 3))
  | _ => none

/-! ### S slot (R82, R89) -/

def decodeS (w : Word) (x : Option (BitVec 32)) : Dec :=
  let fn : BitVec 4 := w.extractLsb' 10 4
  let d := w.getLsbD 9
  let sr : FSR := ⟨sspanAt w 40, sspanAt w 27, sspanAt w 14, fn, d⟩
  let si : FSI := ⟨w.extractLsb' 40 24, sspanAt w 27, sspanAt w 14, fn, d, x⟩
  let sc : FSC := ⟨w.extractLsb' 40 12, sspanAt w 27, sspanAt w 14, d⟩
  let r (i : Instr) : Dec := accIf (zeroBits w 53 11) i
  let m (f : FSM → Instr) : Dec :=
    let s := Scope.ofCode (w.extractLsb' 42 3)
    accIf s.isSome (f ⟨w.extractLsb' 48 16, w.extractLsb' 45 3, s.getD .core,
      Ord.ofCode (w.extractLsb' 40 2), sspanAt w 27, sspanAt w 14, fn, d, x⟩)
  let a (f : FSA → Instr) : Dec :=
    let s := Scope.ofCode (w.extractLsb' 55 3)
    accIf (zeroBits w 61 3 && !d && s.isSome) (f ⟨w.extractLsb' 58 3, s.getD .core,
      Ord.ofCode (w.extractLsb' 53 2), sspanAt w 40, sspanAt w 27, sspanAt w 14, fn⟩)
  let c (i : Instr) : Dec :=
    listed (fn == 0) (accIf (zeroBits w 52 12) i)
  match (w.extractLsb' 0 9).toNat with
  | 0x001 => r (.add sr)
  | 0x002 => r (.sub sr)
  | 0x003 => acc (.addi si)
  | 0x004 => r (.mul sr)
  | 0x005 => r (.mulh sr)
  | 0x006 => r (.mulhn sr)
  | 0x007 => r (.div sr)
  | 0x008 => r (.divn sr)
  | 0x009 => r (.rem sr)
  | 0x00A => r (.remn sr)
  | 0x010 => r (.and sr)
  | 0x011 => r (.or sr)
  | 0x012 => r (.xor sr)
  | 0x013 => r (.andn sr)
  | 0x014 => r (.shl sr)
  | 0x015 => r (.shr sr)
  | 0x016 => r (.sra sr)
  | 0x017 => r (.rotl sr)
  | 0x018 => r (.clz sr)
  | 0x019 => r (.ctz sr)
  | 0x01A => r (.popc sr)
  | 0x020 => r (.min sr)
  | 0x021 => r (.max sr)
  | 0x022 => r (.minn sr)
  | 0x023 => r (.maxn sr)
  | 0x024 => listed (fn.toNat ≤ 6) (accIf (!d && zeroBits w 20 7 && zeroBits w 53 11) (.cmp ⟨sspanAt w 40, sspanAt w 27, w.extractLsb' 14 6, fn⟩))
  | 0x025 => listed (fn == 0) (accIf (zeroBits w 59 5) (.sel ⟨w.extractLsb' 53 6, sspanAt w 40, sspanAt w 27, sspanAt w 14, d⟩))
  | 0x030 => listed (fn == 0) (accIf (zeroBits w 27 5) (.li ⟨w.extractLsb' 32 32, sspanAt w 14, d, x⟩))
  | 0x031 => r (.movs sr)
  | 0x032 => acc (.exts si)
  | 0x033 => acc (.inss si)
  | 0x034 => acc (.lea si)
  | 0x040 => m .ld
  | 0x041 => m .st
  | 0x042 => m .ldg
  | 0x043 => m .stg
  | 0x044 => a .amo
  | 0x045 => a .cas
  | 0x050 => c (.csrr sc)
  | 0x051 => c (.csrw sc)
  | 0x052 => c (.csrs sc)
  | 0x053 => c (.csrc sc)
  | 0x054 => c (.engw sc)
  | 0x055 => c (.engr sc)
  | 0x056 => r (.hchk sr)
  | _ => none

/-! ### Vector slots (R83, R90) -/

def decodeV (sl : VSlot) (w : Word) (x : Option Word) : Dec :=
  let d := w.getLsbD 9
  -- `unused`: the entry marks TYPE unused, so the reserved code is a field that must be zero
  let withTy (unused : Bool) (f : ETy → Dec) : Dec :=
    match ETy.ofCode (w.extractLsb' 10 4) with
    | some t => f t
    | none => if unused then alsoIf false (f .i4) else none
  let vr (f : FVR → Instr) : Dec := withTy false fun t =>
    acc (f ⟨sl, w.extractLsb' 59 5, vspanAt w 44, vspanAt w 29, vspanAt w 14, t, d⟩)
  let vu (ty2Used : Bool) (f : FVU → Instr) : Dec := withTy false fun t =>
    let t2 := ETy.ofCode (w.extractLsb' 44 4)
    listed (!ty2Used || t2.isSome) (accIf (zeroBits w 62 2 && t2.isSome) (f ⟨sl, w.extractLsb' 56 6,
      w.getLsbD 55, w.extractLsb' 51 4, w.extractLsb' 48 3, t2.getD .i4, vspanAt w 29, vspanAt w 14,
      t, d⟩))
  let vc (f : FVC → Instr) : Dec := withTy false fun t =>
    accIf (zeroBits w 20 6) (f ⟨sl, w.extractLsb' 59 5, vspanAt w 44, vspanAt w 29,
      w.extractLsb' 26 3, w.extractLsb' 14 6, t, d⟩)
  let vi (f : FVI → Instr) : Dec := withTy false fun t =>
    acc (f ⟨sl, w.extractLsb' 44 20, vspanAt w 29, vspanAt w 14, t, d, x⟩)
  let vm (f : FVM → Instr) : Dec := withTy false fun t =>
    acc (f ⟨sl, w.extractLsb' 48 16, w.extractLsb' 42 6, sspanAt w 29, vspanAt w 14, t, d⟩)
  let vg (f : FVG → Instr) : Dec := withTy true fun t =>
    accIf (zeroBits w 63 1) (f ⟨sl, vspanAt w 48, w.extractLsb' 42 6, sspanAt w 29, vspanAt w 14, t, d⟩)
  let vp (f : FVP → Instr) : Dec := withTy false fun t =>
    accIf (zeroBits w 45 19) (f ⟨sl, sspanAt w 32, w.extractLsb' 26 6,
      w.extractLsb' 20 6, w.extractLsb' 14 6, t, d⟩)
  match (w.extractLsb' 0 9).toNat with
  | 0x001 => vr .vadd
  | 0x002 => vr .vsub
  | 0x003 => vr .vmul
  | 0x004 => vr .vmulh
  | 0x005 => vr .vmad
  | 0x006 => vr .vmin
  | 0x007 => vr .vmax
  | 0x008 => vr .vabs
  | 0x009 => vr .vneg
  | 0x00A => vr .vand
  | 0x00B => vr .vor
  | 0x00C => vr .vxor
  | 0x00D => vr .vandn
  | 0x00E => vr .vshl
  | 0x00F => vr .vshr
  | 0x010 => vr .vsra
  | 0x011 => vr .vpopc
  | 0x012 => vr .vclz
  | 0x013 => vr .vadds
  | 0x014 => vr .vsubs
  | 0x018 => vi .vshlImm
  | 0x019 => vi .vshrImm
  | 0x01A => vi .vsraImm
  | 0x040 => vr .vfadd
  | 0x041 => vr .vfsub
  | 0x042 => vr .vfmul
  | 0x043 => vr .vfma
  | 0x044 => vr .vfms
  | 0x045 => vr .vfmin
  | 0x046 => vr .vfmax
  | 0x047 => vr .vfabs
  | 0x048 => vr .vfneg
  | 0x060 => vc .vcmp
  | 0x061 => vc .vfcmp
  | 0x062 => vr .vsel
  | 0x063 => vu false .vclass
  | 0x080 => vu true .vcvt
  | 0x081 => vu true .vwiden
  | 0x082 => vu true .vnarrow
  | 0x083 => vu true .vmxq
  | 0x084 => vu true .vmxd
  | 0x0A0 => vu false .vrsum
  | 0x0A1 => vu true .vrfsum
  | 0x0A2 => vu false .vrmax
  | 0x0A3 => vu false .vrmin
  | 0x0C0 => vr .vperm
  | 0x0C1 => vi .vslide
  | 0x0C2 => vi .vbcast
  | 0x0C3 => vi .vextr
  | 0x0C4 => vi .vins
  | 0x0C5 => vr .vzip
  | 0x0C6 => vr .vunzip
  | 0x0C7 => withTy false fun t => accIf (zeroBits w 53 11) (.vcxs ⟨sl, w.getLsbD 52, w.extractLsb' 48 4, w.extractLsb' 44 4, vspanAt w 29,
        vspanAt w 14, t, d⟩)
  | 0x0E0 => vu false .vexp2
  | 0x0E1 => vu false .vlog2
  | 0x0E2 => vu false .vrcp
  | 0x0E3 => vu false .vrsqrt
  | 0x0E4 => vu false .vsqrt
  | 0x0E5 => vu false .vtanh
  | 0x0E6 => vu false .vsigm
  | 0x0E7 => vu false .vsinp
  | 0x0E8 => vu false .vcosp
  | 0x100 => vp .pand
  | 0x101 => vp .por
  | 0x102 => vp .pxor
  | 0x103 => vp .pnot
  | 0x104 => vp .pcnt
  | 0x105 => vp .pfirst
  | 0x120 => vm .vld
  | 0x121 => vm .vst
  | 0x122 => vg .vldx
  | 0x123 => vg .vstx
  | 0x124 => withTy false fun t => accIf (zeroBits w 61 3) (.vlds ⟨sl, sspanAt w 48, w.extractLsb' 42 6, sspanAt w 29, vspanAt w 14, t, d⟩)
  | 0x140 => vu false .vmov
  | 0x141 => vi .vli
  | 0x142 => withTy true fun t =>
    acc (.vchk ⟨sl, w.extractLsb' 59 5, vspanAt w 44, vspanAt w 29, vspanAt w 14, t, d⟩)
  | 0x143 => vu false .viota
  | _ => none

/-! ### M slot (R84, R91) -/

def decodeM (w : Word) (x : Option (BitVec 32)) : Dec :=
  let fn : BitVec 4 := w.extractLsb' 9 4
  let withTy (unused : Bool) (f : ETy → Dec) : Dec :=
    match ETy.ofCode fn with
    | some t => f t
    | none => if unused then alsoIf false (f .i4) else none
  let ma (unused : Bool) (f : FMA → Instr) : Dec := withTy unused fun t =>
    accIf (zeroBits w 37 27) (f ⟨w.extractLsb' 32 5, w.extractLsb' 27 5, w.extractLsb' 25 2,
      w.getLsbD 24, w.extractLsb' 16 8, w.extractLsb' 13 3, t⟩)
  let mv (f : FMV → Instr) : Dec := withTy false fun t =>
    accIf (zeroBits w 57 7) (f ⟨w.getLsbD 56, w.extractLsb' 52 4, w.extractLsb' 49 3,
      sspanAt w 36, vspanAt w 21, w.extractLsb' 16 5, w.extractLsb' 13 3, t⟩)
  let ms (unused : Bool) (f : FMS → Instr) : Dec := withTy unused fun t =>
    accIf (zeroBits w 47 17) (f ⟨w.extractLsb' 39 8, w.extractLsb' 37 2, w.getLsbD 36,
      w.extractLsb' 28 8, vspanAt w 13, t⟩)
  let mc : FMC := ⟨w.extractLsb' 39 25, sspanAt w 26, w.extractLsb' 21 5, w.extractLsb' 13 8, fn, x⟩
  match (w.extractLsb' 0 9).toNat with
  | 0x001 => acc (.mmode mc)
  | 0x002 => withTy false fun t => accIf (zeroBits w 43 21 && zeroBits w 13 3) (.mload ⟨w.extractLsb' 40 3, sspanAt w 27, w.extractLsb' 25 2, w.getLsbD 24,
        w.extractLsb' 16 8, t⟩)
  | 0x003 => if fn.toNat = 2 then acc (.mpageClr mc) else acc (.mpageRd mc)
  | 0x004 => mv .mlatch
  | 0x005 => ma true .mdot
  | 0x006 => ma false .mcoll
  | 0x007 => mv .mchain
  | 0x008 => mv .moutl
  | 0x009 => acc (.macz mc)
  | 0x00A => mv .macrd
  | 0x00B => mv .macwr
  | 0x00C => ms true .mread
  | 0x00D => ms true .mwrite
  | 0x00E => ms false .mrmw
  | 0x00F => if fn.toNat = 1 then acc (.mmaskClr mc) else acc (.mmask mc)
  | 0x010 => if fn.toNat = 1 then acc (.mwideOff mc) else acc (.mwideOn mc)
  | 0x011 => acc (.mrange mc)
  | 0x012 => acc (.lwake mc)
  | 0x013 => acc (.lsleep mc)
  | 0x014 => acc (.mscrub mc)
  | _ => none

/-! ### Copy slots (R85, R92) -/

def decodeC (ch : Chan) (w : Word) (x : Option Word) : Dec :=
  let fn : BitVec 4 := w.extractLsb' 9 4
  let c (f : FC → Instr) : Dec :=
    let s := Scope.ofCode (w.extractLsb' 54 3)
    accIf (zeroBits w 60 4 && s.isSome) (f ⟨ch, w.extractLsb' 57 3, s.getD .core,
      Ord.ofCode (w.extractLsb' 52 2), sspanAt w 39, sspanAt w 26, sspanAt w 13, fn, x⟩)
  match (w.extractLsb' 0 9).toNat with
  | 0x001 => c .cpy
  | 0x002 => if fn.toNat = 1 then c .cgoClr else c .cgo
  | 0x003 => c .cwin
  | 0x004 => if fn.toNat = 1 then c .cadvEnd else c .cadv
  | 0x005 => c .town
  | 0x006 => c .ttake
  | 0x007 => if fn.toNat = 1 then c .tstateClaim else if fn.toNat = 2 then c .tstateRelease
    else c .tstate
  | 0x008 => c .tidld
  | 0x009 => c .tidrd
  | 0x00A => c .tidinv
  | 0x00B => c .binit
  | 0x00C => c .barv
  | 0x00D => c .bexp
  | 0x00E => if fn.getLsbD 3 then c .bwatchOff else c .bwatch
  | 0x00F => c .cred
  | 0x010 => c .cbcst
  | 0x011 => c .cpref
  | 0x012 => c .cflush
  | 0x013 => c .cinv
  | 0x014 => c .cmig
  | 0x018 => if fn.toNat = 1 then c .gloadFree else c .gload
  | 0x019 => c .glaunch
  | _ => none

/-! ### Q slot (R86, R93) -/

def decodeQ (w : BitVec 32) : Dec :=
  let qr (f : FQR → Instr) : Dec := accIf (zeroBits w 24 8) (f ⟨w.extractLsb' 22 2, w.extractLsb' 18 4, w.extractLsb' 15 3, w.extractLsb' 12 3,
      w.extractLsb' 9 3, w.extractLsb' 6 3⟩)
  let qv (f : FQV → Instr) : Dec := accIf (zeroBits w 28 4) (f ⟨w.extractLsb' 24 4, vspanAt w 9, w.extractLsb' 6 3⟩)
  let qs : FQS := ⟨w.extractLsb' 19 4, sspanAt w 6⟩
  match (w.extractLsb' 0 6).toNat with
  | 0x01 => qr .qlen
  | 0x02 => accIf (zeroBits w 24 8) (if w.getLsbD 23 then .qseedRamp qs else .qseedLfsr qs)
  | 0x03 => qv .qgen
  | 0x04 => qr .qregen
  | 0x05 => qr .qmul
  | 0x06 => qr .qmin
  | 0x07 => qr .qmax
  | 0x08 => qr .qabsd
  | 0x09 => qr .qnot
  | 0x0A => qr .qmuxa
  | 0x0B => qv .qcnt
  | 0x0C => accIf (zeroBits w 18 14) (.qcmp ⟨w.extractLsb' 15 3, w.extractLsb' 12 3, w.extractLsb' 6 6⟩)
  | 0x0D => qr .qmov
  | 0x0E => qr .qclr
  | _ => none

/-! ### Static field faults (R87): values of TYPE, FN, COND and LEN that an entry does not list, and
operand fields that it marks unused -/

/-- The verdict of a static check: 0x03 where the combination is not listed, else 0x04 where a field
that must be zero is not, else none (R11: the lowest code). -/
def verdict (listed zero : Bool) : Option Nat :=
  if !listed then some 0x03 else if !zero then some 0x04 else none

/-- The immediate of format S.I, long or short, as a 64-bit value (R77, T = 56). -/
def FSI.long (o : FSI) : Word :=
  match o.x with
  | none => o.imm.signExtend 64
  | some x => (x ++ o.imm).signExtend 64

/-- The immediate of format S.L (R77, R187). -/
def FSL.long (o : FSL) : Word :=
  match o.x with
  | none => o.imm.signExtend 64
  | some x => x ++ o.imm

/-- The offset of format S.M (R77, T = 48). -/
def FSM.long (o : FSM) : Word :=
  match o.x with
  | none => o.off.signExtend 64
  | some x => (x ++ o.off).signExtend 64

/-- The immediate of format M.C (R77, T = 57). -/
def FMC.long (o : FMC) : Word :=
  match o.x with
  | none => o.imm.signExtend 64
  | some x => (x ++ o.imm).signExtend 64

/-- The immediate of format M.C without its sign: the bits an entry tests for zero (R288). -/
def FMC.raw (o : FMC) : Word :=
  match o.x with
  | none => o.imm.setWidth 64
  | some x => (x ++ o.imm).signExtend 64

/-- The immediate of format V.I, X in place of IMM20 (R77). -/
def FVI.long (o : FVI) : Word :=
  match o.x with
  | none => o.imm.signExtend 64
  | some x => x

/-- RM, CLS and NS of an instruction that rounds: RM is not 7, CLS only with RM = 5, NS only where
allowed (R79, R237, R288). -/
def roundOk (rm : BitVec 3) (cls : BitVec 4) (ns nsOk : Bool) : Bool :=
  rm != 7 && (cls == 0 || rm == 5) && (!ns || nsOk)

/-- RM, CLS and NS all unused. -/
def roundUnused (rm : BitVec 3) (cls : BitVec 4) (ns : Bool) : Bool := rm == 0 && cls == 0 && !ns

/-- A span in register view by its name (R160). -/
def VSpan.regView (s : VSpan) : Bool := s.w1 == 7 && s.start.toNat % 8 == 0

/-- The type pairs of VCVT (R246). -/
def cvtPair (dst src : ETy) : Bool :=
  match dst, src with
  | .f32, .i32 | .f32, .n32 | .i32, .f32 | .n32, .f32 => true
  | .bf16, .f16 | .f16, .bf16 => true
  | .bf16, .i16 | .bf16, .n16 | .f16, .i16 | .f16, .n16 => true
  | .i16, .bf16 | .n16, .bf16 | .i16, .f16 | .n16, .f16 => true
  | .e4m3, .e5m2 | .e5m2, .e4m3 => true
  | .e4m3, .i8 | .e4m3, .n8 | .e5m2, .i8 | .e5m2, .n8 => true
  | .i8, .e4m3 | .n8, .e4m3 | .i8, .e5m2 | .n8, .e5m2 => true
  | _, _ => false

/-- The type pairs of VWIDEN (R247). -/
def widenPair (dst src : ETy) : Bool :=
  match src, dst with
  | .i4, .i8 | .i4, .i16 | .n4, .n8 | .n4, .i8 | .n4, .n16 | .n4, .i16 => true
  | .i8, .i16 | .i8, .bf16 | .i8, .f16 | .i8, .i32 | .i8, .f32 => true
  | .n8, .n16 | .n8, .i16 | .n8, .bf16 | .n8, .f16 | .n8, .n32 | .n8, .i32 | .n8, .f32 => true
  | .i16, .i32 | .i16, .f32 | .n16, .n32 | .n16, .i32 | .n16, .f32 => true
  | .e4m3, .bf16 | .e4m3, .f16 | .e4m3, .f32 | .e5m2, .bf16 | .e5m2, .f16 | .e5m2, .f32 => true
  | .bf16, .f32 | .f16, .f32 => true
  | _, _ => false

/-- The type pairs of VNARROW (R248). -/
def narrowPair (dst src : ETy) : Bool :=
  match src, dst with
  | .i32, .i16 | .i32, .n16 | .i32, .i8 | .i32, .n8 => true
  | .n32, .i16 | .n32, .n16 | .n32, .i8 | .n32, .n8 => true
  | .i16, .i8 | .i16, .n8 | .i16, .i4 | .i16, .n4 => true
  | .n16, .i8 | .n16, .n8 | .n16, .i4 | .n16, .n4 => true
  | .i8, .i4 | .i8, .n4 | .n8, .i4 | .n8, .n4 => true
  | .f32, .bf16 | .f32, .f16 | .f32, .e4m3 | .f32, .e5m2 => true
  | .bf16, .e4m3 | .bf16, .e5m2 | .f16, .e4m3 | .f16, .e5m2 => true
  | _, _ => false

/-- The type pairs of VMXQ, destination first (R249). -/
def mxqPair (dst src : ETy) : Bool :=
  match dst, src with
  | .mxi8, .f32 | .mxi8, .bf16 | .mxi8, .f16 | .mxf4, .bf16 | .mxf4, .f16 => true
  | _, _ => false

/-- The destination types of MACRD and source types of MACWR (R301, R302). -/
def accType (t : ETy) : Bool :=
  match t with
  | .f32 | .bf16 | .f16 | .e4m3 | .e5m2 | .i32 | .i16 | .i8 => true
  | _ => false

def isMx (t : ETy) : Bool :=
  match t with
  | .mxi8 | .mxf4 => true
  | _ => false

def srFault (o : FSR) (fnMax : Nat) (oneSource : Bool) : Option Nat :=
  verdict (o.fn.toNat ≤ fnMax) (!oneSource || o.src2.isZero)

/-- Integer operations of format V.R (R239). -/
def vrIntFault (o : FVR) (types : ETy → Bool) (oneSource : Bool) : Option Nat :=
  verdict (types o.ty) (!oneSource || o.vb.isZero)

/-- The immediate shifts (R241). -/
def vshFault (o : FVI) : Option Nat :=
  verdict o.ty.isInt
    (match o.x with
     | none => zeroBits o.imm 6 14
     | some x => o.imm == 0 && zeroBits x 6 58)

/-- Permutes and VLI of format V.I: IMM20 zero under a template (R77). -/
def viFault (o : FVI) (vaUnused : Bool) : Option Nat :=
  verdict true ((o.x.isNone || o.imm == 0) && (!vaUnused || o.va.isZero))

/-- V.U entries that never round. -/
def vuPlain (o : FVU) (types : ETy → Bool) (vaUnused : Bool) : Option Nat :=
  verdict (types o.ty)
    (o.ty2 == .i4 && roundUnused o.rm o.cls o.ns && (!vaUnused || o.va.isZero))

/-- The special functions (R256). RNA is a conversion mode, refused where RM takes effect (R212); for f32
results RM is checked only by R79 and R237 (log 17). -/
def vspFault (o : FVU) : Option Nat :=
  verdict o.ty.isFlt (o.ty2 == .i4 && roundOk o.rm o.cls o.ns false && (o.ty == .f32 || o.rm != 4))

/-- The predicate operations PAND to PNOT (R257). -/
def pFault (o : FVP) (pbUnused : Bool) : Option Nat :=
  verdict (o.ty == .i4) (o.sd.isZero && (!pbUnused || o.pb == 0))

/-- Loads: ORD relaxed or acquire; stores: relaxed or release and no D (R82, R89, R192). -/
def loadOk (o : FSM) : Bool := o.ord == .relaxed || o.ord == .acq
def storeOk (o : FSM) : Bool := (o.ord == .relaxed || o.ord == .rel) && !o.d

def atomicWidthOk (o : FSA) : Bool := o.src.w1 == 7 || o.src.w1 == 15

/-- One copy-slot form (R85, R126, R154, R349): the FN values listed, and which fields are used. -/
def cFault (o : FC) (fnOk sa sb sc scope evict : Bool) : Option Nat :=
  verdict fnOk (o.ord == .relaxed && (sa || o.sa.isZero) && (sb || o.sb.isZero) &&
    (o.sc.isZero || (sc && o.x.isNone)) && (scope || o.scope == .core) && (evict || o.evict == 0))

/-- The bits an M.C entry requires to be zero, long value included (R288). -/
def immZeroFrom (o : FMC) (lo : Nat) : Bool := (o.raw >>> lo) == 0

/-- Q.R: which of LEN, CLS, QS, QB and QA are used (R319 to R325). -/
def qrFault (o : FQR) (len cls qs qb qa : Bool) : Option Nat :=
  verdict true ((len || o.len == 0) && (cls || o.cls == 0) && (qs || o.qs == 0) &&
    (qb || o.qb == 0) && (qa || o.qa == 0))

/-- The template-7 displacement rule (R77). -/
def dispOk (dispZero : Bool) (x : Option Word) : Bool :=
  match x with
  | none => true
  | some v => dispZero && zeroBits v 0 2

/-- The static field fault of an instruction: the cause 0x03 or 0x04 that its encoding earns, by R87 and
the instruction's own entry. The steps of the device have none. -/
def fieldFault : Instr → Option Nat
  | .br o => verdict true (dispOk (o.disp == 0) o.x)
  | .jmp o => verdict true (dispOk (o.disp == 0) o.x)
  | .call o => verdict true (dispOk (o.disp == 0) o.x)
  | .rfcl m => verdict true (m.getLsbD 0)
  | .lend _ c => verdict true (c.toNat ≤ 4)
  | .add o => srFault o 2 false
  | .sub o => srFault o 2 false
  | .mul o => srFault o 0 false
  | .mulh o => srFault o 0 false
  | .mulhn o => srFault o 0 false
  | .div o => srFault o 0 false
  | .divn o => srFault o 0 false
  | .rem o => srFault o 0 false
  | .remn o => srFault o 0 false
  | .and o => srFault o 0 false
  | .or o => srFault o 0 false
  | .xor o => srFault o 0 false
  | .andn o => srFault o 0 false
  | .shl o => srFault o 0 false
  | .shr o => srFault o 0 false
  | .sra o => srFault o 0 false
  | .rotl o => srFault o 0 false
  | .clz o => srFault o 0 true
  | .ctz o => srFault o 0 true
  | .popc o => srFault o 0 true
  | .min o => srFault o 0 false
  | .max o => srFault o 0 false
  | .minn o => srFault o 0 false
  | .maxn o => srFault o 0 false
  | .cmp o => verdict (o.fn.toNat ≤ 6) true
  | .addi o => verdict (o.fn == 0) true
  | .movs o => srFault o 1 true
  | .exts o => verdict (o.fn.toNat ≤ 1) ((o.long >>> 12) == 0 || (o.x.isNone && zeroBits o.imm 12 12))
  | .inss o => verdict (o.fn == 0) ((o.long >>> 12) == 0 || (o.x.isNone && zeroBits o.imm 12 12))
  | .lea o => verdict (o.fn.toNat ≤ 6) true
  | .ld o => verdict (o.fn == 0) (loadOk o)
  | .st o => verdict (o.fn == 0) (storeOk o)
  | .ldg o => verdict (!o.fn.getLsbD 3) (loadOk o)
  | .stg o => verdict (zeroBits o.fn 2 2) (storeOk o)
  | .amo o => verdict (o.fn.toNat ≤ 8) (atomicWidthOk o)
  | .cas o => verdict (o.fn == 0) (atomicWidthOk o)
  | .csrr o => verdict true o.src.isZero
  | .csrw o => verdict true (o.dst.isZero && !o.d)
  | .csrs o => verdict true (o.dst.isZero && !o.d)
  | .csrc o => verdict true (o.dst.isZero && !o.d)
  | .engw o => verdict true (o.dst.isZero && !o.d && zeroBits o.csr 6 6)
  | .engr o => verdict true (o.src.isZero && zeroBits o.csr 6 6)
  | .hchk o => srFault o 2 true
  | .vadd o => vrIntFault o ETy.isInt false
  | .vsub o => vrIntFault o ETy.isInt false
  | .vmul o => vrIntFault o ETy.isInt false
  | .vmulh o => vrIntFault o ETy.isInt false
  | .vmad o => vrIntFault o ETy.isInt false
  | .vmin o => vrIntFault o ETy.isInt false
  | .vmax o => vrIntFault o ETy.isInt false
  | .vabs o => vrIntFault o ETy.isSigned true
  | .vneg o => vrIntFault o ETy.isInt true
  | .vand o => vrIntFault o ETy.isInt false
  | .vor o => vrIntFault o ETy.isInt false
  | .vxor o => vrIntFault o ETy.isInt false
  | .vandn o => vrIntFault o ETy.isInt false
  | .vshl o => vrIntFault o ETy.isInt false
  | .vshr o => vrIntFault o ETy.isInt false
  | .vsra o => vrIntFault o ETy.isInt false
  | .vpopc o => vrIntFault o ETy.isInt true
  | .vclz o => vrIntFault o ETy.isInt true
  | .vadds o => vrIntFault o ETy.isInt false
  | .vsubs o => vrIntFault o ETy.isInt false
  | .vshlImm o => vshFault o
  | .vshrImm o => vshFault o
  | .vsraImm o => vshFault o
  | .vfadd o => vrIntFault o ETy.isFlt false
  | .vfsub o => vrIntFault o ETy.isFlt false
  | .vfmul o => vrIntFault o ETy.isFlt false
  | .vfma o => vrIntFault o ETy.isFlt false
  | .vfms o => vrIntFault o ETy.isFlt false
  | .vfmin o => vrIntFault o ETy.isFlt false
  | .vfmax o => vrIntFault o ETy.isFlt false
  | .vfabs o => vrIntFault o ETy.isFlt true
  | .vfneg o => vrIntFault o ETy.isFlt true
  | .vcmp o => verdict (o.ty.isInt && o.cond != 7) true
  | .vfcmp o => verdict o.ty.isFlt true
  | .vclass o => vuPlain o ETy.isFlt false
  | .vcvt o => verdict (cvtPair o.ty o.ty2) (roundOk o.rm o.cls o.ns o.ty.isFp8)
  | .vwiden o => verdict (widenPair o.ty o.ty2) (roundUnused o.rm o.cls o.ns)
  | .vnarrow o => verdict (narrowPair o.ty o.ty2) (roundOk o.rm o.cls o.ns (o.ty.isInt || o.ty.isFp8))
  | .vmxq o => verdict (mxqPair o.ty o.ty2) (roundOk o.rm o.cls o.ns false && o.pm == 0)
  | .vmxd o => verdict (mxqPair o.ty2 o.ty) (roundOk o.rm o.cls o.ns false)
  | .vrsum o => vuPlain o ETy.isInt false
  | .vrfsum o => verdict (o.ty.isFlt && (o.ty2 == .f32 || o.ty2 == o.ty))
      (roundOk o.rm o.cls o.ns false && o.rm != 4 && o.rm != 5)
  | .vrmax o => vuPlain o (fun t => t.isInt || t.isFlt) false
  | .vrmin o => vuPlain o (fun t => t.isInt || t.isFlt) false
  | .vslide o => viFault o false
  | .vbcast o => viFault o false
  | .vextr o => viFault o false
  | .vins o => viFault o false
  | .vcxs o => verdict (o.ty.isInt || o.ty.isFlt) true
  | .vexp2 o => vspFault o
  | .vlog2 o => vspFault o
  | .vrcp o => vspFault o
  | .vrsqrt o => vspFault o
  | .vsqrt o => vspFault o
  | .vtanh o => vspFault o
  | .vsigm o => vspFault o
  | .vsinp o => vspFault o
  | .vcosp o => vspFault o
  | .pand o => pFault o false
  | .por o => pFault o false
  | .pxor o => pFault o false
  | .pnot o => pFault o true
  | .pcnt o => verdict true (o.pd == 0)
  | .pfirst o => verdict true (o.pd == 0)
  | .vst o => verdict true (!o.d)
  | .vldx o => verdict true (o.ty == .i4)
  | .vstx o => verdict true (o.ty == .i4 && !o.d)
  | .vmov o => vuPlain o (fun _ => true) false
  | .vli o => viFault o true
  | .vchk o => verdict true (o.vd.isZero && o.pm == 0 && o.ty == .i4 && o.va.w1 == o.vb.w1)
  | .viota o => vuPlain o ETy.isInt true
  | .mmode o => verdict (o.fn.toNat ≤ 1) (immZeroFrom o 0 && o.sa.isZero)
  | .mpageRd o => verdict (o.fn.toNat ≤ 1) (immZeroFrom o 3 && o.ct == 0)
  | .mpageClr o => verdict (o.fn.toNat = 2) (immZeroFrom o 3 && o.ct == 0 && o.sa.isZero)
  | .mload o => verdict (isMx o.ty || o.ty == .n8) true
  | .mlatch o => verdict (isMx o.ty)
      (o.atile == 0 && roundUnused o.rm o.cls o.ns && o.vs.regView)
  | .mdot o => verdict true (o.ty == .i4 && o.atile == 0)
  | .mcoll o => verdict (isMx o.ty) (o.page == 0)
  | .mchain o => verdict (isMx o.ty) (roundOk o.rm o.cls o.ns false && o.vs.isZero)
  | .moutl o => verdict (o.ty == .bf16) (o.vs.isZero && o.latch == 0 && roundUnused o.rm o.cls o.ns)
  | .macz o => verdict (o.fn == 0) (immZeroFrom o 5 && o.sa.isZero && o.mac == 0)
  | .macrd o => verdict (accType o.ty && !(o.latch.getLsbD 0 && o.ty.isInt))
      (roundOk o.rm o.cls o.ns o.ty.isFp8 && zeroBits o.latch 1 2 && o.vs.regView)
  | .macwr o => verdict (accType o.ty)
      (roundOk o.rm o.cls o.ns false && (o.ty == .i32 || roundUnused o.rm o.cls o.ns) &&
        o.latch == 0 && o.vs.regView)
  | .mread o => verdict true (o.ty == .i4)
  | .mwrite o => verdict true (o.ty == .i4)
  | .mrmw o => verdict (o.ty == .i8 || o.ty == .i16 || o.ty == .i32) true
  | .mmask o => verdict (o.fn == 0) (o.mac == 0 && o.ct == 0 && immZeroFrom o 0)
  | .mmaskClr o => verdict (o.fn.toNat = 1) (o.mac == 0 && o.ct == 0 && immZeroFrom o 0 && o.sa.isZero)
  | .mwideOn o => verdict (o.fn == 0) (o.sa.isZero && o.mac == 0)
  | .mwideOff o => verdict (o.fn.toNat = 1) (o.sa.isZero && o.mac == 0 && immZeroFrom o 0)
  | .mrange o => verdict (o.fn.toNat ≤ 2) (o.ct == 0 && o.mac == 0 && immZeroFrom o 0)
  | .lwake o => verdict true
      (o.fn == 0 && o.ct == 0 && o.sa.isZero && o.mac == 0 && immZeroFrom o 8)
  | .lsleep o => verdict true
      (o.fn == 0 && o.ct == 0 && o.sa.isZero && o.mac == 0 && immZeroFrom o 8)
  | .mscrub o => verdict true (o.fn == 0 && o.ct == 0 && o.sa.isZero && immZeroFrom o 3)
  | .cpy o => cFault o (o.fn.toNat ≤ 2) true true true true true
  | .cgo o => cFault o (o.fn == 0) false false false false false
  | .cgoClr o => cFault o (o.fn.toNat = 1) false false false false false
  | .cwin o => cFault o (o.fn == 0) true true true true true
  | .cadv o => cFault o (o.fn == 0) true false false false false
  | .cadvEnd o => cFault o (o.fn.toNat = 1) false false false false false
  | .town o => cFault o (1 ≤ o.fn.toNat && o.fn.toNat ≤ 3) true false false true false
  | .ttake o => cFault o (o.fn == 0) true false false true false
  | .tstate o => cFault o (o.fn == 0) true true false false false
  | .tstateClaim o => cFault o (o.fn.toNat = 1) true true false false false
  | .tstateRelease o => cFault o (o.fn.toNat = 2) true true false false false
  | .tidld o => cFault o (o.fn == 0) true true true true true
  | .tidrd o => cFault o (o.fn.toNat ≤ 1) true true (o.fn == 0) false false
  | .tidinv o => cFault o (o.fn.toNat ≤ 1) true false false false false
  | .binit o => cFault o (o.fn == 0) true true false true false
  | .barv o => cFault o (o.fn == 0) true true true false false
  | .bexp o => cFault o (o.fn == 0) true true false false false
  | .bwatch o => cFault o (!o.fn.getLsbD 3) true true false false false
  | .bwatchOff o => cFault o (o.fn.getLsbD 3) true true false false false
  | .cred o => cFault o (o.fn.extractLsb' 0 2 != 3) true true true true true
  | .cbcst o => cFault o (o.fn == 0) true true true true true
  | .cpref o => cFault o (o.fn.toNat ≤ 1) true true false true true
  | .cflush o => cFault o (o.fn == 0) true true false true false
  | .cinv o => cFault o (o.fn == 0) true true false false false
  | .cmig o => cFault o (o.fn == 0) true true true true true
  | .gload o => cFault o (o.fn == 0) true true false false true
  | .gloadFree o => cFault o (o.fn.toNat = 1) true false false false false
  | .glaunch o => cFault o (o.fn.toNat ≤ 1) true (o.fn.toNat = 1) false false false
  | .qlen o => qrFault o true false false false true
  | .qregen o => qrFault o true true false false true
  | .qmul o => qrFault o false false false true true
  | .qmin o => qrFault o false false false true true
  | .qmax o => qrFault o false false false true true
  | .qabsd o => qrFault o false false false true true
  | .qnot o => qrFault o false false false false true
  | .qmuxa o => qrFault o false false true true true
  | .qcnt o => verdict true (o.cls == 0)
  | .qmov o => qrFault o false false false false true
  | .qclr o => qrFault o true false false false false
  | _ => none

/-! ### Bundles (R66 to R77) -/

/-- The number whose little-endian bytes are given (R4). -/
def leNat : List Byte → Nat
  | [] => 0
  | b :: bs => b.toNat + 256 * leNat bs

/-- The n little-endian bytes of a number (R4). -/
def leBytes : Nat → Nat → List Byte
  | 0, _ => []
  | n + 1, v => BitVec.ofNat 8 v :: leBytes n (v / 256)

/-- The slots in the order of R66. -/
def slotOrder : List Slot := [.b, .s, .va, .vb, .m, .ca, .cb, .q]

abbrev Header := BitVec 32

def Header.pres (h : Header) (s : Slot) : Bool := h.getLsbD s.num
def Header.tmpl (h : Header) : Nat := (h.extractLsb' 8 4).toNat
def Header.stall (h : Header) : Nat := (h.extractLsb' 12 4).toNat
def Header.join (h : Header) : Bool := h.getLsbD 16
def Header.presBits (h : Header) : BitVec 8 := h.extractLsb' 0 8

/-- The filler of R70: FILL set and every other field zero. -/
def Header.isFiller (h : Header) : Bool := h == 0x00020000

/-- The slots present, in memory order. -/
def Header.slots (h : Header) : List Slot := slotOrder.filter (fun s => h.pres s)

/-- The size of the bundle in bytes (R66). -/
def Header.size (h : Header) : Nat := (h.slots.map Slot.bytes).foldl (· + ·) 4

/-- The slot pair of a template, surrendering slot first (R76). -/
def tmplPair : Nat → Option (Slot × Slot)
  | 1 => some (.b, .s)
  | 2 => some (.vb, .va)
  | 3 => some (.va, .vb)
  | 4 => some (.m, .vb)
  | 5 => some (.cb, .ca)
  | 6 => some (.q, .m)
  | 7 => some (.s, .b)
  | _ => none

/-- The faults of a header alone: R68, R70 (0x01), R69 and the slot-free tests of R76 (0x02). -/
def headerFault (kind : CoreKind) (h : Header) : Option Nat :=
  if !zeroBits h 18 14 || decide (8 ≤ h.tmpl) || (h.getLsbD 17 && !h.isFiller) then some 0x01
  else match tmplPair h.tmpl with
    | none => none
    | some (give, take) =>
      if !h.pres give || !h.pres take || (kind == .g && h.tmpl == 4) then some 0x02 else none

/-- Whether the OP of a slot word is assigned (R88 to R93), and then whether its format receives an
extension word (R76). -/
def opReceives (s : Slot) (w : Word) : Option Bool :=
  let op6 := (w.extractLsb' 0 6).toNat
  let op := (w.extractLsb' 0 9).toNat
  let some' (assigned receives : Bool) : Option Bool := if assigned then some receives else none
  match s with
  | .b => some' (1 ≤ op6 && op6 ≤ 0x14) (op6 == 1 || op6 == 4 || op6 == 6)
  | .s => some' ((1 ≤ op && op ≤ 0x0A) || (0x10 ≤ op && op ≤ 0x1A) || (0x20 ≤ op && op ≤ 0x25) ||
      (0x30 ≤ op && op ≤ 0x34) || (0x40 ≤ op && op ≤ 0x45) || (0x50 ≤ op && op ≤ 0x56))
      (op == 3 || op == 0x30 || (0x32 ≤ op && op ≤ 0x34) || (0x40 ≤ op && op ≤ 0x43))
  | .va | .vb => some' ((1 ≤ op && op ≤ 0x14) || (0x18 ≤ op && op ≤ 0x1A) ||
      (0x40 ≤ op && op ≤ 0x48) || (0x60 ≤ op && op ≤ 0x63) || (0x80 ≤ op && op ≤ 0x84) ||
      (0xA0 ≤ op && op ≤ 0xA3) || (0xC0 ≤ op && op ≤ 0xC7) || (0xE0 ≤ op && op ≤ 0xE8) ||
      (0x100 ≤ op && op ≤ 0x105) || (0x120 ≤ op && op ≤ 0x124) || (0x140 ≤ op && op ≤ 0x143))
      ((0x18 ≤ op && op ≤ 0x1A) || (0xC1 ≤ op && op ≤ 0xC4) || op == 0x141)
  | .m => some' (1 ≤ op && op ≤ 0x14) (op == 1 || op == 3 || op == 9 || (0x0F ≤ op && op ≤ 0x14))
  | .ca | .cb => some' ((1 ≤ op && op ≤ 0x14) || op == 0x18 || op == 0x19) true
  | .q => some' (1 ≤ op6 && op6 ≤ 0x0E) false

/-- What a slot word with its extension word stands for by the opcode map and its format. -/
def decodeSlotRaw (s : Slot) (w : Word) (x : Option Word) : Dec :=
  match s with
  | .b => decodeB (w.setWidth 32) x
  | .s => decodeS w (x.map (·.setWidth 32))
  | .va => decodeV .va w x
  | .vb => decodeV .vb w x
  | .m => decodeM w (x.map (·.setWidth 32))
  | .ca => decodeC .a w x
  | .cb => decodeC .b w x
  | .q => decodeQ (w.setWidth 32)

/-- The static checks on a decoded slot word (R87): the instruction, or the lowest cause. -/
def checkDec (r : Dec) : Except Nat Instr :=
  match r with
  | none => .error 0x03
  | some (i, ok) =>
    match fieldFault i with
    | some c => .error c
    | none => if ok then .ok i else .error 0x04

/-- The instruction of one slot, or the cause that its word earns: 0x02 for a template whose receiving
slot holds an assigned OP of another format (R76), 0x03 for an M slot on a G-core (R13). -/
def decodeSlot (kind : CoreKind) (s : Slot) (w : Word) (x : Option Word) : Except Nat Instr :=
  if s == .m && kind == .g then .error 0x03
  else if x.isSome && opReceives s w == some false then .error 0x02
  else checkDec (decodeSlotRaw s w x)

/-- The words of the slots that follow a header, from the bytes that follow it. -/
def slotWords : List Slot → List Byte → List (Slot × Word)
  | [], _ => []
  | s :: ss, bs => (s, BitVec.ofNat 64 (leNat (bs.take s.bytes))) :: slotWords ss (bs.drop s.bytes)

/-- One decoded slot. -/
structure SlotDec where
  slot : Slot
  word : Word
  res : Except Nat Instr

/-- The slots of a bundle that hold instructions, decoded; the surrendering slot of a template gives its
word to the receiving one (R76). -/
def decodeSlots (kind : CoreKind) (h : Header) (body : List Byte) : List SlotDec :=
  let ws := slotWords h.slots body
  match tmplPair h.tmpl with
  | none => ws.map fun p => ⟨p.1, p.2, decodeSlot kind p.1 p.2 none⟩
  | some (give, take) =>
    let x := ((ws.find? fun p => p.1 == give).map Prod.snd).getD 0
    (ws.filter fun p => p.1 != give).map fun p =>
      ⟨p.1, p.2, decodeSlot kind p.1 p.2 (if p.1 == take then some x else none)⟩

/-! ### One word of the opcode table -/

/-- The instruction of a 32-bit row: the header-only bundle of R69, else a Q-slot word, else a B-slot
word (the two slots share their opcode numbers; log 14). -/
def decodeWord32 (w : BitVec 32) : Option Instr :=
  if (w &&& 0xFFFE0FFF#32) == 0 then some (.emptyBundle (Header.join w) (w.extractLsb' 12 4))
  else match checkDec (decodeQ w) with
    | .ok i => some i
    | .error _ =>
      match checkDec (decodeB w none) with
      | .ok i => some i
      | .error _ => none

/-- The instruction of a 64-bit row: S, VA, M or CA, the first that decodes (log 14). -/
def decodeWord64 (w : Word) : Option Instr :=
  match checkDec (decodeS w none), checkDec (decodeV .va w none), checkDec (decodeM w none),
      checkDec (decodeC .a w none) with
  | .ok i, _, _, _ => some i
  | _, .ok i, _, _ => some i
  | _, _, .ok i, _ => some i
  | _, _, _, .ok i => some i
  | _, _, _, _ => none

/-- The instruction that the decoder reads from a word of the opcode table (the host's interface). -/
def decodeTableWord (nbits w : Nat) : Option Instr :=
  if nbits ≤ 32 then decodeWord32 (BitVec.ofNat 32 w) else decodeWord64 (BitVec.ofNat 64 w)

/-! ### The encoder -/

def bit1 (b : Bool) : BitVec 1 := BitVec.ofBool b

def encBJ (op : BitVec 6) (o : FBJ) : BitVec 32 := o.disp ++ op
def encBC (op : BitVec 6) (o : FBC) : BitVec 32 := o.disp ++ bit1 o.neg ++ o.pred ++ op
def encBZ (op : BitVec 6) (o : FBZ) : BitVec 32 := o.disp ++ o.sa.enc ++ op
def encBR (op : BitVec 6) (imm : BitVec 13) (sa : SSpan) : BitVec 32 := imm ++ sa.enc ++ op
def noSpan : SSpan := ⟨0, 0⟩

def encSR (op : BitVec 9) (o : FSR) : Word :=
  0#11 ++ o.src2.enc ++ o.src1.enc ++ o.dst.enc ++ o.fn ++ bit1 o.d ++ op
def encSI (op : BitVec 9) (o : FSI) : Word :=
  o.imm ++ o.src1.enc ++ o.dst.enc ++ o.fn ++ bit1 o.d ++ op
def encSM (op : BitVec 9) (o : FSM) : Word :=
  o.off ++ o.evict ++ o.scope.code ++ o.ord.code ++ o.base.enc ++ o.data.enc ++ o.fn ++ bit1 o.d ++ op
def encSA (op : BitVec 9) (o : FSA) : Word :=
  0#3 ++ o.evict ++ o.scope.code ++ o.ord.code ++ o.src.enc ++ o.base.enc ++ o.dst.enc ++ o.fn ++
    0#1 ++ op
def encSC (op : BitVec 9) (o : FSC) : Word :=
  0#12 ++ o.csr ++ o.src.enc ++ o.dst.enc ++ 0#4 ++ bit1 o.d ++ op
def encVR (op : BitVec 9) (o : FVR) : Word :=
  o.pm ++ o.vb.enc ++ o.va.enc ++ o.vd.enc ++ o.ty.code ++ bit1 o.d ++ op
def encVU (op : BitVec 9) (o : FVU) : Word :=
  0#2 ++ o.pm ++ bit1 o.ns ++ o.cls ++ o.rm ++ o.ty2.code ++ o.va.enc ++ o.vd.enc ++ o.ty.code ++
    bit1 o.d ++ op
def encVC (op : BitVec 9) (o : FVC) : Word :=
  o.pm ++ o.vb.enc ++ o.va.enc ++ o.cond ++ 0#6 ++ o.pd ++ o.ty.code ++ bit1 o.d ++ op
def encVI (op : BitVec 9) (o : FVI) : Word :=
  o.imm ++ o.va.enc ++ o.vd.enc ++ o.ty.code ++ bit1 o.d ++ op
def encVX (op : BitVec 9) (o : FVX) : Word :=
  0#11 ++ bit1 o.dir ++ o.k ++ o.j ++ o.pay.enc ++ o.key.enc ++ o.ty.code ++ bit1 o.d ++ op
def encVM (op : BitVec 9) (o : FVM) : Word :=
  o.off ++ o.pm ++ o.base.enc ++ o.data.enc ++ o.ty.code ++ bit1 o.d ++ op
def encVG (op : BitVec 9) (o : FVG) : Word :=
  0#1 ++ o.vidx.enc ++ o.pm ++ o.base.enc ++ o.data.enc ++ o.ty.code ++ bit1 o.d ++ op
def encVS (op : BitVec 9) (o : FVS) : Word :=
  0#3 ++ o.stride.enc ++ o.pm ++ o.base.enc ++ o.data.enc ++ o.ty.code ++ bit1 o.d ++ op
def encVP (op : BitVec 9) (o : FVP) : Word :=
  0#19 ++ o.sd.enc ++ o.pb ++ o.pa ++ o.pd ++ o.ty.code ++ bit1 o.d ++ op
def encMA (op : BitVec 9) (o : FMA) : Word :=
  0#27 ++ o.mcnt ++ o.atile ++ o.page ++ bit1 o.half ++ o.mac ++ o.latch ++ o.ty.code ++ op
def encML (op : BitVec 9) (o : FML) : Word :=
  0#21 ++ o.evict ++ o.src.enc ++ o.page ++ bit1 o.half ++ o.mac ++ 0#3 ++ o.ty.code ++ op
def encMV (op : BitVec 9) (o : FMV) : Word :=
  0#7 ++ bit1 o.ns ++ o.cls ++ o.rm ++ o.sa.enc ++ o.vs.enc ++ o.atile ++ o.latch ++ o.ty.code ++ op
def encMS (op : BitVec 9) (o : FMS) : Word :=
  0#17 ++ o.row ++ o.page ++ bit1 o.half ++ o.mac ++ o.vs.enc ++ o.ty.code ++ op
def encMC (op : BitVec 9) (o : FMC) : Word :=
  o.imm ++ o.sa.enc ++ o.ct ++ o.mac ++ o.fn ++ op
def encC (op : BitVec 9) (o : FC) : Word :=
  0#4 ++ o.evict ++ o.scope.code ++ o.ord.code ++ o.sc.enc ++ o.sb.enc ++ o.sa.enc ++ o.fn ++ op
def encQR (op : BitVec 6) (o : FQR) : BitVec 32 :=
  0#8 ++ o.len ++ o.cls ++ o.qs ++ o.qb ++ o.qa ++ o.qd ++ op
def encQV (op : BitVec 6) (o : FQV) : BitVec 32 := 0#4 ++ o.cls ++ o.vs.enc ++ o.q ++ op

/-- The slot word of an instruction, from the formats of R81 to R86 and the maps of R88 to R93; a 32-bit
slot stands in the low half. The extension word is no part of it. The steps of the device have no word;
they encode to 0. -/
def encode : Instr → Word
  | .emptyBundle j s => (0#15 ++ bit1 j ++ s ++ 0#12 : BitVec 32).setWidth 64
  | .br o => (encBC 0x01 o).setWidth 64
  | .brz o => (encBZ 0x02 o).setWidth 64
  | .brnz o => (encBZ 0x03 o).setWidth 64
  | .jmp o => (encBJ 0x04 o).setWidth 64
  | .jmpi o => (encBR 0x05 o.imm o.sa).setWidth 64
  | .call o => (encBJ 0x06 o).setWidth 64
  | .calli o => (encBR 0x07 o.imm o.sa).setWidth 64
  | .ret sa => (encBR 0x08 0 sa).setWidth 64
  | .cloop disp => (disp ++ 0#7 ++ 0x09#6 : BitVec 32).setWidth 64
  | .waitt m => (encBR 0x0A (0#8 ++ m) noSpan).setWidth 64
  | .waita m dst => (encBR 0x0B (0#5 ++ m) dst).setWidth 64
  | .barg g => (encBR 0x0C (0#5 ++ g) noSpan).setWidth 64
  | .trig g => (encBR 0x0D (0#5 ++ g) noSpan).setWidth 64
  | .trigNode => (encBR 0x0D 0x100 noSpan).setWidth 64
  | .exit => (encBR 0x0E 0 noSpan).setWidth 64
  | .fence ord sc => (encBR 0x0F (0#8 ++ sc.code ++ ord.code) noSpan).setWidth 64
  | .trap imm => (encBR 0x10 imm noSpan).setWidth 64
  | .tret => (encBR 0x11 0 noSpan).setWidth 64
  | .bkpt imm => (encBR 0x12 imm noSpan).setWidth 64
  | .rfcl m => (encBR 0x13 (0#8 ++ m) noSpan).setWidth 64
  | .lend ow c => (encBR 0x14 (0#8 ++ ow ++ c) noSpan).setWidth 64
  | .add o => encSR 0x001 o
  | .sub o => encSR 0x002 o
  | .addi o => encSI 0x003 o
  | .mul o => encSR 0x004 o
  | .mulh o => encSR 0x005 o
  | .mulhn o => encSR 0x006 o
  | .div o => encSR 0x007 o
  | .divn o => encSR 0x008 o
  | .rem o => encSR 0x009 o
  | .remn o => encSR 0x00A o
  | .and o => encSR 0x010 o
  | .or o => encSR 0x011 o
  | .xor o => encSR 0x012 o
  | .andn o => encSR 0x013 o
  | .shl o => encSR 0x014 o
  | .shr o => encSR 0x015 o
  | .sra o => encSR 0x016 o
  | .rotl o => encSR 0x017 o
  | .clz o => encSR 0x018 o
  | .ctz o => encSR 0x019 o
  | .popc o => encSR 0x01A o
  | .min o => encSR 0x020 o
  | .max o => encSR 0x021 o
  | .minn o => encSR 0x022 o
  | .maxn o => encSR 0x023 o
  | .cmp o => 0#11 ++ o.src2.enc ++ o.src1.enc ++ 0#7 ++ o.pd ++ o.fn ++ 0#1 ++ 0x024#9
  | .sel o => 0#5 ++ o.ps ++ o.src2.enc ++ o.src1.enc ++ o.dst.enc ++ 0#4 ++ bit1 o.d ++ 0x025#9
  | .li o => o.imm ++ 0#5 ++ o.dst.enc ++ 0#4 ++ bit1 o.d ++ 0x030#9
  | .movs o => encSR 0x031 o
  | .exts o => encSI 0x032 o
  | .inss o => encSI 0x033 o
  | .lea o => encSI 0x034 o
  | .ld o => encSM 0x040 o
  | .st o => encSM 0x041 o
  | .ldg o => encSM 0x042 o
  | .stg o => encSM 0x043 o
  | .amo o => encSA 0x044 o
  | .cas o => encSA 0x045 o
  | .csrr o => encSC 0x050 o
  | .csrw o => encSC 0x051 o
  | .csrs o => encSC 0x052 o
  | .csrc o => encSC 0x053 o
  | .engw o => encSC 0x054 o
  | .engr o => encSC 0x055 o
  | .hchk o => encSR 0x056 o
  | .vadd o => encVR 0x001 o
  | .vsub o => encVR 0x002 o
  | .vmul o => encVR 0x003 o
  | .vmulh o => encVR 0x004 o
  | .vmad o => encVR 0x005 o
  | .vmin o => encVR 0x006 o
  | .vmax o => encVR 0x007 o
  | .vabs o => encVR 0x008 o
  | .vneg o => encVR 0x009 o
  | .vand o => encVR 0x00A o
  | .vor o => encVR 0x00B o
  | .vxor o => encVR 0x00C o
  | .vandn o => encVR 0x00D o
  | .vshl o => encVR 0x00E o
  | .vshr o => encVR 0x00F o
  | .vsra o => encVR 0x010 o
  | .vpopc o => encVR 0x011 o
  | .vclz o => encVR 0x012 o
  | .vadds o => encVR 0x013 o
  | .vsubs o => encVR 0x014 o
  | .vshlImm o => encVI 0x018 o
  | .vshrImm o => encVI 0x019 o
  | .vsraImm o => encVI 0x01A o
  | .vfadd o => encVR 0x040 o
  | .vfsub o => encVR 0x041 o
  | .vfmul o => encVR 0x042 o
  | .vfma o => encVR 0x043 o
  | .vfms o => encVR 0x044 o
  | .vfmin o => encVR 0x045 o
  | .vfmax o => encVR 0x046 o
  | .vfabs o => encVR 0x047 o
  | .vfneg o => encVR 0x048 o
  | .vcmp o => encVC 0x060 o
  | .vfcmp o => encVC 0x061 o
  | .vsel o => encVR 0x062 o
  | .vclass o => encVU 0x063 o
  | .vcvt o => encVU 0x080 o
  | .vwiden o => encVU 0x081 o
  | .vnarrow o => encVU 0x082 o
  | .vmxq o => encVU 0x083 o
  | .vmxd o => encVU 0x084 o
  | .vrsum o => encVU 0x0A0 o
  | .vrfsum o => encVU 0x0A1 o
  | .vrmax o => encVU 0x0A2 o
  | .vrmin o => encVU 0x0A3 o
  | .vperm o => encVR 0x0C0 o
  | .vslide o => encVI 0x0C1 o
  | .vbcast o => encVI 0x0C2 o
  | .vextr o => encVI 0x0C3 o
  | .vins o => encVI 0x0C4 o
  | .vzip o => encVR 0x0C5 o
  | .vunzip o => encVR 0x0C6 o
  | .vcxs o => encVX 0x0C7 o
  | .vexp2 o => encVU 0x0E0 o
  | .vlog2 o => encVU 0x0E1 o
  | .vrcp o => encVU 0x0E2 o
  | .vrsqrt o => encVU 0x0E3 o
  | .vsqrt o => encVU 0x0E4 o
  | .vtanh o => encVU 0x0E5 o
  | .vsigm o => encVU 0x0E6 o
  | .vsinp o => encVU 0x0E7 o
  | .vcosp o => encVU 0x0E8 o
  | .pand o => encVP 0x100 o
  | .por o => encVP 0x101 o
  | .pxor o => encVP 0x102 o
  | .pnot o => encVP 0x103 o
  | .pcnt o => encVP 0x104 o
  | .pfirst o => encVP 0x105 o
  | .vld o => encVM 0x120 o
  | .vst o => encVM 0x121 o
  | .vldx o => encVG 0x122 o
  | .vstx o => encVG 0x123 o
  | .vlds o => encVS 0x124 o
  | .vmov o => encVU 0x140 o
  | .vli o => encVI 0x141 o
  | .vchk o => encVR 0x142 o
  | .viota o => encVU 0x143 o
  | .mmode o => encMC 0x001 o
  | .mload o => encML 0x002 o
  | .mpageRd o => encMC 0x003 o
  | .mpageClr o => encMC 0x003 o
  | .mlatch o => encMV 0x004 o
  | .mdot o => encMA 0x005 o
  | .mcoll o => encMA 0x006 o
  | .mchain o => encMV 0x007 o
  | .moutl o => encMV 0x008 o
  | .macz o => encMC 0x009 o
  | .macrd o => encMV 0x00A o
  | .macwr o => encMV 0x00B o
  | .mread o => encMS 0x00C o
  | .mwrite o => encMS 0x00D o
  | .mrmw o => encMS 0x00E o
  | .mmask o => encMC 0x00F o
  | .mmaskClr o => encMC 0x00F o
  | .mwideOn o => encMC 0x010 o
  | .mwideOff o => encMC 0x010 o
  | .mrange o => encMC 0x011 o
  | .lwake o => encMC 0x012 o
  | .lsleep o => encMC 0x013 o
  | .mscrub o => encMC 0x014 o
  | .cpy o => encC 0x001 o
  | .cgo o => encC 0x002 o
  | .cgoClr o => encC 0x002 o
  | .cwin o => encC 0x003 o
  | .cadv o => encC 0x004 o
  | .cadvEnd o => encC 0x004 o
  | .town o => encC 0x005 o
  | .ttake o => encC 0x006 o
  | .tstate o => encC 0x007 o
  | .tstateClaim o => encC 0x007 o
  | .tstateRelease o => encC 0x007 o
  | .tidld o => encC 0x008 o
  | .tidrd o => encC 0x009 o
  | .tidinv o => encC 0x00A o
  | .binit o => encC 0x00B o
  | .barv o => encC 0x00C o
  | .bexp o => encC 0x00D o
  | .bwatch o => encC 0x00E o
  | .bwatchOff o => encC 0x00E o
  | .cred o => encC 0x00F o
  | .cbcst o => encC 0x010 o
  | .cpref o => encC 0x011 o
  | .cflush o => encC 0x012 o
  | .cinv o => encC 0x013 o
  | .cmig o => encC 0x014 o
  | .gload o => encC 0x018 o
  | .gloadFree o => encC 0x018 o
  | .glaunch o => encC 0x019 o
  | .qlen o => (encQR 0x01 o).setWidth 64
  | .qseedLfsr o => (0#8 ++ 0#1 ++ o.cls ++ o.sa.enc ++ 0x02#6 : BitVec 32).setWidth 64
  | .qseedRamp o => (0#8 ++ 1#1 ++ o.cls ++ o.sa.enc ++ 0x02#6 : BitVec 32).setWidth 64
  | .qgen o => (encQV 0x03 o).setWidth 64
  | .qregen o => (encQR 0x04 o).setWidth 64
  | .qmul o => (encQR 0x05 o).setWidth 64
  | .qmin o => (encQR 0x06 o).setWidth 64
  | .qmax o => (encQR 0x07 o).setWidth 64
  | .qabsd o => (encQR 0x08 o).setWidth 64
  | .qnot o => (encQR 0x09 o).setWidth 64
  | .qmuxa o => (encQR 0x0A o).setWidth 64
  | .qcnt o => (encQV 0x0B o).setWidth 64
  | .qcmp o => (0#14 ++ o.qb ++ o.qa ++ o.pd ++ 0x0C#6 : BitVec 32).setWidth 64
  | .qmov o => (encQR 0x0D o).setWidth 64
  | .qclr o => (encQR 0x0E o).setWidth 64
  | _ => 0

/-- The slot an instruction issues in, and none for the header-only bundle and the steps of the device. -/
def slotOf : Instr → Option Slot
  | .br _ | .brz _ | .brnz _ | .jmp _ | .jmpi _ | .call _ | .calli _ | .ret _ | .cloop _ | .waitt _
  | .waita _ _ | .barg _ | .trig _ | .trigNode | .exit | .fence _ _ | .trap _ | .tret | .bkpt _
  | .rfcl _ | .lend _ _ => some .b
  | .add _ | .sub _ | .addi _ | .mul _ | .mulh _ | .mulhn _ | .div _ | .divn _ | .rem _ | .remn _
  | .and _ | .or _ | .xor _ | .andn _ | .shl _ | .shr _ | .sra _ | .rotl _ | .clz _ | .ctz _ | .popc _
  | .min _ | .max _ | .minn _ | .maxn _ | .cmp _ | .sel _ | .li _ | .movs _ | .exts _ | .inss _
  | .lea _ | .ld _ | .st _ | .ldg _ | .stg _ | .amo _ | .cas _ | .csrr _ | .csrw _ | .csrs _ | .csrc _
  | .engw _ | .engr _ | .hchk _ => some .s
  | .vadd o | .vsub o | .vmul o | .vmulh o | .vmad o | .vmin o | .vmax o | .vabs o | .vneg o | .vand o
  | .vor o | .vxor o | .vandn o | .vshl o | .vshr o | .vsra o | .vpopc o | .vclz o | .vadds o
  | .vsubs o | .vfadd o | .vfsub o | .vfmul o | .vfma o | .vfms o | .vfmin o | .vfmax o | .vfabs o
  | .vfneg o | .vsel o | .vperm o | .vzip o | .vunzip o | .vchk o => some o.sl.slot
  | .vshlImm o | .vshrImm o | .vsraImm o | .vslide o | .vbcast o | .vextr o | .vins o
  | .vli o => some o.sl.slot
  | .vcmp o | .vfcmp o => some o.sl.slot
  | .vclass o | .vcvt o | .vwiden o | .vnarrow o | .vmxq o | .vmxd o | .vrsum o | .vrfsum o | .vrmax o
  | .vrmin o | .vexp2 o | .vlog2 o | .vrcp o | .vrsqrt o | .vsqrt o | .vtanh o | .vsigm o | .vsinp o
  | .vcosp o | .vmov o | .viota o => some o.sl.slot
  | .vcxs o => some o.sl.slot
  | .pand o | .por o | .pxor o | .pnot o | .pcnt o | .pfirst o => some o.sl.slot
  | .vld o | .vst o => some o.sl.slot
  | .vldx o | .vstx o => some o.sl.slot
  | .vlds o => some o.sl.slot
  | .mmode _ | .mpageRd _ | .mpageClr _ | .mload _ | .mlatch _ | .mdot _ | .mcoll _ | .mchain _
  | .moutl _ | .macz _ | .macrd _ | .macwr _ | .mread _ | .mwrite _ | .mrmw _ | .mmask _ | .mmaskClr _
  | .mwideOn _ | .mwideOff _ | .mrange _ | .lwake _ | .lsleep _ | .mscrub _ => some .m
  | .cpy o | .cgo o | .cgoClr o | .cwin o | .cadv o | .cadvEnd o | .town o | .ttake o | .tstate o
  | .tstateClaim o | .tstateRelease o | .tidld o | .tidrd o | .tidinv o | .binit o | .barv o | .bexp o
  | .bwatch o | .bwatchOff o | .cred o | .cbcst o | .cpref o | .cflush o | .cinv o | .cmig o | .gload o
  | .gloadFree o | .glaunch o => some o.ch.slot
  | .qlen _ | .qseedLfsr _ | .qseedRamp _ | .qgen _ | .qregen _ | .qmul _ | .qmin _ | .qmax _ | .qabsd _
  | .qnot _ | .qmuxa _ | .qcnt _ | .qcmp _ | .qmov _ | .qclr _ => some .q
  | _ => none

/-- The extension word an instruction took, as the surrendering slot holds it (R76, R77). -/
def extOf : Instr → Option Word
  | .br o => o.x
  | .jmp o | .call o => o.x
  | .addi o | .exts o | .inss o | .lea o => o.x.map (·.setWidth 64)
  | .li o => o.x.map (·.setWidth 64)
  | .ld o | .st o | .ldg o | .stg o => o.x.map (·.setWidth 64)
  | .vshlImm o | .vshrImm o | .vsraImm o | .vslide o | .vbcast o | .vextr o | .vins o | .vli o => o.x
  | .mmode o | .mpageRd o | .mpageClr o | .macz o | .mmask o | .mmaskClr o | .mwideOn o | .mwideOff o
  | .mrange o | .lwake o | .lsleep o | .mscrub o => o.x.map (·.setWidth 64)
  | .cpy o | .cgo o | .cgoClr o | .cwin o | .cadv o | .cadvEnd o | .town o | .ttake o | .tstate o
  | .tstateClaim o | .tstateRelease o | .tidld o | .tidrd o | .tidinv o | .binit o | .barv o | .bexp o
  | .bwatch o | .bwatchOff o | .cred o | .cbcst o | .cpref o | .cflush o | .cinv o | .cmig o | .gload o
  | .gloadFree o | .glaunch o => o.x
  | _ => none

end Sys2Proof
end

