-- ==== Sys2Proof/Config.lean ====
section
/-! DEFINITION. What the spec names and does not define, as constants without a body: the free values of
the model. Nothing can be proved about their values; a claim that mentions one holds for every value. -/

namespace Sys2Proof.Config

/-- The ML-DSA-87 signature check of a firmware image (R420; log 13). -/
opaque mldsaVerify : List Byte → Bool

/-- The ML-DSA-87 signature of an attestation report (R422; log 13). -/
opaque mldsaSign : List Byte → List Byte

/-- Byte j of the device's public identity key, made at manufacture (R422; log 13). -/
opaque identityKey : Nat → Byte

/-- The n-th free value drawn by a run: a value the spec leaves open (log 5). -/
opaque freeValue : Nat → Word

end Sys2Proof.Config
end

