-- ==== Sys2Proof/Machine/State.lean ====
section
/-! DEFINITION. The state of the machine as plain data, the reasons a step can stop, and the state after
reset. INVENTORY.md, '## State', lists every piece with its rule. Tables keyed by a number are held as
sparse lists (Word.lean): keys strictly rising, no value equal to the default that an unlisted key reads
as. -/

namespace Sys2Proof.Machine

/-! ### Scalars of the state -/

/-- The two modes of a core (R385). -/
inductive Mode where
  | node | sys
  deriving DecidableEq, Repr

/-- What a core is doing: idle (R397), running, halted by the debugger (R398), stopped by machine check
(R408). -/
inductive RunSt where
  | idle | running | halted | stopped
  deriving DecidableEq, Repr

/-- The kinds of unit that hazards are tracked on or that have a check of their own (R95, R98, R164, R392, R409): the
six kinds of the latency shortfall, then accumulator tiles, scratchpad tiles, engine registers and latches. -/
inductive UnitKind where
  | slice | plane | pred | stream | gen | csr | acc | tile | eng | latch
  deriving DecidableEq, Repr

/-- One physical unit. -/
structure HUnit where
  kind : UnitKind
  n : Nat
  deriving DecidableEq, Repr

/-- The tag of a stream register (R313). -/
structure StreamTag where
  len : BitVec 2
  pris : Bool
  mask : BitVec 16
  deriving DecidableEq, Repr

/-- The state of one generator class (R314): lane l of SEED and RUN in bits 32l + 31 : 32l. -/
structure GenClass where
  ramp : Bool
  d : BitVec 4
  seed : BitVec 4096
  run : BitVec 4096
  deriving DecidableEq, Repr

/-- One unit's share of an exposed result, with the mask of the bits it writes. -/
inductive UVal where
  | slices (start w : Nat) (v : Nat)
  | plane (p : Nat) (v mask : Plane)
  | pred (p : Nat) (v mask : Pred)
  | stream (q : Nat) (lanes : List Plane) (tag : StreamTag)
  | gen (c : Nat) (g : GenClass)
  | csr (n : Nat) (v mask : Word)
  deriving DecidableEq, Repr

/-- An exposed result in flight (R95, R96, R391): the exposed cycle it lands in, its place in issue order,
the units, the flags it raises, and the fault delivered in place of it (R222, R308). -/
structure Result where
  land : Nat
  grp : Nat
  bundle : Nat
  slot : Nat
  vals : List UVal
  flags : BitVec 5
  fault : Option (Nat × Word)
  topc : Word
  deriving DecidableEq, Repr

/-- Whether a cluster of the vector file is awake (R170, R171); a waking one is ready at an exposed cycle of
the mode that started the wake. -/
inductive ClusterSt where
  | awake
  | asleep
  | waking (m : Mode) (ready : Nat)
  deriving DecidableEq, Repr

/-! ### Registers of a core -/

/-- The register files (R157, R159, R169, R312 to R314). -/
structure Regs where
  scalar : BitVec 2048
  planes : Sparse Plane
  preds : Sparse Pred
  streams : Sparse Plane
  tags : Sparse StreamTag
  gens : Sparse GenClass
  clusters : List ClusterSt
  owners : List (BitVec 2)
  deriving DecidableEq, Repr

/-- The control and status registers (R177, R389), COREID and CLSTAT being derived. -/
structure Csrs where
  cctl : BitVec 4
  fpTen : BitVec 5
  fpDcls : BitVec 4
  fpDrm : BitVec 3
  fpstat : BitVec 5
  shoff : BitVec 12
  vrb : BitVec 8
  prb : BitVec 5
  lpCount : BitVec 32
  lpDepth : BitVec 5
  lplive : BitVec 32
  tbase : Word
  tasid : BitVec 16
  tcause : Word
  tval : Word
  tpc : Word
  topc : Word
  tact : Bool
  pm : Bool
  tvec : Word
  dbgctl : BitVec 2
  tscr : List Word
  psave : BitVec 52
  deriving DecidableEq, Repr

/-- The debug and machine-check registers (R396); `mcNew` says that the chip has still to log the machine check
and to send DVEC (R408, R411). -/
structure Debug where
  hreq : Bool
  reason : BitVec 8
  dpc : Word
  mcV : Bool
  mcCode : BitVec 8
  mcSyn : BitVec 8
  mcaddr : Word
  mcNew : Bool
  dvec : BitVec 16
  deriving DecidableEq, Repr

/-! ### Copy engines, tiles, tensor records (R113 to R155) -/

/-- The handle states of R62. -/
inductive SlotSt where
  | free | live | draining
  deriving DecidableEq, Repr

/-- The tile states of R121. -/
inductive TileSt where
  | empty | filling | ready | draining
  deriving DecidableEq, Repr

/-- One entry of the tile table (R121). -/
structure Tile where
  st : TileSt
  owner : BitVec 2
  released : Bool
  gen : BitVec 10
  infl : Nat
  deriving DecidableEq, Repr

/-- One slot of the TID table (R144, R154): the 96-byte record, its generation and state. -/
structure TidSlot where
  record : BitVec 768
  gen : BitVec 10
  st : SlotSt
  infl : Nat
  mapped : Bool
  deriving DecidableEq, Repr

/-- One entry of the barrier watch table (R133). -/
structure Watch where
  bar : Word
  phase : BitVec 4
  valid : Bool
  deriving DecidableEq, Repr

/-- The writable engine registers of one set (R114): ESRC, EDST, ELEN, ECTL, EBAR, EORG0 to EORG2; `aux`
holds what the last collective or prefetch staged on the channel named beside them: its group and FN
(log 21). -/
structure EngRegs where
  esrc : Word
  edst : Word
  elen : BitVec 22
  ectl : Word
  ebar : Word
  eorg0 : Word
  eorg1 : Word
  eorg2 : Word
  aux : BitVec 12
  deriving DecidableEq, Repr

/-- A channel operation, staged or running (R116): its registers, the mode of its program, what it captured
(record, TID slot, tiles, barrier), the units still owed (R120) and those written but not yet credited, the
bytes, lines or sectors done, the size of a ring and its fills under way as (tile, origin) (R129), the sectors
done of the oldest fill, the error it is ending in, and the group that staged it; of a collective the bytes read
of its source and why no more can be, and, once it is `ready`, the bytes of the result in their place (R135). -/
structure ChanOp where
  regs : EngRegs
  sys : Bool
  record : BitVec 768
  tid : Option Nat
  tiles : List Nat
  barrier : Option Nat
  owed : Nat
  credit : Nat
  pos : Nat
  ringN : Nat
  fills : List (Nat × List Nat)
  filled : Nat
  ready : Bool
  failing : Option (Nat × Nat)
  grp : Nat
  image : List Byte
  srcErr : Option (Nat × Nat)
  deriving DecidableEq, Repr

/-- One channel (R113, R115). -/
structure ChanState where
  shadow : EngRegs
  pending : Option ChanOp
  active : EngRegs
  op : Option ChanOp
  done : BitVec 32
  cause : BitVec 7
  err : Bool
  efaddr : Word
  paused : Bool
  deriving DecidableEq, Repr

/-- The copy engine, tiles, TID table and watch table of a core. -/
structure Copy where
  a : ChanState
  b : ChanState
  tiles : Sparse Tile
  tids : Sparse TidSlot
  watch : Sparse Watch
  next : BitVec 3
  deriving DecidableEq, Repr

/-! ### The column of macros and the accumulators (R266 to R311) -/

/-- A stationary latch (R273): activation of row r in bits 8r + 7 : 8r, scale of block k in bits
8k + 7 : 8k. -/
structure Latch where
  act : BitVec 2048
  scales : BitVec 64
  fmt : ETy
  deriving DecidableEq, Repr

/-- A block result (R274): its value is p × 2^x. -/
structure BlockRes where
  p : Int
  x : Int
  nan : Bool
  deriving DecidableEq, Repr

/-- The provenance record of a page (R277), with KIND as loaded. -/
structure PageRec where
  loaded : Bool
  fmt : ETy
  dirty : Bool
  wsrc : BitVec 52
  ssrc : BitVec 52
  deriving DecidableEq, Repr

/-- The state of a segment (R284); a waking one is awake at a core cycle. -/
inductive SegSt where
  | awake
  | asleep
  | waking (until_ : Nat)
  deriving DecidableEq, Repr

/-- A physical error held in a word of a page (R279; log 9). -/
inductive WordErr where
  | parity | correctable | uncorrectable
  deriving DecidableEq, Repr

/-- The shelf registers of a core (R281) and what the hardware keeps beside them (R280, R285): the place of the
scrub and whether its read has waited a period, the temperature now and at the last test, and the cycle in which
the vertical bus was last in use. -/
structure Shelf where
  segs : List SegSt
  remap : List Word
  scrubEn : Bool
  scrubRate : BitVec 8
  sherr : Word
  tswing : BitVec 8
  canlim : BitVec 8
  lanesUsed : Nat
  retestPending : Bool
  repairRegions : List Nat
  retests : BitVec 16
  repairs : BitVec 16
  scrubPos : Nat
  scrubWait : Bool
  temp : Int
  testTemp : Int
  busLast : Nat
  deriving DecidableEq, Repr

/-- The state the M slot acts on (R266, R287). A page is named by its physical number
((34 shelf + position) × 2 + half) × 4 + page, a row by 256 page + row. -/
structure Mat where
  acc : Sparse (BitVec 32)
  wide : List (Option Int)
  alarms : BitVec 32
  latches : Sparse Latch
  bufs : Sparse BlockRes
  bufFmt : Sparse ETy
  maskValid : Bool
  mask : BitVec 7168
  modes : BitVec 256
  rows : Sparse Plane
  written : Sparse (BitVec 8)
  scales : Sparse Byte
  recs : Sparse PageRec
  errs : Sparse WordErr
  refetch : List Nat
  deriving DecidableEq, Repr

/-! ### Tracked operations (R95, R97) -/

/-- The atomic operations of R198, in FN order, then CAS. -/
inductive AtomOp where
  | swap | add | and | or | xor | min | max | minn | maxn
  | cas (expect : Nat)
  deriving DecidableEq, Repr

/-- How loaded bytes become the destination's value: the memory image of the span, or k bytes extended by
zero or by sign (R192, R199). -/
inductive LoadExt where
  | image | zero | sign
  deriving DecidableEq, Repr

/-- A tracked operation in flight, with everything it took at issue. Spans are physical: start and width.
Physical addresses of a translated access are held as runs (address, length) in address order. -/
inductive TOp where
  | load (addr : Word) (runs : List (Nat × Nat)) (n evict start w : Nat) (ext : LoadExt)
  | store (addr : Word) (runs : List (Nat × Nat)) (evict : Nat) (bytes : List Byte)
  | atom (addr : Word) (runs : List (Nat × Nat)) (evict : Nat) (op : AtomOp) (v : Nat) (n start w : Nat)
  | csrWrite (n : Nat) (f : Nat) (v : Word)
  | engWrite (ch : Chan) (reg : Nat) (v : Word)
  | span (start w : Nat) (v : Nat)
  | tidFill (slot start w : Nat) (record : BitVec 768)
  | flip (tile : Nat) (owner : BitVec 2)
  | trig (g : Option (BitVec 8))
  | barv (bar : Nat) (u start w : Nat)
  | bexp (bar : Nat) (u : Nat)
  | binit (bar : Nat) (a : Nat) (scope : Scope)
  | pageRd (pid : Nat) (word1 : Bool) (start w : Nat)
  | pageClr (mac pid : Nat)
  | reload (mac pid : Nat) (ty : ETy) (va : Word) (runs : List (Nat × Nat)) (evict : Nat)
  | dot (mac page count : Nat) (half : Bool) (latch : Latch)
  | coll (t u row mac count : Nat) (ty : ETy)
  | outl (t u : Nat) (entries : List Word)
  | accZero (t n : Nat)
  | wideOn (t : Nat) (e : Int)
  | wideOff (t : Nat)
  | accWrite (t u rs : Nat) (ty : ETy) (rm : Nat) (words : List Nat) (v : Nat)
  | planes (vals : List UVal) (flags : BitVec 5)
  | rmw (mac pid row w : Nat) (ty : ETy) (phys : List Nat) (v : Nat)
  | scrub (mac pid : Nat)
  | graphLoad (img : Word) (evict start w : Nat) (tbase : Word) (asid : BitVec 16) (sys : Bool)
  deriving DecidableEq, Repr

/-- A tracked operation with its place in issue order, the header address of its bundle (TOPC), its ORD, and
whether it touches a strongly ordered page, or unordered pages alone (R82, R330, R335, R336). -/
structure Tracked where
  grp : Nat
  bundle : Nat
  slot : Nat
  pcb : Word
  ord : Ord
  so : Bool
  uo : Bool
  op : TOp
  deriving DecidableEq, Repr

/-- A recorded failure of a tracked access (R197): the group and bundle it issued in, cause, trap value, TOPC,
slot, and the units that stay busy until it is delivered. -/
structure Failure where
  grp : Nat
  bundle : Nat
  cause : Nat
  tval : Word
  topc : Word
  slot : Nat
  units : List HUnit
  macros : List Nat
  deriving DecidableEq, Repr

/-- A wait of the B slot. WAITA, FENCE, BARG and WAITT stall the issue of their own group (R94, R134, R338, R363)
until their wait is over: `passed`, with the group of a BARG, or `found`, with what WAITA found. A FENCE that has issued
still waits for accesses of earlier bundles of its group: `fenced`; an EXIT that has issued, for what its own group
began (R365). -/
inductive BWait where
  | none
  | waita (mask : BitVec 8)
  | fence (order : FenceOrder) (scope : Scope)
  | fenced (order : FenceOrder) (scope : Scope)
  | barg (g : BitVec 8)
  | waitt (mask : BitVec 5)
  | passed (g : Option (BitVec 8))
  | found (w : Nat)
  | exit
  deriving DecidableEq, Repr

/-- An effect of a group that takes place when its last bundle has issued: bytes stored to a window of the
core (R72, R262), a cluster lent (R174), modes of macros (R291), flags that an instruction raises in no result
(R308). -/
inductive GroupEnd where
  | bytes (off : Nat) (v mask : List Byte)
  | accBytes (off : Nat) (v mask : List Byte)
  | owner (cluster : Nat) (o : BitVec 2)
  | modes (v mask : BitVec 256)
  | flags (f : BitVec 5)
  deriving DecidableEq, Repr

/-! ### Model's own bookkeeping of a core (log 4, 5) -/

/-- Why a meaning did not issue: a stall of R94, or a hold of R283. -/
inductive Why where
  | busy | handleWait | drainWait | tileWait | barrierWait | launchWait | faultWait | exitWait | energy
  | segment | clusterBusy | pendingFull | macroBusy | walk
  deriving DecidableEq, Repr

/-- What the last meaning did: issued; issued and ended its group by itself, a trap taken or returned from or
a virtual core ended; stalled; trapped with a cause and value of its own bundle, and what it would have been charged
in pJ (R414); or delivered the fault of an
earlier operation, with its originating bundle and slot (R387). -/
inductive Report where
  | issued
  | ended
  | stalled (why : Why)
  | trapped (cause : Nat) (tval : Word) (pj : Nat)
  | deferred (cause : Nat) (tval : Word) (topc : Word) (slot : Nat)
  deriving DecidableEq, Repr

/-- An edge of a graph (R348). -/
structure Edge where
  src : Nat
  dst : Nat
  tie : Nat
  g : Nat
  sat : Bool
  deriving DecidableEq, Repr

/-- A group record of a graph (R348). -/
structure GroupRec where
  g : Nat
  node : Nat
  map : BitVec 1024
  deriving DecidableEq, Repr

/-- The state of a graph slot (R369). -/
inductive GraphSt where
  | free | loaded | running | draining
  deriving DecidableEq, Repr

/-- A graph slot of the pool (R348 to R351, R369). -/
structure Graph where
  gen : BitVec 10
  st : GraphSt
  asid : BitVec 16
  root : BitVec 52
  nodes : List Nat
  edges : List Edge
  groups : List GroupRec
  lcnt : BitVec 32
  fail : Bool
  err : BitVec 8
  deriving DecidableEq, Repr

/-- Where the machine stands inside an issue group (R72 to R75): the number of groups issued so far, the bundle
within the group, the tables and the graph slots as they stood before this bundle, against which handles are checked
(R63), the tables before the group, which its register reads see (R72), the header addresses of this bundle and of
the first one, the address after the last bundle, the header address of the next group, the group's stall count, and
whether an earlier bundle of the group took effect or holds a B slot. -/
structure Ctx where
  grp : Nat
  bundle : Nat
  before : Copy
  graphs : Sparse Graph
  first : Copy
  pcb : Word
  groupPc : Word
  fall : Word
  next : Word
  stall : Nat
  effBefore : Bool
  earlierB : Bool
  deriving DecidableEq, Repr

/-- A group that the lead of a gang has issued, as its members execute it (R361): the cycle of the gang in which
the member issues it, its bundles as header address and bytes, the address after them, and that of the next
group. -/
structure GangStep where
  due : Nat
  bundles : List (Word × List Byte)
  fall : Word
  next : Word
  deriving DecidableEq, Repr

/-- The binding of a core to a position of a node (R357 to R359, R364); `clock` is the cycle of its gang in
which the lead issues next (R361), `fired` once the watchdog of the virtual core has expired (R367). -/
structure Binding where
  nodeSlot : Nat
  pos : Nat
  positions : Nat
  width : Nat
  v : Nat
  gang : Bool
  cycles : Nat
  expired : Bool
  fired : Bool
  preempted : Bool
  cost : Nat
  clock : Nat
  deriving DecidableEq, Repr

/-- One core (R13, R328). `stall` is the unexpired stall count of the last group (R74, R400); `uo` holds its
stores to unordered pages that no release has published yet, oldest first, and `publish` the last group whose
stores a release is publishing (R336); `ecc` holds the
errors of the words of the scratchpad, from 0, and of the accumulators, from 2^17; `l1Bad` the sectors of the
L1, `inner` the register units and `bankBad` the bank, whose check fails (R409). -/
structure Core where
  region : BitVec 10
  kind : CoreKind
  run : RunSt
  mode : Mode
  pc : Word
  vcore : BitVec 10
  regs : Regs
  csr : Csrs
  dbg : Debug
  copy : Copy
  mat : Mat
  shelf : Shelf
  pad : Sparse Byte
  nodeXt : Nat
  sysXt : Nat
  inflight : List Result
  bank : List Result
  bankBase : Nat
  tracked : List Tracked
  uo : List Tracked
  publish : Nat
  failures : List Failure
  wait : BWait
  waitPcb : Word
  stall : Nat
  binding : Option Binding
  kilnPj : Nat
  kilnUnits : Nat
  kilnHolds : Nat
  l1 : List Nat
  l1Bad : List Nat
  gangPath : List GangStep
  ends : List GroupEnd
  ecc : Sparse WordErr
  inner : List HUnit
  bankBad : Bool
  ctx : Ctx
  report : Report
  deriving DecidableEq, Repr

/-! ### The chip -/

/-- An entry of the group table (R362), with the BARGs each member has counted (R364) and the members that
have exited and that have triggered. -/
structure GroupEntry where
  held : Bool
  graph : Nat
  node : Nat
  tpend : Nat
  map : BitVec 1024
  bargs : List (Nat × Nat)
  exited : List Nat
  triggered : List Nat
  deriving DecidableEq, Repr

/-- What a node of the pool is doing (R350 to R357). -/
inductive NodeSt where
  | free | loaded | waiting | ready | starting | running | preempting | done | skipped | abandoned
  deriving DecidableEq, Repr

/-- A node slot (R346, R350 to R357): its descriptor, its graph and index there, and its progress in the
current launch: unsatisfied edges, its place in its order, the next position to bind for the first time, the
positions that stand saved with their watchdog counts, those bound with their cores, and what its virtual
cores have done. -/
structure NodeSlot where
  desc : BitVec 512
  st : NodeSt
  graph : Nat
  index : Nat
  pending : Nat
  seq : BitVec 32
  prio : Nat
  sinceReady : Nat
  next : Nat
  saved : List (Nat × Nat)
  live : List (Nat × Nat)
  exited : Nat
  triggered : List Nat
  deriving DecidableEq, Repr

/-- One entry of the bucket table (R369). -/
structure Bucket where
  valid : Bool
  dlenHi : BitVec 7
  dlenLo : BitVec 7
  occHi : BitVec 10
  occLo : BitVec 10
  graph : BitVec 16
  deriving DecidableEq, Repr

/-- A host command in progress (R369). -/
inductive HostCmd where
  | none
  | load (pa : Word)
  | launch (h : BitVec 16) (bucket : Option (BitVec 6))
  | free (h : BitVec 16)
  deriving DecidableEq, Repr

/-- The ready pool and the generation sequencer (R346 to R369, R399). -/
structure Pool where
  graphs : Sparse Graph
  nodes : Sparse NodeSlot
  groups : Sparse GroupEntry
  buckets : Sparse Bucket
  seq : BitVec 32
  hcmd : HostCmd
  hresCause : BitVec 7
  hresHandle : BitVec 16
  seqEn : Bool
  seqStop : Bool
  seqVec : BitVec 16
  seqAsid : BitVec 16
  seqBar : Word
  seqSeen : Bool
  seqPhase : BitVec 4
  seqJob : Option (BitVec 6 × BitVec 16)
  occ : BitVec 10
  dlen : BitVec 7
  preempting : Option Nat
  staged : List (Nat × Nat × Nat)
  deriving DecidableEq, Repr

/-! ### Coherence (R17 to R41) -/

/-- A line in the L2 (R26, R33); `bad` marks the sectors whose check failed before they came here (R409). -/
structure L2Line where
  st : LineSt
  dirty : BitVec 4
  data : BitVec 2048
  bad : BitVec 4
  deriving DecidableEq, Repr

/-- What a home controller resolves (R24, R37, R38); `recall` is CMIG's (R143), asked for by a chip; `mend` is
a rebuild that a write-back found necessary, with nothing to resolve after it (R28, R32), and `wb` a write-back
that is held back until such a rebuild has an entry (R24). -/
inductive HomeReq where
  | rds (req : BitVec 8)
  | rdx (req : BitVec 8)
  | memrd (pa : Nat) (excl : Bool)
  | memwr (pa : Nat) (enable : BitVec 64) (data : BitVec 512) (keeps : Bool)
  | recall (req : BitVec 8)
  | mend
  | wb (who : BitVec 8) (dirty : BitVec 4) (data : LineData)
  deriving DecidableEq, Repr

/-- A busy line (R23, R24, R28, R32): the parties still to answer, and what the answers gave: the dirty data of
a chip, the dirty sectors of the host, a clean copy of the owner, whether a write-back was absorbed. -/
structure Resol where
  line : Nat
  what : HomeReq
  awaiting : List Party
  dirty : Option LineData
  hostDirty : BitVec 4
  hostData : BitVec 2048
  clean : Bool
  absorbed : Bool
  holders : Nat
  rebuild : Bool
  deriving DecidableEq, Repr

/-- A request that waits for a busy line (R24). -/
structure HomeWait where
  line : Nat
  what : HomeReq
  deriving DecidableEq, Repr

/-- What the chip sends to the world outside it (log 1). -/
inductive Msg where
  | snoop (dest : Party) (line : Nat) (kind : SnoopKind) (req : Nat)
  | answer (line : Nat) (ans : SnoopAns)
  | data (dest : Nat) (line : Nat) (data : LineData)
  | complete (dest : Nat) (line : Nat) (grant : LineSt) (data : Option LineData)
  | failed (dest : Nat) (line : Nat) (cause : Nat)
  | request (home : Nat) (line : Nat) (excl : Bool) (port : Nat)
  | recallRequest (home : Nat) (line : Nat) (port : Nat)
  | writeback (home : Nat) (line : Nat) (dirty : BitVec 4) (data : LineData)
  | hostRequest (pa : Nat) (excl : Bool)
  | hostAnswer (pa : Nat) (ans : SnoopAns)
  | hostEvict (pa : Nat) (data : BitVec 512)
  | hostData (pa : Nat) (data : BitVec 512)
  | hostDone (pa : Nat)
  | hostError (pa : Nat)
  | msix (vec : BitVec 16)
  deriving DecidableEq, Repr

/-- A host-tier line being filled by four sector grants (R38): the sectors granted, those granted dirty (R36), and
those that a snoop took back, to be asked for again once what it had written back is acknowledged (log 89). -/
structure HostFill where
  line : Nat
  got : BitVec 4
  st : LineSt
  data : BitVec 2048
  dirty : BitVec 4
  again : BitVec 4
  deriving DecidableEq, Repr

/-- Who asks for a translation (R57 to R59). -/
structure Walker where
  region : Nat
  engine : Bool
  deriving DecidableEq, Repr

/-- An open walk (R56, R59) with the address whose access missed first, and the other requesters that share it;
`waits` once its event is to be written to the fault ring. -/
structure Walk where
  who : Walker
  also : List Walker
  asid : BitVec 16
  root : Nat
  va : Nat
  write : Bool
  fetch : Bool
  waits : Bool
  deriving DecidableEq, Repr

/-- What follows a store of the device itself once it is written: nothing; the event of the migration ring is
counted and signalled (R40); or that of the fault ring, for the walk that waits (R59). -/
inductive PutEnd where
  | nothing
  | migration
  | fault (w : Walk)
  deriving DecidableEq, Repr

/-- A store of the device itself that waits for its line (R40, R59, R141). -/
structure Put where
  pa : Nat
  bytes : List Byte
  after : PutEnd
  deriving DecidableEq, Repr

/-- The coherence state of the chip: metadata of its device-memory lines (R20), errors held in metadata, in
sectors of memory and in sectors of the L2 (R409), the L2, the resolution buffer, the chip's own misses and
unacknowledged write-backs, lines recalled at another home with their data (R143), failed lines (R31), and the
registers of R41; `puts` are stores of the device itself that wait for their line (R40, R59, R141). -/
structure Coh where
  meta_ : Sparse (BitVec 32)
  metaErr : Sparse WordErr
  dataErr : Sparse WordErr
  l2Err : Sparse WordErr
  l2 : Sparse L2Line
  resol : List Resol
  waiting : List HomeWait
  misses : List (Nat × Bool)
  writebacks : List Nat
  recalls : List (Nat × Option LineData)
  failed : List (Nat × Nat)
  fills : List HostFill
  puts : List Put
  counters : Sparse (BitVec 16)
  cohto : Word
  miglo : Word
  mighi : Word
  migTh : BitVec 16
  migVec : BitVec 16
  migOvf : Bool
  migEn : Bool
  migring : Word
  mighead : BitVec 32
  migtail : BitVec 32
  coherr : Word
  deriving DecidableEq, Repr

/-! ### Translation (R49 to R61) -/

/-- A cached translation (R52, R56): the virtual and physical base of 2^log bytes, and the leaf. -/
structure TlbEntry where
  asid : BitVec 16
  va : Nat
  pa : Nat
  log : Nat
  leaf : Word
  deriving DecidableEq, Repr

/-- A walk that ended in a fault, until its access takes it (R57). -/
structure WalkFail where
  who : Walker
  asid : BitVec 16
  va : Nat
  cause : Nat
  deriving DecidableEq, Repr

/-- An invalidation in progress (R60). -/
inductive TlbInval where
  | va (asid : BitVec 16) (va : Nat)
  | asid (asid : BitVec 16)
  | asidGlobal (asid : BitVec 16)
  | all
  deriving DecidableEq, Repr

/-- An invalidation with the core that wrote it, or none for the host (R60). -/
structure InvalBy where
  writer : Option Nat
  what : TlbInval
  deriving DecidableEq, Repr

/-- The translation registers of the chip, the L2 TLB and the L1 TLBs by region, each with its newest entry
first, and the walks in order of arrival (R56, R60). -/
structure Xlat where
  vec : BitVec 16
  ovf : Bool
  fwait : Bool
  fltring : Word
  flthead : BitVec 32
  flttail : BitVec 32
  tlbiasid : BitVec 16
  tlb : List TlbEntry
  tlb1 : Sparse (List TlbEntry)
  walks : List Walk
  fails : List WalkFail
  invals : List InvalBy
  deriving DecidableEq, Repr

/-! ### Queues, kiln and platform (R138 to R141, R413 to R429) -/

/-- A packet that an engine has read and not yet performed, with the registration it read it by (R64, R140):
the index it was read at, its bytes, the memory of the queue and its address space; the sectors moved, and why no
more can be (R127, R139). -/
structure Packet where
  ridx : Nat
  bytes : List Byte
  base : Word
  log2n : BitVec 5
  asid : BitVec 16
  pos : Nat
  err : Option Nat
  deriving DecidableEq, Repr

/-- A queue registration (R138), and the packet its engine performs. -/
structure Queue where
  base : Word
  gen : BitVec 10
  en : Bool
  log2n : BitVec 5
  engine : BitVec 4
  asid : BitVec 16
  packet : Option Packet
  deriving DecidableEq, Repr

/-- The kiln (R413 to R416): KALLOW and KGRES as written, and as the last refill found them, which is how they
are in force (R414). -/
structure Kiln where
  kallow : BitVec 32
  kgres : BitVec 32
  allow : BitVec 32
  gres : BitVec 32
  kcommit : BitVec 32
  kholds : BitVec 32
  deriving DecidableEq, Repr

/-- A fabric port (R427, R428); `tried` once its training has run. -/
structure Port where
  ready : Bool
  width : BitVec 5
  lanes : BitVec 16
  crc : BitVec 32
  replays : BitVec 32
  inRow : Nat
  tried : Bool
  deriving DecidableEq, Repr

/-- The catalogue (R423) without its signature, which covers it. -/
structure Catalogue where
  seq : Word
  aSites : BitVec 272
  gSites : BitVec 32
  accessions : Sparse (BitVec 16)
  spares : Sparse (BitVec 16)
  channels : BitVec 512
  lanes : Sparse (BitVec 16)
  descs : List (BitVec 512)
  deriving DecidableEq, Repr

/-- The platform area: readiness (R418), configuration (R424, R425), measurement and attestation (R420 to
R422), catalogue requests (R426), error log (R411), links (R427), domain (R429); `spares` are the spares that the
catalogue had retired at the last choice of the configuration, and `held` the doublewords that the host has written and
that wait for a queue slot to drain (R64, R426; log 49). -/
structure Platform where
  good : Bool
  fw : Bool
  hostUp : Bool
  cat : Bool
  l2Up : Bool
  poolUp : Bool
  gcoreUp : Bool
  acoreUp : Bool
  groupsUp : BitVec 17
  shelvesUp : BitVec 8
  hbmUp : BitVec 16
  upAt : Option Nat
  cfgnum : BitVec 8
  desc : BitVec 512
  catalogue : Catalogue
  aSites : List Nat
  gSites : List Nat
  channels : List Nat
  lanes : List (List Nat)
  spares : Sparse (BitVec 16)
  held : List (Nat × Word)
  image : List Byte
  recovery : Bool
  catBusy : Option Word
  catRefused : Bool
  catDone : Bool
  measured : List (BitVec 512)
  mdig : BitVec 512
  extending : Option (BitVec 3 × BitVec 512)
  anonce : BitVec 512
  astat : BitVec 2
  report : List Byte
  log : Sparse (BitVec 128)
  loghead : Word
  hlink : HostLink
  ports : List Port
  routes : Sparse (BitVec 12)
  doments : Sparse Word
  domEn : Bool
  ownid : BitVec 8
  deriving DecidableEq, Repr

/-! ### The machine -/

/-- The state of the machine: the core that moves next, the other cores that differ from reset (by region
index), the chip, and the model's own agenda of asynchronous events (log 4). -/
structure State where
  core : Core
  others : List (Nat × Core)
  cycle : Nat
  mem : List Host.Cell
  coh : Coh
  xlat : Xlat
  queues : Sparse Queue
  served : List Nat
  kiln : Kiln
  plat : Platform
  pool : Pool
  outbox : List Msg
  agenda : List Instr
  free : Nat
  deriving DecidableEq, Repr

/-- Why the machine stops. -/
inductive Fault where
  /-- A message of the environment that the spec says cannot arise, and gives no effect: raised by INV for a
  line that the L2 holds in M or E (R26). Safe: the hardware never meets it. -/
  | cannotArise (event : String)
  deriving DecidableEq, Repr

/-- Why an instruction has no meaning. -/
inductive Refusal where
  /-- Raised by the arms of `exec` that have no meaning yet. Safe. -/
  | notModelled (mnemonic : String)
  deriving DecidableEq, Repr

/-! ### Reset -/

namespace Reset

def regs (kind : CoreKind) : Regs :=
  { scalar := 0, planes := [], preds := [], streams := [], tags := [], gens := [],
    clusters := List.replicate 5 .awake,
    owners := match kind with
      | .a => [0, 0, 1, 1, 2]
      | .g => [0, 0, 1, 1, 1] }

def csrs : Csrs :=
  { cctl := 0, fpTen := 0, fpDcls := 0, fpDrm := 0, fpstat := 0, shoff := 0, vrb := 0, prb := 0,
    lpCount := 0, lpDepth := 0, lplive := 0, tbase := 0, tasid := 0, tcause := 0, tval := 0, tpc := 0,
    topc := 0, tact := false, pm := false, tvec := 0, dbgctl := 0, tscr := [0, 0, 0, 0], psave := 0 }

def debug : Debug :=
  { hreq := false, reason := 0, dpc := 0, mcV := false, mcCode := 0, mcSyn := 0, mcaddr := 0, mcNew := false,
    dvec := 0 }

def engRegs : EngRegs :=
  { esrc := 0, edst := 0, elen := 0, ectl := 0, ebar := 0, eorg0 := 0, eorg1 := 0, eorg2 := 0,
    aux := 0 }

def chan : ChanState :=
  { shadow := engRegs, pending := none, active := engRegs, op := none, done := 0, cause := 0,
    err := false, efaddr := 0, paused := false }

def copy : Copy := { a := chan, b := chan, tiles := [], tids := [], watch := [], next := 0 }

def mat : Mat :=
  { acc := [], wide := List.replicate 16 none, alarms := 0, latches := [], bufs := [], bufFmt := [],
    maskValid := false, mask := 0, modes := 0, rows := [], written := [], scales := [], recs := [],
    errs := [], refetch := [] }

def shelf : Shelf :=
  { segs := List.replicate 8 .awake, remap := List.replicate 16 0, scrubEn := true, scrubRate := 0,
    sherr := 0, tswing := 0x10, canlim := 0x08, lanesUsed := 0, retestPending := false,
    repairRegions := [], retests := 0, repairs := 0, scrubPos := 0, scrubWait := false, temp := 0,
    testTemp := 0, busLast := 0 }

def ctx : Ctx :=
  { grp := 0, bundle := 0, before := copy, graphs := [], first := copy, pcb := 0, groupPc := 0, fall := 0, next := 0,
    stall := 0, effBefore := false, earlierB := false }

/-- A core as reset leaves it. -/
def core (region : BitVec 10) (kind : CoreKind) : Core :=
  { region := region, kind := kind, run := .idle, mode := .node, pc := 0, vcore := 0, regs := regs kind,
    csr := csrs, dbg := debug, copy := copy, mat := mat, shelf := shelf, pad := [], nodeXt := 0,
    sysXt := 0, inflight := [], bank := [], bankBase := 0, tracked := [], uo := [], publish := 0,
    failures := [], wait := .none, waitPcb := 0, stall := 0, binding := none, kilnPj := 0, kilnUnits := 0,
    kilnHolds := 0, l1 := [], l1Bad := [], gangPath := [], ends := [], ecc := [], inner := [],
    bankBad := false, ctx := ctx, report := .issued }

def pool : Pool :=
  { graphs := [], nodes := [], groups := [], buckets := [], seq := 0, hcmd := .none, hresCause := 0,
    hresHandle := 0, seqEn := false, seqStop := false, seqVec := 0, seqAsid := 0, seqBar := 0,
    seqSeen := false, seqPhase := 0, seqJob := none, occ := 0, dlen := 0, preempting := none, staged := [] }

/-- COHTO resets to 0x0010_0000 (R41). -/
def coh : Coh :=
  { meta_ := [], metaErr := [], dataErr := [], l2Err := [], l2 := [], resol := [], waiting := [], misses := [],
    writebacks := [], recalls := [], failed := [], fills := [], puts := [], counters := [],
    cohto := 0x00100000, miglo := 0, mighi := 0, migTh := 0, migVec := 0, migOvf := false, migEn := false,
    migring := 0, mighead := 0, migtail := 0,
    coherr := 0 }

def xlat : Xlat :=
  { vec := 0, ovf := false, fwait := false, fltring := 0, flthead := 0, flttail := 0, tlbiasid := 0,
    tlb := [], tlb1 := [], walks := [], fails := [], invals := [] }

/-- Configuration 0 as shipped (R1, R413, R424; log 12): NA 256, NG 30, C 512, every port of 16 lanes, 5,376 GB/s
(R15). -/
def desc0 : BitVec 512 :=
  BitVec.ofNat 512
    ((256 <<< 8) + (30 <<< 18) + (512 <<< 24) +
     (0x842108421084210 <<< 64) +
     (4505600 <<< 128) + ((512 * 2 ^ 31) <<< 192) + ((256 * 32) <<< 256) + (5376 <<< 288))

def catalogue : Catalogue :=
  { seq := 0, aSites := 0, gSites := 0, accessions := [], spares := [], channels := 0, lanes := [],
    descs := [desc0] }

def port : Port := { ready := false, width := 0, lanes := 0, crc := 0, replays := 0, inRow := 0, tried := false }

def plat : Platform :=
  { good := false, fw := false, hostUp := false, cat := false, l2Up := false, poolUp := false,
    gcoreUp := false, acoreUp := false, groupsUp := 0, shelvesUp := 0, hbmUp := 0, upAt := none,
    cfgnum := 0, desc := 0, catalogue := catalogue, aSites := [], gSites := [], channels := [], lanes := [],
    spares := [], held := [], image := [], recovery := false, catBusy := none, catRefused := false, catDone := false,
    measured := List.replicate 8 0, mdig := 0, extending := none, anonce := 0, astat := 0, report := [],
    log := [], loghead := 0, hlink := .x16, ports := List.replicate 12 port, routes := [],
    doments := [], domEn := false, ownid := 0 }

/-- KALLOW resets to the descriptor's value, 4,505,600 in configuration 0 (R413). -/
def kiln : Kiln := { kallow := 4505600, kgres := 0, allow := 4505600, gres := 0, kcommit := 0, kholds := 0 }

end Reset

/-- The machine right after reset: power is good and the bring-up has not begun (R417); every register at
the value the spec gives, or at the value that log 10 or log 11 names. -/
def State.reset : State :=
  { core := Reset.core 0 .a, others := [], cycle := 0, mem := [], coh := Reset.coh, xlat := Reset.xlat,
    queues := [], served := List.replicate 16 0, kiln := Reset.kiln, plat := Reset.plat,
    pool := Reset.pool, outbox := [], agenda := [], free := 0 }

end Sys2Proof.Machine
end

