-- ==== Sys2Proof/Machine/Store.lean ====
section
/-! DEFINITION. Sparse tables, bit fields and packed arrays: the helpers of every meaning. -/

namespace Sys2Proof.Machine

/-! ### Sparse tables -/

/-- The value at a key; `d` is what an unlisted key reads as. -/
def spGet {α : Type} (d : α) : Sparse α → Nat → α
  | [], _ => d
  | (k, v) :: m, n => if k = n then v else spGet d m n

/-- Writes one key and keeps the canonical form: keys rising, the default never listed. -/
def spSet {α : Type} [DecidableEq α] (d : α) : Sparse α → Nat → α → Sparse α
  | [], n, v => if v = d then [] else [(n, v)]
  | (k, w) :: m, n, v =>
    if n < k then (if v = d then (k, w) :: m else (n, v) :: (k, w) :: m)
    else if n = k then (if v = d then m else (n, v) :: m)
    else (k, w) :: spSet d m n v

/-- Keys strictly rising, above a bound, and no value equal to the default. -/
def spWfFrom {α : Type} [DecidableEq α] (d : α) (lo : Nat) : Sparse α → Bool
  | [] => true
  | (k, v) :: m => decide (lo ≤ k) && decide (v ≠ d) && spWfFrom d (k + 1) m

/-- The canonical form of a sparse table. -/
def spWf {α : Type} [DecidableEq α] (d : α) (m : Sparse α) : Bool := spWfFrom d 0 m

/-- Drops the keys of a range. -/
def spClear {α : Type} (lo n : Nat) (m : Sparse α) : Sparse α :=
  m.filter fun p => !(decide (lo ≤ p.1) && decide (p.1 < lo + n))

/-- The k-th element of a list, or a default. -/
def lget {α : Type} (d : α) (l : List α) (k : Nat) : α := l.getD k d

/-- Replaces the k-th element of a list. -/
def lset {α : Type} (l : List α) (k : Nat) (v : α) : List α := l.set k v

/-! ### Numbers and fields -/

/-- The n-bit number v read as two's complement (R9). -/
def toSigned (n v : Nat) : Int := if v < 2 ^ (n - 1) then (v : Int) else (v : Int) - 2 ^ n

/-- An integer reduced to n bits. -/
def wrapI (n : Nat) (i : Int) : Nat := (i % (2 ^ n : Int)).toNat

/-- An integer held within bounds. -/
def clampI (lo hi i : Int) : Int := if i < lo then lo else if hi < i then hi else i

/-- Bits lo + len − 1 : lo of a number. -/
def bitsN (v lo len : Nat) : Nat := (v >>> lo) % 2 ^ len

/-- Replaces bits lo + len − 1 : lo of a number. -/
def setBitsN (v lo len x : Nat) : Nat :=
  v - (bitsN v lo len) * 2 ^ lo + (x % 2 ^ len) * 2 ^ lo

/-- Element i of a packed array of b-bit elements. -/
def elemN (b v i : Nat) : Nat := (v >>> (b * i)) % 2 ^ b

/-- Packs n elements of b bits, element 0 lowest. -/
def packN (b : Nat) : Nat → (Nat → Nat) → Nat
  | 0, _ => 0
  | n + 1, f => packN b n f + (f n % 2 ^ b) * 2 ^ (b * n)

/-- The number of set bits among the low n bits. -/
def popN (v : Nat) : Nat → Nat
  | 0 => 0
  | n + 1 => popN v n + (if v.testBit n then 1 else 0)

/-- The number of leading zeros among the low n bits. -/
def clzN (v : Nat) : Nat → Nat
  | 0 => 0
  | n + 1 => if v.testBit n then 0 else 1 + clzN v n

/-- The number of trailing zeros among bits k to k + fuel − 1. -/
def ctzFrom (v k : Nat) : Nat → Nat
  | 0 => 0
  | fuel + 1 => if v.testBit k then 0 else 1 + ctzFrom v (k + 1) fuel

/-- The number of trailing zeros among the low n bits; n for zero. -/
def ctzN (v n : Nat) : Nat := ctzFrom v 0 n

/-- The numbers lo, lo + 1, …, n of them. -/
def rangeFrom (lo n : Nat) : List Nat := (List.range n).map (· + lo)

/-- Every member of a list holds a test: first failing element's answer. -/
def firstSome {α β : Type} (f : α → Option β) : List α → Option β
  | [] => none
  | x :: xs => (f x).orElse fun _ => firstSome f xs

def wordOf (n : Nat) : Word := BitVec.ofNat 64 n

/-! ### Physical memory -/

/-- What a byte of memory that nothing has written reads as (log 11). -/
def memDefault : Byte := 0

/-- One byte of physical memory. -/
def memByte (m : List Host.Cell) (pa : Nat) : Byte := spGet memDefault m pa

/-- n bytes of physical memory from an address. -/
def memRead (m : List Host.Cell) (pa : Nat) : Nat → List Byte
  | 0 => []
  | n + 1 => memByte m pa :: memRead m (pa + 1) n

/-- Writes bytes of physical memory from an address. -/
def memWrite (m : List Host.Cell) (pa : Nat) : List Byte → List Host.Cell
  | [] => m
  | b :: bs => memWrite (spSet memDefault m pa b) (pa + 1) bs

/-- The canonical form of memory: addresses strictly rising, no listed byte equal to the default. -/
def Memory.wf (m : List Host.Cell) : Bool := spWf memDefault m

end Sys2Proof.Machine
end

