-- ==== Sys2Proof/Machine/Operands.lean ====
section
/-! DEFINITION. Operands: spans and their physical units under rotation and shadow offset, reading and
writing the register files, the landing of exposed results (R94 to R96, R157 to R169). -/

namespace Sys2Proof.Machine

/-! ### Names to units (R167, R175) -/

/-- The physical plane of a named plane (R167). -/
def rotPlane (vrb : BitVec 8) (p : Nat) : Nat :=
  if p < 512 then p else 512 + (p - 512 + 8 * vrb.toNat) % 2048

/-- The physical predicate of a named predicate (R167). -/
def rotPred (prb : BitVec 5) (n : Nat) : Nat :=
  if n < 32 then n else 32 + (n - 32 + prb.toNat) % 32

/-- The shadow offset that a D form adds to the start of its spans (R175). -/
def shOff (c : Csrs) (d : Bool) : Nat := if d then c.shoff.toNat else 0

/-- A scalar span after the shadow offset: start and width. -/
structure SOp where
  start : Nat
  w : Nat
  deriving DecidableEq, Repr

/-- A vector span after the shadow offset: start of the name and width. -/
structure VOp where
  start : Nat
  w : Nat
  deriving DecidableEq, Repr

/-- A scalar span operand with its shadow offset. -/
def sop (c : Csrs) (d : Bool) (s : SSpan) : SOp := ⟨s.start.toNat + shOff c d, s.w⟩

/-- A vector span operand with its shadow offset. -/
def vop (c : Csrs) (d : Bool) (s : VSpan) : VOp := ⟨s.start.toNat + shOff c d, s.w⟩

/-- A scalar span out of range (R78). -/
def SOp.bad (o : SOp) : Bool := decide (512 < o.start + o.w)

/-- A vector span out of range, or across the boundary of the rotating region (R78, R167). -/
def VOp.bad (o : VOp) : Bool :=
  decide (2560 < o.start + o.w) || (decide (o.start < 512) && decide (512 < o.start + o.w))

/-- Register view: width 8 and a start that is a multiple of 8, after the shadow offset (R160, R175). -/
def VOp.reg (o : VOp) : Bool := o.w == 8 && o.start % 8 == 0

/-- The physical planes of a vector span (R167). -/
def VOp.phys (c : Csrs) (o : VOp) : List Nat :=
  (List.range o.w).map fun q => rotPlane c.vrb (o.start + q)

/-- Register q of the group that a span heads (R166). -/
def VOp.regOf (o : VOp) (q : Nat) : VOp := ⟨o.start + 8 * q, 8⟩

/-- A group of g registers is out of range or straddles the boundary (R166). -/
def VOp.groupBad (o : VOp) (g : Nat) : Bool :=
  decide (2560 < o.start + 8 * g) || (decide (o.start < 512) && decide (512 < o.start + 8 * g))

/-! ### The scalar file (R157, R158) -/

/-- The slices of x0, which read as zero and discard writes. -/
def x0Mask : BitVec 2048 := BitVec.ofNat 2048 (2 ^ 64 - 1)

/-- The unsigned value of a scalar span. -/
def scalarRead (f : BitVec 2048) (o : SOp) : Nat :=
  bitsN (f &&& ~~~x0Mask).toNat (4 * o.start) (4 * o.w)

/-- Writes the low 4w bits of a value to a span; slices of x0 keep nothing. -/
def scalarWrite (f : BitVec 2048) (start w v : Nat) : BitVec 2048 :=
  let m := BitVec.ofNat 2048 ((2 ^ (4 * w) - 1) <<< (4 * start)) &&& ~~~x0Mask
  (f &&& ~~~m) ||| (BitVec.ofNat 2048 (v <<< (4 * start)) &&& m)

/-- The slices of a span that hold anything (R157). -/
def sliceUnits (start w : Nat) : List HUnit :=
  ((rangeFrom start w).filter fun n => 16 ≤ n).map fun n => ⟨.slice, n⟩

def planeUnits (ps : List Nat) : List HUnit := ps.map fun n => ⟨.plane, n⟩

/-- The unit of a physical predicate; p0 is no unit, since it is constant (R169). -/
def predUnits (p : Nat) : List HUnit := if p = 0 then [] else [⟨.pred, p⟩]

/-! ### Predicates, planes, streams, classes -/

def predOnes : Pred := BitVec.allOnes 1024

/-- A physical predicate; p0 reads as all ones (R169). -/
def predRead (r : Regs) (p : Nat) : Pred := if p = 0 then predOnes else spGet 0 r.preds p

def planeRead (r : Regs) (p : Nat) : Plane := spGet 0 r.planes p

/-- The tag a stream register has at reset: L = 64, mask empty, not pristine (R312, R313). -/
def tagDefault : StreamTag := { len := 0, pris := false, mask := 0 }

def tagRead (r : Regs) (q : Nat) : StreamTag := spGet tagDefault r.tags q

/-- The length of a stream (R86, R313). -/
def StreamTag.length (t : StreamTag) : Nat := 64 * 2 ^ t.len.toNat

/-- Lane l of stream register q. -/
def streamRead (r : Regs) (q l : Nat) : Plane := spGet 0 r.streams (128 * q + l)

/-- The cluster of a physical plane (R170). -/
def clusterOf (p : Nat) : Nat := p / 512

/-- The state a cluster is in at an exposed cycle of a mode: a wake that is due is over (R171). -/
def clusterAwake (r : Regs) (m : Mode) (xt : Nat) (k : Nat) : Bool :=
  match lget .awake r.clusters k with
  | .awake => true
  | .asleep => false
  | .waking m' t => decide (m' = m ∧ t ≤ xt)

/-- SEED and RUN of a class seeded with a value in LFSR mode (R322). -/
def lfsrSeeds (v : Nat) : BitVec 4096 :=
  BitVec.ofNat 4096 (packN 32 128 fun l =>
    let x := (v % 2 ^ 32) ^^^ ((l * 0x9E3779B9) % 2 ^ 32)
    if x = 0 then 1 else x)

/-- A generator class at reset: the state after QSEED.lfsr with 0 (R314). -/
def genDefault : GenClass := { ramp := false, d := 0, seed := lfsrSeeds 0, run := lfsrSeeds 0 }

def genRead (r : Regs) (k : Nat) : GenClass := spGet genDefault r.gens k

/-! ### CSRs by number (R177, R389): fields an exposed result or a CSR write changes -/

/-- Writes a doubleword to a writable CSR; reserved bits are dropped (R5, R177 to R179, R389, R394). -/
def Csrs.write (c : Csrs) (n : Nat) (v : Word) : Csrs :=
  match n with
  | 0x000 => { c with cctl := v.extractLsb' 0 4 }
  | 0x001 =>
    let drm := v.extractLsb' 0 3
    { c with fpTen := v.extractLsb' 8 5, fpDcls := v.extractLsb' 4 4,
             fpDrm := if drm.toNat ≤ 5 then drm else c.fpDrm }
  | 0x002 => { c with fpstat := v.extractLsb' 0 5 }
  | 0x003 => { c with shoff := BitVec.ofNat 12 ((v.extractLsb' 0 12).toNat % 2560) }
  | 0x004 => { c with vrb := v.extractLsb' 0 8 }
  | 0x005 => { c with prb := v.extractLsb' 0 5 }
  | 0x006 => { c with lpCount := v.extractLsb' 0 32, lpDepth := v.extractLsb' 32 5 }
  | 0x007 => { c with lplive := v.extractLsb' 0 32 }
  | 0x100 => { c with tbase := (v.extractLsb' 14 38 ++ 0#14).setWidth 64 }
  | 0x101 => { c with tasid := v.extractLsb' 0 16 }
  | 0x142 => { c with tpc := v &&& ~~~3#64 }
  | 0x144 => { c with tact := v.getLsbD 1, pm := v.getLsbD 0 }
  | 0x145 => { c with tvec := v &&& ~~~3#64 }
  | 0x146 => { c with dbgctl := v.extractLsb' 0 2 }
  | 0x148 => { c with tscr := lset c.tscr 0 v }
  | 0x149 => { c with tscr := lset c.tscr 1 v }
  | 0x14A => { c with tscr := lset c.tscr 2 v }
  | 0x14B => { c with tscr := lset c.tscr 3 v }
  | _ => c

/-- CLSTAT (R177): clusters awake, waking, and their owners. -/
def clstat (r : Regs) (m : Mode) (xt : Nat) : Nat :=
  let bit (f : Nat → Bool) : Nat := packN 1 5 fun k => if f k then 1 else 0
  let waking (k : Nat) : Bool :=
    match lget .awake r.clusters k with
    | .waking .. => !clusterAwake r m xt k
    | _ => false
  bit (clusterAwake r m xt) + 2 ^ 5 * bit waking +
    2 ^ 10 * packN 2 5 fun k => (lget 0 r.owners k).toNat

/-- COREID (R177). -/
def coreId (c : Core) : Nat :=
  c.region.toNat + (if c.kind = .g then 2 ^ 15 else 0) + 2 ^ 16 * c.vcore.toNat

/-- The exposed time of the core's mode (R386, R388). -/
def Core.xt (c : Core) : Nat :=
  match c.mode with
  | .node => c.nodeXt
  | .sys => c.sysXt

/-- The value a CSR reads as; none for a number that is not assigned (R177, R389). -/
def Core.csrRead (c : Core) (n : Nat) : Option Word :=
  let r := c.csr
  match n with
  | 0x000 => some (r.cctl.setWidth 64)
  | 0x001 => some ((r.fpTen ++ r.fpDcls ++ 0#1 ++ r.fpDrm : BitVec 13).setWidth 64)
  | 0x002 => some (r.fpstat.setWidth 64)
  | 0x003 => some (r.shoff.setWidth 64)
  | 0x004 => some (r.vrb.setWidth 64)
  | 0x005 => some (r.prb.setWidth 64)
  | 0x006 => some ((r.lpDepth ++ r.lpCount : BitVec 37).setWidth 64)
  | 0x007 => some (r.lplive.setWidth 64)
  | 0x008 => some (wordOf (clstat c.regs c.mode c.xt))
  | 0x009 => some (wordOf (coreId c))
  | 0x100 => some r.tbase
  | 0x101 => some (r.tasid.setWidth 64)
  | 0x140 => some r.tcause
  | 0x141 => some r.tval
  | 0x142 => some r.tpc
  | 0x143 => some r.topc
  | 0x144 => some ((bit1 r.tact ++ bit1 r.pm : BitVec 2).setWidth 64)
  | 0x145 => some r.tvec
  | 0x146 => some (r.dbgctl.setWidth 64)
  | 0x148 => some (lget 0 r.tscr 0)
  | 0x149 => some (lget 0 r.tscr 1)
  | 0x14A => some (lget 0 r.tscr 2)
  | 0x14B => some (lget 0 r.tscr 3)
  | 0x14C => some (r.psave.setWidth 64)
  | 0x14D => some (wordOf c.bank.length)
  | _ => none

/-- The registers marked read-only (R177, R389). -/
def csrReadOnly (n : Nat) : Bool :=
  n == 0x008 || n == 0x009 || n == 0x140 || n == 0x141 || n == 0x143 || n == 0x14C || n == 0x14D

/-! ### Landing (R94 to R96) -/

/-- Writes one unit of a result; the planes of a cluster asleep or waking keep nothing (R170). -/
def landVal (c : Core) (v : UVal) : Core :=
  match v with
  | .slices st w x => { c with regs := { c.regs with scalar := scalarWrite c.regs.scalar st w x } }
  | .plane p x m =>
    if clusterAwake c.regs c.mode c.xt (clusterOf p) then
      { c with regs := { c.regs with
        planes := spSet 0 c.regs.planes p ((planeRead c.regs p &&& ~~~m) ||| (x &&& m)) } }
    else c
  | .pred p x m =>
    if p = 0 then c
    else { c with regs := { c.regs with
      preds := spSet 0 c.regs.preds p ((predRead c.regs p &&& ~~~m) ||| (x &&& m)) } }
  | .stream q lanes tag =>
    { c with regs := { c.regs with
      streams := ((List.range 128).foldl (fun m l => spSet 0 m (128 * q + l) (lget 0 lanes l))
        c.regs.streams),
      tags := spSet tagDefault c.regs.tags q tag } }
  | .gen k g =>
    -- QSEED.ramp leaves SEED as it is (R322)
    let g := if g.ramp then { g with seed := (genRead c.regs k).seed } else g
    { c with regs := { c.regs with
      gens := spSet genDefault c.regs.gens k g,
      tags := (List.range 8).foldl (fun m q =>
        let t := spGet tagDefault m q
        spSet tagDefault m q { t with pris := t.pris && !t.mask.getLsbD k }) c.regs.tags } }
  | .csr n x m =>
    { c with csr := c.csr.write n (((c.csrRead n).getD 0 &&& ~~~m) ||| (x &&& m)) }

/-- The units that a share of a result writes whole. -/
def UVal.whole : UVal → List HUnit
  | .slices st w _ => (rangeFrom st w).map fun n => ⟨.slice, n⟩
  | .plane p _ m => if m = BitVec.allOnes 512 then [⟨.plane, p⟩] else []
  | .pred p _ m => if m = predOnes then [⟨.pred, p⟩] else []
  | .stream q _ _ => [⟨.stream, q⟩]
  | .gen k _ => [⟨.gen, k⟩]
  | .csr n _ _ => [⟨.csr, n⟩]

/-- Units that are written whole have fresh checks (R409, R410). -/
def Core.heal (c : Core) (us : List HUnit) : Core :=
  { c with inner := c.inner.filter fun u => !us.contains u }

/-- Lands one result: its units, and its flags ORed into FPSTAT (R179). -/
def landResult (c : Core) (r : Result) : Core :=
  let c' := (r.vals.foldl landVal c).heal (r.vals.flatMap UVal.whole)
  { c' with csr := { c'.csr with fpstat := c'.csr.fpstat ||| r.flags } }

/-- A tracked operation writes a scalar span (R95). -/
def Core.putSpan (c : Core) (start w v : Nat) : Core :=
  { c.heal ((rangeFrom start w).map fun n => ⟨.slice, n⟩) with
    regs := { c.regs with scalar := scalarWrite c.regs.scalar start w (v % 2 ^ (4 * w)) } }

/-- A result that is due at an exposed cycle and carries no fault to deliver. -/
def Result.due (t : Nat) (r : Result) : Bool := decide (r.land ≤ t) && r.fault.isNone

/-- A vector-slot result that raises an enabled flag as it lands (R222). -/
def Result.excepts (c : Core) (r : Result) : Bool :=
  (r.slot == 2 || r.slot == 3) && (r.flags &&& c.csr.fpTen) != 0

/-- A stream result whose mask names a class seeded since it issued lands with PRIS clear (R318). -/
def UVal.reseed (ks : List Nat) : UVal → UVal
  | .stream q lanes tag =>
    .stream q lanes { tag with pris := tag.pris && !(ks.any fun k => tag.mask.getLsbD k) }
  | v => v

def Result.reseed (ks : List Nat) (r : Result) : Result :=
  { r with vals := r.vals.map (UVal.reseed ks) }

/-- The classes that a result seeds. -/
def Result.seeds (r : Result) : List Nat :=
  r.vals.filterMap fun v => match v with
    | .gen k _ => some k
    | _ => none

/-- Lands the due results of a list that stands in landing order (R96) and keeps the others in flight. A due
result with an enabled flag does not land; its flags do, and the fault 0x21 stays to be delivered (R222). -/
def landGo (t : Nat) : List Nat → List Result → Core → Core
  | ks, [], c => { c with bank := c.bank.map (Result.reseed ks) }
  | ks, r0 :: rs, c =>
    let r := r0.reseed ks
    if !r.due t then landGo t ks rs { c with inflight := c.inflight ++ [r] }
    else if r.excepts c then
      let f : Result := { r with vals := [], flags := 0, fault := some (0x21, r.flags.setWidth 64) }
      landGo t ks rs { c with inflight := c.inflight ++ [f],
                              csr := { c.csr with fpstat := c.csr.fpstat ||| r.flags } }
    else landGo t (ks ++ r.seeds) rs (landResult c r)

/-- Lands for good every result due at or before an exposed cycle. -/
def Core.landTo (c : Core) (t : Nat) : Core := landGo t [] c.inflight { c with inflight := [] }

/-- The core as a group issuing now reads it: every result due by now has landed (R95). -/
def Core.view (c : Core) : Core := c.landTo c.xt

/-- A result is before another in the order of R96: landing cycle, then group, bundle and slot. -/
def Result.before (a b : Result) : Bool :=
  decide (a.land < b.land) || (a.land == b.land &&
    (decide (a.grp < b.grp) || (a.grp == b.grp &&
      (decide (a.bundle < b.bundle) || (a.bundle == b.bundle && decide (a.slot ≤ b.slot))))))

/-- Puts a result in flight at its place in landing order. -/
def insertResult (r : Result) : List Result → List Result
  | [] => [r]
  | x :: xs => if x.before r then x :: insertResult r xs else r :: x :: xs

/-- The units of a result's share. DESIGN CHOICE (log 101): the flags that a result leaves in FPSTAT are no share of it,
and a pending one does not make FPSTAT short of latency (R98). -/
def UVal.units : UVal → List HUnit
  | .slices st w _ => sliceUnits st w
  | .plane p _ _ => [⟨.plane, p⟩]
  | .pred p _ _ => predUnits p
  | .stream q _ _ => [⟨.stream, q⟩]
  | .gen k _ => [⟨.gen, k⟩]
  | .csr n _ _ => [⟨.csr, n⟩]

def Result.units (r : Result) : List HUnit := r.vals.flatMap UVal.units

/-! ### Vector values (R159 to R161) -/

/-- The planes of a list as one packed array: lane l in bits 4w × l and up, plane q in nibble q. -/
def lanesOf (ps : List Plane) : Nat :=
  let w := ps.length
  packN (4 * w) 128 fun l => packN 4 w fun q => bitsN (lget 0 ps q).toNat (4 * l) 4

/-- Plane q of a packed array of 128 lanes of w planes. -/
def planeOf (w v q : Nat) : Plane :=
  BitVec.ofNat 512 (packN 4 128 fun l => bitsN v (4 * w * l + 4 * q) 4)

/-- A vector span's value: 128 lanes of 4w bits, which in register view is the packed array of the
elements (R160). -/
def vread (c : Core) (o : VOp) : Nat := lanesOf ((o.phys c.csr).map (planeRead c.regs))

/-- The result units of writing a packed array to a span under a packed mask of bits. -/
def vwrite (c : Csrs) (o : VOp) (v mask : Nat) : List UVal :=
  (List.range o.w).map fun q =>
    .plane (rotPlane c.vrb (o.start + q)) (planeOf o.w v q) (planeOf o.w mask q)

/-- The mask of the b-bit elements of n that a predicate governs. -/
def elemMask (b n : Nat) (p : Pred) : Nat :=
  packN b n fun i => if p.getLsbD i then 2 ^ b - 1 else 0

end Sys2Proof.Machine
end

