-- ==== Sys2Proof/Machine/Cores.lean ====
section
/-! DEFINITION. The cores by region, the physical place of a storage-view byte, and the findings of the check
chain: SHERR and the platform error log (R14, R46, R266, R279 to R281, R411). -/

namespace Sys2Proof.Machine

/-! ### Cores by region (R14, R46) -/

/-- The kind of the enabled core of a region index (R14). -/
def kindAt (p : Platform) (i : Nat) : Option CoreKind :=
  if i < p.aSites.length then some .a
  else if 512 ≤ i && i < 512 + p.gSites.length then some .g
  else none

/-- The core of a region index; one that is not listed stands as reset leaves it. -/
def State.coreAt (s : State) (i : Nat) : Option Core :=
  if i = s.core.region.toNat then some s.core
  else match s.others.find? fun p => p.1 == i with
    | some p => some p.2
    | none => (kindAt s.plat i).map (Reset.core (BitVec.ofNat 10 i))

/-- Inserts a core in the list of the others, by rising index. -/
def putOther (i : Nat) (c : Core) : List (Nat × Core) → List (Nat × Core)
  | [] => [(i, c)]
  | p :: ps => if i < p.1 then (i, c) :: p :: ps else if i = p.1 then (i, c) :: ps
    else p :: putOther i c ps

def State.setCoreAt (s : State) (i : Nat) (c : Core) : State :=
  if i = s.core.region.toNat then { s with core := c }
  else { s with others := putOther i c s.others }

/-! ### Macro pages (R46, R266, R280) -/

/-- The position of a logical macro on its shelf: its own, or the spare that a valid REMAP entry names. -/
def macroPos (sh : Shelf) (m : Nat) : Nat :=
  match sh.remap.find? fun r =>
      r.getLsbD 15 && (r.extractLsb' 8 3).toNat == m / 32 && (r.extractLsb' 1 5).toNat == m % 32 with
  | some r => if r.getLsbD 0 then 33 else 32
  | none => m % 32

/-- The physical page of (logical macro, half, page). -/
def pageId (sh : Shelf) (m : Nat) (half : Bool) (page : Nat) : Nat :=
  ((34 * (m / 32) + macroPos sh m) * 2 + (if half then 1 else 0)) * 4 + page % 4

/-- The macro a storage-view offset lies in, its physical page, row and byte. -/
structure ViewAt where
  mac : Nat
  pid : Nat
  row : Nat
  k : Nat

def viewAt (sh : Shelf) (off : Nat) : ViewAt :=
  let m := off / 2 ^ 17
  ⟨m, pageId sh m (off.testBit 16) (off / 2 ^ 14 % 4), off / 64 % 256, off % 64⟩

/-! ### Findings (R279, R281, R411) -/

/-- One finding of the shelves goes to SHERR (R279, R280). -/
def logShelf (sh : Shelf) (unc : Bool) (src mac half page row word : Nat) : Shelf :=
  let old := sh.sherr.toNat
  let count := min 65535 (bitsN old 0 16 + 1)
  let keep := old.testBit 63 && old.testBit 62 && !unc
  let top := if keep then old / 2 ^ 16 * 2 ^ 16
    else 2 ^ 63 + (if unc then 2 ^ 62 else 0) + src % 4 * 2 ^ 60 + mac % 256 * 2 ^ 40 + half % 2 * 2 ^ 39 +
      page % 4 * 2 ^ 37 + row % 256 * 2 ^ 29 + word % 8 * 2 ^ 26
  { sh with sherr := wordOf (top + count) }

/-- One entry of the platform error log (R411). -/
def logError (s : State) (hop : Nat) (unc : Bool) (cause syn region : Nat) (addr : Nat) : State :=
  let w0 := hop * 2 ^ 56 + (if unc then 2 ^ 55 else 0) + cause % 128 * 2 ^ 48 + syn % 256 * 2 ^ 40 +
    region % 1024 * 2 ^ 30
  let p := s.plat
  { s with plat := { p with
      log := spSet 0 p.log (p.loghead.toNat % 256) (BitVec.ofNat 128 (w0 + addr % 2 ^ 64 * 2 ^ 64)),
      loghead := p.loghead + 1 } }

/-- A finding in the storage view of a region: SHERR of its core and the error log. The cause is that of the
fault it raises, or 0. -/
def State.shelfFinding (s : State) (i : Nat) (unc : Bool) (src cause off : Nat) : State :=
  match s.coreAt i with
  | none => s
  | some c =>
    let v := viewAt c.shelf off
    logError (s.setCoreAt i { c with
        shelf := logShelf c.shelf unc src v.mac (off / 2 ^ 16) (off / 2 ^ 14) v.row (v.k / 8) })
      5 unc cause 0 i (0xE * 2 ^ 60 + i * 2 ^ 26 + 2 ^ 25 + off)

/-- The vertical bus of a region is in use until a core cycle (R285). -/
def State.busUseTo (s : State) (i last : Nat) : State :=
  match s.coreAt i with
  | none => s
  | some c => s.setCoreAt i { c with shelf := { c.shelf with busLast := max c.shelf.busLast last } }

/-- The vertical bus of a region is in use in this cycle. -/
def State.busUse (s : State) (i : Nat) : State := s.busUseTo i s.cycle

/-- A precise fault 0x54 is a finding of a storage read, at the storage-view address it reports (R279). A duplicate
mismatch 0x14 is a finding of the arithmetic (R409); DESIGN CHOICE (log 96): R411 lists no hop for it, and its entry
is an uncorrectable one of hop 6 with address 0. -/
def State.trapFinding (s : State) (cause : Nat) (tval : Word) : State :=
  let a := tval.toNat
  if cause = 0x54 && a / 2 ^ 60 = 0xE then
    s.shelfFinding (a % 2 ^ 60 / 2 ^ 26) true 1 0x54 (a % 2 ^ 25)
  else if cause = 0x14 then logError s 6 true 0x14 0 s.core.region.toNat 0
  else s

end Sys2Proof.Machine
end

