-- ==== Sys2Proof/Machine/Ops.lean ====
section
/-! DEFINITION. The named operations every meaning is written over: posting results, busy bits and the
checking scoreboard, faults and their delivery, taking a trap and returning from one (R94 to R98,
R385 to R395), and the issue of one instruction from its plan. -/

namespace Sys2Proof.Machine

/-! ### Access to the core -/

def State.setCore (s : State) (c : Core) : State := { s with core := c }
def State.report (s : State) (r : Report) : State := { s with core := { s.core with report := r } }
def State.setRegs (s : State) (r : Regs) : State := { s with core := { s.core with regs := r } }
def State.setCsr (s : State) (r : Csrs) : State := { s with core := { s.core with csr := r } }

/-- The registers as a group issuing now reads them (R95). -/
def State.view (s : State) : Core := s.core.view

/-- Sets the exposed time of the core's mode. -/
def Core.setXt (c : Core) (t : Nat) : Core :=
  match c.mode with
  | .node => { c with nodeXt := t }
  | .sys => { c with sysXt := t }

/-! ### Results and tracked operations -/

/-- Puts an exposed result in flight: it lands `lat` exposed cycles after this group's (R95). -/
def State.post (s : State) (slot : Slot) (lat : Nat) (vals : List UVal) (flags : BitVec 5 := 0)
    (fault : Option (Nat × Word) := none) : State :=
  let c := s.core
  let r : Result := { land := c.xt + lat, grp := c.ctx.grp, bundle := c.ctx.bundle, slot := slot.num,
                      vals := vals, flags := flags, fault := fault, topc := c.ctx.pcb }
  { s with core := { c with inflight := insertResult r c.inflight } }

/-- A tracked operation that writes memory: it follows the loads of its own group (R72). -/
def TOp.stores : TOp → Bool
  | .store .. => true
  | .atom .. => true
  | _ => false

/-- Puts a tracked operation behind every earlier one; a load stands before the stores of its own group,
since it reads memory as it stood before the group (R72, R95). -/
def insertTracked (t : Tracked) (l : List Tracked) : List Tracked :=
  if t.op.stores then l ++ [t]
  else
    let tail := (l.reverse.takeWhile fun x => x.grp == t.grp && x.op.stores).reverse
    l.take (l.length - tail.length) ++ t :: tail

/-- Puts a tracked operation in flight (R95). -/
def State.track (s : State) (slot : Slot) (op : TOp) (ord : Ord := .relaxed) (so : Bool := false)
    (uo : Bool := false) : State :=
  let c := s.core
  let t : Tracked := { grp := c.ctx.grp, bundle := c.ctx.bundle, slot := slot.num, pcb := c.ctx.pcb,
                       ord := ord, so := so, uo := uo, op := op }
  { s with core := { c with tracked := insertTracked t c.tracked } }

/-- The scratchpad tiles that n bytes from an offset touch. -/
def tilesOf (off n : Nat) : List Nat :=
  if n = 0 then [] else rangeFrom (off / 16384) ((off + n - 1) / 16384 - off / 16384 + 1)

/-- The destinations a tracked operation keeps busy (R95, R180, R202, R289). -/
def TOp.units : TOp → List HUnit
  | .load _ _ _ _ st w _ => sliceUnits st w
  | .store .. => []
  | .atom _ _ _ _ _ _ st w => sliceUnits st w
  | .csrWrite n _ _ => [⟨.csr, n⟩]
  | .engWrite ch r _ => [⟨.eng, 16 * ch.num + r⟩]
  | .span st w _ => sliceUnits st w
  | .tidFill _ st w _ => sliceUnits st w
  | .flip t _ => [⟨.tile, t⟩]
  | .trig .. => []
  | .barv _ _ st w => sliceUnits st w
  | .bexp .. => []
  | .binit .. => []
  | .pageRd _ _ st w => sliceUnits st w
  | .pageClr .. => []
  | .reload .. => []
  | .dot .. => []
  | .coll t u _ _ n ty => (rangeFrom t (u * n * (if ty = .mxf4 then 2 else 1))).map fun k => ⟨.acc, k⟩
  | .outl t u _ => (rangeFrom t u).map fun k => ⟨.acc, k⟩
  | .accZero t n => (rangeFrom t n).map fun k => ⟨.acc, k⟩
  | .wideOn t _ => [⟨.acc, t⟩, ⟨.acc, t + 1⟩]
  | .wideOff t => [⟨.acc, t⟩, ⟨.acc, t + 1⟩]
  | .accWrite t u .. => (rangeFrom t u).map fun k => ⟨.acc, k⟩
  | .planes vs _ => vs.flatMap UVal.units
  | .rmw _ _ _ _ _ ps _ => planeUnits ps
  | .scrub .. => []
  | .graphLoad _ _ st w _ _ _ => sliceUnits st w

/-- The tiles of the scratchpad and of the accumulators of a core that n bytes from a pointer touch, in window
0xC or through the core's own region of window 0xE (R95, R196). -/
def padTiles (region a n : Nat) : List HUnit :=
  let mine := a / 2 ^ 60 == 14 && a % 2 ^ 60 / 2 ^ 26 == region
  let off := a % 2 ^ 26
  if a / 2 ^ 60 == 12 || (mine && decide (off < 2 ^ 20)) then
    (tilesOf (a % 2 ^ 20) n).map fun t => ⟨.tile, t⟩
  else if mine && decide (off < 2 ^ 20 + 2 ^ 17) && decide (0 < n) then
    (rangeFrom ((off - 2 ^ 20) / 4096) ((off - 2 ^ 20 + n - 1) / 4096 - (off - 2 ^ 20) / 4096 + 1)).map
      fun t => ⟨.acc, t⟩
  else []

/-- The tiles of its own core that a tracked operation writes (R95). -/
def TOp.tiles (region : Nat) : TOp → List HUnit
  | .store a _ _ bytes => padTiles region a.toNat bytes.length
  | .atom a _ _ _ _ n _ _ => padTiles region a.toNat n
  | .barv b _ _ _ => padTiles region b 16
  | .bexp b _ => padTiles region b 16
  | .binit b _ _ => padTiles region b 16
  | _ => []

/-- Everything a tracked operation of a core keeps busy. -/
def Core.opUnits (c : Core) (op : TOp) : List HUnit := op.units ++ op.tiles c.region.toNat

/-- The tiles of its own core that a tracked load still reads: a later access in window 0xC or 0xD acts after it
(R196, R331). -/
def TOp.sources (region : Nat) : TOp → List HUnit
  | .load a _ n .. => padTiles region a.toNat n
  | _ => []

/-- The units busy for a group: those of tracked operations of earlier groups (R72, R95). -/
def Core.busyUnits (c : Core) : List HUnit :=
  (c.tracked.filter fun t => t.grp != c.ctx.grp).flatMap fun t =>
    c.opUnits t.op ++ t.op.sources c.region.toNat

/-- A CSR write of an earlier group has not landed (R180). Every later group waits for it: which names
rotate, which forms are offset, how results round and what a failure does all depend on CSRs (log 15). -/
def Core.csrPending (c : Core) : Bool :=
  c.tracked.any fun t => t.grp != c.ctx.grp &&
    match t.op with
    | .csrWrite .. => true
    | _ => false

/-- Some unit of a list is in another. -/
def meets (a b : List HUnit) : Bool := a.any fun u => b.contains u

/-! ### The checking scoreboard (R98) -/

/-- The missing exposed cycles of one unit: read while a result is pending, or written so as to land no
later than a pending write. DESIGN CHOICE (log 73): the results of the same group are not pending to it. -/
def unitShort (c : Core) (u : HUnit) (write : Option Nat) : Nat :=
  (c.inflight.filter fun r => r.grp != c.ctx.grp && decide (c.xt < r.land) && r.units.contains u).foldl
    (fun m r => max m (match write with
      | none => r.land - c.xt
      | some lat => if c.xt + lat ≤ r.land then r.land - (c.xt + lat) + 1 else 0)) 0

/-- The code of a unit kind in a trap value (R392). -/
def UnitKind.code : UnitKind → Nat
  | .slice => 0 | .plane => 1 | .pred => 2 | .stream => 3 | .gen => 4 | .csr => 5
  | .acc => 6 | .tile => 7 | .eng => 8 | .latch => 9

/-- A shortfall as its trap value (R392). -/
def shortTval (short : Nat) (u : HUnit) : Word :=
  wordOf (u.kind.code * 2 ^ 60 + (short % 2 ^ 16) * 2 ^ 16 + u.n % 2 ^ 12)

/-- Which of two shortfalls R98 names: the larger; between equals the lower kind, then the lower number. -/
def worseShort (a b : Nat × HUnit) : Nat × HUnit :=
  if b.1 < a.1 then a else if a.1 < b.1 then b
  else if a.2.kind.code < b.2.kind.code ||
    (a.2.kind.code == b.2.kind.code && decide (a.2.n ≤ b.2.n)) then a else b

/-- The latency shortfall of an instruction's reads and writes, if LCHK finds one (R98). -/
def lchk (c : Core) (rd wr : List HUnit) (lat : Nat) : List (Nat × Word) :=
  if c.csr.cctl.getLsbD 0 then
    let all := (rd.map fun u => (unitShort c u none, u)) ++ wr.map fun u => (unitShort c u (some lat), u)
    let short := all.filter fun p => 0 < p.1
    match short with
    | [] => []
    | p :: ps =>
      let w := ps.foldl worseShort p
      [(0x07, shortTval w.1 w.2)]
  else []

/-! ### Traps (R385 to R391) -/

/-- TCAUSE (R390). -/
def tcauseWord (vcore : BitVec 10) (cause : Nat) (slot : Option Nat) (defer : Bool) : Word :=
  wordOf (vcore.toNat * 2 ^ 32 + (if defer then 2 ^ 15 else 0) +
    (match slot with
     | some k => 2 ^ 11 + k % 8 * 2 ^ 8
     | none => 0) + cause % 128)

/-- The causes whose frame names no slot (R390). -/
def slotless (cause : Nat) : Bool := cause == 1 || cause == 2 || cause == 5 || cause == 6

/-- A machine check stops the core for good (R408): issue and exposed time stop, and the debug registers
say why. -/
def Core.check (c : Core) (syn : Nat) (cause : Nat) (addr : Word) : Core :=
  { c with
    run := .stopped,
    dbg := { c.dbg with mcV := true, mcCode := BitVec.ofNat 8 cause, mcSyn := BitVec.ofNat 8 syn,
                        mcaddr := addr, mcNew := true } }

/-- A machine check of the core. What the chip then does with the core's node and channels is `stopCleanup`. -/
def machineCheck (s : State) (syn : Nat) (cause : Nat) (addr : Word) : State :=
  { s with core := s.core.check syn cause addr }

/-- A machine check of the core of a region. -/
def machineCheckAt (s : State) (i syn cause : Nat) (addr : Word) : State :=
  match s.coreAt i with
  | none => s
  | some c => s.setCoreAt i (c.check syn cause addr)

/-- Everything a trap frame says (R388). `resumeXt` is the node exposed cycle in which the group at `tpc`
issues on return (R386). -/
structure TrapInfo where
  cause : Nat
  tval : Word
  slot : Option Nat
  defer : Bool
  tpc : Word
  topc : Word
  resumeXt : Nat

/-- The capture of R391: a trap from node mode holds every result in flight in the snapshot bank; one from
system mode holds none. -/
def captureBank (c : Core) (resumeXt : Nat) : Core :=
  match c.mode with
  | .node => { c with bank := c.inflight, bankBase := c.nodeXt, inflight := [], nodeXt := resumeXt }
  | .sys => c

/-- The wakes of clusters go on in the exposed time of another mode (R171, R172, R386; log 72): one that is due
is over, another has as many exposed cycles left as before. -/
def Core.carryWakes (c : Core) (m : Mode) : Core :=
  let now := c.xt
  let base := match m with
    | .node => c.nodeXt
    | .sys => c.sysXt
  let carry (x : ClusterSt) : ClusterSt :=
    match x with
    | .waking m' t => if m' = m then x else if t ≤ now then .awake else .waking m (base + (t - now))
    | x => x
  { c with regs := { c.regs with clusters := c.regs.clusters.map carry } }

/-- The causes whose trap value is an address (R392). -/
def addrCauses : List Nat :=
  [0x30, 0x31, 0x32, 0x33, 0x35, 0x36, 0x37, 0x38, 0x45, 0x48, 0x51, 0x52, 0x54, 0x55, 0x70]

/-- MCADDR of a fault: its trap value where that is an address, else 0 (R396). The value of 0x42, 0x50 and 0x53 is an
address where an access earned it, and then has a window above 0; DEDUCED (log 92). -/
def faultAddr (cause : Nat) (tval : Word) : Word :=
  if addrCauses.contains cause || ([0x42, 0x50, 0x53].contains cause && decide (2 ^ 60 ≤ tval.toNat)) then tval else 0

/-- Trap entry (R388). With a frame live it is a nested fault: machine check, syndrome 1. -/
def takeTrap (s : State) (t : TrapInfo) : State :=
  if s.core.csr.tact then machineCheck s 1 t.cause (faultAddr t.cause t.tval)
  else
    let c := captureBank (s.core.carryWakes .sys) t.resumeXt
    let x := s.xlat
    -- the access that waited for a walk has its fault
    { s with
      xlat := { x with fails := x.fails.filter fun f => f.who.engine || f.who.region != c.region.toNat },
      core := { c with
      csr := { c.csr with
        tcause := tcauseWord c.vcore t.cause t.slot t.defer, tval := t.tval, tpc := t.tpc &&& ~~~3#64,
        topc := t.topc, pm := decide (c.mode = .sys), tact := true },
      mode := .sys, pc := c.csr.tvec &&& ~~~3#64, wait := .none } }

/-- The debugger's halt (R398): exposed time stops, and the node-mode results in flight are held in the bank;
those of system mode stay with their own stopped time. DVEC is sent. -/
def enterHalt (s : State) (reason : Nat) (dpc : Word) (resumeXt : Nat) : State :=
  let c := captureBank s.core resumeXt
  { s with
    core := { c with
      run := .halted,
      dbg := { c.dbg with reason := BitVec.ofNat 8 reason, dpc := dpc } },
    outbox := s.outbox ++ [.msix c.dbg.dvec] }

/-- Trap entry, or with DBGCTL.HOT the halt that a breakpoint or a single step enters in its place (R393,
R395, R398). -/
def trapOrHalt (s : State) (t : TrapInfo) : State :=
  if s.core.csr.dbgctl.getLsbD 1 && (t.cause == 0x79 || t.cause == 0x7A) then
    enterHalt s (if t.cause = 0x79 then 1 else 2) t.tpc t.resumeXt
  else takeTrap s t

/-- The held results are in flight again; a bank whose check fails is a machine check (R391, R408). -/
def Core.replay (c : Core) : Core := { c with inflight := c.inflight ++ c.bank, bank := [] }

/-- HREQ written to 0: fetch resumes at DPC, in the mode held, and the bank replays (R398). -/
def Core.resume (c : Core) : Core :=
  let c := { c with dbg := { c.dbg with hreq := false } }
  if c.run != .halted then c
  else
    let c := { c with run := .running, pc := c.dbg.dpc &&& ~~~3#64 }
    match c.mode with
    | .node => if c.bankBad then c.check 5 0x7F 0 else c.replay
    | .sys => c

/-- A core counts core cycles of its virtual core's watchdog (R367). -/
def Core.charge (c : Core) (n : Nat) : Core :=
  { c with binding := c.binding.map fun b => { b with cycles := b.cycles + n } }

/-- The exposed cycle by which every result in flight has landed. -/
def lastLanding (c : Core) : Nat := c.inflight.foldl (fun m r => max m r.land) c.xt

/-- A core waits until every result in flight has landed (R365, R393). -/
def Core.landAll (c : Core) : Core :=
  let t := lastLanding c
  ((c.charge (t - c.xt)).setXt t).landTo t

/-- The return from a trap (R393): every system-mode result lands, the mode is PM's, fetch resumes at TPC,
and on return to node mode the bank's results are in flight again on node exposed time. A result that delivers
a fault in place of landing does so at the next group that issues (R222). -/
def trapReturn (s : State) : State :=
  let c := s.core.landAll
  let c := { c with pc := c.csr.tpc &&& ~~~3#64, csr := { c.csr with tact := false } }
  if c.csr.pm then { s with core := c }
  else if c.bankBad then { s with core := c.check 5 0x7F 0 }
  else
    let left := c.inflight.map fun r => { r with land := c.nodeXt }
    { s with core := { c.carryWakes .node with mode := .node, inflight := left ++ c.bank, bank := [] } }

/-- The trap of an instruction's own bundle, from its context (R386, R388): the return goes to this bundle,
one exposed cycle later when an earlier bundle of its group took effect. -/
def trapHere (s : State) (slot : Option Slot) (cause : Nat) (tval : Word) : State :=
  let c := s.core
  trapOrHalt (s.trapFinding cause tval)
    { cause := cause, tval := tval, slot := if slotless cause then none else slot.map Slot.num,
      defer := false, tpc := c.ctx.pcb, topc := c.ctx.pcb,
      resumeXt := if c.ctx.effBefore then c.nodeXt + 1 else c.nodeXt }

/-- The delivery of an earlier operation's fault at this group (R387). -/
def trapDeferred (s : State) (slot cause : Nat) (tval topc : Word) : State :=
  takeTrap s
    { cause := cause, tval := tval, slot := some slot, defer := true, tpc := s.core.ctx.groupPc,
      topc := topc, resumeXt := s.core.nodeXt }

/-- The result due by now that delivers a fault (R222, R308), earliest first. -/
def dueFault (c : Core) : Option Result :=
  c.inflight.find? fun r => decide (r.land ≤ c.xt) && (r.fault.isSome || r.excepts c)

/-- The fault that a due result delivers: the one it carries, else 0x21 with its flags (R222, R392). -/
def Result.deliver (r : Result) : Nat × Word := r.fault.getD (0x21, r.flags.setWidth 64)

/-- The core without a result that delivers its fault; its flags are ORed into FPSTAT (R222). -/
def Core.dropResult (c : Core) (r : Result) : Core :=
  { c with inflight := c.inflight.erase r, csr := { c.csr with fpstat := c.csr.fpstat ||| r.flags } }

/-! ### The plan of an instruction and its issue -/

/-- What an instruction does when its group issues: the units it reads and writes, the latency of its
exposed results, the units a tracked operation of it will write; whether it takes delivery of every failed
access (R197); the macros it names (R294); the energy it is charged in pJ (R290); the faults it earns with
their trap values; the wait that holds it; whether a walk is still open, which holds it before any fault of
code 0x30 or above (R57); what a wait itself starts (a walk, the wake of a segment); and its effect. -/
structure Plan where
  rd : List HUnit := []
  wr : List HUnit := []
  lat : Nat := 0
  tw : List HUnit := []
  sync : Bool := false
  macros : List Nat := []
  pj : Nat := 0
  faults : List (Nat × Word) := []
  stall : Option Why := none
  walk : Bool := false
  onStall : State → State := id
  eff : State → State := id

/-- The fault with the lowest code; between equals the first (R11). -/
def lowestFault : List (Nat × Word) → Option (Nat × Word)
  | [] => none
  | f :: fs =>
    match lowestFault fs with
    | none => some f
    | some g => if g.1 < f.1 then some g else some f

/-- A unit of the core that an instruction reads, and whose check fails (R409). -/
def badUnit (c : Core) (p : Plan) : Bool := meets c.inner p.rd

/-- The failure of an earlier access that an instruction takes delivery of: the earliest issued (R197, R294). -/
def failureFor (c : Core) (p : Plan) : Option Failure :=
  if c.failures.any fun f => p.sync || meets f.units (p.rd ++ p.wr ++ p.tw) ||
      f.macros.any fun m => p.macros.contains m then
    c.failures.head?
  else none

/-- A failure was issued before another. -/
def Failure.before (a b : Failure) : Bool :=
  decide (a.grp < b.grp) || (a.grp == b.grp &&
    (decide (a.bundle < b.bundle) || (a.bundle == b.bundle && decide (a.slot ≤ b.slot))))

/-- Records a failure at its place in issue order. -/
def insertFailure (f : Failure) : List Failure → List Failure
  | [] => [f]
  | g :: gs => if g.before f then g :: insertFailure f gs else f :: g :: gs

/-- Energy left in the core's allowance, in pJ (R290, R414): units of 1 nJ less the running remainder. An
instruction that is not charged needs none. -/
def kilnPays (c : Core) (pj : Nat) : Bool := pj == 0 || decide ((c.kilnPj + pj) / 1000 ≤ c.kilnUnits)

/-- Charges an instruction: whole units leave the allowance as the remainder passes 1 nJ (R290). -/
def kilnCharge (c : Core) (pj : Nat) : Core :=
  if pj = 0 then c
  else { c with kilnPj := (c.kilnPj + pj) % 1000, kilnUnits := c.kilnUnits - (c.kilnPj + pj) / 1000 }

/-- The slot number of an instruction, for reports. -/
def slotNum (i : Instr) : Nat := ((slotOf i).map Slot.num).getD 0

/-- The faults that can be reported now: while a walk is open, those below 0x30 (R11, R57). -/
def dueNow (p : Plan) (l : List (Nat × Word)) : List (Nat × Word) :=
  if p.walk then l.filter fun f => decide (f.1 < 0x30) else l

/-- What holds the instruction. -/
def Plan.waits (p : Plan) : Option Why := if p.walk then some .walk else p.stall

/-- The issue of one instruction from its plan: its encoding's own faults; delivery of an earlier fault
(R387); the machine check of a register that it reads (R408); the wait on busy units (R95); its faults, lowest
code first (R11); the waits of its entry; the energy it needs (R283); then its effect. -/
def runPlan (i : Instr) (s : State) (p : Plan) : Host.Outcome State Fault Refusal :=
  let c := s.core
  match fieldFault i with
  | some k => .next ((trapHere s (slotOf i) k (encode i)).report (.trapped k (encode i) p.pj))
  | none =>
    match dueFault c with
    | some r =>
      let k := r.deliver.1
      let v := r.deliver.2
      let s' := s.setCore (c.dropResult r)
      .next ((trapDeferred s' r.slot k v r.topc).report (.deferred k v r.topc r.slot))
    | none =>
      match failureFor c p with
      | some f =>
        let s' := s.setCore { c with failures := [] }
        .next ((trapDeferred s' f.slot f.cause f.tval f.topc).report
          (.deferred f.cause f.tval f.topc f.slot))
      | none =>
        if badUnit c p then .next ((machineCheck s 5 0x7F 0).report .ended)
        else if c.csrPending || meets c.busyUnits (p.rd ++ p.wr ++ p.tw) then
          .next (s.report (.stalled .busy))
        else match lowestFault (dueNow p (lchk c p.rd p.wr p.lat ++ p.faults)) with
          | some f => .next ((trapHere s (slotOf i) f.1 f.2).report (.trapped f.1 f.2 p.pj))
          | none =>
            match p.waits with
            | some w => .next ((p.onStall s).report (.stalled w))
            | none =>
              if kilnPays c p.pj then
                .next ((p.eff (s.setCore (kilnCharge c p.pj))).report .issued)
              else .next (s.report (.stalled .energy))

/-- The faults of a list of tests, in order. -/
def faultsOf (l : List (Bool × Nat × Word)) : List (Nat × Word) :=
  (l.filter fun p => p.1).map fun p => p.2

end Sys2Proof.Machine
end

