-- ==== Sys2Proof/Machine/Coherence.lean ====
section
/-! DEFINITION. Main memory and the caches: physical addresses, line metadata, the home controller, the L2,
and coherent reads and writes of the chip (R17 to R41). -/

namespace Sys2Proof.Machine

/-! ### Physical addresses (R17, R19, R429) -/

def hostTier (pa : Nat) : Bool := pa.testBit 51
def homeChip (pa : Nat) : Nat := bitsN pa 40 8

/-- MEMSIZE of the current descriptor (R424). -/
def memSize (p : Platform) : Nat := bitsN p.desc.toNat 192 64

/-- The owner IDs of the chips present in the domain (R429). -/
def presentChips (p : Platform) : List Nat :=
  if p.domEn then (List.range 255).filter fun c => (spGet 0 p.doments c).getLsbD 63
  else [p.ownid.toNat]

/-- The usable size of a chip's memory, 0 for a chip that is absent. -/
def chipSize (p : Platform) (c : Nat) : Nat :=
  if p.domEn then
    if c < 255 && (spGet 0 p.doments c).getLsbD 63 then bitsN (spGet 0 p.doments c).toNat 0 41 else 0
  else if c = p.ownid.toNat then memSize p else 0

/-- Whether a physical address names memory (R19). -/
def paOk (p : Platform) (pa : Nat) : Bool :=
  decide (pa < 2 ^ 52) &&
    (hostTier pa || (bitsN pa 48 3 == 0 && homeChip pa != 255 &&
      decide (bitsN pa 0 40 < chipSize p (homeChip pa))))

/-- This chip is the home of a line. -/
def isHome (p : Platform) (line : Nat) : Bool :=
  !hostTier (line * 256) && homeChip (line * 256) == p.ownid.toNat

/-! ### Metadata (R20, R21) -/

/-- A decoded metadata field. -/
structure Meta where
  atag : Nat
  st : Nat
  owner : Nat
  hint : Nat
  deriving DecidableEq, Repr

def Meta.ofWord (w : BitVec 32) : Meta :=
  ⟨bitsN w.toNat 16 8, bitsN w.toNat 13 3, bitsN w.toNat 5 8, bitsN w.toNat 0 5⟩

def Meta.word (m : Meta) : BitVec 32 :=
  BitVec.ofNat 32 (m.atag % 256 * 2 ^ 16 + m.st % 8 * 2 ^ 13 + m.owner % 256 * 2 ^ 5 + m.hint % 32)

/-- The STATE code of a line state. -/
def LineSt.code : LineSt → Nat
  | .i => 0
  | .s => 1
  | .e => 2
  | .m => 3
  | .o => 4

def groupOf (c : Nat) : Nat := c / 8
def mergeHint (h g : Nat) : Nat := if h = g then h else 31

/-- The target set of an invalidation (R22), without the requester and the owner. -/
def targetSet (p : Platform) (h : Nat) (leave : List Nat) : List Nat :=
  ((if h = 31 then presentChips p ++ [255] else (presentChips p).filter fun c => groupOf c == h)).filter
    fun c => !leave.contains c

/-! ### Lines -/

def l2None : L2Line := { st := .i, dirty := 0, data := 0, bad := 0 }
def l2Get (c : Coh) (line : Nat) : L2Line := spGet l2None c.l2 line

/-- Puts a line into the L2, or with state I takes it out; its errors go with it. -/
def l2Put (c : Coh) (line : Nat) (x : L2Line) : Coh :=
  { c with l2 := spSet l2None c.l2 line (if x.st = .i then l2None else x),
           l2Err := if x.st = .i then spClear (32 * line) 32 c.l2Err else c.l2Err }

def State.setCoh (s : State) (c : Coh) : State := { s with coh := c }
def State.send (s : State) (m : Msg) : State := { s with outbox := s.outbox ++ [m] }

/-- The data of a line in memory. -/
def memLine (m : List Host.Cell) (line : Nat) : BitVec 2048 :=
  BitVec.ofNat 2048 (leNat (memRead m (256 * line) 256))

/-- Writes the sectors of a line that a mask names. -/
def memSectors (m : List Host.Cell) (line : Nat) (dirty : BitVec 4) (data : BitVec 2048) :
    List Host.Cell :=
  (List.range 4).foldl (fun m k =>
    if dirty.getLsbD k then
      memWrite m (256 * line + 64 * k) (leBytes 64 (bitsN data.toNat (512 * k) 512))
    else m) m

/-! ### Errors of sectors (R409, R410; log 9) -/

/-- The sectors of a line that a table marks uncorrectable. -/
def badSectors (e : Sparse WordErr) (line : Nat) : BitVec 4 :=
  BitVec.ofNat 4 ((List.range 4).foldl (fun m k =>
    if spGet .correctable e (4 * line + k) = .uncorrectable then m + 2 ^ k else m) 0)

/-- Sectors of a line that a mask names are written anew: their check is fresh, but a sector that comes with
a failed check stays bad (R410). -/
def markSectors (e : Sparse WordErr) (line : Nat) (mask bad : BitVec 4) : Sparse WordErr :=
  (List.range 4).foldl (fun e k =>
    if mask.getLsbD k then
      spSet .correctable e (4 * line + k) (if bad.getLsbD k then .uncorrectable else .correctable)
    else e) e

/-- The 64-bit words of a list that a table marks uncorrectable, one bit for each sector of the line they are
in. -/
def badWords (e : Sparse WordErr) (line : Nat) : BitVec 4 :=
  BitVec.ofNat 4 ((List.range 4).foldl (fun m k =>
    if (rangeFrom (32 * line + 8 * k) 8).any fun w => spGet .correctable e w == .uncorrectable then m + 2 ^ k
    else m) 0)

/-- The sectors of a line of the L2 that do not leave it as good: those that came bad, and those with a word that
cannot be corrected. -/
def l2Bad (c : Coh) (line : Nat) : BitVec 4 := (l2Get c line).bad ||| badWords c.l2Err line

/-- A line of the L2 as it leaves it. -/
def l2Data (c : Coh) (line : Nat) : LineData := ⟨(l2Get c line).data, l2Bad c line⟩

/-- Writes sectors of a line of this chip's memory. -/
def homeSectors (s : State) (line : Nat) (mask : BitVec 4) (d : LineData) : State :=
  { s with mem := memSectors s.mem line mask d.bits,
           coh := { s.coh with dataErr := markSectors s.coh.dataErr line mask d.bad } }

/-- Writes the enabled bytes of one sector. -/
def memEnabled (m : List Host.Cell) (pa : Nat) (en : BitVec 64) (d : BitVec 512) : List Host.Cell :=
  (List.range 64).foldl (fun m k =>
    if en.getLsbD k then memWrite m (pa / 64 * 64 + k) [BitVec.ofNat 8 (bitsN d.toNat (8 * k) 8)]
    else m) m

/-- The metadata after the owner's write-back (R27). -/
def Meta.written (m : Meta) : Meta := if m.st = 4 then ⟨m.atag, 1, 0, m.hint⟩ else ⟨m.atag, 0, 0, 0⟩

def setMeta (s : State) (line : Nat) (m : Meta) : State :=
  let c := s.coh
  s.setCoh { c with meta_ := spSet 0 c.meta_ line m.word }

/-- Replaces n bytes of a line's data from an offset. -/
def lineSet (data : BitVec 2048) (off : Nat) (bytes : List Byte) : BitVec 2048 :=
  BitVec.ofNat 2048 (setBitsN data.toNat (8 * off) (8 * bytes.length) (leNat bytes))

/-- The L1 copies of a line are dropped in every core (R33). -/
def dropL1 (s : State) (line : Nat) : State :=
  let f (c : Core) : Core := { c with l1 := c.l1.filter fun x => x / 4 != line }
  { s with core := f s.core, others := s.others.map fun p => (p.1, f p.2) }

/-! ### Counters and registers (R32, R39, R40, R41) -/

/-- Adds one to a saturating 16-bit count of COHERR. -/
def bumpErr (s : State) (lo : Nat) : State :=
  let v := bitsN s.coh.coherr.toNat lo 16
  if v = 65535 then s
  else s.setCoh { s.coh with coherr := BitVec.ofNat 64 (setBitsN s.coh.coherr.toNat lo 16 (v + 1)) }

/-- Logs the uncorrectable sectors of a line that a mask names (R411). -/
def logBad (s : State) (line : Nat) (bad : BitVec 4) (region : Nat) : State :=
  (List.range 4).foldl (fun t k =>
    if bad.getLsbD k then logError t 0 true 0x70 0 region (256 * line + 64 * k) else t) s

/-- The home reads a line: single-bit errors are corrected in the fetch and logged; a sector that cannot be
corrected stays marked on its way (R409, R410). -/
def homeFetch (s : State) (line region : Nat) : State × LineData :=
  let fixed (q : Nat × WordErr) : Bool := q.1 / 4 == line && q.2 != .uncorrectable
  let found := s.coh.dataErr.filter fixed
  let s := found.foldl (fun t q => logError t 0 false 0 0 region (64 * q.1)) s
  let s := if found.isEmpty then s
    else s.setCoh { s.coh with dataErr := s.coh.dataErr.filter fun q => !fixed q }
  (s, ⟨memLine s.mem line, badSectors s.coh.dataErr line⟩)

/-! ### The L2 answers snoops (R26) -/

/-- Sectors of a line are read out of the L2: words with a single-bit error are corrected, and every finding is
logged; a sector with a word that cannot be corrected goes on as bad (R409 to R411). -/
def l2Read (s : State) (line : Nat) (mask : BitVec 4) : State × LineData :=
  let d := l2Data s.coh line
  let found := s.coh.l2Err.filter fun e => e.1 / 32 == line && mask.getLsbD (e.1 / 8 % 4)
  if found.isEmpty then (s, d)
  else
    let s := found.foldl (fun t e => logError t 2 (e.2 == .uncorrectable) 0 0 0 (8 * e.1)) s
    (s.setCoh { s.coh with l2Err := s.coh.l2Err.filter fun e => !(found.contains e && e.2 != .uncorrectable) }, d)

/-- The next state, the answer, and whether data goes with it. -/
def snoopResult (k : SnoopKind) (st : LineSt) : LineSt × SnoopAns × Bool :=
  match k, st with
  | .fwdS, .m => (.o, .dirty, true)
  | .fwdS, .o => (.o, .dirty, true)
  | .fwdS, .e => (.s, .clean, false)
  | .fwdX, .m => (.i, .dirty, true)
  | .fwdX, .o => (.i, .dirty, true)
  | .fwdX, .e => (.i, .clean, false)
  | .rcl, .m => (.i, .dirty, true)
  | .rcl, .o => (.i, .dirty, true)
  | .rcl, _ => (.i, .ack, false)
  | .inv, _ => (.i, .ack, false)
  | .fwdS, st => (st, .notHeld, false)
  | .fwdX, st => (st, .notHeld, false)

/-- The chip's L2 answers a snoop for a line. -/
def l2Snoop (s : State) (line : Nat) (k : SnoopKind) : State × SnoopAns × Option LineData :=
  let x := l2Get s.coh line
  let r := snoopResult k x.st
  let f := if r.2.2 then l2Read s line 15 else (s, l2Data s.coh line)
  let s := if r.1 = .i then dropL1 f.1 line else f.1
  (s.setCoh (l2Put s.coh line { x with st := r.1 }), r.2.1, if r.2.2 then some f.2 else none)

/-! ### The home controller (R23 to R25, R28, R31, R32, R37, R38, R143) -/

/-- The requester's owner ID. -/
def HomeReq.who : HomeReq → Nat
  | .rds r => r.toNat
  | .rdx r => r.toNat
  | .memrd .. => 255
  | .memwr .. => 255
  | .recall r => r.toNat
  | .mend => 255
  | .wb r .. => r.toNat

/-- Where an owner's dirty data goes: to the chip that asks for the line, else to the home (R26, R37). -/
def HomeReq.dataTo (ownid : Nat) : HomeReq → Nat
  | .rds r => r.toNat
  | .rdx r => r.toNat
  | _ => ownid

/-- Whether a request resolves in the RdX column. -/
def HomeReq.excl : HomeReq → Bool
  | .rds _ => false
  | .memrd _ x => x
  | _ => true

/-- The region an error log entry of a request names: that of the core that asks, when it is of this chip. -/
def HomeReq.finder (s : State) (q : HomeReq) : Nat :=
  if q.who = s.plat.ownid.toNat then s.core.region.toNat else 0

/-- The host writes as the recorded owner of a line (R37). -/
def hostOwns (m : Meta) : Bool := m.owner = 255 && (m.st = 2 || m.st = 3 || m.st = 4)

/-- The snoops a request needs against the metadata it found (R25, R38). DESIGN CHOICE (log 86): an RdS of the
recorded owner in O, which cannot arise, sends Inv to the sharers. -/
def snoopsFor (p : Platform) (m : Meta) (what : HomeReq) : List (Nat × SnoopKind) :=
  let r := what.who
  match what with
  | .mend => []
  | .wb .. => []
  | .recall _ =>
    let held := if m.st = 0 then [] else if m.st = 1 then targetSet p m.hint []
      else if m.st = 4 then m.owner :: targetSet p m.hint [m.owner] else [m.owner]
    held.map fun c => (c, .rcl)
  | .memwr .. =>
    if hostOwns m then [(255, .inv)]
    else
      match m.st with
      | 1 => (targetSet p m.hint [255]).map fun c => (c, .inv)
      | 2 => [(m.owner, .fwdX)]
      | 3 => [(m.owner, .fwdX)]
      | 4 => (m.owner, .fwdX) :: (targetSet p m.hint [255, m.owner]).map fun c => (c, .inv)
      | _ => []
  | _ =>
    if m.st = 1 then (if what.excl then (targetSet p m.hint [r]).map fun c => (c, .inv) else [])
    else if m.st = 2 || m.st = 3 then
      if m.owner = r then [] else [(m.owner, if what.excl then .fwdX else .fwdS)]
    else if m.st = 4 then
      if m.owner = r then (targetSet p m.hint [r]).map fun c => (c, .inv)
      else if what.excl then
        (m.owner, .fwdX) :: (targetSet p m.hint [r, m.owner]).map fun c => (c, .inv)
      else [(m.owner, .fwdS)]
    else []

/-- Some answer gave dirty data. -/
def Resol.isDirty (x : Resol) : Bool := x.dirty.isSome || x.hostDirty != 0

/-- The owner no longer held the line because its write-back crossed the snoop (R28). -/
def Resol.crossed (x : Resol) : Bool := x.absorbed && !x.isDirty && !x.clean

/-- The result of a resolution: new metadata, and the state granted (R25). DESIGN CHOICE (log 85): an owner recorded
in M that answers FwdS clean or not held is taken as one recorded in E, and one recorded in O as dirty. DESIGN
CHOICE (log 86): an RdS of the recorded owner in O is granted E. -/
def grantFor (m : Meta) (x : Resol) (r : Nat) (excl : Bool) : Meta × LineSt :=
  if excl then (⟨r, 3, r, 0⟩, .m)
  else if m.st = 1 then (⟨r, 1, 0, mergeHint m.hint (groupOf r)⟩, .s)
  else if (m.st = 2 || m.st = 3) && m.owner != r then
    if x.isDirty then (⟨r, 4, m.owner, groupOf r⟩, .s)
    else if x.clean then (⟨r, 1, 0, mergeHint (groupOf m.owner) (groupOf r)⟩, .s)
    else (⟨r, 2, r, 0⟩, .e)
  else if m.st = 4 && m.owner != r then (⟨r, 4, m.owner, mergeHint m.hint (groupOf r)⟩, .s)
  else (⟨r, 2, r, 0⟩, .e)

/-- Events of the migration ring that are not written yet (R40). -/
def Put.isMigration (p : Put) : Bool :=
  match p.after with
  | .migration => true
  | _ => false

/-- Counts a resolution in the migration counter of its region (R39), and raises the event of R40: it is
written to its slot of the ring first; MIGHEAD and the MSI-X follow the write. Log 65: a store to a host-tier
line held in S, which asks the host for ownership, counts as a miss. -/
def countRegion (s : State) (pa : Nat) : State :=
  let c := s.coh
  let lo := c.miglo.toNat / 65536 * 65536
  let hi := min (c.mighi.toNat / 65536 * 65536) (lo + 2 ^ 36)
  if lo ≤ pa && pa < hi then
    let i := (pa - lo) / 65536
    let v := spGet 0 c.counters i
    if v = 0xFFFF then s
    else
      let c := { c with counters := spSet 0 c.counters i (v + 1) }
      if c.migEn && v + 1 == c.migTh && c.migTh != 0 then
        let open_ := (c.puts.filter Put.isMigration).length
        if (c.mighead - c.migtail).toNat + open_ = 256 then s.setCoh { c with migOvf := true }
        else
          let ev := leBytes 8 ((lo + i * 65536) / 65536 * 65536 % 2 ^ 52 + c.migTh.toNat)
          let slot := c.migring.toNat + 8 * ((c.mighead.toNat + open_) % 256)
          s.setCoh { c with puts := c.puts ++ [⟨slot, ev, .migration⟩] }
      else s.setCoh c
  else s

/-- Fills the L2 with a granted line; sectors that memory does not hold come dirty (R25, R27, R36). -/
def l2Fill (s : State) (line : Nat) (st : LineSt) (d : LineData) (dirty : BitVec 4) : State :=
  let c := s.coh
  s.setCoh (l2Put { c with misses := c.misses.filter fun m => m.1 != line
                           failed := c.failed.filter fun f => f.1 != line } line
    { st := st, dirty := dirty, data := d.bits, bad := d.bad })

/-- While a line is rebuilt the home writes the sectors that a holder returns as they come (R32; log 87). -/
def rebuildData (s : State) (x : Resol) (who : Party) (ans : SnoopAns) (data : Option LineData) : State :=
  match data with
  | none => s
  | some d =>
    if x.rebuild && ans == .dirty then
      match who with
      | .chip _ => homeSectors s x.line 15 d
      | .host k => homeSectors s x.line (BitVec.ofNat 4 (2 ^ k.toNat)) ⟨d.bits <<< (512 * k.toNat), 0⟩
    else s

/-- What a rebuild leaves: the line is in I with a fresh field, and its data are in memory (R32). -/
def rebuilt (s : State) (line : Nat) : State :=
  bumpErr (s.setCoh { s.coh with metaErr := s.coh.metaErr.filter fun q => q.1 != line }) 16

/-- The home grants a chip's RdS or RdX (R25). -/
def homeGrant (s : State) (x : Resol) (m : Meta) (r : Nat) (excl : Bool) : State :=
  let own := s.plat.ownid.toNat
  let g := grantFor m x r excl
  let s := countRegion (setMeta s x.line g.1) (256 * x.line)
  -- an owner in O keeps its own current data
  if m.st = 4 && m.owner = r && excl then
    if r = own then
      s.setCoh (l2Put { s.coh with misses := s.coh.misses.filter fun q => q.1 != x.line } x.line
        { l2Get s.coh x.line with st := .m })
    else s.send (.complete r x.line .m none)
  else match x.dirty with
    | some d => if r = own then l2Fill s x.line g.2 d (if g.2 = .m then 15 else 0)
                else s.send (.complete r x.line g.2 none)
    | none =>
      let f := homeFetch s x.line (x.what.finder s)
      if r = own then l2Fill f.1 x.line g.2 f.2 0
      else (logBad f.1 x.line f.2.bad 0).send (.complete r x.line g.2 (some f.2))

/-- One sector goes to the host, or the error response when its check failed (R37, R38, R409). -/
def hostSector (s : State) (pa : Nat) (d : LineData) : State :=
  let k := pa / 64 % 4
  if d.bad.getLsbD k then (logError s 0 true 0x70 0 0 (pa / 64 * 64)).send (.hostError pa)
  else s.send (.hostData pa (BitVec.ofNat 512 (bitsN d.bits.toNat (512 * k) 512)))

/-- The enabled bytes of a sector are written for the host; a part of a sector whose check fails cannot be
merged, and is answered with an error (R37, R38, R409). -/
def hostWrite (s : State) (pa : Nat) (en : BitVec 64) (d : BitVec 512) : State :=
  let line := pa / 256
  let k := pa / 64 % 4
  if en != BitVec.allOnes 64 && (badSectors s.coh.dataErr line).getLsbD k then
    (logError s 0 true 0x70 0 0 (pa / 64 * 64)).send (.hostError pa)
  else
    { s with mem := memEnabled s.mem pa en d
             coh := { s.coh with dataErr := markSectors s.coh.dataErr line (BitVec.ofNat 4 (2 ^ k)) 0 } }.send
      (.hostDone pa)

/-- Every answer is in: the new metadata, dirty data, the completion (R23). -/
def homeFinish (s : State) (x : Resol) : State :=
  let own := s.plat.ownid.toNat
  let s := s.setCoh { s.coh with resol := s.coh.resol.filter fun y => y.line != x.line }
  let m0 := Meta.ofWord (spGet 0 s.coh.meta_ x.line)
  let s := if x.rebuild then rebuilt s x.line else s
  -- a rebuild, or a write-back that crossed the snoop, resolves from I
  let m : Meta := if x.rebuild then ⟨0, 0, 0, 0⟩ else if x.crossed then ⟨m0.atag, 0, 0, 0⟩ else m0
  let x := if x.rebuild then { x with dirty := none, hostDirty := 0, clean := false } else x
  -- the sectors that the host gave back are written
  let s := if x.hostDirty = 0 then s else homeSectors s x.line x.hostDirty ⟨x.hostData, 0⟩
  let given (s : State) : State :=
    match x.dirty with
    | some d => homeSectors s x.line 15 d
    | none => s
  match x.what with
  | .mend => setMeta s x.line m
  | .wb .. => setMeta s x.line m
  | .recall r =>
    let s := setMeta (given s) x.line ⟨m.atag, 0, 0, 0⟩
    if r.toNat = own then s
    else
      let f := homeFetch s x.line 0
      (logBad f.1 x.line f.2.bad 0).send (.complete r.toNat x.line .i (some f.2))
  | .memwr pa en d _ =>
    -- an owner that keeps nothing has given back its other sectors, and the line is written back (R38)
    if hostOwns m then setMeta (hostWrite s pa en d) x.line m.written
    else countRegion (setMeta (hostWrite (given s) pa en d) x.line ⟨255, 0, 0, 0⟩) pa
  | .memrd pa ex =>
    -- dirty data of a chip has come to the home
    let g := grantFor m x 255 ex
    let s := countRegion (setMeta (given s) x.line g.1) pa
    if m.st = 4 && m.owner = 255 && ex then s.send (.hostDone pa)
    else match x.dirty with
      | some d => hostSector s pa d
      | none =>
        let f := homeFetch s x.line 0
        hostSector f.1 pa f.2
  | .rds r => homeGrant s x m r.toNat false
  | .rdx r => homeGrant s x m r.toNat true

/-- One answer joins a resolution: a chip's for the line, the host's for one sector (R26, R38). -/
def homeAnswer (x : Resol) (who : Party) (ans : SnoopAns) (data : Option LineData) : Resol :=
  let x := { x with awaiting := x.awaiting.filter fun c => c != who, clean := x.clean || ans == .clean }
  if ans != .dirty then x
  else match who with
    | .chip _ =>
      { x with
        dirty := (match data with
          | some d => some d
          | none => x.dirty),
        holders := x.holders + 1 }
    | .host k =>
      { x with
        hostDirty := x.hostDirty ||| BitVec.ofNat 4 (2 ^ k.toNat),
        hostData := BitVec.ofNat 2048 (setBitsN x.hostData.toNat (512 * k.toNat) 512
          ((data.map fun d => bitsN d.bits.toNat 0 512).getD 0)),
        holders := if x.hostDirty = 0 then x.holders + 1 else x.holders }

/-- The metadata of a line cannot be read: an uncorrectable error or an invalid STATE (R32). -/
def metaBroken (c : Coh) (line : Nat) : Bool :=
  (match spGet WordErr.correctable c.metaErr line with
   | .uncorrectable => true
   | _ => false) || decide (5 ≤ (Meta.ofWord (spGet 0 c.meta_ line)).st)

/-- The parties that a snoop of an owner ID goes to: a chip, or the host sector by sector. When the host writes
a sector as owner, its other three are asked for (R38). -/
def snoopParties (what : HomeReq) (all : Bool) (c : Nat) : List Party :=
  if c = 255 then
    ((List.range 4).filter fun k => all || match what with
      | .memwr pa .. => k != pa / 64 % 4
      | _ => true).map fun k => .host (BitVec.ofNat 2 k)
  else [.chip (BitVec.ofNat 8 c)]

/-- One snoop of a resolution: the chip's own L2 answers at once, another party is sent its snoop. -/
def snoopOne (own line : Nat) (what : HomeReq) (q : State × Resol) (t : Nat × SnoopKind) : State × Resol :=
  let dest := if t.2 = .rcl then own else what.dataTo own
  if t.1 = own then
    let a := l2Snoop q.1 line t.2
    let me : Party := .chip (BitVec.ofNat 8 own)
    let s := match a.2.2 with
      | some d => if dest = own then a.1 else a.1.send (.data dest line d)
      | none => a.1
    (rebuildData s q.2 me a.2.1 a.2.2, homeAnswer q.2 me a.2.1 a.2.2)
  else
    let ps := snoopParties what q.2.rebuild t.1
    (ps.foldl (fun s p => s.send (.snoop p line t.2 dest)) q.1,
      { q.2 with awaiting := q.2.awaiting ++ ps })

/-- What the fetch of a line's metadata finds (R32): a single-bit error is corrected and counted, one that cannot be
corrected is logged. -/
def metaFetch (s : State) (line region : Nat) : State :=
  if !s.coh.metaErr.any fun q => q.1 == line then s
  else if metaBroken s.coh line then logError s 0 true 0 0 region (256 * line)
  else
    logError (bumpErr (s.setCoh { s.coh with metaErr := s.coh.metaErr.filter fun q => q.1 != line }) 0)
      0 false 0 0 region (256 * line)

/-- A request of the recorded owner in M, which cannot arise (R25). -/
def ownerAsks (m : Meta) (what : HomeReq) : Bool :=
  m.st == 3 && m.owner == what.who && match what with
    | .rds _ => true
    | .rdx _ => true
    | .memrd .. => true
    | _ => false

/-- Resolves a request at the home: reads data and metadata together, snoops, and finishes when no answer is
outstanding. -/
def homeOpen (s : State) (line : Nat) (what : HomeReq) : State :=
  let p := s.plat
  let broken := metaBroken s.coh line
  let m := Meta.ofWord (spGet 0 s.coh.meta_ line)
  let s := metaFetch s line (what.finder s)
  let s := if !broken && ownerAsks m what then bumpErr s 32 else s
  let snoops : List (Nat × SnoopKind) :=
    if broken then (presentChips p ++ [255]).map fun c => (c, .rcl) else snoopsFor p m what
  let x0 : Resol :=
    { line := line, what := what, awaiting := [], dirty := none, hostDirty := 0, hostData := 0, clean := false,
      absorbed := false, holders := 0, rebuild := broken }
  let r := snoops.foldl (snoopOne p.ownid.toNat line what) (s, x0)
  if r.2.awaiting.isEmpty then homeFinish r.1 r.2
  else r.1.setCoh { r.1.coh with resol := r.1.coh.resol ++ [r.2] }

/-- The logical channel of a line of this chip's memory (R17). -/
def channelOf (p : Platform) (line : Nat) : Nat := bitsN (256 * line) 8 32 % p.channels.length

/-- The stack of a line of local memory is ready (R17, R419). -/
def stackReady (p : Platform) (line : Nat) : Bool :=
  if isHome p line then
    if p.channels.length = 0 then false
    else p.hbmUp.getLsbD (lget 0 p.channels (channelOf p line) / 32)
  else true

/-- The resolution buffer of a line's channel holds its 64 entries (R24). -/
def bufferFull (s : State) (line : Nat) : Bool :=
  decide (64 ≤ (s.coh.resol.filter fun x => channelOf s.plat x.line == channelOf s.plat line).length)

/-- A line can be resolved now: it is not busy, its channel has a free entry and its stack is ready (R24,
R419). -/
def lineFree (s : State) (line : Nat) : Bool :=
  (s.coh.resol.all fun x => x.line != line) && !bufferFull s line && stackReady s.plat line

/-- A write-back is acknowledged to its sender; this chip's own, where it was held back, is outstanding no longer. -/
def ackWriteback (s : State) (who line : Nat) : State :=
  if who = s.plat.ownid.toNat then s.setCoh { s.coh with writebacks := s.coh.writebacks.erase line }
  else s.send (.complete who line .i none)

/-- A write-back reaches the home (R27, R28): a busy line absorbs it at once, while it is rebuilt from any chip;
a line whose field cannot be read takes its sectors and is rebuilt (R32). Where no entry is free for the rebuild it
is held back, before the requests that wait for the line (R24, R28). -/
def homeWriteback (s : State) (who line : Nat) (dirty : BitVec 4) (d : LineData) : State :=
  let m := Meta.ofWord (spGet 0 s.coh.meta_ line)
  let owns := m.owner = who && (m.st = 2 || m.st = 3 || m.st = 4)
  let own := who = s.plat.ownid.toNat
  match s.coh.resol.find? fun x => x.line == line with
  | some x =>
    if owns || x.rebuild then
      let s := homeSectors s line dirty d
      ackWriteback (s.setCoh { s.coh with resol := s.coh.resol.map fun x =>
        if x.line = line then { x with absorbed := true } else x }) who line
    else ackWriteback (bumpErr s 32) who line
  | none =>
    if metaBroken s.coh line then
      if lineFree s line then ackWriteback (homeOpen (homeSectors s line dirty d) line .mend) who line
      else s.setCoh { s.coh with
        waiting := ⟨line, .wb (BitVec.ofNat 8 who) dirty d⟩ :: s.coh.waiting
        writebacks := s.coh.writebacks ++ (if own then [line] else []) }
    else
      let s := metaFetch s line (if own then s.core.region.toNat else 0)
      if owns then ackWriteback (setMeta (homeSectors s line dirty d) line m.written) who line
      else ackWriteback (bumpErr s 32) who line

/-- A request is served: a host that writes as owner and keeps its copy has its sector written, anything else is
resolved (R37, R38). -/
def homeServe (s : State) (line : Nat) (what : HomeReq) : State :=
  match what with
  | .memwr pa en d k =>
    if k && !metaBroken s.coh line && hostOwns (Meta.ofWord (spGet 0 s.coh.meta_ line)) then
      hostWrite (metaFetch s line 0) pa en d
    else homeOpen s line what
  | .wb who dirty d => homeWriteback s who.toNat line dirty d
  | _ => homeOpen s line what

/-- A request reaches the home: it waits in arrival order behind a busy line, behind requests that wait for the
line already, for an entry of the resolution buffer, and for the line's stack (R24, R419). -/
def homeRequest (s : State) (line : Nat) (what : HomeReq) : State :=
  if lineFree s line && s.coh.waiting.all fun w => w.line != line then homeServe s line what
  else s.setCoh { s.coh with waiting := s.coh.waiting ++ [⟨line, what⟩] }

/-- Sends dirty sectors of a host-tier line to the host by DirtyEvict (R36, R38). The host acknowledges them
together, by one completion for the line (log 66). A sector whose check failed does not go as good: the host has an
error response in its place (R410; log 88). -/
def evictSectors (s : State) (line : Nat) (mask : BitVec 4) (d : LineData) : State :=
  let s := if mask &&& ~~~d.bad = 0 then s else s.setCoh { s.coh with writebacks := s.coh.writebacks ++ [line] }
  (List.range 4).foldl (fun t k =>
    let pa := 256 * line + 64 * k
    if !mask.getLsbD k then t
    else if d.bad.getLsbD k then t.send (.hostError pa)
    else t.send (.hostEvict pa (BitVec.ofNat 512 (bitsN d.bits.toNat (512 * k) 512)))) s

/-- The L2 drops a line: silently when clean, by a write-back when dirty (R27, R36). -/
def l2Drop (s : State) (line : Nat) : State :=
  let x := l2Get s.coh line
  if x.st = .m || x.st = .o then
    let f := l2Read s line x.dirty
    let s := dropL1 (f.1.setCoh (l2Put f.1.coh line l2None)) line
    if hostTier (256 * line) then evictSectors s line x.dirty f.2
    else if isHome s.plat line then homeWriteback s s.plat.ownid.toNat line x.dirty f.2
    else (s.setCoh { s.coh with writebacks := s.coh.writebacks ++ [line] }).send
      (.writeback (homeChip (256 * line)) line x.dirty f.2)
  else dropL1 (s.setCoh (l2Put s.coh line l2None)) line

/-! ### The chip's own accesses -/

/-- The L2 holds a line well enough for a read, or for a write. -/
def heldFor (st : LineSt) (excl : Bool) : Bool :=
  match st with
  | .m => true
  | .e => true
  | .s => !excl
  | .o => !excl
  | .i => false

/-- The outcome of asking for lines: held; to be waited for; or failed with a cause (R31, R32, R36). -/
inductive Acq where
  | ready (s : State)
  | wait (s : State)
  | fail (s : State) (cause : Nat)

/-- Whether a request of this chip for a line is outstanding. -/
def outstanding (s : State) (line : Nat) : Bool :=
  let own := s.plat.ownid.toNat
  s.coh.misses.any (fun m => m.1 == line) || s.coh.writebacks.contains line ||
    s.coh.resol.any (fun x => x.line == line && (match x.what with
      | .rds r => r.toNat == own
      | .rdx r => r.toNat == own
      | _ => false)) ||
    s.coh.waiting.any (fun w => w.line == line && (match w.what with
      | .rds r => r.toNat == own
      | .rdx r => r.toNat == own
      | _ => false))

/-- The ready ports that lead to another chip, ascending (R428). -/
def routePorts (p : Platform) (chip : Nat) : List Nat :=
  (List.range 12).filter fun k => (spGet 0 p.routes chip).getLsbD k && (lget Reset.port p.ports k).ready

/-- A ready port leads to another chip. -/
def routeUp (p : Platform) (chip : Nat) : Bool := !(routePorts p chip).isEmpty

/-- The port by which a request about a line goes to a chip: with k ready ports, the (L mod k)-th (R428). -/
def portTo (p : Platform) (chip line : Nat) : Option Nat := (routePorts p chip)[line % (routePorts p chip).length]?

/-- The cause of a request that no link can carry (R31, R36, R428). -/
def noLink (p : Platform) (line : Nat) : Option Nat :=
  if hostTier (256 * line) then (if p.hostUp then none else some 0x37)
  else if isHome p line || routeUp p (homeChip (256 * line)) then none else some 0x38

/-- Asks for one line, shared or exclusive. -/
def acquire (s : State) (line : Nat) (excl : Bool) : Acq :=
  match s.coh.failed.find? fun f => f.1 == line with
  | some f => .fail (s.setCoh { s.coh with failed := s.coh.failed.erase f }) f.2
  | none =>
    if heldFor (l2Get s.coh line).st excl then .ready s
    else if outstanding s line || !stackReady s.plat line then .wait s
    else if let some c := noLink s.plat line then .fail s c
    else
      let own : BitVec 8 := s.plat.ownid
      let s' :=
        if hostTier (256 * line) then
          (List.range 4).foldl (fun t k => t.send (.hostRequest (256 * line + 64 * k) excl))
            (countRegion (s.setCoh { s.coh with misses := s.coh.misses ++ [(line, excl)] }) (256 * line))
        else if isHome s.plat line then homeRequest s line (if excl then .rdx own else .rds own)
        else (s.setCoh { s.coh with misses := s.coh.misses ++ [(line, excl)] }).send
          (.request (homeChip (256 * line)) line excl ((portTo s.plat (homeChip (256 * line)) line).getD 0))
      if heldFor (l2Get s'.coh line).st excl then .ready s' else .wait s'

/-- Asks for lines one after another: the first that fails ends it, and one that is waited for does not keep the
others from being asked for. -/
def acquireEach (excl : Bool) : List Nat → State → Acq
  | [], s => .ready s
  | l :: ls, s =>
    match acquire s l excl with
    | .fail s c => .fail s c
    | .wait s =>
      match acquireEach excl ls s with
      | .fail s c => .fail s c
      | .ready s => .wait s
      | .wait s => .wait s
    | .ready s => acquireEach excl ls s

/-- Asks for every line of an access. One that fails has heard of every line it lost: a later access asks anew (R31). -/
def acquireAll (excl : Bool) (ls : List Nat) (s : State) : Acq :=
  match acquireEach excl ls s with
  | .fail s c => .fail (s.setCoh { s.coh with failed := s.coh.failed.filter fun f => !ls.contains f.1 }) c
  | r => r

/-- The lines of runs of physical bytes. -/
def linesOf (runs : List (Nat × Nat)) : List Nat :=
  runs.flatMap fun r => if r.2 = 0 then [] else rangeFrom (r.1 / 256) ((r.1 + r.2 - 1) / 256 - r.1 / 256 + 1)

/-- A byte as this chip sees it when it holds the line, else as memory holds it. -/
def chipByte (s : State) (pa : Nat) : Byte :=
  let x := l2Get s.coh (pa / 256)
  if x.st = .i then memByte s.mem pa else BitVec.ofNat 8 (bitsN x.data.toNat (8 * (pa % 256)) 8)

def runBytes (s : State) (runs : List (Nat × Nat)) : List Byte :=
  runs.flatMap fun r => (rangeFrom r.1 r.2).map (chipByte s)

/-- Writes a byte into a line the L2 holds in M or E. -/
def l2Byte (c : Coh) (pa : Nat) (b : Byte) : Coh :=
  let x := l2Get c (pa / 256)
  let k := pa % 256
  l2Put c (pa / 256)
    { x with st := .m, dirty := x.dirty ||| BitVec.ofNat 4 (2 ^ (k / 64)), data := lineSet x.data k [b] }

/-- Writes bytes along runs of physical addresses into lines the L2 holds. -/
def runWrite : List (Nat × Nat) → List Byte → Coh → Coh
  | [], _, c => c
  | r :: rs, bs, c =>
    runWrite rs (bs.drop r.2)
      ((List.range r.2).foldl (fun c k => l2Byte c (r.1 + k) (lget 0 bs k)) c)

/-- The pieces of a size, by number, that runs touch, and those that they cover whole. -/
def piecesOf (size : Nat) (runs : List (Nat × Nat)) : List Nat :=
  runs.flatMap fun r =>
    if r.2 = 0 then [] else rangeFrom (r.1 / size) ((r.1 + r.2 - 1) / size - r.1 / size + 1)
def wholePieces (size : Nat) (runs : List (Nat × Nat)) : List Nat :=
  runs.flatMap fun r => rangeFrom ((r.1 + size - 1) / size) ((r.1 + r.2) / size - (r.1 + size - 1) / size)

/-- The 64-byte sectors that runs touch. -/
def sectorsOf (runs : List (Nat × Nat)) : List Nat := piecesOf 64 runs

/-- A sector of the L2 that is written whole is no longer the one that came bad (R409, R410). -/
def l2Heal (c : Coh) (q : Nat) : Coh :=
  let x := l2Get c (q / 4)
  if x.bad.getLsbD (q % 4) then
    l2Put c (q / 4) { x with bad := x.bad &&& ~~~BitVec.ofNat 4 (2 ^ (q % 4)) } else c

/-- A 64-bit word of the L2 that is written whole has a fresh check (R409). -/
def l2HealWord (c : Coh) (w : Nat) : Coh :=
  if c.l2Err.any fun e => e.1 == w then { c with l2Err := spClear w 1 c.l2Err } else c

/-- Stores bytes along runs into lines the L2 holds. -/
def l2Store (c : Coh) (runs : List (Nat × Nat)) (bytes : List Byte) : Coh :=
  (wholePieces 8 runs).foldl l2HealWord ((wholePieces 64 runs).foldl l2Heal (runWrite runs bytes c))

/-- The first place in runs that no access may consume, a sector that came bad or a word whose check fails, and the
hop of its finding (R409, R411). -/
def badHit (s : State) (runs : List (Nat × Nat)) : Option (Nat × Nat) :=
  match (sectorsOf runs).find? fun q => (l2Get s.coh (q / 4)).bad.getLsbD (q % 4) with
  | some q => some (0, 64 * q)
  | none =>
    if s.coh.l2Err.isEmpty then none
    else ((piecesOf 8 runs).find? fun w => spGet .correctable s.coh.l2Err w == .uncorrectable).map fun w => (2, 8 * w)

/-- A line leaves the L2 after a no-allocate access: nothing is kept (R34). DESIGN CHOICE (log 67): R34 does not
say what becomes of a line that was resident before the access; it is dropped too, with its write-back. -/
def afterEvict (s : State) (evict : Nat) (runs : List (Nat × Nat)) : State :=
  if evict = 7 then (linesOf runs).foldl l2Drop s else s

/-- Errors that the L2 corrects as the words are read, and logs (R409, R411). -/
def scrubWords (s : State) (runs : List (Nat × Nat)) : State :=
  if s.coh.l2Err.isEmpty then s
  else
    let ws := piecesOf 8 runs
    let hit (e : Nat × WordErr) : Bool := e.2 != .uncorrectable && ws.contains e.1
    let found := s.coh.l2Err.filter hit
    found.foldl (fun t e => logError t 2 false 0 0 s.core.region.toNat (8 * e.1))
      (s.setCoh { s.coh with l2Err := s.coh.l2Err.filter fun e => !hit e })

/-- The outcome of a coherent access. -/
inductive MemRes where
  | done (s : State) (bytes : List Byte)
  | wait (s : State)
  | fail (s : State) (cause : Nat)

/-- A coherent access of runs of physical bytes: every line first (R196); then the bytes that were there, unless
a check of them fails (R409); then what `f` says is written. -/
def cohAccess (s : State) (runs : List (Nat × Nat)) (evict : Nat) (reads writes : Bool)
    (f : List Byte → Option (List Byte)) : MemRes :=
  match acquireAll writes (linesOf runs) s with
  | .wait s => .wait s
  | .fail s c => .fail s c
  | .ready s =>
    match (if reads then badHit s runs else none) with
    | some h => .fail (logError s h.1 true 0x70 0 s.core.region.toNat h.2) 0x70
    | none =>
      let s := if reads then scrubWords s runs else s
      let old := if reads then runBytes s runs else []
      let s := match f old with
        | none => s
        | some new => s.setCoh (l2Store s.coh runs new)
      .done (afterEvict s evict runs) old

/-- A coherent read. -/
def cohRead (s : State) (runs : List (Nat × Nat)) (evict : Nat) : MemRes :=
  cohAccess s runs evict true false fun _ => none

/-- A coherent write. -/
def cohWrite (s : State) (runs : List (Nat × Nat)) (evict : Nat) (bytes : List Byte) : MemRes :=
  cohAccess s runs evict false true fun _ => some bytes

/-- A coherent read-modify-write. -/
def cohUpdate (s : State) (runs : List (Nat × Nat)) (evict : Nat) (f : List Byte → List Byte) : MemRes :=
  cohAccess s runs evict true true fun old => some (f old)

/-! ### Stores of the device itself (R40, R59, R141) -/

/-- The page of an address. -/
def pageOf (va : Nat) : Nat := va / 2 ^ 14 * 2 ^ 14

/-- A walk's failure, for each of those that share it. -/
def Walk.failures (w : Walk) (cause : Nat) : List WalkFail :=
  (w.who :: w.also).map fun g => ⟨g, w.asid, pageOf w.va, cause⟩

/-- What follows a store of the device that is written. -/
def putDone (s : State) : PutEnd → State
  | .nothing => s
  | .migration => (s.setCoh { s.coh with mighead := s.coh.mighead + 1 }).send (.msix s.coh.migVec)
  | .fault _ => { s with xlat := { s.xlat with flthead := s.xlat.flthead + 1 } }.send (.msix s.xlat.vec)

/-- What follows one that fails (log 68): the event is dropped, and a fault that would have waited is
delivered. -/
def putFailed (s : State) : PutEnd → State
  | .nothing => s
  | .migration => s.setCoh { s.coh with migOvf := true }
  | .fault w =>
    let x := s.xlat
    { s with xlat := { x with
        ovf := true, walks := x.walks.erase w,
        fails := if x.walks.contains w then x.fails ++ w.failures 0x30 else x.fails } }

/-- The device's own stores are performed in order as their lines come. -/
def drainPuts : Nat → State → State
  | 0, s => s
  | n + 1, s =>
    match s.coh.puts with
    | [] => s
    | p :: _ =>
      match cohWrite s [(p.pa, p.bytes.length)] 0 p.bytes with
      | .done s _ => drainPuts n (putDone (s.setCoh { s.coh with puts := s.coh.puts.drop 1 }) p.after)
      | .wait s => s
      | .fail s _ => drainPuts n (putFailed (s.setCoh { s.coh with puts := s.coh.puts.drop 1 }) p.after)

/-- The device's own stores go on as their lines come. -/
def settle (s : State) : State := drainPuts s.coh.puts.length s

/-- A store of the device itself to physical memory. -/
def devStore (s : State) (pa : Nat) (bytes : List Byte) (after : PutEnd := .nothing) : State :=
  settle (s.setCoh { s.coh with puts := s.coh.puts ++ [⟨pa, bytes, after⟩] })

end Sys2Proof.Machine
end

