-- ==== Sys2Proof/Machine/Translate.lean ====
section
/-! DEFINITION. Translation: page-table entries, walks, TLB, waiting on faults, invalidation (R49 to R61). -/

namespace Sys2Proof.Machine

def State.setXlat (s : State) (x : Xlat) : State := { s with xlat := x }

/-! ### Page-table entries (R50 to R52) -/

def pteOa (e : Nat) : Nat := bitsN e 14 38 * 2 ^ 14

/-- What an entry read at a level gives. -/
inductive PteRes where
  | fault (cause : Nat)
  | table (pa : Nat)
  | leaf (t : TlbEntry)

/-- The bits of address below a level's block: 14 at level 0, then 25, 36, 47. -/
def levelLog (level : Nat) : Nat := 14 + 11 * level

/-- Decides an entry (R51, R52). DESIGN CHOICE (log 98): R19 is asked of the output address of the entry alone, and a
block may reach past the usable size of its home chip. -/
def pteDecide (p : Platform) (asid : BitVec 16) (va level e : Nat) : PteRes :=
  let ty := bitsN e 0 2
  let oa := pteOa e
  if ty = 0 then .fault 0x30
  else if ty = 2 || e.testBit 63 || e.testBit 13 then .fault 0x35
  else if ty = 1 then
    if level = 0 || bitsN e 2 11 != 0 || !paOk p oa then .fault 0x35 else .table oa
  else if level = 3 || e.testBit 7 || bitsN e 8 2 = 3 then .fault 0x35
  else if e.testBit 12 then
    if level != 0 || bitsN oa 14 7 != bitsN va 14 7 || !paOk p oa then .fault 0x35
    else .leaf ⟨asid, va / 2 ^ 21 * 2 ^ 21, oa / 2 ^ 21 * 2 ^ 21, 21, wordOf e⟩
  else if oa % 2 ^ levelLog level != 0 || !paOk p oa then .fault 0x35
  else .leaf ⟨asid, va / 2 ^ levelLog level * 2 ^ levelLog level, oa, levelLog level, wordOf e⟩

/-- The outcome of a walk: a translation, a cause, or a table line still to come. -/
inductive WalkRes where
  | done (s : State) (t : TlbEntry)
  | fault (s : State) (cause : Nat)
  | wait (s : State)

/-- Walks from a table at a level downwards; tables are coherent reads (R49, R51). -/
def walkFrom (asid : BitVec 16) (va : Nat) : Nat → Nat → State → WalkRes
  | 0, _, s => .fault s 0x35
  | n + 1, table, s =>
    let pa := table + 8 * (bitsN va (levelLog n) 11)
    if !paOk s.plat pa then .fault s 0x35
    else
      match cohRead s [(pa, 8)] 0 with
      | .wait s => .wait s
      | .fail s c => .fault s (if c = 0x70 then 0x35 else c)
      | .done s bs =>
        match pteDecide s.plat asid va n (leNat bs) with
        | .fault c => .fault s c
        | .leaf t => .done s t
        | .table t => walkFrom asid va n t s

/-! ### The TLB (R56) -/

/-- An entry translates an address of an address space; G matches every ASID (R50). -/
def TlbEntry.hits (t : TlbEntry) (asid : BitVec 16) (va : Nat) : Bool :=
  (t.asid == asid || t.leaf.getLsbD 6) && decide (t.va ≤ va) && decide (va < t.va + 2 ^ t.log)

/-- What a lookup gives: a hit; a recorded failure of the walk; or nothing yet. -/
inductive Lookup where
  | hit (t : TlbEntry)
  | fault (cause : Nat)
  | miss

/-- The L1 TLB of a requester: a core's own; an engine has none (log 7). -/
def Xlat.own (x : Xlat) (who : Walker) : List TlbEntry := if who.engine then [] else spGet [] x.tlb1 who.region

def lookup (x : Xlat) (who : Walker) (asid : BitVec 16) (va : Nat) : Lookup :=
  match (x.own who ++ x.tlb).find? fun t => t.hits asid va with
  | some t => .hit t
  | none =>
    match x.fails.find? fun f => f.who == who && f.asid == asid && f.va == pageOf va with
    | some f => .fault f.cause
    | none => .miss

/-- A translation is cached for those who asked for it: newest first, the oldest making room in the 64 entries
of an L1 TLB and the 16,384 of the L2 TLB (R52, R56; log 7). -/
def Xlat.fill (x : Xlat) (whos : List Walker) (t : TlbEntry) : Xlat :=
  { x with
    tlb := (t :: x.tlb).take 16384
    tlb1 := whos.foldl (fun m g =>
      if g.engine then m else spSet [] m g.region ((t :: spGet [] m g.region).take 64)) x.tlb1 }

/-- The failed walk of an access that is not made after all is forgotten (R57). -/
def Xlat.forget (x : Xlat) (who : Walker) (asid : BitVec 16) (va : Nat) : Xlat :=
  { x with fails := x.fails.filter fun f => !(f.who == who && f.asid == asid && f.va == pageOf va) }

/-- Someone waits for a walk. -/
def Walk.asks (w : Walk) (who : Walker) : Bool := w.who == who || w.also.contains who

/-- A walk of the page of an address. -/
def Walk.of (w : Walk) (asid : BitVec 16) (root va : Nat) : Bool :=
  w.asid == asid && w.root == root && pageOf w.va == pageOf va

/-- Opens a walk; misses to one page share one walk (R56). -/
def openWalk (x : Xlat) (who : Walker) (asid : BitVec 16) (root va : Nat) (write fetch : Bool) : Xlat :=
  if x.walks.any fun w => w.of asid root va then
    { x with walks := x.walks.map fun w =>
        if w.of asid root va && !w.asks who then { w with also := w.also ++ [who] } else w }
  else { x with walks := x.walks ++ [⟨who, [], asid, root, va, write, fetch, false⟩] }

/-- A requester waits no longer: its share of every walk ends, and a walk that nobody waits for (R59). -/
def leaveWalks (x : Xlat) (who : Walker) : Xlat :=
  { x with
    fails := x.fails.filter fun f => f.who != who
    walks := x.walks.filterMap fun w =>
      match (w.who :: w.also).filter fun g => g != who with
      | [] => none
      | g :: gs => some { w with who := g, also := gs } }

/-- How many walks run at once (R56): the others wait in order of arrival. -/
def walkSlots : Nat := 384

/-! ### Permissions (R53) -/

inductive AccKind where
  | read | write | atomic | fetch | barrier
  deriving DecidableEq, Repr

def AccKind.writes : AccKind → Bool
  | .write => true
  | .atomic => true
  | .barrier => true
  | _ => false

/-- The leaf grants the access. -/
def leafOk (leaf : Word) (k : AccKind) (sys : Bool) : Bool :=
  (sys || leaf.getLsbD 5) &&
    match k with
    | .read => leaf.getLsbD 2
    | .write => leaf.getLsbD 3
    | .atomic => leaf.getLsbD 2 && leaf.getLsbD 3
    | .barrier => leaf.getLsbD 2 && leaf.getLsbD 3
    | .fetch => leaf.getLsbD 4

/-! ### A range of virtual addresses (R57) -/

/-- The pieces of a range page by page: address and length. -/
def pagesOf (va n : Nat) : List (Nat × Nat) :=
  if n = 0 then []
  else (rangeFrom (va / 2 ^ 14) ((va + n - 1) / 2 ^ 14 - va / 2 ^ 14 + 1)).map fun p =>
    let lo := max va (p * 2 ^ 14)
    (lo, min (va + n) ((p + 1) * 2 ^ 14) - lo)

/-- A translated range: physical runs, the faults it earns with their addresses, the pages still to be
walked, and the leaves met. -/
structure Span where
  runs : List (Nat × Nat)
  faults : List (Nat × Nat)
  need : List Nat
  leaves : List Word
  deriving DecidableEq, Repr

/-- Translates a range for a walker in an address space. -/
def translate (x : Xlat) (who : Walker) (asid : BitVec 16) (va n : Nat) (k : AccKind) (sys : Bool) : Span :=
  (pagesOf va n).foldl (fun r p =>
    match lookup x who asid p.1 with
    | .hit t =>
      let r' := { r with runs := r.runs ++ [(t.pa + (p.1 - t.va), p.2)], leaves := r.leaves ++ [t.leaf] }
      if leafOk t.leaf k sys then r' else { r' with faults := r'.faults ++ [(0x31, p.1)] }
    | .fault c => { r with faults := r.faults ++ [(c, p.1)] }
    | .miss => { r with need := r.need ++ [p.1] }) ⟨[], [], [], []⟩

/-- The fault that a translated range reports: the lowest code, at the lowest page that earns it (R57). -/
def Span.fault (r : Span) : Option (Nat × Word) :=
  (lowestFault (r.faults.map fun f => (f.1, wordOf f.2)))

/-- Opens the walks a range needs. -/
def openAll (x : Xlat) (who : Walker) (asid : BitVec 16) (root : Nat) (r : Span) (k : AccKind) : Xlat :=
  r.need.foldl (fun x va => openWalk x who asid root va k.writes (k == .fetch)) x

/-- The walker of a core, and of its engines. -/
def Core.walker (c : Core) : Walker := ⟨c.region.toNat, false⟩

/-! ### Walks that end (R51, R59) -/

/-- The event written to the fault ring (R59). -/
def faultEvent (w : Walk) : List Byte :=
  leBytes 8 (w.va % 2 ^ 58) ++
  leBytes 8 (w.asid.toNat + w.who.region % 1024 * 2 ^ 16 + (if w.who.engine then 2 ^ 26 else 0) +
    (if w.write then 2 ^ 27 else 0) + (if w.fetch then 2 ^ 28 else 0))

/-- Events of the fault ring that are not written yet. -/
def Put.isFault (p : Put) : Bool :=
  match p.after with
  | .fault _ => true
  | _ => false

/-- A translation fault: while TRCTL.FWAIT is set and the ring has room its event is written, then FLTHEAD and
the MSI-X follow, and the walk stays open; else it is delivered (R59). -/
def walkFault (s : State) (k : Nat) (w : Walk) (cause : Nat) : State :=
  let x := s.xlat
  let open_ := (s.coh.puts.filter Put.isFault).length
  if cause = 0x30 && x.fwait && (x.flthead - x.flttail).toNat + open_ != 256 then
    let w' := { w with waits := true }
    devStore (s.setXlat { x with walks := lset x.walks k w' })
      (x.fltring.toNat + 16 * ((x.flthead.toNat + open_) % 256)) (faultEvent w) (.fault w')
  else
    s.setXlat { x with
      walks := x.walks.eraseIdx k,
      fails := x.fails ++ w.failures cause,
      ovf := x.ovf || (cause == 0x30 && x.fwait) }

/-- Completes the k-th open walk, unless it waits on its fault, for a free slot, or for a table line. -/
def walkDone (s : State) (k : Nat) : State :=
  match s.xlat.walks[k]? with
  | none => s
  | some w =>
    if w.waits || decide (walkSlots ≤ k) then s
    else
      match walkFrom w.asid w.va 4 w.root s with
      | .wait s => s
      | .fault s c => walkFault s k w c
      | .done s t => s.setXlat ({ s.xlat with walks := s.xlat.walks.eraseIdx k }.fill (w.who :: w.also) t)

/-- FLTRETRY: every waiting walk starts again (R59). -/
def restartWalks (x : Xlat) : Xlat := { x with walks := x.walks.map fun w => { w with waits := false } }

/-! ### Invalidation (R60, R61) -/

/-- An entry that an invalidation removes. -/
def TlbInval.kills (i : TlbInval) (t : TlbEntry) : Bool :=
  match i with
  | .va a addr => t.hits a addr
  | .asid a => t.asid == a && !t.leaf.getLsbD 6
  | .asidGlobal a => t.asid == a || t.leaf.getLsbD 6
  | .all => true

/-- A recorded failure of a walk that an invalidation outdates: its access walks again (R61). -/
def TlbInval.outdates (i : TlbInval) (f : WalkFail) : Bool :=
  match i with
  | .va a addr => f.asid == a && f.va == pageOf addr
  | .asid a => f.asid == a
  | .asidGlobal a => f.asid == a
  | .all => true

/-- An invalidation reaches every TLB and every walk that has ended (R60, R61). -/
def invalidate (x : Xlat) (i : TlbInval) : Xlat :=
  let keep (l : List TlbEntry) : List TlbEntry := l.filter fun t => !i.kills t
  { x with tlb := keep x.tlb
           tlb1 := (x.tlb1.map fun p => (p.1, keep p.2)).filter fun p => !p.2.isEmpty
           fails := x.fails.filter fun f => !i.outdates f }

/-- The oldest invalidation in progress completes. -/
def invalDone (x : Xlat) : Xlat :=
  match x.invals with
  | [] => x
  | i :: is => { invalidate x i.what with invals := is }

end Sys2Proof.Machine
end

