-- ==== Sys2Proof/Machine/Onchip.lean ====
section
/-! DEFINITION. A core's local storage byte by byte: the areas of the on-chip map, engine registers, tile
table, TID table, watch table, and the storage view of the macros (R42 to R48, R114, R115, R121, R133,
R144, R165, R266, R277, R280, R282). -/

namespace Sys2Proof.Machine

/-! ### Engine registers (R114, R115) -/

/-- A register of a set; ESTAT, EFADDR and reserved registers read as zero. -/
def EngRegs.get (e : EngRegs) (k : Nat) : Word :=
  match k with
  | 0 => e.esrc
  | 1 => e.edst
  | 2 => e.elen.setWidth 64
  | 3 => e.ectl
  | 4 => e.ebar
  | 5 => e.eorg0
  | 6 => e.eorg1
  | 7 => e.eorg2
  | _ => 0

/-- The bits of ECTL that exist. -/
def ectlMask : Word := 0x3F3FFF

/-- Writes a register of the shadow set; reserved bits are dropped (R5, R114). -/
def EngRegs.set (e : EngRegs) (k : Nat) (v : Word) : EngRegs :=
  match k with
  | 0 => { e with esrc := v }
  | 1 => { e with edst := v }
  | 2 => { e with elen := v.setWidth 22 }
  | 3 => { e with ectl := v &&& ectlMask }
  | 4 => { e with ebar := v }
  | 5 => { e with eorg0 := v }
  | 6 => { e with eorg1 := v }
  | 7 => { e with eorg2 := v &&& 0xFFFFFFFF }
  | _ => e

/-- ESTAT of the active set. -/
def ChanState.estat (c : ChanState) : Nat :=
  c.done.toNat * 2 ^ 32 + c.cause.toNat * 2 ^ 8 + (if c.pending.isSome then 4 else 0) +
    (if c.err then 2 else if c.op.isSome then 1 else 0)

/-- A register of the active set. -/
def ChanState.activeReg (c : ChanState) (k : Nat) : Word :=
  match k with
  | 8 => wordOf c.estat
  | 9 => c.efaddr
  | _ => c.active.get k

def Copy.chan (c : Copy) : Chan → ChanState
  | .a => c.a
  | .b => c.b

def Copy.setChan (c : Copy) (ch : Chan) (x : ChanState) : Copy :=
  match ch with
  | .a => { c with a := x }
  | .b => { c with b := x }

/-! ### Tiles, TID slots, watch entries (R121, R133, R144, R154) -/

def tileDefault : Tile := { st := .empty, owner := 0, released := false, gen := 0, infl := 0 }
def tidDefault : TidSlot := { record := 0, gen := 0, st := .free, infl := 0, mapped := false }
def watchDefault : Watch := { bar := 0, phase := 0, valid := false }

def Copy.tile (c : Copy) (t : Nat) : Tile := spGet tileDefault c.tiles t
def Copy.setTile (c : Copy) (t : Nat) (x : Tile) : Copy :=
  { c with tiles := spSet tileDefault c.tiles t x }
def Copy.tid (c : Copy) (s : Nat) : TidSlot := spGet tidDefault c.tids s
def Copy.setTid (c : Copy) (s : Nat) (x : TidSlot) : Copy :=
  { c with tids := spSet tidDefault c.tids s x }
def Copy.watchAt (c : Copy) (w : Nat) : Watch := spGet watchDefault c.watch w
def Copy.setWatch (c : Copy) (w : Nat) (x : Watch) : Copy :=
  { c with watch := spSet watchDefault c.watch w x }

def TileSt.code : TileSt → Nat
  | .empty => 0
  | .filling => 1
  | .ready => 2
  | .draining => 3

def SlotSt.code : SlotSt → Nat
  | .free => 0
  | .live => 1
  | .draining => 2

/-- The handle state of a tile in the terms of R62 (R121). -/
def Tile.slotSt (t : Tile) : SlotSt :=
  if t.st = .empty then .free else if t.released then .draining else .live

/-- Word 0 of a tile-table entry (R121). -/
def tileWord (c : Copy) (t : Nat) : Nat :=
  let x := c.tile t
  (x.infl % 256) * 2 ^ 32 + x.gen.toNat * 2 ^ 22 + t % 64 * 2 ^ 16 + (if x.released then 16 else 0) +
    x.owner.toNat * 4 + x.st.code

/-- The status word of a TID slot (R154). -/
def tidWord (c : Copy) (s : Nat) : Nat :=
  let x := c.tid s
  x.gen.toNat * 2 ^ 16 + (x.infl % 256) * 2 ^ 8 + x.st.code

/-- Word k of a watch entry (R133). -/
def watchWord (c : Copy) (w k : Nat) : Nat :=
  let x := c.watchAt w
  match k with
  | 0 => x.bar.toNat
  | 1 => (if w = 0 then c.next.toNat * 256 else 0) + (if x.valid then 16 else 0) + x.phase.toNat
  | _ => 0

/-- Writes word k of a watch entry. -/
def setWatchWord (c : Copy) (w k v : Nat) : Copy :=
  let x := c.watchAt w
  match k with
  | 0 => c.setWatch w { x with bar := wordOf v }
  | 1 =>
    let c := c.setWatch w { x with valid := v.testBit 4, phase := BitVec.ofNat 4 v }
    if w = 0 then { c with next := BitVec.ofNat 3 (v / 256) } else c
  | _ => c

/-! ### Stream tags (R313) -/

def tagWord (t : StreamTag) : Nat :=
  t.len.toNat * 2 ^ 22 + (if t.pris then 2 ^ 16 else 0) + t.mask.toNat

def tagOf (v : Nat) : StreamTag :=
  { len := BitVec.ofNat 2 (v / 2 ^ 22), pris := v.testBit 16, mask := BitVec.ofNat 16 v }

/-! ### Macro pages (R46, R266, R277, R278, R280) -/

def recDefault : PageRec := { loaded := false, fmt := .mxi8, dirty := false, wsrc := 0, ssrc := 0 }
def Mat.pageRec (m : Mat) (pid : Nat) : PageRec := spGet recDefault m.recs pid
def Mat.setRec (m : Mat) (pid : Nat) (r : PageRec) : Mat :=
  { m with recs := spSet recDefault m.recs pid r }
def Mat.row (m : Mat) (pid row : Nat) : Plane := spGet 0 m.rows (256 * pid + row)

/-- The page as bring-up and MPAGE.clr leave it (R277, R292). -/
def Mat.clearPage (m : Mat) (pid : Nat) : Mat :=
  { m with
    rows := spClear (256 * pid) 256 m.rows
    written := spClear (256 * pid) 256 m.written
    scales := spClear (1024 * pid) 1024 m.scales
    errs := spClear (2048 * pid) 2048 m.errs
    recs := spSet recDefault m.recs pid recDefault }

/-- The scale store of a failed scale reload (R294). -/
def Mat.clearScales (m : Mat) (pid : Nat) : Mat :=
  { m with
    scales := spClear (1024 * pid) 1024 m.scales
    recs := spSet recDefault m.recs pid { m.pageRec pid with ssrc := 0 } }

/-- The pages of a spare that newly comes into service are zero, with KIND 0 and scales 0x7F (R282). -/
def freshSpares (c : Core) (shelf : Nat) (old : List Word) : Core :=
  let fresh := (c.shelf.remap.filter fun e => e.getLsbD 15 && bitsN e.toNat 8 3 == shelf && !old.contains e).map
    fun e => 34 * shelf + 32 + bitsN e.toNat 0 1
  fresh.foldl (fun c pos => (rangeFrom (8 * pos) 8).foldl (fun c pid =>
    { c with mat := ((c.mat.clearPage pid).clearScales pid).setRec pid recDefault }) c) c

/-- Byte k of a row. -/
def Mat.byte (m : Mat) (pid row k : Nat) : Byte := BitVec.ofNat 8 (bitsN (m.row pid row).toNat (8 * k) 8)

/-- A storage-view write of one byte: its word becomes written, its page dirty (R277, R278). The word's check
is what it was. -/
def Mat.setByte (m : Mat) (pid row k : Nat) (b : Byte) : Mat :=
  let key := 256 * pid + row
  let r := BitVec.ofNat 512 (setBitsN (m.row pid row).toNat (8 * k) 8 b.toNat)
  let w := spGet 0 m.written key ||| BitVec.ofNat 8 (2 ^ (k / 8))
  { m with
    rows := spSet 0 m.rows key r,
    written := spSet 0 m.written key w,
    recs := spSet recDefault m.recs pid { m.pageRec pid with dirty := true } }

/-! ### The areas of a region (R46) -/

inductive Area where
  | pad | acc | vec | slices | preds | streams | tags | engAct | engSh | tiles | tids | watch | macros
  deriving DecidableEq, Repr

/-- Offset and extent of each area. -/
def Area.at : Area → Nat × Nat
  | .pad => (0, 2 ^ 20)
  | .acc => (2 ^ 20, 2 ^ 17)
  | .vec => (2 * 2 ^ 20, 160 * 2 ^ 10)
  | .slices => (3 * 2 ^ 20, 256)
  | .preds => (3 * 2 ^ 20 + 2 ^ 16, 8192)
  | .streams => (7 * 2 ^ 19, 2 ^ 16)
  | .tags => (7 * 2 ^ 19 + 2 ^ 16, 64)
  | .engAct => (4 * 2 ^ 20, 256)
  | .engSh => (9 * 2 ^ 19, 256)
  | .tiles => (5 * 2 ^ 20, 1024)
  | .tids => (6 * 2 ^ 20, 8192)
  | .watch => (7 * 2 ^ 20, 256)
  | .macros => (2 ^ 25, 2 ^ 25)

def allAreas : List Area :=
  [.pad, .acc, .vec, .slices, .preds, .streams, .tags, .engAct, .engSh, .tiles, .tids, .watch, .macros]

/-- The area a region offset lies in; a G-core has no accumulators and no macros. -/
def areaOf (kind : CoreKind) (off : Nat) : Option Area :=
  allAreas.find? fun a =>
    decide (a.at.1 ≤ off) && decide (off < a.at.1 + a.at.2) &&
      !(kind == .g && (a == .acc || a == .macros))

def byteOf (v k : Nat) : Byte := BitVec.ofNat 8 (bitsN v (8 * k) 8)

/-- Reads one byte of an area. -/
def areaByte (c : Core) (a : Area) (off : Nat) : Byte :=
  match a with
  | .pad => spGet 0 c.pad off
  | .acc => byteOf (spGet 0 c.mat.acc (off / 4)).toNat (off % 4)
  | .vec =>
    if clusterAwake c.regs c.mode c.xt (clusterOf (off / 64)) then
      byteOf (planeRead c.regs (off / 64)).toNat (off % 64)
    else 0
  | .slices => byteOf (c.regs.scalar &&& ~~~x0Mask).toNat off
  | .preds => byteOf (predRead c.regs (off / 128)).toNat (off % 128)
  | .streams => byteOf (streamRead c.regs (off / 8192) (off / 64 % 128)).toNat (off % 64)
  | .tags => byteOf (tagWord (tagRead c.regs (off / 8))) (off % 8)
  | .engAct => byteOf ((c.copy.chan (if off < 128 then .a else .b)).activeReg (off / 8 % 16)).toNat (off % 8)
  | .engSh => byteOf ((c.copy.chan (if off < 128 then .a else .b)).shadow.get (off / 8 % 16)).toNat (off % 8)
  | .tiles => if off % 16 < 8 then byteOf (tileWord c.copy (off / 16)) (off % 8) else 0
  | .tids => if off % 128 < 96 then byteOf (c.copy.tid (off / 128)).record.toNat (off % 128) else 0
  | .watch => byteOf (watchWord c.copy (off / 32) (off / 8 % 4)) (off % 8)
  | .macros =>
    let v := viewAt c.shelf off
    c.mat.byte v.pid v.row v.k

/-- Replaces byte k of a number. -/
def putByte (v k : Nat) (b : Byte) : Nat := setBitsN v (8 * k) 8 b.toNat

/-- Writes one byte of an area. The tile table and the active engine set are read-only; a write to a
sleeping cluster is ignored (R48, R114, R121, R170). -/
def areaSet (c : Core) (a : Area) (off : Nat) (b : Byte) : Core :=
  let r := c.regs
  match a with
  | .pad => { c with pad := spSet 0 c.pad off b }
  | .acc =>
    let v := spGet 0 c.mat.acc (off / 4)
    let x := BitVec.ofNat 32 (putByte v.toNat (off % 4) b)
    { c with mat := { c.mat with acc := spSet 0 c.mat.acc (off / 4) x } }
  | .vec =>
    let x := BitVec.ofNat 512 (putByte (planeRead r (off / 64)).toNat (off % 64) b)
    if clusterAwake r c.mode c.xt (clusterOf (off / 64)) then
      { c with regs := { r with planes := spSet 0 r.planes (off / 64) x } }
    else c
  | .slices => { c with regs := { r with scalar := scalarWrite r.scalar (2 * off) 2 b.toNat } }
  | .preds =>
    let x := BitVec.ofNat 1024 (putByte (predRead r (off / 128)).toNat (off % 128) b)
    if off / 128 = 0 then c
    else { c with regs := { r with preds := spSet 0 r.preds (off / 128) x } }
  | .streams =>
    let key := off / 64
    let x := BitVec.ofNat 512 (putByte (spGet 0 r.streams key).toNat (off % 64) b)
    { c with regs := { r with streams := spSet 0 r.streams key x } }
  | .tags =>
    let x := tagOf (putByte (tagWord (tagRead r (off / 8))) (off % 8) b)
    { c with regs := { r with tags := spSet tagDefault r.tags (off / 8) x } }
  | .engAct => c
  | .engSh =>
    let ch : Chan := if off < 128 then .a else .b
    let x := c.copy.chan ch
    let k := off / 8 % 16
    let x := { x with shadow := x.shadow.set k (wordOf (putByte (x.shadow.get k).toNat (off % 8) b)) }
    { c with copy := c.copy.setChan ch x }
  | .tiles => c
  | .tids =>
    if off % 128 < 96 then
      let x := c.copy.tid (off / 128)
      let x := { x with record := BitVec.ofNat 768 (putByte x.record.toNat (off % 128) b), mapped := true }
      { c with copy := c.copy.setTid (off / 128) x }
    else c
  | .watch =>
    let w := off / 32
    let k := off / 8 % 4
    { c with copy := setWatchWord c.copy w k (putByte (watchWord c.copy w k) (off % 8) b) }
  | .macros =>
    let v := viewAt c.shelf off
    { c with mat := c.mat.setByte v.pid v.row v.k b }

/-- The 64-bit words that n bytes from an offset cover whole: the first and how many. -/
def wholeWords (off n : Nat) : Nat × Nat := ((off + 7) / 8, (off + n) / 8 - (off + 7) / 8)

/-- The words of the storage view that a write covers whole have fresh checks (R278, R410). -/
def Mat.healView (m : Mat) (sh : Shelf) (off n : Nat) : Mat :=
  if m.errs.isEmpty then m
  else
    let w := wholeWords off n
    let keys := (rangeFrom w.1 w.2).map fun q =>
      let v := viewAt sh (8 * q)
      8 * (256 * v.pid + v.row) + v.k / 8
    { m with errs := m.errs.filter fun e => !keys.contains e.1 }

/-- The register units that n bytes of an area touch (R409). -/
def Area.units (a : Area) (off n : Nat) : List HUnit :=
  let of (k : UnitKind) (size : Nat) : List HUnit :=
    if n = 0 then [] else (rangeFrom (off / size) ((off + n - 1) / size - off / size + 1)).map fun j => ⟨k, j⟩
  match a with
  | .vec => of .plane 64
  | .preds => of .pred 128
  | .slices => (rangeFrom (2 * off) (2 * n)).map fun k => ⟨.slice, k⟩
  | .streams => of .stream 8192
  | .tags => of .stream 8
  | .engSh => of .eng 8
  | _ => []

/-- A read of an area meets a unit whose check fails: a machine check of its core (R408 to R410). -/
def Area.bad (a : Area) (c : Core) (off n : Nat) : Bool := (a.units off n).any c.inner.contains

/-- Units that a write of n bytes of an area covers whole have fresh checks (R409, R410). -/
def Core.healArea (c : Core) (a : Area) (off n : Nat) : Core :=
  let w := wholeWords off n
  match a with
  | .pad => { c with ecc := spClear w.1 w.2 c.ecc }
  | .acc => { c with ecc := spClear (2 ^ 17 + w.1) w.2 c.ecc }
  | .macros => { c with mat := c.mat.healView c.shelf off n }
  | .vec => c.heal (planeUnits (rangeFrom ((off + 63) / 64) ((off + n) / 64 - (off + 63) / 64)))
  | .preds =>
    c.heal ((rangeFrom ((off + 127) / 128) ((off + n) / 128 - (off + 127) / 128)).map fun p => ⟨.pred, p⟩)
  | .slices => c.heal (a.units off n)
  | .engSh => c.heal ((rangeFrom w.1 w.2).map fun k => ⟨.eng, k⟩)
  | _ => c

/-- n bytes of an area. -/
def areaBytes (c : Core) (a : Area) (off n : Nat) : List Byte := (rangeFrom off n).map (areaByte c a)

/-- Writes bytes of an area, in ascending order, byte by byte. -/
def areaPut (c : Core) (a : Area) (off : Nat) : List Byte → Core
  | [] => c
  | b :: bs => areaPut (areaSet c a off b) a (off + 1) bs

/-- Writes bytes of an area. -/
def areaWrite (c : Core) (a : Area) (off : Nat) (bs : List Byte) : Core :=
  (areaPut c a off bs).healArea a off bs.length

/-! ### Offsets of window 0xE (R43, R46) -/

/-- The region of an enabled core exists; the machine's own core counts always. -/
def State.regionKind (s : State) (i : Nat) : Option CoreKind :=
  if i = s.core.region.toNat then some s.core.kind else kindAt s.plat i

/-- Where an offset of window 0xE lies: region, area, and offset in the area (R43, R46). -/
def chipArea (s : State) (off : Nat) : Option (Nat × Area × Nat) :=
  let i := off / 2 ^ 26
  let r := off % 2 ^ 26
  match s.regionKind i with
  | none => none
  | some k => (areaOf k r).map fun a => (i, a, r - a.at.1)

end Sys2Proof.Machine
end

