-- ==== Sys2Proof/Machine/Access.lean ====
section
/-! DEFINITION. One access of a core by a generic pointer: the window it reaches, every check it passes at
issue, what it waits for, and where its bytes lie (R42 to R48, R53, R57, R124, R193, R194, R200, R267,
R279, R284). -/

namespace Sys2Proof.Machine

/-- Where the bytes of an access lie. -/
inductive Place where
  | pad (off : Nat)
  | acc (off : Nat)
  | chip (region : Nat) (area : Area) (off : Nat)
  | sys (off : Nat)
  | glob (runs : List (Nat × Nat))
  | nowhere
  deriving DecidableEq, Repr

/-- An access after its checks: its place, its faults, the units it waits on, the pages still to be walked,
the wait of a segment and what that wait starts, and its ordering kind: strongly ordered if some byte of it is,
unordered if every byte is (R329, R330). -/
structure Access where
  place : Place
  faults : List (Nat × Word) := []
  units : List HUnit := []
  need : Span := ⟨[], [], [], []⟩
  wait : Option Why := none
  onWait : State → State := id
  so : Bool := false
  uo : Bool := false

/-! ### REMAP stores in flight (R281, R282) -/

/-- The doublewords that bytes at a system offset touch: register offset, value and mask of the written
bits. -/
def sysWords (off : Nat) (bytes : List Byte) : List (Nat × Word × Word) :=
  if bytes.isEmpty then []
  else
    (rangeFrom (off / 8) ((off + bytes.length - 1) / 8 - off / 8 + 1)).map fun k =>
      let byte (j : Nat) : Option Byte :=
        if 8 * k + j < off then none else bytes[8 * k + j - off]?
      (8 * k, wordOf (packN 8 8 fun j => ((byte j).map BitVec.toNat).getD 0),
        wordOf (packN 8 8 fun j => if (byte j).isSome then 255 else 0))

/-- A doubleword of a system register after a masked write. -/
def mergeWord (old v m : Word) : Word := (old &&& ~~~m) ||| (v &&& m)

/-- REMAP entry n of a core is written. -/
def remapPut (l : List Word) (n : Nat) (v m : Word) : List Word := lset l n (mergeWord (lget 0 l n) v m)

/-- The core and the entry that a system offset names, when a REMAP entry lies there (R281). -/
def remapAt (off : Nat) : Option (Nat × Nat) :=
  if 0x00900000 ≤ off && off < 0x00A00000 && off % 256 < 0x80 then
    some ((off - 0x00900000) / 256, off % 256 / 8)
  else none

/-- The REMAP entries of a core as they will stand: with the stores of every core that are still in flight. -/
def remapNow (s : State) (i : Nat) (c : Core) : List Word :=
  ((s.core :: s.others.map Prod.snd).flatMap Core.tracked).foldl (fun l t =>
    match t.op with
    | .store a _ _ bytes =>
      if a.toNat / 2 ^ 60 = 0xF then
        (sysWords (a.toNat % 2 ^ 60) bytes).foldl (fun l w =>
          match remapAt w.1 with
          | some (j, n) => if j = i then remapPut l n w.2.1 w.2.2 else l
          | none => l) l
      else l
    | _ => l) c.shelf.remap

/-- A store that has issued is still to put a spare of a segment in force. -/
def remapDue (s : State) (i k : Nat) : Bool :=
  match s.coreAt i with
  | none => false
  | some c => ((remapNow s i c).zip c.shelf.remap).any fun p =>
      p.1 != p.2 && p.1.getLsbD 15 && (p.1.extractLsb' 8 3).toNat == k

/-! ### The storage view (R267, R279, R284) -/

/-- The state a segment is in at a core cycle. -/
def segNow (sh : Shelf) (cycle k : Nat) : SegSt :=
  match lget .awake sh.segs k with
  | .waking t => if t ≤ cycle then .awake else .waking t
  | x => x

/-- Starts the wake of a segment that is asleep (R284). -/
def Shelf.wake (sh : Shelf) (cycle k : Nat) : Shelf :=
  if segNow sh cycle k = .asleep then { sh with segs := lset sh.segs k (.waking (cycle + 2000)) } else sh

/-- Starts the wakes of segments of a region. One waits for the REMAP stores that issued while it slept (R282). -/
def State.wakeSegs (s : State) (i : Nat) (ks : List Nat) : State :=
  match s.coreAt i with
  | none => s
  | some c =>
    s.setCoreAt i { c with
      shelf := (ks.filter fun k => !remapDue s i k).foldl (fun sh k => sh.wake s.cycle k) c.shelf }

/-- The error held in word q of a row of a physical page. -/
def Mat.errAt (m : Mat) (pid row q : Nat) : Option WordErr :=
  (m.errs.find? fun e => e.1 == 8 * (256 * pid + row) + q).map fun e => e.2

/-- A refetch of the position of a logical macro is in progress (R283). -/
def Core.refetches (c : Core) (m : Nat) : Bool :=
  c.mat.refetch.any fun pid => pid / 8 == 34 * (m / 32) + macroPos c.shelf m

/-- What a storage-view range meets: faults with the offset of the byte at fault, a wait, the segments
and pages that the wait starts on, and the words whose parity fails. -/
structure ViewCheck where
  faults : List (Nat × Nat)
  wait : Option Why
  wake : List Nat
  refetch : List Nat
  parity : List Nat
  deriving DecidableEq, Repr

/-- The logical macros that n bytes of the storage view touch, each with its first byte. -/
def viewMacros (off n : Nat) : List (Nat × Nat) :=
  if n = 0 then []
  else (rangeFrom (off / 2 ^ 17) ((off + n - 1) / 2 ^ 17 - off / 2 ^ 17 + 1)).map fun m =>
    (m, max off (m * 2 ^ 17))

/-- The 64-bit words of the storage view that n bytes touch, as offsets. -/
def viewWords (off n : Nat) : List Nat :=
  if n = 0 then [] else (rangeFrom (off / 8) ((off + n - 1) / 8 - off / 8 + 1)).map (· * 8)

/-- The words of the storage view that an access reads: those it touches, or for a write those it covers in
part, which are read and merged (R278). -/
def viewRead (read : Bool) (off n : Nat) : List Nat :=
  if read then viewWords off n else (viewWords off n).filter fun w => decide (w < off) || decide (off + n < w + 8)

/-- The checks on a storage-view range of a core (R267, R279, R284): `own` for the core's own M slot, loads
and stores, which hold where another agent faults or waits; `auto` is its AUTOWAKE. -/
def viewCheck (c : Core) (cycle : Nat) (own auto read : Bool) (off n : Nat) : ViewCheck :=
  let ms := viewMacros off n
  let mode := (ms.find? fun p => c.mat.modes.getLsbD p.1).map fun p => (0x50, p.2)
  let sleep := ms.filter fun p => segNow c.shelf cycle (p.1 / 32) = .asleep
  let waking := ms.any fun p => match segNow c.shelf cycle (p.1 / 32) with
    | .waking _ => true
    | _ => false
  let asleep := if own && auto then none else sleep.head?.map fun p => (0x53, p.2)
  let errs (e : WordErr) : List Nat :=
    (viewRead read off n).filter fun w =>
      let v := viewAt c.shelf w
      c.mat.errAt v.pid v.row (v.k / 8) == some e
  let unc := (errs .uncorrectable).head?.map fun w => (0x54, max off w)
  let par := (errs .parity).map fun w => (viewAt c.shelf w).pid
  { faults := mode.toList ++ asleep.toList ++ unc.toList
    wait := if waking || !sleep.isEmpty then some .segment
      else if !par.isEmpty then some .macroBusy else none
    wake := sleep.map fun p => p.1 / 32
    refetch := par.eraseDups
    parity := errs .parity }

/-- A read of the storage view of a region corrects the words that it can, and logs them (R279); so does the
partial write of one. -/
def viewRepair (s : State) (i src : Nat) (read : Bool) (off n : Nat) : State :=
  (viewRead read off n).foldl (fun s w =>
    match s.coreAt i with
    | none => s
    | some c =>
      let v := viewAt c.shelf w
      if c.mat.errAt v.pid v.row (v.k / 8) == some .correctable then
        let m := { c.mat with errs := c.mat.errs.filter fun e => e.1 != 8 * (256 * v.pid + v.row) + v.k / 8 }
        (s.setCoreAt i { c with mat := m }).shelfFinding i false src 0 w
      else s) s

/-- What the wait of a storage-view access of a region starts: wakes, and refetches with their findings
(R279, R284). -/
def ViewCheck.start (v : ViewCheck) (i src : Nat) (s : State) : State :=
  let s := s.wakeSegs i v.wake
  match s.coreAt i with
  | none => s
  | some c =>
    let new := v.parity.filter fun w => !c.mat.refetch.contains (viewAt c.shelf w).pid
    let more := v.refetch.filter fun p => !c.mat.refetch.contains p
    let s := s.setCoreAt i { c with mat := { c.mat with refetch := c.mat.refetch ++ more } }
    new.foldl (fun s w => s.shelfFinding i false src 0 w) s

/-! ### Checked words of the scratchpad and the accumulators (R409) -/

/-- A word of n bytes from an offset: the accumulators follow the scratchpad at 1 MiB, as in a region. -/
def inWords (off n w : Nat) : Bool := decide (0 < n) && decide (off / 8 ≤ w) && decide (w ≤ (off + n - 1) / 8)

/-- The first word of a range that cannot be corrected. -/
def eccBad (c : Core) (off n : Nat) : Option Nat :=
  (c.ecc.find? fun e => e.2 == .uncorrectable && inWords off n e.1).map Prod.fst

/-- A read of ranges: its words that can be corrected are, and every finding is logged (R409, R411). -/
def eccChecks (s : State) (i : Nat) (rs : List (Nat × Nat)) : State :=
  match s.coreAt i with
  | none => s
  | some c =>
    let hit (w : Nat) : Bool := rs.any fun r => inWords r.1 r.2 w
    let found := c.ecc.filter fun e => hit e.1
    if found.isEmpty then s
    else
      let keep := c.ecc.filter fun e => !(hit e.1 && e.2 != .uncorrectable)
      found.foldl (fun t e =>
        let unc := e.2 == .uncorrectable
        logError t 4 unc (if unc then 0x70 else 0) 0 i (0xE * 2 ^ 60 + i * 2 ^ 26 + 8 * e.1))
        (s.setCoreAt i { c with ecc := keep })

/-- A read of one range. -/
def eccCheck (s : State) (i off n : Nat) : State := eccChecks s i [(off, n)]

/-! ### Windows (R42 to R44) -/

/-- The areas of the system window: offset and extent (R44). -/
def sysAreas : List (Nat × Nat) :=
  [(0x00000000, 2 ^ 24), (0x01000000, 2 ^ 24), (0x02000000, 4096), (0x03000000, 4096),
   (0x04000000, 2 ^ 21), (0x05000000, 2 ^ 24), (0x06000000, 2 ^ 24)]

/-- The parts of the platform and kiln areas that the spec calls holes: lists of their existing registers
are tested by the chapters that own them (R281, R396, R416). -/
def sysHole (s : State) (off : Nat) : Bool :=
  if 0x00900000 ≤ off && off < 0x00A00000 then
    let i := (off - 0x00900000) / 256
    let r := off % 256
    !(decide (i < 512) && s.regionKind i == some .a && decide (r < 0xA8))
  else if 0x00A00000 ≤ off && off < 0x00B00000 then
    let i := (off - 0x00A00000) / 256
    (s.regionKind i).isNone
  else if 0x01000000 ≤ off && off < 0x02000000 then
    let r := off - 0x01000000
    if r < 0x20 then false
    else !(decide (0x1000 ≤ r) && (s.regionKind ((r - 0x1000) / 8)).isSome)
  else false

/-- The end of the run of existing offsets from an offset: the test of R43 for the last byte. -/
def sysRunOk (s : State) (off n : Nat) : Bool := (rangeFrom off n).all fun o => !sysHole s o

/-- The first-byte and last-byte tests of the system window (R43, R44). -/
def sysTest (s : State) (off n : Nat) : Option Nat :=
  match sysAreas.find? fun r => decide (r.1 ≤ off) && decide (off < r.1 + r.2) with
  | none => some 0x30
  | some r =>
    if sysHole s off then some 0x30
    else if decide (r.1 + r.2 < off + n) || !sysRunOk s off n then some 0x32
    else none

/-- The first-byte and last-byte tests of a window of given extent. -/
def extentTest (extent off n : Nat) : Option Nat :=
  if extent ≤ off then some 0x30 else if extent < off + n then some 0x32 else none

/-! ### Nodes and tiles (R47, R124) -/

/-- A region whose core runs a virtual core of the issuing node (R47, R328). -/
def State.sameNode (s : State) (i : Nat) : Bool :=
  if i = s.core.region.toNat then true
  else match s.coreAt i with
    | some c => match c.binding, s.core.binding with
      | some b, some b' => b.nodeSlot == b'.nodeSlot
      | _, _ => false
    | none => false

/-- The tile-ownership fault of n bytes at an offset: the first byte in the first tile that fails (R124). -/
def tileFault (c : Core) (ok : Tile → Bool) (base off n : Nat) : List (Nat × Word) :=
  match (tilesOf off n).find? fun t => !ok (c.copy.tile t) with
  | some t => [(0x42, wordOf (base + max off (t * 16384)))]
  | none => []

/-- A tile the core itself may touch. -/
def ownTile (t : Tile) : Bool := t.owner == 0
/-- A tile that any agent may touch. -/
def openTile (t : Tile) : Bool := t.owner == 3

/-! ### The access -/

/-- The accumulator tiles that n bytes from an offset of the accumulator store touch. -/
def accTiles (off n : Nat) : List HUnit :=
  if n = 0 then []
  else (rangeFrom (off / 4096) ((off + n - 1) / 4096 - off / 4096 + 1)).map fun t => ⟨.acc, t⟩

/-- An access through window 0xE (R43, R46 to R48, R124, R200). One that extends past its area faults with 0x32
before any other test of it (R43; log 74). -/
def chipAccess (s : State) (k : AccKind) (a off n : Nat) : Access :=
  let w := wordOf a
  let one (code : Nat) : Access := { place := .nowhere, faults := [(code, w)] }
  let special := k == .atomic || k == .barrier
  match chipArea s off with
  | none => one 0x30
  | some (i, ar, o) =>
    let own := i == s.core.region.toNat
    let sys := s.core.mode == .sys
    let denied := (!sys && !s.sameNode i) ||
      (!sys && k.writes && (ar == .tiles || ar == .tids || ar == .watch)) || (special && ar != .pad)
    let perm := if denied then [(0x31, w)] else []
    match s.coreAt i with
    | none => one 0x30
    | some c =>
      let tile := if ar == .pad && k != .barrier && !sys then
          tileFault c (if own then ownTile else openTile) (a - o) o n
        else []
      if ar.at.2 < o + n then one 0x32
      else if ar == .macros && perm.isEmpty then
        let v := viewCheck c s.cycle own (own && s.core.csr.cctl.getLsbD 1) (k != .write) o n
        { place := .chip i ar o
          faults := v.faults.map fun f => (f.1, wordOf (a + (f.2 - o)))
          wait := v.wait
          so := true
          onWait := v.start i 1 }
      else
        { place := .chip i ar o, faults := perm ++ tile, so := true
          units := if own && ar == .acc then accTiles o n else if own && ar == .pad then
            (tilesOf o n).map fun t => ⟨.tile, t⟩ else [] }

/-- An access through window 0x0 (R42, R43, R53, R57). -/
def globAccess (s : State) (k : AccKind) (va n : Nat) : Access :=
  match extentTest (2 ^ 58) va n with
  | some f => { place := .nowhere, faults := [(f, wordOf va)] }
  | none =>
    let r := translate s.xlat s.core.walker s.core.csr.tasid va n k (s.core.mode == .sys)
    { place := .glob r.runs
      faults := r.fault.toList
      need := r
      so := r.leaves.any fun l => bitsN l.toNat 8 2 == 1
      uo := !r.leaves.isEmpty && r.leaves.all fun l => bitsN l.toNat 8 2 == 2 }

/-- Every check of an access of the core (R194, R200, R124). -/
def access (s : State) (k : AccKind) (p : Word) (n : Nat) : Access :=
  let a := p.toNat
  let tag := a / 2 ^ 60
  let off := a % 2 ^ 60
  let special := k == .atomic || k == .barrier
  let none' (code : Nat) : Access := { place := .nowhere, faults := [(code, p)] }
  let r : Access :=
    match tag with
    | 0x0 => globAccess s k off n
    | 0xC =>
      match extentTest (2 ^ 20) off n with
      | some f => none' f
      | none =>
        { place := .pad off
          faults := if k == .barrier then [] else tileFault s.core ownTile (a - off) off n
          units := (tilesOf off n).map fun t => ⟨.tile, t⟩ }
    | 0xD =>
      (match extentTest (if s.core.kind = .a then 2 ^ 17 else 0) off n with
       | some f => none' f
       | none => if special then none' 0x31 else { place := .acc off, units := accTiles off n })
    | 0xE => chipAccess s k a off n
    | 0xF =>
      if s.core.mode == .node then none' 0x31
      else match sysTest s off n with
        | some f => none' f
        | none => if special then none' 0x31 else { place := .sys off, so := true }
    | _ => none' 0x30
  if special && a % n != 0 then { r with faults := r.faults ++ [(0x33, p)] } else r

/-- An access waits on a walk. -/
def Access.walks (x : Access) : Bool := !x.need.need.isEmpty

/-- What an access that waits starts: its walks, the wake of its segments. -/
def Access.begin (x : Access) (k : AccKind) (s : State) : State :=
  let c := s.core
  let root := c.csr.tbase.toNat
  let s := if x.walks then s.setXlat (openAll s.xlat c.walker c.csr.tasid root x.need k) else s
  if x.wait.isSome then x.onWait s else s

/-- Adds an access to a plan. -/
def Plan.reach (p : Plan) (k : AccKind) (x : Access) : Plan :=
  { p with
    rd := p.rd ++ x.units
    faults := p.faults ++ x.faults
    walk := p.walk || x.walks
    stall := p.stall.orElse fun _ => x.wait
    onStall := fun s => x.begin k (p.onStall s) }

/-- The runs of an access, for a tracked operation. -/
def Access.runs (x : Access) : List (Nat × Nat) :=
  match x.place with
  | .glob r => r
  | _ => []

/-- The bytes of a window-0xC or 0xD access as they stand at issue. -/
def localBytes (c : Core) (x : Access) (n : Nat) : List Byte :=
  match x.place with
  | .pad off => areaBytes c .pad off n
  | .acc off => areaBytes c .acc off n
  | _ => []

/-- Queues bytes for the end of the group, in a window of the core (R72, R262). -/
def storeAtEnd (x : Access) (bytes mask : List Byte) (s : State) : State :=
  match x.place with
  | .pad off => s.setCore { s.core with ends := s.core.ends ++ [.bytes off bytes mask] }
  | .acc off => s.setCore { s.core with ends := s.core.ends ++ [.accBytes off bytes mask] }
  | _ => s

/-- Whether the bytes lie in a window of the core that is reached at issue (R193). -/
def Place.isLocal : Place → Bool
  | .pad _ => true
  | .acc _ => true
  | _ => false

/-! ### The end of a group (R72, R262) -/

/-- Writes bytes under a mask of bits. -/
def maskBytes : List Byte → List Byte → List Byte → List Byte
  | o :: os, b :: bs, m :: ms => ((o &&& ~~~m) ||| (b &&& m)) :: maskBytes os bs ms
  | os, _, _ => os

/-- A word of the checked words, from `base` on, that a masked write from an offset covers whole (R409). -/
def maskCovers (base off : Nat) (m : List Byte) (w : Nat) : Bool :=
  let k := 8 * (w - base)
  decide (base ≤ w) && decide (off ≤ k) && decide (k + 8 ≤ off + m.length) &&
    ((m.drop (k - off)).take 8).all fun b => b == 0xFF

/-- Writes bytes of an area under a mask of bits; the words it covers whole have fresh checks (R409, R410). -/
def areaMasked (c : Core) (a : Area) (base off : Nat) (v m : List Byte) : Core :=
  let c := areaPut c a off (maskBytes (areaBytes c a off v.length) v m)
  { c with ecc := c.ecc.filter fun e => !maskCovers base off m e.1 }

/-- One effect of the end of a group. -/
def GroupEnd.apply (c : Core) : GroupEnd → Core
  | .bytes off v m => areaMasked c .pad 0 off v m
  | .accBytes off v m => areaMasked c .acc (2 ^ 17) off v m
  | .owner k o => { c with regs := { c.regs with owners := lset c.regs.owners k o } }
  | .modes v m => { c with mat := { c.mat with modes := (c.mat.modes &&& ~~~m) ||| (v &&& m) } }
  | .flags f => { c with csr := { c.csr with fpstat := c.csr.fpstat ||| f } }

/-- Every effect that waits for the end of the group, in order of bundle and slot. -/
def Core.finishGroup (c : Core) : Core := c.ends.foldl GroupEnd.apply { c with ends := [] }

end Sys2Proof.Machine
end

