-- ==== Sys2Proof/Machine/Scalar.lean ====
section
/-! DEFINITION. The S slot's integer, compare, select, immediate, address and CSR instructions
(R157, R158, R181 to R191, R201). -/

namespace Sys2Proof.Machine

/-- The value of a scalar span zero-extended to 64 bits (R158). -/
def valZ (v : Core) (d : Bool) (sp : SSpan) : Nat := scalarRead v.regs.scalar (sop v.csr d sp)

/-- The value of a scalar span sign-extended (R158): the two's complement of its 4w bits. -/
def valS (v : Core) (d : Bool) (sp : SSpan) : Int := toSigned (4 * sp.w) (valZ v d sp)

/-- The slices a scalar span names, none when it is out of range. -/
def spanUnits (v : Core) (d : Bool) (sp : SSpan) : List HUnit :=
  let o := sop v.csr d sp
  if o.bad then [] else sliceUnits o.start o.w

def spanBad (v : Core) (d : Bool) (sp : SSpan) : Bool := (sop v.csr d sp).bad

/-- The plan of an instruction that writes one value to a scalar span from scalar spans (R158, R182): the
range check of R78 on every span, further faults, and the exposed result. -/
def planScalar (s : State) (i : Instr) (d : Bool) (dst : SSpan) (srcs : List SSpan) (lat : Nat)
    (more : List (Bool × Nat × Word)) (val : Nat) : Plan :=
  let v := s.view
  let o := sop v.csr d dst
  { rd := srcs.flatMap (spanUnits v d)
    wr := spanUnits v d dst
    lat := lat
    faults := faultsOf (((dst :: srcs).any (spanBad v d), 0x10, encode i) :: more)
    eff := fun t => t.post .s lat [.slices o.start o.w val] }

/-- How an integer operation takes its sources (R181). -/
inductive SExt where
  | zero | sign

/-- The two sources of an S.R instruction as integers. -/
def srSrc (v : Core) (o : FSR) (e : SExt) : Int × Int :=
  match e with
  | .zero => (valZ v o.d o.src1, valZ v o.d o.src2)
  | .sign => (valS v o.d o.src1, valS v o.d o.src2)

/-- The plan of a two-source integer operation with wrapping (R182, FN 0). -/
def planSR (s : State) (i : Instr) (o : FSR) (e : SExt) (lat : Nat) (more : List (Bool × Nat × Word))
    (f : Int → Int → Int) : Plan :=
  let v := s.view
  let ab := srSrc v o e
  planScalar s i o.d o.dst [o.src1, o.src2] lat more (wrapI (4 * o.dst.w) (f ab.1 ab.2))

/-- The plan of a one-source count (R184): SRC2 is unused. -/
def planSR1 (s : State) (i : Instr) (o : FSR) (f : Nat → Nat → Nat) : Plan :=
  let v := s.view
  planScalar s i o.d o.dst [o.src1] 1 []
    (f (4 * o.src1.w) (valZ v o.d o.src1) % 2 ^ (4 * o.dst.w))

/-- The narrowing of ADD and SUB by FN (R182). -/
def narrowFn (fn w : Nat) (r : Int) : Nat :=
  if fn = 1 then wrapI (4 * w) (clampI (-(2 ^ (4 * w - 1) : Int)) (2 ^ (4 * w - 1) - 1) r)
  else if fn = 2 then wrapI (4 * w) (clampI 0 (2 ^ (4 * w) - 1) r)
  else wrapI (4 * w) r

/-- ADD and SUB: sign extension, zero for `.nsat` (R181, R182). -/
def planAddSub (s : State) (i : Instr) (o : FSR) (f : Int → Int → Int) : Plan :=
  let v := s.view
  let ab := srSrc v o (if o.fn.toNat = 2 then .zero else .sign)
  planScalar s i o.d o.dst [o.src1, o.src2] 1 []
    (narrowFn o.fn.toNat o.dst.w (f ab.1 ab.2))

def execAdd (o : FSR) (s : State) : Host.Outcome State Fault Refusal :=
  runPlan (.add o) s (planAddSub s (.add o) o (· + ·))
def execSub (o : FSR) (s : State) : Host.Outcome State Fault Refusal :=
  runPlan (.sub o) s (planAddSub s (.sub o) o (· - ·))

/-- ADDI (R188). -/
def execAddi (o : FSI) (s : State) : Host.Outcome State Fault Refusal :=
  runPlan (.addi o) s (planScalar s (.addi o) o.d o.dst [o.src1] 1 []
    (wrapI (4 * o.dst.w) (valS s.view o.d o.src1 + o.long.toInt)))

/-! ### Multiplication and division (R181, R183) -/

/-- The high half of a 128-bit product. -/
def high64 (a b : Int) : Int := (a * b) / 2 ^ 64

def execMul (o : FSR) (s : State) : Host.Outcome State Fault Refusal :=
  runPlan (.mul o) s (planSR s (.mul o) o .sign 3 [] (· * ·))
def execMulh (o : FSR) (s : State) : Host.Outcome State Fault Refusal :=
  runPlan (.mulh o) s (planSR s (.mulh o) o .sign 3 [] high64)
def execMulhn (o : FSR) (s : State) : Host.Outcome State Fault Refusal :=
  runPlan (.mulhn o) s (planSR s (.mulhn o) o .zero 3 [] high64)

/-- CCTL.DZTRAP turns a zero divisor into the fault 0x20 (R178, R183). -/
def dzFault (s : State) (i : Instr) (o : FSR) (e : SExt) : List (Bool × Nat × Word) :=
  let v := s.view
  [(v.csr.cctl.getLsbD 2 && decide ((srSrc v o e).2 = 0), 0x20, encode i)]

def divQ (a b : Int) : Int := if b = 0 then -1 else a.tdiv b
def divR (a b : Int) : Int := if b = 0 then a else a.tmod b

def execDiv (o : FSR) (s : State) : Host.Outcome State Fault Refusal :=
  runPlan (.div o) s (planSR s (.div o) o .sign 18 (dzFault s (.div o) o .sign) divQ)
def execDivn (o : FSR) (s : State) : Host.Outcome State Fault Refusal :=
  runPlan (.divn o) s (planSR s (.divn o) o .zero 18 (dzFault s (.divn o) o .zero) divQ)
def execRem (o : FSR) (s : State) : Host.Outcome State Fault Refusal :=
  runPlan (.rem o) s (planSR s (.rem o) o .sign 18 (dzFault s (.rem o) o .sign) divR)
def execRemn (o : FSR) (s : State) : Host.Outcome State Fault Refusal :=
  runPlan (.remn o) s (planSR s (.remn o) o .zero 18 (dzFault s (.remn o) o .zero) divR)

/-! ### Bitwise operations, shifts and counts (R181, R184) -/

/-- A bitwise operation on zero-extended sources. -/
def planBit (s : State) (i : Instr) (o : FSR) (f : Nat → Nat → Nat) : Plan :=
  let v := s.view
  planScalar s i o.d o.dst [o.src1, o.src2] 1 []
    (f (valZ v o.d o.src1) (valZ v o.d o.src2) % 2 ^ (4 * o.dst.w))

def execAnd (o : FSR) (s : State) : Host.Outcome State Fault Refusal :=
  runPlan (.and o) s (planBit s (.and o) o (· &&& ·))
def execOr (o : FSR) (s : State) : Host.Outcome State Fault Refusal :=
  runPlan (.or o) s (planBit s (.or o) o (· ||| ·))
def execXor (o : FSR) (s : State) : Host.Outcome State Fault Refusal :=
  runPlan (.xor o) s (planBit s (.xor o) o (· ^^^ ·))
def execAndn (o : FSR) (s : State) : Host.Outcome State Fault Refusal :=
  runPlan (.andn o) s (planBit s (.andn o) o fun a b => a &&& (2 ^ 64 - 1 - b))

/-- A shift on the n bits of SRC1 by the low six bits of SRC2, its result an integer (R184). -/
def planShift (s : State) (i : Instr) (o : FSR) (f : Nat → Nat → Nat → Int) : Plan :=
  let v := s.view
  planScalar s i o.d o.dst [o.src1, o.src2] 1 []
    (wrapI (4 * o.dst.w) (f (4 * o.src1.w) (valZ v o.d o.src1) (valZ v o.d o.src2 % 64)))

def shlN (n a k : Nat) : Nat := (a * 2 ^ k) % 2 ^ n
def shrN (_n a k : Nat) : Nat := a / 2 ^ k
def sraN (n a k : Nat) : Int := toSigned n a / 2 ^ k
def rotlN (n a k : Nat) : Nat := (a * 2 ^ (k % n)) % 2 ^ n + a / 2 ^ (n - k % n)

def execShl (o : FSR) (s : State) : Host.Outcome State Fault Refusal :=
  runPlan (.shl o) s (planShift s (.shl o) o fun n a k => shlN n a k)
def execShr (o : FSR) (s : State) : Host.Outcome State Fault Refusal :=
  runPlan (.shr o) s (planShift s (.shr o) o fun n a k => shrN n a k)
def execSra (o : FSR) (s : State) : Host.Outcome State Fault Refusal :=
  runPlan (.sra o) s (planShift s (.sra o) o sraN)
def execRotl (o : FSR) (s : State) : Host.Outcome State Fault Refusal :=
  runPlan (.rotl o) s (planShift s (.rotl o) o fun n a k => rotlN n a k)
def execClz (o : FSR) (s : State) : Host.Outcome State Fault Refusal :=
  runPlan (.clz o) s (planSR1 s (.clz o) o fun n a => clzN a n)
def execCtz (o : FSR) (s : State) : Host.Outcome State Fault Refusal :=
  runPlan (.ctz o) s (planSR1 s (.ctz o) o fun n a => ctzN a n)
def execPopc (o : FSR) (s : State) : Host.Outcome State Fault Refusal :=
  runPlan (.popc o) s (planSR1 s (.popc o) o fun n a => popN a n)

def execMin (o : FSR) (s : State) : Host.Outcome State Fault Refusal :=
  runPlan (.min o) s (planSR s (.min o) o .sign 1 [] fun a b => if b < a then b else a)
def execMax (o : FSR) (s : State) : Host.Outcome State Fault Refusal :=
  runPlan (.max o) s (planSR s (.max o) o .sign 1 [] fun a b => if a < b then b else a)
def execMinn (o : FSR) (s : State) : Host.Outcome State Fault Refusal :=
  runPlan (.minn o) s (planSR s (.minn o) o .zero 1 [] fun a b => if b < a then b else a)
def execMaxn (o : FSR) (s : State) : Host.Outcome State Fault Refusal :=
  runPlan (.maxn o) s (planSR s (.maxn o) o .zero 1 [] fun a b => if a < b then b else a)

/-! ### Compare and select (R185, R186) -/

/-- The condition of CMP by FN (R185). -/
def cmpHolds (v : Core) (o : FSCmp) : Bool :=
  let a := valS v false o.src1
  let b := valS v false o.src2
  let x := valZ v false o.src1
  let y := valZ v false o.src2
  match o.fn.toNat with
  | 0 => a == b
  | 1 => a != b
  | 2 => decide (a < b)
  | 3 => decide (b ≤ a)
  | 4 => decide (x < y)
  | 5 => decide (y ≤ x)
  | _ => (x &&& y) != 0

def execCmp (o : FSCmp) (s : State) : Host.Outcome State Fault Refusal :=
  let v := s.view
  let p := rotPred v.csr.prb o.pd.toNat
  runPlan (.cmp o) s
    { rd := spanUnits v false o.src1 ++ spanUnits v false o.src2
      wr := predUnits p
      lat := 1
      faults := faultsOf [(spanBad v false o.src1 || spanBad v false o.src2, 0x10, encode (.cmp o))]
      eff := fun t => t.post .s 1 [.pred p (if cmpHolds v o then predOnes else 0) predOnes] }

def execSel (o : FSSel) (s : State) : Host.Outcome State Fault Refusal :=
  let v := s.view
  let p := rotPred v.csr.prb o.ps.toNat
  let x := if (predRead v.regs p).getLsbD 0 then valS v o.d o.src1 else valS v o.d o.src2
  let pl := planScalar s (.sel o) o.d o.dst [o.src1, o.src2] 1 [] (wrapI (4 * o.dst.w) x)
  runPlan (.sel o) s { pl with rd := predUnits p ++ pl.rd }

/-! ### Immediates, moves and addresses (R187 to R191) -/

def execLi (o : FSL) (s : State) : Host.Outcome State Fault Refusal :=
  runPlan (.li o) s (planScalar s (.li o) o.d o.dst [] 1 [] (o.long.toNat % 2 ^ (4 * o.dst.w)))

def execMovs (o : FSR) (s : State) : Host.Outcome State Fault Refusal :=
  let v := s.view
  let x : Int := if o.fn.toNat = 1 then valS v o.d o.src1 else valZ v o.d o.src1
  runPlan (.movs o) s (planScalar s (.movs o) o.d o.dst [o.src1] 1 [] (wrapI (4 * o.dst.w) x))

/-- lo, and the highest bit of the field, of EXTS and INSS (R190). -/
def fieldLo (o : FSI) : Nat := (o.long.extractLsb' 0 6).toNat
def fieldHi (o : FSI) : Nat := min (fieldLo o + (o.long.extractLsb' 6 6).toNat) 63

def execExts (o : FSI) (s : State) : Host.Outcome State Fault Refusal :=
  let n := fieldHi o + 1 - fieldLo o
  let f := bitsN (valZ s.view o.d o.src1) (fieldLo o) n
  let x : Int := if o.fn.toNat = 1 then toSigned n f else f
  runPlan (.exts o) s (planScalar s (.exts o) o.d o.dst [o.src1] 1 [] (wrapI (4 * o.dst.w) x))

def execInss (o : FSI) (s : State) : Host.Outcome State Fault Refusal :=
  let v := s.view
  let n := fieldHi o + 1 - fieldLo o
  let x := setBitsN (valZ v o.d o.dst) (fieldLo o) n (valZ v o.d o.src1)
  runPlan (.inss o) s (planScalar s (.inss o) o.d o.dst [o.src1, o.dst] 1 []
    (x % 2 ^ (4 * o.dst.w)))

def execLea (o : FSI) (s : State) : Host.Outcome State Fault Refusal :=
  let p := valZ s.view o.d o.src1
  let off := wrapI 60 ((p % 2 ^ 60 : Nat) + o.long.toInt * 2 ^ o.fn.toNat)
  runPlan (.lea o) s (planScalar s (.lea o) o.d o.dst [o.src1] 1 []
    ((bitsN p 60 4 * 2 ^ 60 + off) % 2 ^ (4 * o.dst.w)))

/-! ### Control registers (R177, R180, R201, R394) -/

/-- The faults of naming a CSR: 0x08 for 0x100 to 0x1FF in node mode, before any other check; 0x04 for a
number that is not assigned, and for a write of a read-only register (R177, R394). -/
def csrFaults (v : Core) (i : Instr) (n : Nat) (write : Bool) : List (Bool × Nat × Word) :=
  let sysReg := decide (0x100 ≤ n) && decide (n ≤ 0x1FF)
  [(sysReg && decide (v.mode = .node), 0x08, encode i),
   ((v.csrRead n).isNone || (write && csrReadOnly n), 0x04, encode i)]

/-- The fault that comes first by R394: privilege before the other checks of the CSR. -/
def csrFault (v : Core) (i : Instr) (n : Nat) (write : Bool) : List (Bool × Nat × Word) :=
  match csrFaults v i n write with
  | (true, k, w) :: _ => [(true, k, w)]
  | l => l

def execCsrr (o : FSC) (s : State) : Host.Outcome State Fault Refusal :=
  let v := s.view
  let n := o.csr.toNat
  let x := ((v.csrRead n).getD 0).toNat
  let pl := planScalar s (.csrr o) o.d o.dst [] 1 (csrFault v (.csrr o) n false)
    (x % 2 ^ (4 * o.dst.w))
  runPlan (.csrr o) s { pl with rd := [⟨.csr, n⟩] }

/-- CSRW, CSRS and CSRC (f = 0, 1, 2): a tracked write, and a delivery of failed accesses (R197). -/
def planCsrw (s : State) (i : Instr) (o : FSC) (f : Nat) : Plan :=
  let v := s.view
  let n := o.csr.toNat
  let x := wordOf (valZ v false o.src)
  { rd := spanUnits v false o.src ++ (if f = 0 then [] else [⟨.csr, n⟩])
    tw := [⟨.csr, n⟩]
    sync := true
    faults := faultsOf ((spanBad v false o.src, 0x10, encode i) :: csrFault v i n true)
    eff := fun t => t.track .s (.csrWrite n f x) }

def execCsrw (o : FSC) (s : State) : Host.Outcome State Fault Refusal :=
  runPlan (.csrw o) s (planCsrw s (.csrw o) o 0)
def execCsrs (o : FSC) (s : State) : Host.Outcome State Fault Refusal :=
  runPlan (.csrs o) s (planCsrw s (.csrs o) o 1)
def execCsrc (o : FSC) (s : State) : Host.Outcome State Fault Refusal :=
  runPlan (.csrc o) s (planCsrw s (.csrc o) o 2)

end Sys2Proof.Machine
end

