-- ==== Sys2Proof/Machine/ScalarMem.lean ====
section
/-! DEFINITION. The S slot's loads, stores and atomics, the engine-register instructions, and the handle test
(R155, R192 to R202). -/

namespace Sys2Proof.Machine

/-! ### Addresses and data -/

/-- The address of a load or store (R193); a long offset stands in X (R77). -/
def smAddr (v : Core) (o : FSM) : Word :=
  BitVec.ofNat 64 (valZ v o.d o.base) + o.long

/-- The value a loaded byte string gives a destination of w slices (R165, R192, R199). -/
def LoadExt.value (e : LoadExt) (bytes : List Byte) (w : Nat) : Nat :=
  match e with
  | .sign => wrapI (4 * w) (toSigned (8 * bytes.length) (leNat bytes))
  | _ => leNat bytes % 2 ^ (4 * w)

/-- Where an access of the core's own windows lies among its checked words (R409). -/
def localWord (x : Access) : Option Nat :=
  match x.place with
  | .pad off => some off
  | .acc off => some (2 ^ 20 + off)
  | _ => none

/-- A scratchpad or accumulator load meets an uncorrectable word (R409). -/
def localEcc (c : Core) (x : Access) (n : Nat) : Bool :=
  (localWord x).any fun off => (eccBad c off n).isSome

/-- The check of the words that a local load reads: what can be corrected is, and each finding is logged
(R409, R411). -/
def localCheck (x : Access) (n : Nat) (s : State) : State :=
  match localWord x with
  | some off => eccCheck s s.core.region.toNat off n
  | none => s

/-- An acquire or release access takes delivery of failed accesses (R197). -/
def ordSyncs : Ord → Bool
  | .relaxed => false
  | _ => true

/-- The ORD in force for a load or a store: ignored on an unordered page (R336). -/
def Access.ordOf (x : Access) (o : Ord) : Ord := if x.uo then .relaxed else o

/-- A load or store that takes delivery of failed accesses (R197). -/
def Access.syncs (x : Access) (o : Ord) : Bool := ordSyncs (x.ordOf o)

/-! ### Loads and stores -/

/-- The plan of a load of n bytes (R193, R196): exposed from windows 0xC and 0xD, tracked from the others. -/
def planLoad (s : State) (i : Instr) (o : FSM) (n : Nat) (ext : LoadExt) : Plan :=
  let v := s.view
  let a := smAddr v o
  let d := sop v.csr o.d o.data
  let x := access s .read a n
  let p : Plan :=
    { rd := spanUnits v o.d o.base
      faults := faultsOf [(spanBad v o.d o.base || spanBad v o.d o.data, 0x10, encode i)]
      sync := x.syncs o.ord }
  let p := p.reach .read x
  if x.place.isLocal then
    let val := ext.value (localBytes s.core x n) d.w
    let f : Option (Nat × Word) := if localEcc s.core x n then some (0x70, a) else none
    { p with wr := spanUnits v o.d o.data, lat := 6
             eff := fun t =>
               (localCheck x n t).post .s 6 (if f.isSome then [] else [.slices d.start d.w val]) 0 f }
  else
    { p with tw := spanUnits v o.d o.data
             eff := fun t => t.track .s (.load a x.runs n o.evict.toNat d.start d.w ext) (x.ordOf o.ord) x.so x.uo }

/-- Entry n of a core's REMAP is refused with this value, the other entries standing as in l (R282). -/
def remapBad (s : State) (i : Nat) (c : Core) (l : List Word) (n : Nat) (v : Word) : Bool :=
  let valid (w : Word) : Bool := w.getLsbD 15
  let shelf (w : Word) : Nat := (w.extractLsb' 8 3).toNat
  let pos (w : Word) : Nat := (w.extractLsb' 1 5).toNat
  let others := l.zipIdx.filter fun p => p.2 != n && valid p.1
  valid v &&
    (others.any (fun p => shelf p.1 == shelf v && (pos p.1 == pos v || p.1.getLsbD 0 == v.getLsbD 0)) ||
      (spGet 0 s.plat.catalogue.spares (lget 0 s.plat.aSites i)).getLsbD
        (2 * shelf v + (if v.getLsbD 0 then 1 else 0)) ||
      segNow c.shelf s.cycle (shelf v) != .asleep)

/-- The refusals of a store to a REMAP entry at issue: the entry as the store leaves it (R282). -/
def remapRefused (s : State) (off : Nat) (v m : Word) : Bool :=
  match remapAt off with
  | none => false
  | some (i, n) =>
    match s.coreAt i with
    | none => false
    | some c =>
      let l := remapNow s i c
      remapBad s i c l n (mergeWord (lget 0 l n) v m)

/-- A store that would write a REMAP entry which is refused faults with 0x55 (R282). -/
def storeFaults (s : State) (x : Access) (a : Word) (bytes : List Byte) : List (Nat × Word) :=
  match x.place with
  | .sys off => if (sysWords off bytes).any fun w => remapRefused s w.1 w.2.1 w.2.2 then [(0x55, a)] else []
  | _ => []

/-- The plan of a store (R193, R196): at the group's end in windows 0xC and 0xD, tracked in the others. -/
def planStore (s : State) (i : Instr) (o : FSM) (bytes : List Byte) : Plan :=
  let v := s.view
  let a := smAddr v o
  let x := access s .write a bytes.length
  let p : Plan :=
    { rd := spanUnits v o.d o.base ++ spanUnits v o.d o.data
      faults := faultsOf [(spanBad v o.d o.base || spanBad v o.d o.data, 0x10, encode i)] ++
        storeFaults s x a bytes
      sync := x.syncs o.ord }
  let p := p.reach .write x
  { p with
    eff := if x.place.isLocal then storeAtEnd x bytes (List.replicate bytes.length 0xFF)
      else fun t => t.track .s (.store a x.runs o.evict.toNat bytes) (x.ordOf o.ord) x.so x.uo }

/-- The number of bytes a scalar span moves (R165). -/
def spanBytes (w : Nat) : Nat := (w + 1) / 2

def execLd (o : FSM) (s : State) : Host.Outcome State Fault Refusal :=
  runPlan (.ld o) s (planLoad s (.ld o) o (spanBytes o.data.w) .image)
def execSt (o : FSM) (s : State) : Host.Outcome State Fault Refusal :=
  runPlan (.st o) s (planStore s (.st o) o (leBytes (spanBytes o.data.w) (valZ s.view o.d o.data)))
def execLdg (o : FSM) (s : State) : Host.Outcome State Fault Refusal :=
  runPlan (.ldg o) s (planLoad s (.ldg o) o (2 ^ (o.fn.toNat % 4))
    (if o.fn.getLsbD 2 then .sign else .zero))
def execStg (o : FSM) (s : State) : Host.Outcome State Fault Refusal :=
  runPlan (.stg o) s (planStore s (.stg o) o (leBytes (2 ^ (o.fn.toNat % 4)) (wrapI 64 (valS s.view o.d o.data))))

/-! ### Atomics (R198 to R200) -/

/-- The new value of an atomic on n bytes (R199). -/
def AtomOp.new (op : AtomOp) (n old v : Nat) : Nat :=
  let b := 8 * n
  let so := toSigned b old
  let sv := toSigned b v
  match op with
  | .swap => v
  | .add => (old + v) % 2 ^ b
  | .and => old &&& v
  | .or => old ||| v
  | .xor => old ^^^ v
  | .min => if sv < so then v else old
  | .max => if so < sv then v else old
  | .minn => if v < old then v else old
  | .maxn => if old < v then v else old
  | .cas e => if old = e then v else old

/-- How the old value is extended (R199). -/
def AtomOp.ext : AtomOp → LoadExt
  | .minn => .zero
  | .maxn => .zero
  | _ => .sign

/-- The operation of AMO by FN. -/
def AtomOp.ofFn (fn : Nat) : AtomOp :=
  match fn with
  | 0 => .swap
  | 1 => .add
  | 2 => .and
  | 3 => .or
  | 4 => .xor
  | 5 => .min
  | 6 => .max
  | 7 => .minn
  | _ => .maxn

/-- The plan of an atomic (R198 to R200). -/
def planAtom (s : State) (i : Instr) (o : FSA) (op : AtomOp) : Plan :=
  let v := s.view
  let a := wordOf (valZ v false o.base)
  let n := o.src.w / 2
  let badW := o.src.w != 8 && o.src.w != 16
  let x := access s .atomic a n
  let bad := spanBad v false o.base || spanBad v false o.src || spanBad v false o.dst
  let p : Plan :=
    { rd := spanUnits v false o.base ++ spanUnits v false o.src ++
        (match op with
         | .cas _ => spanUnits v false o.dst
         | _ => [])
      tw := spanUnits v false o.dst
      faults := faultsOf [(bad, 0x10, encode i), (badW, 0x04, encode i)]
      sync := ordSyncs o.ord }
  let p := if badW then p else p.reach .atomic x
  let val := valZ v false o.src % 2 ^ (8 * n)
  let op := TOp.atom a x.runs o.evict.toNat op val n o.dst.start.toNat o.dst.w
  { p with eff := fun t => t.track .s op o.ord x.so }

def execAmo (o : FSA) (s : State) : Host.Outcome State Fault Refusal :=
  runPlan (.amo o) s (planAtom s (.amo o) o (AtomOp.ofFn o.fn.toNat))
def execCas (o : FSA) (s : State) : Host.Outcome State Fault Refusal :=
  runPlan (.cas o) s (planAtom s (.cas o) o
    (.cas (wrapI (8 * (o.src.w / 2)) (valS s.view false o.dst))))

/-! ### Engine registers (R114, R202) -/

/-- The channel an engine-register number names. -/
def engChan (n : Nat) : Chan := if n.testBit 4 then .b else .a

/-- The engine unit of a channel's shadow register. -/
def engUnit (ch : Chan) (k : Nat) : HUnit := ⟨.eng, 16 * ch.num + k⟩

/-- ENGW: a tracked write of the shadow set. -/
def execEngw (o : FSC) (s : State) : Host.Outcome State Fault Refusal :=
  let v := s.view
  let n := o.csr.toNat
  let ch := engChan n
  let x := wordOf (valZ v false o.src)
  runPlan (.engw o) s
    { rd := spanUnits v false o.src
      tw := [engUnit ch (n % 16)]
      faults :=
        faultsOf [(spanBad v false o.src, 0x10, encode (.engw o)),
          (decide (64 ≤ n) || !n.testBit 5, 0x04, encode (.engw o))]
      eff := fun t => t.track .s (.engWrite ch (n % 16) x) }

/-- ENGR: the register's value before its group (R72). -/
def execEngr (o : FSC) (s : State) : Host.Outcome State Fault Refusal :=
  let n := o.csr.toNat
  let ch := s.core.ctx.first.chan (engChan n)
  let x := if n.testBit 5 then ch.shadow.get (n % 16) else ch.activeReg (n % 16)
  let p := planScalar s (.engr o) o.d o.dst [] 1
    [(decide (64 ≤ n), 0x04, encode (.engr o))] (x.toNat % 2 ^ (4 * o.dst.w))
  runPlan (.engr o) s { p with rd := if n.testBit 5 then [engUnit (engChan n) (n % 16)] else [] }

/-! ### Handles (R62, R63, R155) -/

def handleSlot (h : Nat) : Nat := h % 64
def handleGen (h : Nat) : Nat := h / 64 % 1024

/-- The queue table's entry at reset. -/
def queueDefault : Queue :=
  { base := 0, gen := 0, en := false, log2n := 0, engine := 0, asid := 0, packet := none }

/-- A TID handle is current (R63). -/
def Copy.tidLive (c : Copy) (h : Nat) : Bool :=
  let x := c.tid (handleSlot h)
  x.st == .live && x.gen.toNat == handleGen h

/-- A tile handle is current (R63, R121). -/
def Copy.tileLive (c : Copy) (h : Nat) : Bool :=
  let x := c.tile (handleSlot h)
  x.slotSt == .live && x.gen.toNat == handleGen h

/-- The state of a queue registration: live while it is served; draining while a packet that it had read before
its deregistration is in progress (R62, R64, R138). -/
def Queue.slotSt (q : Queue) : SlotSt :=
  if q.en then .live else if q.packet.isSome then .draining else .free

/-- State code and generation of the slot that a handle names, in the table that FN names (R62, R155). -/
def handleState (s : State) (fn h : Nat) : Nat × Nat :=
  let t := handleSlot h
  match fn with
  | 0 => ((s.core.copy.tid t).st.code, (s.core.copy.tid t).gen.toNat)
  | 1 => ((s.core.copy.tile t).slotSt.code, (s.core.copy.tile t).gen.toNat)
  | _ =>
    let q := spGet queueDefault s.queues t
    (q.slotSt.code, q.gen.toNat)

/-- HCHK (R155). -/
def execHchk (o : FSR) (s : State) : Host.Outcome State Fault Refusal :=
  let h := valZ s.view o.d o.src1 % 65536
  let q := handleState s o.fn.toNat h
  let ok := if q.1 = 1 && handleGen h == q.2 then 1 else 0
  runPlan (.hchk o) s (planScalar s (.hchk o) o.d o.dst [o.src1] 1
    [(o.fn == 2 && s.core.mode == .node, 0x08, encode (.hchk o))]
    ((ok + q.1 * 2 + q.2 * 65536) % 2 ^ (4 * o.dst.w)))

end Sys2Proof.Machine
end

