-- ==== Sys2Proof/Machine/Sha3.lean ====
section
/-! DEFINITION. SHA3-512 over bytes, the digest of measurement, attestation and the catalogue (R420 to R423).
PRESUMED (log 13): the spec names the function; its definition is the published one. -/

namespace Sys2Proof.Machine

/-! ### The permutation of 25 lanes of 64 bits, lane (x, y) at 5y + x -/

/-- A lane of a state. -/
def kLane (a : List Word) (x y : Nat) : Word := lget 0 a (5 * (y % 5) + x % 5)

/-- A state from its lanes. -/
def kState (f : Nat → Nat → Word) : List Word := (List.range 25).map fun k => f (k % 5) (k / 5)

/-- The rotation of each lane. -/
def kRot : List Nat :=
  [0, 1, 62, 28, 27, 36, 44, 6, 55, 20, 3, 10, 43, 25, 39, 41, 45, 15, 21, 8, 18, 2, 61, 56, 14]

/-- The constant of each round. -/
def kRound : List Word :=
  [0x0000000000000001, 0x0000000000008082, 0x800000000000808A, 0x8000000080008000,
   0x000000000000808B, 0x0000000080000001, 0x8000000080008081, 0x8000000000008009,
   0x000000000000008A, 0x0000000000000088, 0x0000000080008009, 0x000000008000000A] ++
  [0x000000008000808B, 0x800000000000008B, 0x8000000000008089, 0x8000000000008003,
   0x8000000000008002, 0x8000000000000080, 0x000000000000800A, 0x800000008000000A,
   0x8000000080008081, 0x8000000000008080, 0x0000000080000001, 0x8000000080008008]

/-- The parity of each column is mixed into its neighbours. -/
def kTheta (a : List Word) : List Word :=
  let c := (List.range 5).map fun x => (List.range 5).foldl (fun w y => w ^^^ kLane a x y) 0
  let d := (List.range 5).map fun x => lget 0 c ((x + 4) % 5) ^^^ (lget 0 c ((x + 1) % 5)).rotateLeft 1
  kState fun x y => kLane a x y ^^^ lget 0 d x

/-- The lanes are rotated and moved. -/
def kRhoPi (a : List Word) : List Word :=
  kState fun x y =>
    let u := (x + 3 * y) % 5
    (kLane a u x).rotateLeft (lget 0 kRot (5 * x + u))

/-- The rows are mixed, and the round's constant goes into the first lane. -/
def kChi (rc : Word) (a : List Word) : List Word :=
  kState fun x y =>
    let w := kLane a x y ^^^ (~~~kLane a (x + 1) y &&& kLane a (x + 2) y)
    if x = 0 && y = 0 then w ^^^ rc else w

/-- The permutation. -/
def keccak (a : List Word) : List Word := kRound.foldl (fun a rc => kChi rc (kRhoPi (kTheta a))) a

/-! ### The digest -/

/-- The bytes of one block: 576 bits. -/
def shaRate : Nat := 72

/-- A message with its suffix, in whole blocks. -/
def shaPad (m : List Byte) : List Byte :=
  let z := shaRate - 1 - m.length % shaRate
  if z = 0 then m ++ [0x86] else m ++ [0x06] ++ List.replicate (z - 1) 0 ++ [0x80]

/-- A block goes into the first nine lanes. -/
def shaAbsorb (a : List Word) (b : List Byte) : List Word :=
  keccak (kState fun x y =>
    let k := 5 * y + x
    if k < 9 then kLane a x y ^^^ wordOf (leNat ((b.drop (8 * k)).take 8)) else kLane a x y)

/-- The SHA3-512 digest of a byte string, with byte j in bits 8j + 7 : 8j. -/
def sha3 (m : List Byte) : BitVec 512 :=
  let p := shaPad m
  let a := (List.range (p.length / shaRate)).foldl
    (fun a k => shaAbsorb a ((p.drop (shaRate * k)).take shaRate)) (List.replicate 25 0)
  BitVec.ofNat 512 (packN 64 8 fun k => (lget 0 a k).toNat)

end Sys2Proof.Machine
end

