-- ==== Sys2Proof/Machine/SysWindow.lean ====
section
/-! DEFINITION. The registers of the system window, doubleword by doubleword: platform, links, domain, queues,
shelves, debug, kiln, memory system, translation, migration counters, pool and catalogue (R39 to R41, R44, R60,
R138, R281, R282, R362, R369, R396, R399, R411, R416, R418, R421 to R429). -/

namespace Sys2Proof.Machine

/-! ### Merging -/

/-- A plain write under a mask of bits. -/
def mergeW (old : Nat) (v mask : Word) : Nat := ((wordOf old &&& ~~~mask) ||| (v &&& mask)).toNat

/-- A write-one-to-clear under a mask of bits. -/
def clearW (old : Nat) (v mask : Word) : Nat := (wordOf old &&& ~~~(v &&& mask)).toNat

/-! ### Readiness and the catalogue (R418, R423, R424) -/

/-- The width of a port in a descriptor (R424). -/
def descWidth (d : BitVec 512) (p : Nat) : Nat := bitsN d.toNat (64 + 5 * p) 5

/-- The stacks that hold the enabled channels (R15, R17). -/
def stacksUsed (p : Platform) : List Nat := (p.channels.map (· / 32)).eraseDups

/-- HLSTAT (R427): zero while the link is down. PRESUMED (log 76): a link of two ×8 shows the width of one. -/
def hostLinkStat (p : Platform) : Nat :=
  if !p.hostUp then 0
  else match p.hlink with
    | .x16 => 1 + 16 * 2
    | .x8 => 1 + 8 * 2
    | .two8 => 1 + 8 * 2 + 2 ^ 6

/-- READY (R418). -/
def readyWord (p : Platform) : Nat :=
  let b (x : Bool) (k : Nat) : Nat := if x then 2 ^ k else 0
  let ports := packN 1 12 fun k => if (lget Reset.port p.ports k).ready then 1 else 0
  let done := p.fw && p.hostUp && p.cat && p.l2Up && p.poolUp && p.gcoreUp && p.acoreUp &&
    ((stacksUsed p).all fun k => p.hbmUp.getLsbD k) &&
    (List.range 12).all fun k => descWidth p.desc k == 0 || (lget Reset.port p.ports k).ready
  b done 63 + ports * 2 ^ 32 + p.hbmUp.toNat * 2 ^ 16 + b p.hostUp 6 + b p.acoreUp 5 + b p.gcoreUp 4 +
    b p.poolUp 3 + b p.l2Up 2 + b p.cat 1 + b p.fw 0

/-- The catalogue rewritten: its sequence number rises (R426). -/
def Catalogue.rewrite (c : Catalogue) : Catalogue := { c with seq := c.seq + 1 }

/-- The bytes of the catalogue before its signature (R423). -/
def catalogueBody (c : Catalogue) : List Byte :=
  let zeros (n : Nat) : List Byte := List.replicate n 0
  leBytes 8 (0x54414352 + 1 * 2 ^ 32 + c.descs.length % 65536 * 2 ^ 48) ++
  leBytes 8 c.seq.toNat ++ zeros 48 ++
  leBytes 34 c.aSites.toNat ++ zeros 30 ++
  leBytes 4 c.gSites.toNat ++ zeros 124 ++
  (List.range 4352).flatMap (fun k => leBytes 2 (spGet 0 c.accessions k).toNat) ++
  zeros (0x2400 - 0x100 - 8704) ++
  (List.range 272).flatMap (fun k => leBytes 2 (spGet 0 c.spares k).toNat) ++
  zeros (0x2700 - 0x2400 - 544) ++
  leBytes 64 c.channels.toNat ++
  (List.range 12).flatMap (fun k => leBytes 2 (spGet 0 c.lanes k).toNat) ++
  zeros (0x2800 - 0x2740 - 24) ++
  c.descs.flatMap fun d => leBytes 64 d.toNat

/-- The 4,627 bytes of an ML-DSA-87 signature over the digest of a message (R422, R423; log 13). -/
def signature (msg : List Byte) : List Byte :=
  let sig := Config.mldsaSign (leBytes 64 (sha3 msg).toNat)
  (List.range 4627).map fun j => lget 0 sig j

/-- The catalogue image with its signature (R423). -/
def catalogueImage (c : Catalogue) : List Byte :=
  let body := catalogueBody c
  body ++ signature body

/-- A doubleword of a list of bytes; zero beyond its end. -/
def bytesWord (l : List Byte) (off : Nat) : Nat := leNat ((l.drop off).take 8)

/-! ### The shelves (R281) -/

def segstat (sh : Shelf) (cycle : Nat) : Nat :=
  packN 1 8 (fun k => if segNow sh cycle k = .awake then 1 else 0) +
    2 ^ 8 * packN 1 8 fun k => match segNow sh cycle k with
      | .waking _ => 1
      | _ => 0

def busrep (sh : Shelf) : Nat :=
  min 64 sh.lanesUsed + (if sh.retestPending then 2 ^ 7 else 0) +
    (if sh.repairRegions.isEmpty then 0 else 2 ^ 8) + sh.retests.toNat * 2 ^ 16 + sh.repairs.toNat * 2 ^ 32

def shelfRead (c : Core) (cycle off : Nat) : Nat :=
  let sh := c.shelf
  if off < 0x80 then (lget 0 sh.remap (off / 8)).toNat
  else match off with
    | 0x80 => segstat sh cycle
    | 0x88 => (if sh.scrubEn then 256 else 0) + sh.scrubRate.toNat
    | 0x90 => sh.sherr.toNat
    | 0x98 => sh.canlim.toNat * 2 ^ 16 + sh.tswing.toNat
    | 0xA0 => busrep sh
    | _ => 0

/-- The fields of a REMAP entry (R281). -/
def remapMask : Word := 0x873F

def shelfWrite (s : State) (i off : Nat) (v mask : Word) : State :=
  match s.coreAt i with
  | none => s
  | some c =>
    let sh := c.shelf
    let put (sh : Shelf) : State := s.setCoreAt i { c with shelf := sh }
    if off < 0x80 then
      let x := wordOf (mergeW (lget 0 sh.remap (off / 8)).toNat v mask) &&& remapMask
      if remapBad s i c sh.remap (off / 8) x then s
      else
        let c := { c with shelf := { sh with remap := lset sh.remap (off / 8) x } }
        s.setCoreAt i (freshSpares c (bitsN x.toNat 8 3) sh.remap)
    else match off with
      | 0x88 =>
        let x := mergeW (shelfRead c 0 0x88) v mask
        put { sh with scrubEn := x.testBit 8, scrubRate := BitVec.ofNat 8 x }
      | 0x90 => put { sh with sherr := wordOf (clearW sh.sherr.toNat v mask) }
      | 0x98 =>
        let x := mergeW (shelfRead c 0 0x98) v mask
        put { sh with tswing := BitVec.ofNat 8 x, canlim := BitVec.ofNat 8 (x / 2 ^ 16) }
      | _ => s

/-! ### Debug registers (R396) -/

def debugRead (c : Core) (off : Nat) : Nat :=
  let d := c.dbg
  match off with
  | 0x00 => if d.hreq then 1 else 0
  | 0x08 => (if c.run = .halted then 1 else 0) + (if c.run = .stopped then 2 else 0) +
      d.reason.toNat * 2 ^ 8 + c.vcore.toNat * 2 ^ 16
  | 0x10 => d.dpc.toNat
  | 0x18 => (if d.mcV then 2 ^ 63 else 0) + d.mcCode.toNat * 2 ^ 8 + d.mcSyn.toNat
  | 0x20 => d.mcaddr.toNat
  | 0x28 => d.dvec.toNat
  | 0x30 => if c.run = .idle || c.run = .halted then c.csr.tvec.toNat else 0
  | _ => 0

def debugWrite (c : Core) (off : Nat) (v mask : Word) : Core :=
  let d := c.dbg
  match off with
  | 0x00 =>
    if mask.getLsbD 0 then
      if v.getLsbD 0 then { c with dbg := { d with hreq := true } } else c.resume
    else c
  | 0x10 => if c.run = .halted then { c with dbg := { d with dpc := wordOf (mergeW d.dpc.toNat v mask) } } else c
  | 0x18 =>
    let x := clearW (debugRead c 0x18) v mask
    { c with dbg := { d with mcV := x.testBit 63, mcCode := BitVec.ofNat 8 (x / 2 ^ 8),
                             mcSyn := BitVec.ofNat 8 x } }
  | 0x28 => { c with dbg := { d with dvec := BitVec.ofNat 16 (mergeW d.dvec.toNat v mask) } }
  | 0x30 =>
    if c.run = .idle || c.run = .halted then
      { c with csr := c.csr.write 0x145 (wordOf (mergeW c.csr.tvec.toNat v mask)) }
    else c
  | _ => c

/-! ### The platform area -/

/-- PSTAT, PERR of a port (R427). -/
def portStat (p : Port) : Nat :=
  (if p.ready then 2 ^ 63 else 0) + p.width.toNat * 2 ^ 16 + p.lanes.toNat
def portErr (p : Port) : Nat := p.replays.toNat * 2 ^ 32 + p.crc.toNat

/-- Word k of a queue registration (R138). -/
def queueWord (q : Queue) (k : Nat) : Nat :=
  match k with
  | 0 => q.base.toNat
  | 1 => q.gen.toNat * 2 ^ 32 + (if q.en then 2 ^ 31 else 0) + q.log2n.toNat * 2 ^ 20 +
      q.engine.toNat * 2 ^ 16 + q.asid.toNat
  | _ => 0

/-- Writes word k of a queue registration: EN with a size out of range stays 0; clearing EN deregisters and
advances the generation, and the slot drains while a packet is in progress (R64, R138). -/
def queueWrite (s : State) (n k : Nat) (v mask : Word) : State :=
  let q := spGet queueDefault s.queues n
  match k with
  | 0 =>
    let x := mergeW q.base.toNat v mask % 2 ^ 58
    { s with queues := spSet queueDefault s.queues n { q with base := wordOf x } }
  | 1 =>
    let x := mergeW (queueWord q 1) v mask
    let log2n := bitsN x 20 5
    let en := x.testBit 31 && decide (4 ≤ log2n) && decide (log2n ≤ 16)
    let q' : Queue :=
      { q with en := en, log2n := BitVec.ofNat 5 log2n, engine := BitVec.ofNat 4 (x / 2 ^ 16),
               asid := BitVec.ofNat 16 x, gen := if q.en && !en then q.gen + 1 else q.gen }
    { s with queues := spSet queueDefault s.queues n q' }
  | _ => s

/-- A store that would serve a queue whose slot still drains waits for the slot (R64). -/
def queueWaits (s : State) (off : Nat) (v mask : Word) : Bool :=
  decide (0x800000 ≤ off) && decide (off < 0x801000) && off % 64 / 8 == 1 && (v &&& mask).getLsbD 31 &&
    (spGet queueDefault s.queues ((off - 0x800000) / 64)).slotSt == .draining

/-- A doubleword of the platform area. -/
def platRead (s : State) (off : Nat) : Nat :=
  let p := s.plat
  if off = 0 then readyWord p
  else if off = 8 then p.cfgnum.toNat
  else if off = 0x18 then
    (if p.catBusy.isSome then 1 else if p.catRefused then 3 else if p.catDone then 2 else 0)
  else if 0x1000 ≤ off && off < 0x1040 then bitsN p.desc.toNat (8 * (off - 0x1000)) 64
  else if 0x10000 ≤ off && off < 0x10200 then
    bitsN (lget 0 p.measured ((off - 0x10000) / 64)).toNat (8 * (off % 64)) 64
  else if 0x10200 ≤ off && off < 0x10240 then bitsN p.mdig.toNat (8 * (off - 0x10200)) 64
  else if 0x11000 ≤ off && off < 0x11040 then bitsN p.anonce.toNat (8 * (off - 0x11000)) 64
  else if off = 0x11048 then p.astat.toNat
  else if 0x12000 ≤ off && off < 0x14000 then bytesWord p.report (off - 0x12000)
  else if 0x20000 ≤ off && off < 0x21000 then
    bitsN (spGet 0 p.log ((off - 0x20000) / 16)).toNat (8 * (off % 16)) 64
  else if off = 0x21000 then p.loghead.toNat
  else if off = 0x30000 then hostLinkStat p
  else if 0x30100 ≤ off && off < 0x30400 then
    let q := lget Reset.port p.ports ((off - 0x30100) / 64)
    if off % 64 = 0 then portStat q else if off % 64 = 8 then portErr q else 0
  else if 0x31000 ≤ off && off < 0x31800 then (spGet 0 p.routes ((off - 0x31000) / 8)).toNat
  else if 0x40000 ≤ off && off < 0x407F8 then (spGet 0 p.doments ((off - 0x40000) / 8)).toNat
  else if off = 0x40800 then (if p.domEn then 2 ^ 63 else 0) + p.ownid.toNat
  else if 0x800000 ≤ off && off < 0x801000 then
    queueWord (spGet queueDefault s.queues ((off - 0x800000) / 64)) (off % 64 / 8)
  else if 0x900000 ≤ off && off < 0xA00000 then
    match s.coreAt ((off - 0x900000) / 256) with
    | some c => shelfRead c s.cycle (off % 256)
    | none => 0
  else if 0xA00000 ≤ off && off < 0xB00000 then
    match s.coreAt ((off - 0xA00000) / 256) with
    | some c => debugRead c (off % 256)
    | none => 0
  else 0

/-- Replaces 64 bits of a 512-bit register. -/
def put512 (r : BitVec 512) (off : Nat) (v mask : Word) : BitVec 512 :=
  BitVec.ofNat 512 (setBitsN r.toNat (8 * off) 64 (mergeW (bitsN r.toNat (8 * off) 64) v mask))

/-- The unit that a CATCMD names exists (R426). -/
def catKnown (p : Platform) (v : Word) : Bool :=
  let n := bitsN v.toNat 0 16
  match bitsN v.toNat 60 4 with
  | 1 => decide (n < 272)
  | 2 => decide (n < 32)
  | 3 => decide (n < 272)
  | 4 => decide (n < 512)
  | 5 => decide (n / 16 < 12) && decide (0 < p.ports.length)
  | _ => false

/-- A write of a platform register (R418 to R429). DESIGN CHOICE (log 99): memory is held by physical address, and what
it holds stays under the chip ID it was written with when DOMCTL.OWNID is rewritten. -/
def platWrite (s : State) (off : Nat) (v mask : Word) : State :=
  let p := s.plat
  let set (p : Platform) : State := { s with plat := p }
  if off = 0x10 then
    if p.catBusy.isSome then s
    else if catKnown p v then set { p with catBusy := some (v &&& mask), catRefused := false, catDone := false }
    else set { p with catRefused := true, catDone := false }
  else if 0x10200 ≤ off && off < 0x10240 then set { p with mdig := put512 p.mdig (off - 0x10200) v mask }
  else if off = 0x10240 then
    let i := (v &&& mask).toNat
    if p.extending.isSome || i < 2 || 7 < i then s
    else set { p with extending := some (BitVec.ofNat 3 i, p.mdig) }
  else if 0x11000 ≤ off && off < 0x11040 then set { p with anonce := put512 p.anonce (off - 0x11000) v mask }
  else if off = 0x11040 then
    if v &&& mask = 1 then set { p with astat := 1, report := [] } else s
  else if 0x30100 ≤ off && off < 0x30400 then
    let k := (off - 0x30100) / 64
    let q := lget Reset.port p.ports k
    if off % 64 = 8 then
      let x := clearW (portErr q) v mask
      let q := { q with crc := BitVec.ofNat 32 x, replays := BitVec.ofNat 32 (x / 2 ^ 32) }
      set { p with ports := lset p.ports k q }
    else s
  else if 0x31000 ≤ off && off < 0x31800 then
    let k := (off - 0x31000) / 8
    let x := BitVec.ofNat 12 (mergeW (spGet 0 p.routes k).toNat v mask)
    set { p with routes := spSet 0 p.routes k x }
  else if 0x40000 ≤ off && off < 0x407F8 then
    if p.domEn then s
    else
      let k := (off - 0x40000) / 8
      let x := wordOf (mergeW (spGet 0 p.doments k).toNat v mask) &&& 0x800001FFFFFFFFFF
      set { p with doments := spSet 0 p.doments k x }
  else if off = 0x40800 then
    if p.domEn then s
    else
      let x := mergeW p.ownid.toNat v mask
      set { p with ownid := if x % 256 = 255 then p.ownid else BitVec.ofNat 8 x, domEn := x.testBit 63 }
  else if 0x800000 ≤ off && off < 0x801000 then
    queueWrite s ((off - 0x800000) / 64) (off % 64 / 8) v mask
  else if 0x900000 ≤ off && off < 0xA00000 then shelfWrite s ((off - 0x900000) / 256) (off % 256) v mask
  else if 0xA00000 ≤ off && off < 0xB00000 then
    let i := (off - 0xA00000) / 256
    match s.coreAt i with
    | some c => s.setCoreAt i (debugWrite c (off % 256) v mask)
    | none => s
  else s

/-! ### Kiln, memory system, translation, counters (R39, R41, R60, R416) -/

def kilnRead (s : State) (off : Nat) : Nat :=
  let k := s.kiln
  match off with
  | 0x00 => k.kallow.toNat
  | 0x08 => k.kgres.toNat
  | 0x10 => k.kcommit.toNat
  | 0x18 => k.kholds.toNat
  | _ =>
    if 0x1000 ≤ off then
      match s.coreAt ((off - 0x1000) / 8) with
      | some c => c.kilnUnits % 2 ^ 32 + c.kilnPj % 1024 * 2 ^ 32 + min 65535 c.kilnHolds * 2 ^ 48
      | none => 0
    else 0

def kilnWrite (s : State) (off : Nat) (v mask : Word) : State :=
  let k := s.kiln
  match off with
  | 0x00 => { s with kiln := { k with kallow := BitVec.ofNat 32 (mergeW k.kallow.toNat v mask) } }
  | 0x08 => { s with kiln := { k with kgres := BitVec.ofNat 32 (mergeW k.kgres.toNat v mask) } }
  | 0x18 => { s with kiln := { k with kholds := BitVec.ofNat 32 (clearW k.kholds.toNat v mask) } }
  | _ => s

/-- MIGCTL (R41). -/
def migctl (c : Coh) : Nat :=
  c.migTh.toNat * 2 ^ 32 + c.migVec.toNat * 2 ^ 16 + (if c.migOvf then 2 else 0) + (if c.migEn then 1 else 0)

def memRegRead (s : State) (off : Nat) : Nat :=
  let c := s.coh
  match off with
  | 0x00 => s.plat.channels.length % 1024 + s.plat.ownid.toNat * 2 ^ 16
  | 0x08 => c.cohto.toNat
  | 0x10 => c.miglo.toNat
  | 0x18 => c.mighi.toNat
  | 0x20 => migctl c
  | 0x28 => c.migring.toNat
  | 0x30 => c.mighead.toNat
  | 0x38 => c.migtail.toNat
  | 0x40 => c.coherr.toNat
  | _ => 0

def memRegWrite (s : State) (off : Nat) (v mask : Word) : State :=
  let c := s.coh
  match off with
  | 0x08 => s.setCoh { c with cohto := wordOf (mergeW c.cohto.toNat v mask) }
  | 0x10 => s.setCoh { c with miglo := wordOf (mergeW c.miglo.toNat v mask) }
  | 0x18 => s.setCoh { c with mighi := wordOf (mergeW c.mighi.toNat v mask) }
  | 0x20 =>
    let x := mergeW (migctl c) v mask
    s.setCoh { c with migTh := BitVec.ofNat 16 (x / 2 ^ 32), migVec := BitVec.ofNat 16 (x / 2 ^ 16),
                      migEn := x.testBit 0, migOvf := c.migOvf && !((v &&& mask).getLsbD 1) }
  -- DESIGN CHOICE (log 69): the bits below the alignment, and those above 51, are dropped
  | 0x28 => s.setCoh { c with migring := wordOf (mergeW c.migring.toNat v mask / 2 ^ 11 * 2 ^ 11 % 2 ^ 52) }
  | 0x38 => s.setCoh { c with migtail := BitVec.ofNat 32 (mergeW c.migtail.toNat v mask) }
  | 0x40 => s.setCoh { c with coherr := wordOf (clearW c.coherr.toNat v mask) }
  | _ => s

def trctl (x : Xlat) : Nat := x.vec.toNat * 2 ^ 16 + (if x.ovf then 2 else 0) + (if x.fwait then 1 else 0)

def xlatRead (s : State) (off : Nat) : Nat :=
  let x := s.xlat
  match off with
  | 0x00 => trctl x
  | 0x08 => x.fltring.toNat
  | 0x10 => x.flthead.toNat
  | 0x18 => x.flttail.toNat
  | 0x28 => x.tlbiasid.toNat
  | 0x38 => if x.invals.any fun i => i.writer == some s.core.region.toNat then 1 else 0
  | _ => 0

/-- The invalidation that a TLBIOP write asks for (R60). -/
def tlbiOf (x : Xlat) (v : Nat) : TlbInval :=
  match bitsN v 62 2 with
  | 0 => .va x.tlbiasid (v % 2 ^ 58 / 2 ^ 14 * 2 ^ 14)
  | 1 => .asid x.tlbiasid
  | 2 => .asidGlobal x.tlbiasid
  | _ => .all

/-- Writes a translation register; an invalidation is its writer's (R60). -/
def xlatWrite (s : State) (off : Nat) (v mask : Word) (writer : Option Nat) : State :=
  let x := s.xlat
  match off with
  | 0x00 =>
    let y := mergeW (trctl x) v mask
    s.setXlat { x with vec := BitVec.ofNat 16 (y / 2 ^ 16), fwait := y.testBit 0,
                       ovf := x.ovf && !((v &&& mask).getLsbD 1) }
  -- DESIGN CHOICE (log 69)
  | 0x08 => s.setXlat { x with fltring := wordOf (mergeW x.fltring.toNat v mask / 2 ^ 12 * 2 ^ 12 % 2 ^ 52) }
  | 0x18 => s.setXlat { x with flttail := BitVec.ofNat 32 (mergeW x.flttail.toNat v mask) }
  | 0x20 => s.setXlat (restartWalks x)
  | 0x28 => s.setXlat { x with tlbiasid := BitVec.ofNat 16 (mergeW x.tlbiasid.toNat v mask) }
  | 0x30 => s.setXlat { x with invals := x.invals ++ [⟨writer, tlbiOf x (v &&& mask).toNat⟩] }
  | _ => s

/-- Four counters of the migration counter store (R39, R41). -/
def counterRead (s : State) (off : Nat) : Nat :=
  packN 16 4 fun k => (spGet 0 s.coh.counters (off / 2 + k)).toNat

def counterWrite (s : State) (off : Nat) (v mask : Word) : State :=
  let x := mergeW (counterRead s off) v mask
  s.setCoh { s.coh with counters := (List.range 4).foldl (fun m k =>
    spSet 0 m (off / 2 + k) (BitVec.ofNat 16 (elemN 16 x k))) s.coh.counters }

/-! ### The pool (R362, R369, R399) -/

def graphDefault : Graph :=
  { gen := 0, st := .free, asid := 0, root := 0, nodes := [], edges := [], groups := [], lcnt := 0,
    fail := false, err := 0 }
def nodeDefault : NodeSlot :=
  { desc := 0, st := .free, graph := 0, index := 0, pending := 0, seq := 0, prio := 0, sinceReady := 0,
    next := 0, saved := [], live := [], exited := 0, triggered := [] }
def groupDefault : GroupEntry :=
  { held := false, graph := 0, node := 0, tpend := 0, map := 0, bargs := [], exited := [], triggered := [] }
def bucketDefault : Bucket := { valid := false, dlenHi := 0, dlenLo := 0, occHi := 0, occLo := 0, graph := 0 }

def Pool.graph (p : Pool) (k : Nat) : Graph := spGet graphDefault p.graphs k
def Pool.node (p : Pool) (k : Nat) : NodeSlot := spGet nodeDefault p.nodes k
def Pool.group (p : Pool) (k : Nat) : GroupEntry := spGet groupDefault p.groups k
def Pool.setGraph (p : Pool) (k : Nat) (g : Graph) : Pool := { p with graphs := spSet graphDefault p.graphs k g }
def Pool.setNode (p : Pool) (k : Nat) (n : NodeSlot) : Pool := { p with nodes := spSet nodeDefault p.nodes k n }
def Pool.setGroup (p : Pool) (k : Nat) (g : GroupEntry) : Pool :=
  { p with groups := spSet groupDefault p.groups k g }

def GraphSt.code : GraphSt → Nat
  | .free => 0
  | .loaded => 1
  | .running => 2
  | .draining => 3

def graphWord (g : Graph) (k : Nat) : Nat :=
  match k with
  | 0 => g.gen.toNat * 2 ^ 32 + g.err.toNat * 2 ^ 16 + (if g.fail then 256 else 0) + g.st.code
  | 1 => g.lcnt.toNat
  | _ => 0

def bucketWord (b : Bucket) : Nat :=
  (if b.valid then 2 ^ 63 else 0) + b.dlenHi.toNat * 2 ^ 43 + b.dlenLo.toNat * 2 ^ 36 +
    b.occHi.toNat * 2 ^ 26 + b.occLo.toNat * 2 ^ 16 + b.graph.toNat

def bucketOf (x : Nat) : Bucket :=
  { valid := x.testBit 63, dlenHi := BitVec.ofNat 7 (x / 2 ^ 43), dlenLo := BitVec.ofNat 7 (x / 2 ^ 36),
    occHi := BitVec.ofNat 10 (x / 2 ^ 26), occLo := BitVec.ofNat 10 (x / 2 ^ 16), graph := BitVec.ofNat 16 x }

def groupWord (g : GroupEntry) (k : Nat) : Nat :=
  if k = 0 then
    (if g.held then 2 ^ 63 else 0) + g.graph % 64 * 2 ^ 40 + g.node % 4096 * 2 ^ 16 + g.tpend % 2048
  else if 2 ≤ k && k < 18 then bitsN g.map.toNat (64 * (k - 2)) 64
  else 0

def seqctl (p : Pool) : Nat :=
  p.seqAsid.toNat * 2 ^ 32 + p.seqVec.toNat * 2 ^ 16 + (if p.seqStop then 2 else 0) +
    (if p.seqEn then 1 else 0)

def hresWord (p : Pool) : Nat :=
  (if p.hcmd = .none then 0 else 2 ^ 63) + p.hresCause.toNat * 2 ^ 16 + p.hresHandle.toNat

/-- The free node slots and the graph slots in use (R369). -/
def freeNodes (p : Pool) : Nat := 4096 - (p.nodes.filter fun n => n.2.st != .free).length
def usedGraphs (p : Pool) : Nat := (p.graphs.filter fun g => g.2.st != .free).length

def poolRead (s : State) (off : Nat) : Nat :=
  let p := s.pool
  if off < 0x1000 then
    match off with
    | 0x00 => freeNodes p + usedGraphs p * 2 ^ 16
    | 0x10 => hresWord p
    | 0x18 => seqctl p
    | 0x20 => p.seqBar.toNat
    | 0x28 => p.occ.toNat
    | 0x30 => p.dlen.toNat
    | 0x40 => if p.preempting.isSome then 2 ^ 63 else 0
    | _ => 0
  else if off < 0x1800 then graphWord (p.graph ((off - 0x1000) / 32)) (off % 32 / 8)
  else if 0x2000 ≤ off && off < 0x2400 then
    if off % 16 = 0 then bucketWord (spGet bucketDefault p.buckets ((off - 0x2000) / 16)) else 0
  else if 0x10000 ≤ off && off < 0x20000 then
    groupWord (p.group ((off - 0x10000) / 256)) (off % 256 / 8)
  else if 0x100000 ≤ off && off < 0x140000 then
    bitsN (p.node ((off - 0x100000) / 64)).desc.toNat (8 * (off % 64)) 64
  else 0

/-- HCMD (R369): ignored while a command is in progress. -/
def hcmdWrite (p : Pool) (v : Nat) : Pool :=
  if p.hcmd != .none then p
  else match bitsN v 62 2 with
    | 0 => { p with hcmd := .load (wordOf (v % 2 ^ 52)) }
    | 1 =>
      let b := if v.testBit 22 then some (BitVec.ofNat 6 (v / 2 ^ 16)) else none
      { p with hcmd := .launch (BitVec.ofNat 16 v) b }
    | 2 => { p with hcmd := .free (BitVec.ofNat 16 v) }
    | _ => p

/-- PREEMPT (R399): ignored while a pre-emption is in progress; a node with no bound position has nothing to
leave. -/
def preemptNode (p : Pool) (n : Nat) : Pool :=
  if p.preempting.isSome || (p.node n).live.isEmpty then p
  else { p with preempting := some n }

/-! ### The barrier that the sequencer watches (R368) -/

/-- The root of the address space with an ASID: that of the lowest loaded graph that names it (log 20). -/
def rootOf (p : Pool) (asid : BitVec 16) : Option Nat :=
  (p.graphs.find? fun g => g.2.st != .free && g.2.asid == asid).map fun g => g.2.root.toNat

/-- What this chip can tell of bytes of one line without asking for it: the L2 holds the line, or it is at home
and no other cache owns it. -/
def knownBytes (s : State) (pa n : Nat) : Option (List Byte) :=
  let line := pa / 256
  let m := Meta.ofWord (spGet 0 s.coh.meta_ line)
  if (l2Get s.coh line).st != .i || (isHome s.plat line && decide (m.st ≤ 1) && !metaBroken s.coh line) then
    some (runBytes s [(pa, n)])
  else none

/-- The translation that tables known to this chip give. -/
def knownWalk (s : State) (asid : BitVec 16) (va : Nat) : Nat → Nat → Option TlbEntry
  | 0, _ => none
  | n + 1, table =>
    match knownBytes s (table + 8 * bitsN va (levelLog n) 11) 8 with
    | none => none
    | some bs =>
      match pteDecide s.plat asid va n (leNat bs) with
      | .fault _ => none
      | .leaf t => some t
      | .table t => knownWalk s asid va n t

/-- The barrier at SEQBAR as it stands now, if this chip can tell. -/
def seqBarrier (s : State) : Option (List Byte) :=
  let p := s.pool
  let a := p.seqBar.toNat % 2 ^ 60
  if p.seqBar.toNat / 2 ^ 60 = 0 then
    ((rootOf p p.seqAsid).bind (knownWalk s p.seqAsid a 4)).bind fun t => knownBytes s (t.pa + (a - t.va)) 16
  else if p.seqBar.toNat / 2 ^ 60 = 0xE then
    match chipArea s a with
    | some (i, .pad, o) => (s.coreAt i).map fun c => areaBytes c .pad o 16
    | _ => none
  else none

/-- The sequencer begins to watch: the phase that stands now is the base of the first advance. Where the chip
cannot tell it without asking, the first look takes it (log 75). -/
def seqBase (s : State) : State :=
  let p := s.pool
  if p.seqEn && !p.seqSeen then
    match seqBarrier s with
    | some b => { s with pool := { p with seqSeen := true, seqPhase := BitVec.ofNat 4 (leNat b) } }
    | none => s
  else s

def poolWrite (s : State) (off : Nat) (v mask : Word) : State :=
  let p := s.pool
  let set (p : Pool) : State := { s with pool := p }
  if off < 0x1000 then
    match off with
    | 0x08 => set (hcmdWrite p (v &&& mask).toNat)
    | 0x18 =>
      let x := mergeW (seqctl p) v mask
      let q : Pool :=
        { p with seqEn := x.testBit 0, seqStop := p.seqStop && !((v &&& mask).getLsbD 1),
                 seqVec := BitVec.ofNat 16 (x / 2 ^ 16), seqAsid := BitVec.ofNat 16 (x / 2 ^ 32),
                 seqSeen := p.seqSeen && p.seqEn && x.testBit 0 }
      seqBase (set q)
    | 0x20 =>
      let q : Pool := { p with seqBar := wordOf (mergeW p.seqBar.toNat v mask / 16 * 16), seqSeen := false }
      seqBase (set q)
    | 0x28 => set { p with occ := BitVec.ofNat 10 (mergeW p.occ.toNat v mask) }
    | 0x30 => set { p with dlen := BitVec.ofNat 7 (min 64 (mergeW p.dlen.toNat v mask % 128)) }
    | 0x38 => set (preemptNode p ((v &&& mask).toNat % 4096))
    | _ => s
  else if 0x2000 ≤ off && off < 0x2400 && off % 16 = 0 then
    let k := (off - 0x2000) / 16
    let x := mergeW (bucketWord (spGet bucketDefault p.buckets k)) v mask
    set { p with buckets := spSet bucketDefault p.buckets k (bucketOf x) }
  else s

/-! ### The window -/

/-- The doubleword at a system-window offset that is a multiple of 8. -/
def sysRead (s : State) (off : Nat) : Nat :=
  let r := off % 2 ^ 24
  match off / 2 ^ 24 with
  | 0 => platRead s r
  | 1 => kilnRead s r
  | 2 => memRegRead s r
  | 3 => xlatRead s r
  | 4 => counterRead s r
  | 5 => poolRead s r
  | 6 => bytesWord (catalogueImage s.plat.catalogue) r
  | _ => 0

/-- Writes the masked bits of the doubleword at a system-window offset; `writer` is the core that writes, or
none for the host. -/
def sysWrite (s : State) (off : Nat) (v mask : Word) (writer : Option Nat) : State :=
  let r := off % 2 ^ 24
  match off / 2 ^ 24 with
  | 0 => platWrite s r v mask
  | 1 => kilnWrite s r v mask
  | 2 => memRegWrite s r v mask
  | 3 => xlatWrite s r v mask writer
  | 4 => counterWrite s r v mask
  | 5 => poolWrite s r v mask
  | _ => s

/-- n bytes from a system-window offset. -/
def sysBytes (s : State) (off n : Nat) : List Byte :=
  (rangeFrom off n).map fun o => byteOf (sysRead s (o / 8 * 8)) (o % 8)

/-- Writes bytes at a system-window offset, register by register. -/
def sysStore (s : State) (off : Nat) (bytes : List Byte) : State :=
  (sysWords off bytes).foldl (fun s w => sysWrite s w.1 w.2.1 w.2.2 (some s.core.region.toNat)) s

/-- A store to the system window that has to wait: one of its doublewords would serve a queue whose slot drains (R64). -/
def sysWaits (s : State) (off : Nat) (bytes : List Byte) : Bool :=
  (sysWords off bytes).any fun w => queueWaits s w.1 w.2.1 w.2.2

/-! ### Requests from outside (R64, R420) -/

/-- What the host, or another chip, asks of the part: nothing is taken while it recovers its firmware (R420). -/
def State.asked (s : State) (f : State → State) : State := if s.plat.recovery then s else f s

/-- A doubleword that the host writes has to wait: it would serve a queue whose slot drains, or follows such a write
to the same registration, of those in `before` (R64; log 49). -/
def hostWaits (s : State) (before : List (Nat × Word)) (off : Nat) (v : Word) : Bool :=
  queueWaits s off v (BitVec.allOnes 64) || before.any fun h => h.1 / 64 == off / 64

/-- The host writes a doubleword of the system window. -/
def hostRegWrite (s : State) (off : Nat) (v : Word) : State :=
  let p := s.plat
  if hostWaits s p.held off v then { s with plat := { p with held := p.held ++ [(off, v)] } }
  else sysWrite s off v (BitVec.allOnes 64) none

/-- The first write of the host that need not wait any more is made. -/
def heldWrite (s : State) : State :=
  let p := s.plat
  match p.held.zipIdx.find? fun h => !hostWaits s (p.held.take h.2) h.1.1 h.1.2 with
  | none => s
  | some h => sysWrite { s with plat := { p with held := p.held.eraseIdx h.2 } } h.1.1 h.1.2 (BitVec.allOnes 64) none

end Sys2Proof.Machine
end

