-- ==== Sys2Proof/Machine/Engine.lean ====
section
/-! DEFINITION. Accesses of engines, of the pool and of the tracked operations: translation page by page, the
on-chip map with its owner checks, and the atomic updates of transaction barriers (R47, R58, R59, R124, R131,
R132, R139, R269, R279, R284). -/

namespace Sys2Proof.Machine

/-- Who performs an access: its walker, address space, mode, own region with the OWNER code of its own tiles,
whether R47 leaves it free, and its eviction priority. -/
structure Agent where
  who : Walker
  asid : BitVec 16
  root : Nat
  sys : Bool
  region : Nat
  owner : Nat
  unbound : Bool
  evict : Nat
  deriving DecidableEq, Repr

/-- What an access comes to: done with a value; to be waited for; or failed with a cause at an address. -/
inductive EngRes (α : Type) where
  | done (s : State) (x : α)
  | wait (s : State)
  | fail (s : State) (cause : Nat) (addr : Nat)

/-- Continues an access that is done. -/
def EngRes.andThen {α β : Type} (r : EngRes α) (f : State → α → EngRes β) : EngRes β :=
  match r with
  | .done s x => f s x
  | .wait s => .wait s
  | .fail s c a => .fail s c a

/-! ### Translation -/

/-- The physical address of one address of a page. -/
def engPage (g : Agent) (s : State) (va : Nat) (k : AccKind) : EngRes Nat :=
  let give (s : State) (t : TlbEntry) : EngRes Nat :=
    if leafOk t.leaf k g.sys then .done s (t.pa + (va - t.va)) else .fail s 0x31 va
  let drop (s : State) : State := s.setXlat (s.xlat.forget g.who g.asid va)
  match lookup s.xlat g.who g.asid va with
  | .hit t => give s t
  | .fault c => .fail (drop s) c va
  | .miss =>
    let s := s.setXlat (openWalk s.xlat g.who g.asid g.root va k.writes false)
    let s := walkDone s (s.xlat.walks.findIdx fun w => w.of g.asid g.root va)
    match lookup s.xlat g.who g.asid va with
    | .hit t => give s t
    | .fault c => .fail (drop s) c va
    | .miss => .wait s

/-- The physical runs of a range, page by page. -/
def engRuns (g : Agent) (k : AccKind) : List (Nat × Nat) → State → EngRes (List (Nat × Nat))
  | [], s => .done s []
  | p :: ps, s =>
    (engPage g s p.1 k).andThen fun s pa =>
      (engRuns g k ps s).andThen fun s rs => .done s ((pa, p.2) :: rs)

/-- The result of a coherent access, with the address a failure is reported at. -/
def MemRes.eng (r : MemRes) (addr : Nat) : EngRes (List Byte) :=
  match r with
  | .done s b => .done s b
  | .wait s => .wait s
  | .fail s c => .fail s c addr

/-! ### The on-chip map -/

/-- The node slot that a region's core is bound to. -/
def State.nodeOf (s : State) (i : Nat) : Option Nat :=
  match s.coreAt i with
  | some c => c.binding.map Binding.nodeSlot
  | none => none

/-- R47: in node mode only the regions of the issuing node are reached. -/
def Agent.reaches (g : Agent) (s : State) (i : Nat) : Bool :=
  g.sys || g.unbound || i == g.region ||
    (match s.nodeOf g.region, s.nodeOf i with
     | some a, some b => a == b
     | _, _ => false)

/-- Where a chip access of an agent goes, after its checks. -/
inductive ChipRes where
  | ok (s : State) (region : Nat) (a : Area) (off : Nat)
  | wait (s : State)
  | fail (s : State) (cause : Nat) (addr : Nat)

/-- The tile of n bytes at an offset that an agent may not touch: the first in which its owner does not name the
agent (R124). -/
def Agent.foreignTile (g : Agent) (c : Core) (i o n : Nat) : Option Nat :=
  (tilesOf o n).find? fun t => (c.copy.tile t).owner.toNat != (if i = g.region then g.owner else 3)

/-- The owner of a tile is looked at: not for a barrier, nor for a core's own access in system mode through window
0xE (R47, R124). -/
def Agent.minds (g : Agent) (a : Nat) (k : AccKind) : Bool :=
  k != .barrier && !(g.sys && !g.who.engine && a / 2 ^ 60 == 0xE)

/-- The checks on n bytes at an offset of window 0xE. One that extends past its area fails with 0x32 before any
other test of it (R43; log 74). -/
def engChip (g : Agent) (s : State) (a off n : Nat) (k : AccKind) : ChipRes :=
  let special := k == .atomic || k == .barrier
  match chipArea s off with
  | none => .fail s 0x30 a
  | some (i, ar, o) =>
    match s.coreAt i with
    | none => .fail s 0x30 a
    | some c =>
      if ar.at.2 < o + n then .fail s 0x32 a
      else if !g.reaches s i || (special && ar != .pad) ||
          (!g.sys && k.writes && (ar == .tiles || ar == .tids || ar == .watch)) then .fail s 0x31 a
      else match (if ar == .pad && g.minds a k then g.foreignTile c i o n else none) with
        | some t => .fail s 0x42 (a + (max o (t * 16384) - o))
        | none =>
          if ar == .macros then
            let v := viewCheck c s.cycle false false (k != .write) o n
            match v.faults with
            | f :: fs =>
              let w := fs.foldl (fun w f => if f.1 < w.1 then f else w) f
              .fail (if w.1 = 0x54 then s.shelfFinding i true 2 0x54 w.2 else s) w.1 (a + (w.2 - o))
            | [] =>
              if v.wait.isSome then .wait ({ v with wake := [] }.start i 2 s)
              else .ok (viewRepair (s.busUse i) i 2 (k != .write) o n) i ar o
          else if k != .write && (ar == .pad || ar == .acc) then
            let w := if ar == .acc then 2 ^ 20 + o else o
            let t := eccCheck s i w n
            if (eccBad c w n).isSome then .fail t 0x70 a else .ok t i ar o
          else if k != .write && ar.bad c o n then .fail (machineCheckAt s i 5 0x7F 0) 0x70 a
          else .ok s i ar o

/-- The offset in window 0xE of a pointer in window 0xC or 0xD of the agent's own core (R124, R127). -/
def Agent.ownOff (g : Agent) (tag off : Nat) : Nat :=
  g.region * 2 ^ 26 + (if tag = 0xD then 2 ^ 20 else 0) + off

/-- A pointer in terms of the windows that an engine reaches: tag and offset; the extents of windows 0xC and
0xD are tested here (R43). -/
def engTarget (g : Agent) (s : State) (p n : Nat) : Except (Nat × Nat) (Nat × Nat) :=
  let tag := p / 2 ^ 60
  let off := p % 2 ^ 60
  match tag with
  | 0x0 =>
    (match extentTest (2 ^ 58) off n with
     | some f => .error (f, p)
     | none => .ok (0, off))
  | 0xC =>
    (match extentTest (2 ^ 20) off n with
     | some f => .error (f, p)
     | none => .ok (0xE, g.ownOff tag off))
  | 0xD =>
    (match extentTest (if s.regionKind g.region = some .a then 2 ^ 17 else 0) off n with
     | some f => .error (f, p)
     | none => .ok (0xE, g.ownOff tag off))
  | 0xE => .ok (0xE, off)
  | 0xF =>
    if !g.sys then .error (0x31, p)
    else
      (match sysTest s off n with
       | some f => .error (f, p)
       | none => .ok (0xF, off))
  | _ => .error (0x30, p)

/-- Reads n bytes by a generic pointer. -/
def engRead (g : Agent) (s : State) (p n : Nat) : EngRes (List Byte) :=
  match engTarget g s p n with
  | .error e => .fail s e.1 e.2
  | .ok (tag, off) =>
    if tag = 0 then
      (engRuns g .read (pagesOf off n) s).andThen fun s rs => (cohRead s rs g.evict).eng p
    else if tag = 0xE then
      match engChip g s p off n .read with
      | .fail s c a => .fail s c a
      | .wait s => .wait s
      | .ok s i ar o =>
        match s.coreAt i with
        | none => .fail s 0x30 p
        | some c => .done s (areaBytes c ar o n)
    else .done s (sysBytes s off n)

/-- Writes bytes by a generic pointer. -/
def engWrite (g : Agent) (s : State) (p : Nat) (bytes : List Byte) : EngRes Unit :=
  let n := bytes.length
  match engTarget g s p n with
  | .error e => .fail s e.1 e.2
  | .ok (tag, off) =>
    if tag = 0 then
      (engRuns g .write (pagesOf off n) s).andThen fun s rs =>
        ((cohWrite s rs g.evict bytes).eng p).andThen fun s _ => .done s ()
    else if tag = 0xE then
      match engChip g s p off n .write with
      | .fail s c a => .fail s c a
      | .wait s => .wait s
      | .ok s i ar o =>
        match s.coreAt i with
        | none => .fail s 0x30 p
        | some c => .done (s.setCoreAt i (areaWrite c ar o bytes)) ()
    else if sysWaits s off bytes then .wait s
    else .done (sysStore s off bytes) ()

/-- One indivisible update of bytes by a generic pointer in window 0x0 or 0xE (R131, R200): the bytes become
what the function gives; it gives back what they were. -/
def engUpdate (g : Agent) (s : State) (k : AccKind) (p n : Nat) (f : List Byte → List Byte) :
    EngRes (List Byte) :=
  match engTarget g s p n with
  | .error e => .fail s e.1 e.2
  | .ok (tag, off) =>
    if tag = 0 then
      (engRuns g k (pagesOf off n) s).andThen fun s rs => (cohUpdate s rs g.evict f).eng p
    else if tag = 0xE then
      match engChip g s p off n k with
      | .fail s c a => .fail s c a
      | .wait s => .wait s
      | .ok s i ar o =>
        match s.coreAt i with
        | none => .fail s 0x30 p
        | some c =>
          let old := areaBytes c ar o n
          .done (s.setCoreAt i (areaWrite c ar o (f old))) old
    else .fail s 0x31 p

/-- Everything that a write of n bytes by a pointer needs is at hand: the lines are held, and nothing of the
shelves has to be waited for; a failure is that of the write. -/
def engHold (g : Agent) (s : State) (p n : Nat) : EngRes Unit :=
  match engTarget g s p n with
  | .error e => .fail s e.1 e.2
  | .ok (tag, off) =>
    if tag = 0 then
      (engRuns g .write (pagesOf off n) s).andThen fun s rs =>
        match acquireAll true (linesOf rs) s with
        | .ready s => .done s ()
        | .wait s => .wait s
        | .fail s c => .fail s c p
    else if tag = 0xE then
      match engChip g s p off n .write with
      | .fail s c a => .fail s c a
      | .wait s => .wait s
      | .ok s _ _ _ => .done s ()
    else .done s ()

/-- What a list of things to hold comes to: how many are held before the first that fails; or something to be
waited for. -/
inductive Held where
  | ready (s : State) (n : Nat) (err : Option (Nat × Nat))
  | wait (s : State)

/-- Holds ranges one after another up to the first that fails; all of them are asked for before any wait. -/
def holdAll (f : State → Nat × Nat → EngRes Unit) : List (Nat × Nat) → State → Held
  | [], s => .ready s 0 none
  | q :: qs, s =>
    match f s q with
    | .fail s c a => .ready s 0 (some (c, a))
    | .done s _ =>
      match holdAll f qs s with
      | .ready s n e => .ready s (n + 1) e
      | .wait s => .wait s
    | .wait s =>
      match holdAll f qs s with
      | .ready s _ _ => .wait s
      | .wait s => .wait s

/-- The lines of global ranges leave the L2: what a no-allocate access of an engine leaves behind (R34). -/
def dropTouched (g : Agent) (s : State) (l : List (Nat × Nat)) : State :=
  let runs := (l.filter fun p => p.1 / 2 ^ 60 == 0).flatMap fun p =>
    (pagesOf p.1 p.2).filterMap fun q =>
      match lookup s.xlat g.who g.asid q.1 with
      | .hit t => some (t.pa + (q.1 - t.va), q.2)
      | _ => none
  (linesOf runs).eraseDups.foldl l2Drop s

/-! ### Agents -/

/-- A channel of a core, with the mode and node of the program that issued its operation (R47). -/
def Core.channelAgent (c : Core) (ch : Chan) (sys : Bool) (evict : Nat) : Agent :=
  { who := ⟨c.region.toNat, true⟩, asid := c.csr.tasid, root := c.csr.tbase.toNat, sys := sys,
    region := c.region.toNat, owner := ch.num + 1, unbound := false, evict := evict }

/-- A core's own tracked accesses. -/
def Core.selfAgent (c : Core) (evict : Nat) : Agent :=
  { who := c.walker, asid := c.csr.tasid, root := c.csr.tbase.toNat, sys := c.mode == .sys,
    region := c.region.toNat, owner := 0, unbound := false, evict := evict }

/-- A bulk engine, or the sequencer, in an address space (R139, R368). -/
def bulkAgent (s : State) (asid : BitVec 16) (evict : Nat) : Agent :=
  { who := ⟨1023, true⟩, asid := asid, root := (rootOf s.pool asid).getD (2 ^ 52), sys := false,
    region := 1023, owner := 3, unbound := true, evict := evict }

/-! ### Transaction barriers (R131, R132) -/

def barPhase (b : Nat) : Nat := bitsN b 0 4
def barArrv (b : Nat) : Nat := bitsN b 4 20
def barReload (b : Nat) : Nat := bitsN b 24 20
def barSect (b : Nat) : Nat := bitsN b 44 32
def barErr (b : Nat) : Bool := b.testBit 119

/-- The barrier with new counts, advanced when they reach zero from a nonzero value. -/
def barSet (b arrv sect : Nat) : Nat :=
  let b' := setBitsN (setBitsN b 4 20 arrv) 44 32 sect
  if arrv = 0 && sect = 0 && (barArrv b != 0 || barSect b != 0) then
    setBitsN (setBitsN b' 0 4 ((barPhase b + 1) % 16)) 4 20 (barReload b)
  else b'

/-- BINIT's barrier. -/
def barNew (a scope : Nat) : Nat := a % 2 ^ 20 * 2 ^ 4 + a % 2 ^ 20 * 2 ^ 24 + scope % 8 * 2 ^ 116

/-- What an update of a barrier does: a cause and no effect, or the new barrier. -/
abbrev BarFn := Nat → Except Nat Nat

/-- BEXP adds expected units. -/
def barExpect (u : Nat) : BarFn := fun b =>
  if 2 ^ 32 ≤ barSect b + u then .error 0x48
  else .ok (setBitsN b 44 32 (barSect b + u))

/-- BARV adds expected units and arrives. -/
def barVisit (u : Nat) : BarFn := fun b =>
  if barArrv b = 0 then .error 0x45
  else if 2 ^ 32 ≤ barSect b + u then .error 0x48
  else .ok (barSet b (barArrv b - 1) (barSect b + u))

/-- A credit of k units. -/
def barCredit (k : Nat) : BarFn := fun b =>
  if barSect b < k then .error 0x45 else .ok (barSet b (barArrv b) (barSect b - k))

/-- One arrival. -/
def barArrive : BarFn := fun b =>
  if barArrv b = 0 then .error 0x45 else .ok (barSet b (barArrv b - 1) (barSect b))

/-- The ERR flag. -/
def barMark : BarFn := fun b => .ok (if barErr b then b else b + 2 ^ 119)

/-- One atomic update of the barrier at a pointer; gives the barrier before it. -/
def barUpdate (g : Agent) (s : State) (p : Nat) (f : BarFn) : EngRes Nat :=
  let put (bs : List Byte) : List Byte :=
    match f (leNat bs) with
    | .ok b => leBytes 16 b
    | .error _ => bs
  (engUpdate g s .barrier p 16 put).andThen fun s old =>
    match f (leNat old) with
    | .ok _ => .done s (leNat old)
    | .error c => .fail s c p

/-- The barrier at a pointer, read. -/
def barRead (g : Agent) (s : State) (p : Nat) : EngRes Nat :=
  (engUpdate g s .barrier p 16 id).andThen fun s old => .done s (leNat old)

/-- The checks of a barrier operand at issue (R124): as a 16-byte atomic. -/
def barAccess (s : State) (p : Word) : Access := access s .barrier p 16

/-- A barrier pointer in window 0xC stands for the core's own address in window 0xE (R124). -/
def barPointer (c : Core) (p : Word) : Word :=
  if p.toNat / 2 ^ 60 = 0xC then wordOf (0xE * 2 ^ 60 + c.region.toNat * 2 ^ 26 + p.toNat % 2 ^ 60) else p

end Sys2Proof.Machine
end

