-- ==== Sys2Proof/Machine/Tensor.lean ====
section
/-! DEFINITION. Tensor records: fields, checks, element addresses, windows and their packed image
(R145 to R153). -/

namespace Sys2Proof.Machine

/-! ### Fields (R145, R146) -/

def recWord (r : BitVec 768) (k : Nat) : Nat := bitsN r.toNat (64 * k) 64
def recBase (r : BitVec 768) : Nat := bitsN r.toNat 0 58
def recFillV (r : BitVec 768) : Nat := bitsN r.toNat 96 32
def recScl (r : BitVec 768) : Bool := r.getLsbD 79
def recFillM (r : BitVec 768) : Nat := bitsN r.toNat 77 2
def recIlv (r : BitVec 768) : Nat := bitsN r.toNat 73 4
def recRank (r : BitVec 768) : Nat := bitsN r.toNat 70 3
def recFmt (r : BitVec 768) : Nat := bitsN r.toNat 64 6
def recDim (r : BitVec 768) (k : Nat) : Nat := bitsN r.toNat (128 + 32 * k) 32
/-- Unit and value of STRIDE_k, k from 1 to 4. -/
def recStrideU (r : BitVec 768) (k : Nat) : Nat := bitsN r.toNat (320 + 48 * (k - 1) + 46) 2
def recStrideV (r : BitVec 768) (k : Nat) : Nat := bitsN r.toNat (320 + 48 * (k - 1)) 46
def recWin (r : BitVec 768) (k : Nat) : Nat := bitsN r.toNat (512 + 16 * k) 16
def recSblk (r : BitVec 768) : Nat := bitsN r.toNat (640 + 58) 6
def recScaleBase (r : BitVec 768) : Nat := bitsN r.toNat 640 58

/-- Element size in nibbles, by FMT code; none for a reserved code (R146). -/
def fmtNibbles (fmt : Nat) : Option Nat :=
  match fmt with
  | 0x00 => some 1
  | 0x04 => some 1
  | 0x0E => some 1
  | 0x01 => some 2
  | 0x05 => some 2
  | 0x08 => some 2
  | 0x09 => some 2
  | 0x0D => some 2
  | 0x02 => some 4
  | 0x06 => some 4
  | 0x0A => some 4
  | 0x0B => some 4
  | 0x03 => some 8
  | 0x07 => some 8
  | 0x0C => some 8
  | _ => none

/-- Element size in nibbles of a record. -/
def recE (r : BitVec 768) : Nat := (fmtNibbles (recFmt r)).getD 2

/-! ### Addresses (R147, R148, R150) -/

/-- The linear offset of an element, in nibbles. -/
def recOff (r : BitVec 768) (ix : List Nat) : Nat :=
  let e := recE r
  (rangeFrom 1 (recRank r - 1)).foldl (fun off k =>
    let i := lget 0 ix k
    let v := recStrideV r k
    match recStrideU r k with
    | 0 => off + i * v * 2
    | 1 => off + i * v * e
    | _ => off + i * v * 512) (lget 0 ix 0 * e)

/-- The interleaved place of a byte offset (R148). -/
def ilv (n off : Nat) : Nat :=
  if n = 0 then off
  else
    let lanes := 2 ^ n
    let s := bitsN off 6 8
    off / 16384 * 16384 + (s % lanes) * (16384 / lanes) + (s / lanes) * 64 + bitsN off 0 6

/-- The byte address of an element, and whether it is the high nibble of its byte. -/
def recAddr (r : BitVec 768) (ix : List Nat) : Nat × Bool :=
  let off := recOff r ix
  (recBase r + ilv (recIlv r) (off / 2), recE r == 1 && off % 2 == 1)

/-- The number of scale blocks along dimension 0. -/
def recQ (r : BitVec 768) : Nat := (recDim r 0 + 2 ^ recSblk r - 1) / 2 ^ recSblk r

/-- The address of the scale of an element (R150). -/
def recScaleAddr (r : BitVec 768) (ix : List Nat) : Nat :=
  let i (k : Nat) := lget 0 ix k
  recScaleBase r + i 0 / 2 ^ recSblk r +
    recQ r * (i 1 + recDim r 1 * (i 2 + recDim r 2 * (i 3 + recDim r 3 * i 4)))

/-! ### Windows (R149, R150) -/

/-- The extents of the window below RANK, 1 above. -/
def recWins (r : BitVec 768) : List Nat :=
  (List.range 5).map fun k => if k < recRank r then recWin r k else 1

/-- The number of elements of a window. -/
def winCount (r : BitVec 768) : Nat := (recWins r).foldl (· * ·) 1

/-- The bytes of the element image. -/
def imageBytes (r : BitVec 768) : Nat := (winCount r * recE r + 1) / 2

/-- The number of scales of a window. -/
def scaleCount (r : BitVec 768) : Nat :=
  if recScl r then winCount r / 2 ^ recSblk r else 0

/-- Where the scales begin: the next 64-byte boundary. -/
def scaleStart (r : BitVec 768) : Nat := (imageBytes r + 63) / 64 * 64

/-- The packed image size, scales included. -/
def packedBytes (r : BitVec 768) : Nat :=
  if recScl r then scaleStart r + scaleCount r else imageBytes r

/-- The units that a window owes (R120). -/
def windowUnits (r : BitVec 768) : Nat := (packedBytes r + 31) / 32

/-- The window index of packed element p, by mixed radix. -/
def unpack : List Nat → Nat → List Nat
  | [], _ => []
  | w :: ws, p => p % max w 1 :: unpack ws (p / max w 1)

/-- The tensor index of packed element p of a window at an origin. -/
def winIndex (r : BitVec 768) (org : List Nat) (p : Nat) : List Nat :=
  List.zipWith (· + ·) (unpack (recWins r) p) org

/-- The tensor index of the first element of scale block p. -/
def scaleIndex (r : BitVec 768) (org : List Nat) (p : Nat) : List Nat :=
  let ws := recWins r
  let j := unpack ((lget 1 ws 0 / 2 ^ recSblk r) :: ws.drop 1) p
  List.zipWith (· + ·) ((lget 0 j 0 * 2 ^ recSblk r) :: j.drop 1) org

/-- An index lies beyond the tensor's edge. -/
def beyond (r : BitVec 768) (ix : List Nat) : Bool :=
  (List.range (recRank r)).any fun k => decide (recDim r k ≤ lget 0 ix k)

/-- An index with every coordinate held inside the tensor. -/
def clampIx (r : BitVec 768) (ix : List Nat) : List Nat :=
  (List.range 5).map fun k => if k < recRank r then min (lget 0 ix k) (recDim r k - 1) else 0

/-- The five origins of EORG (R114). -/
def origins (e : EngRegs) : List Nat :=
  [bitsN e.eorg0.toNat 0 32, bitsN e.eorg0.toNat 32 32, bitsN e.eorg1.toNat 0 32,
   bitsN e.eorg1.toNat 32 32, bitsN e.eorg2.toNat 0 32]

/-! ### Checking a record (R151, R152, R344) -/

/-- The lowest set bit of a field of a record, as a record bit number. -/
def lowBit (r : BitVec 768) (lo len : Nat) : List Nat :=
  if bitsN r.toNat lo len = 0 then [] else [lo + ctzN (bitsN r.toNat lo len) len]

/-- A field that fails as a whole: its lowest bit. -/
def wholeBit (bad : Bool) (lo : Nat) : List Nat := if bad then [lo] else []

/-- The record bits that break R151, field by field. -/
def recBadBits (r : BitVec 768) : List Nat :=
  lowBit r 58 6 ++ lowBit r 80 16 ++ lowBit r 288 32 ++ lowBit r 592 48 ++ lowBit r 704 64 ++
  wholeBit (fmtNibbles (recFmt r)).isNone 64 ++ wholeBit (decide (4 < recIlv r)) 73 ++
  wholeBit (recFillM r == 3) 77 ++
  (rangeFrom 1 4).flatMap (fun k => wholeBit (recStrideU r k == 3) (320 + 48 * (k - 1) + 46)) ++
  (if recFillM r = 1 then lowBit r (96 + 4 * recE r) (32 - 4 * recE r)
   else if recFillM r = 3 then [] else lowBit r 96 32) ++
  (if recScl r then [] else lowBit r 640 64)

/-- The largest offset, in nibbles, of a record's elements. -/
def recOffMax (r : BitVec 768) : Nat := recOff r ((List.range 5).map fun k => recDim r k - 1)

/-- SCL, SBLK and FMT agree (R150). -/
def scaleOk (r : BitVec 768) : Bool :=
  let f := recFmt r
  let sb := recSblk r
  if f = 0x0D || f = 0x0E then recScl r && sb == 5
  else if f = 0x08 || f = 0x09 then !recScl r || (decide (5 ≤ sb) && decide (sb ≤ 12))
  else !recScl r

/-- The last byte of the elements; with interleave, that of the end of their last 16 KiB block. -/
def recLast (r : BitVec 768) : Nat :=
  let off := recOffMax r / 2
  let off := if recIlv r = 0 then off else off / 16384 * 16384 + 16383
  recBase r + ilv (recIlv r) off + (recE r + 1) / 2 - 1

/-- The conditions of R152, in its order. -/
def recConds (r : BitVec 768) : List Bool :=
  let n := recRank r
  let e := recE r
  [decide (1 ≤ n) && decide (n ≤ 5),
   (List.range 5).all fun k =>
     if k < n then recDim r k != 0 && recWin r k != 0
     else recDim r k == 0 && recWin r k == 0 &&
       (k == 0 || (recStrideU r k == 0 && recStrideV r k == 0)),
   (e != 1 || (rangeFrom 1 4).all fun k => recStrideU r k != 1 || recStrideV r k % 2 == 0) &&
     (decide (e < 4) || (recBase r % (e / 2) == 0 &&
       (rangeFrom 1 4).all fun k => recStrideU r k != 0 || recStrideV r k % (e / 2) == 0)),
   recIlv r == 0 || recBase r % 16384 == 0,
   decide (packedBytes r ≤ 2 ^ 20),
   decide (recLast r < 2 ^ 58),
   scaleOk r && decide (recSblk r ≤ 15) && (!recScl r || recWin r 0 % 2 ^ recSblk r == 0),
   !recScl r ||
     decide (recScaleBase r + recQ r * (rangeFrom 1 (n - 1)).foldl (fun m k => m * recDim r k) 1 ≤ 2 ^ 58)]

/-- The fault of a record with its trap value, if it has one (R151, R152, R344). -/
def recFault (r : BitVec 768) : Option (Nat × Word) :=
  match recBadBits r with
  | b :: bs => some (0x43, wordOf (bs.foldl min b))
  | [] =>
    if (recConds r).all id then none
    else some (0x44, wordOf ((recConds r).findIdx (fun c => !c) + 1))

/-! ### Moving one 64-byte sector of the packed image -/

/-- The value of one element, read. -/
def readElem (g : Agent) (s : State) (r : BitVec 768) (ix : List Nat) : EngRes Nat :=
  let a := recAddr r ix
  let n := if recE r = 1 then 1 else recE r / 2
  (engRead g s a.1 n).andThen fun s bs =>
    .done s (if recE r = 1 then bitsN (leNat bs) (if a.2 then 4 else 0) 4 else leNat bs)

/-- The value packed element p takes on a TLD (R149). -/
def loadElem (g : Agent) (s : State) (r : BitVec 768) (org : List Nat) (p : Nat) : EngRes Nat :=
  let ix := winIndex r org p
  if beyond r ix then
    if recFillM r = 1 then .done s (recFillV r % 2 ^ (4 * recE r))
    else readElem g s r (clampIx r ix)
  else readElem g s r ix

/-- The scale that packed scale p takes on a TLD (R150). -/
def loadScale (g : Agent) (s : State) (r : BitVec 768) (org : List Nat) (p : Nat) : EngRes Nat :=
  let ix := scaleIndex r org p
  let get (ix : List Nat) : EngRes Nat :=
    (engRead g s (recScaleAddr r ix) 1).andThen fun s bs => .done s (leNat bs)
  if beyond r ix then
    if recFillM r = 1 then .done s 0x7F else get (clampIx r ix)
  else get ix

/-- Packs the values of items lo to lo + n − 1 of b bits each. -/
def gather (f : State → Nat → EngRes Nat) (b lo : Nat) : Nat → State → EngRes Nat
  | 0, s => .done s 0
  | n + 1, s =>
    (gather f b lo n s).andThen fun s x =>
      (f s (lo + n)).andThen fun s y => .done s (x + (y % 2 ^ b) * 2 ^ (b * n))

/-- The bytes of sector k of a window's packed image (R149, R150). -/
def imageSector (g : Agent) (s : State) (r : BitVec 768) (org : List Nat) (k : Nat) : EngRes (List Byte) :=
  let e := recE r
  let lo := 64 * k
  let start := scaleStart r
  if recScl r && decide (start ≤ lo) then
    let n := min 64 (packedBytes r - lo)
    (gather (fun s p => loadScale g s r org p) 8 (lo - start) n s).andThen fun s x => .done s (leBytes n x)
  else
    let per := 128 / e
    let cnt := min per (winCount r - per * k)
    (gather (fun s p => loadElem g s r org p) (4 * e) (per * k) cnt s).andThen fun s x =>
      .done s (leBytes ((cnt * e + 1) / 2) x)

/-- The memory that sector k of a window's packed image is read from. -/
def imageRanges (r : BitVec 768) (org : List Nat) (k : Nat) : List (Nat × Nat) :=
  let e := recE r
  let lo := 64 * k
  let start := scaleStart r
  let inside (ix : List Nat) : Option (List Nat) :=
    if !beyond r ix then some ix else if recFillM r = 1 then none else some (clampIx r ix)
  if recScl r && decide (start ≤ lo) then
    (rangeFrom (lo - start) (min 64 (packedBytes r - lo))).filterMap fun p =>
      (inside (scaleIndex r org p)).map fun ix => (recScaleAddr r ix, 1)
  else
    let per := 128 / e
    (rangeFrom (per * k) (min per (winCount r - per * k))).filterMap fun p =>
      (inside (winIndex r org p)).map fun ix => ((recAddr r ix).1, (e + 1) / 2)

/-! ### The stores of a TST (R120, R147, R149, R150)

The items of a window are its elements in packed order, then its scales. -/

/-- The number of items of a window. -/
def itemCount (r : BitVec 768) : Nat := winCount r + scaleCount r

/-- Where an item is stored, and whether it is the high nibble of its byte; none beyond the edge. -/
def itemAt (r : BitVec 768) (org : List Nat) (p : Nat) : Option (Nat × Bool) :=
  if p < winCount r then
    let ix := winIndex r org p
    if beyond r ix then none else some (recAddr r ix)
  else
    let ix := scaleIndex r org (p - winCount r)
    if beyond r ix then none else some (recScaleAddr r ix, false)

/-- The size of an item in nibbles. -/
def itemNibbles (r : BitVec 768) (p : Nat) : Nat := if p < winCount r then recE r else 2

/-- The bytes that an item touches. -/
def itemBytes (r : BitVec 768) (p : Nat) : Nat := (itemNibbles r p + 1) / 2

/-- The place of an item in the packed image, in nibbles. -/
def itemPacked (r : BitVec 768) (p : Nat) : Nat :=
  if p < winCount r then p * recE r else 2 * (scaleStart r + (p - winCount r))

/-- A list with neighbours that are equal taken once. -/
def squeeze (l : List Nat) : List Nat :=
  l.foldr (fun x l => match l with
    | [] => [x]
    | y :: _ => if x = y then l else x :: l) []

/-- The 64-byte sectors of memory that a window is stored to, in the order in which its items reach them. No item
crosses a sector (R152). -/
def storeSectors (r : BitVec 768) (org : List Nat) : List Nat :=
  (squeeze ((List.range (itemCount r)).filterMap fun p => (itemAt r org p).map fun a => a.1 / 64)).eraseDups

/-- The items that are stored in one of some sectors. -/
def itemsIn (r : BitVec 768) (org : List Nat) (qs : List Nat) : List Nat :=
  (List.range (itemCount r)).filter fun p => (itemAt r org p).any fun a => qs.contains (a.1 / 64)

/-- The units of the packed image with an item that is stored in one of some sectors. -/
def unitsIn (r : BitVec 768) (org : List Nat) (qs : List Nat) : Nat :=
  (squeeze ((itemsIn r org qs).map fun p => itemPacked r p / 64)).eraseDups.length

/-- The values of items, read from the packed image at a pointer. -/
def itemValues (g : Agent) (r : BitVec 768) (src : Nat) : List Nat → State → EngRes (List Nat)
  | [], s => .done s []
  | p :: ps, s =>
    (engRead g s (src + itemPacked r p / 2) (itemBytes r p)).andThen fun s bs =>
      (itemValues g r src ps s).andThen fun s l =>
        .done s (bitsN (leNat bs) (4 * (itemPacked r p % 2)) (4 * itemNibbles r p) :: l)

/-- Writes one item: a 4-bit element writes its own nibble (R149). -/
def storeItem (g : Agent) (s : State) (r : BitVec 768) (org : List Nat) (p x : Nat) : EngRes Unit :=
  match itemAt r org p with
  | none => .done s ()
  | some a =>
    if itemNibbles r p = 1 then
      (engUpdate g s .write a.1 1 fun bs =>
        leBytes 1 (setBitsN (leNat bs) (if a.2 then 4 else 0) 4 x)).andThen fun s _ => .done s ()
    else engWrite g s a.1 (leBytes (itemBytes r p) x)

/-- Writes items in packed order, so that the later of two in one place stays. -/
def storeItems (g : Agent) (r : BitVec 768) (org : List Nat) : List (Nat × Nat) → State → EngRes Unit
  | [], s => .done s ()
  | q :: qs, s => (storeItem g s r org q.1 q.2).andThen fun s _ => storeItems g r org qs s

/-- Stores everything of a window that lies in one sector of memory: the values are read and the memory is held
first, so that the write is one, and each item is written once. -/
def storeSector (g : Agent) (s : State) (r : BitVec 768) (org : List Nat) (q src : Nat) : EngRes Unit :=
  let ps := itemsIn r org [q]
  (itemValues g r src ps s).andThen fun s xs =>
    match holdAll (fun s a => engHold g s a.1 a.2)
        (ps.filterMap fun p => (itemAt r org p).map fun a => (a.1, itemBytes r p)) s with
    | .wait s => .wait s
    | .ready s _ (some e) => .fail s e.1 e.2
    | .ready s _ none => storeItems g r org (ps.zip xs) s

end Sys2Proof.Machine
end

