-- ==== Sys2Proof/Machine/CopyRun.lean ====
section
/-! DEFINITION. The running of channel operations: sectors, credits, completion, ends in error, window rings
(R113 to R122, R127 to R129, R142, R143). -/

namespace Sys2Proof.Machine

/-! ### Fields of an operation -/

def EngRegs.kind (e : EngRegs) : Nat := bitsN e.ectl.toNat 0 4
def EngRegs.arrive (e : EngRegs) : Bool := e.ectl.getLsbD 4
def EngRegs.kdim (e : EngRegs) : Nat := bitsN e.ectl.toNat 5 3
def EngRegs.scope (e : EngRegs) : Nat := bitsN e.ectl.toNat 8 3
def EngRegs.evict (e : EngRegs) : Nat := bitsN e.ectl.toNat 11 3
def EngRegs.tcnt (e : EngRegs) : Nat := bitsN e.ectl.toNat 16 6

/-- The number of aligned pieces of a size that a range touches. -/
def pieces (size p n : Nat) : Nat := if n = 0 then 0 else (p + n - 1) / size - p / size + 1

/-- Piece k of a range: its first byte and its length. -/
def piece (size p n k : Nat) : Nat × Nat :=
  let lo := max p ((p / size + k) * size)
  (lo, min (p + n) ((p / size + k + 1) * size) - lo)

/-- Fields of a packet (R139). -/
def pkWord (b : List Byte) (k : Nat) : Nat := bytesWord b (8 * k)
def pkKind (b : List Byte) : Nat := bitsN (pkWord b 0) 0 4
def pkEvict (b : List Byte) : Nat := bitsN (pkWord b 0) 7 3
def pkLen (b : List Byte) : Nat := pkWord b 3

/-- The destination sectors of a packet; none for one that only arrives. -/
def pkTotal (b : List Byte) : Nat := if pkKind b = 2 then 0 else pieces 64 (pkWord b 2) (pkLen b)

/-- The 64-byte sectors, 256-byte lines or ring-fill sectors that an operation moves: of the destination, or of
the image for a window that is loaded; of a collective those of its result. -/
def ChanOp.total (o : ChanOp) : Nat :=
  let n := o.regs.elen.toNat
  match o.regs.kind with
  | 0 => pieces 64 o.regs.edst.toNat n
  | 1 => (packedBytes o.record + 63) / 64
  | 2 => (storeSectors o.record (origins o.regs)).length
  | 3 => (packedBytes o.record + 63) / 64
  | 4 => pieces 64 o.regs.edst.toNat o.image.length
  | 5 => pieces 64 o.regs.edst.toNat o.image.length
  | 6 => n / 256
  | 7 => pieces 256 o.regs.edst.toNat n
  | 8 => pieces 256 o.regs.edst.toNat n
  | 9 => pieces 256 o.regs.edst.toNat n
  | _ => 0

/-- A window ring that has not been ended (R129). -/
def ChanOp.isRing (o : ChanOp) : Bool := o.regs.kind == 3 && !o.ready

/-- A collective (R135). -/
def ChanOp.isColl (o : ChanOp) : Bool := o.regs.kind == 4 || o.regs.kind == 5

/-- A tracked operation that reaches memory, barriers or the shelves, and so precedes a flip (R125). -/
def TOp.accesses : TOp → Bool
  | .csrWrite .. => false
  | .engWrite .. => false
  | .span .. => false
  | .tidFill .. => false
  | .planes .. => false
  | .flip .. => false
  | .trig .. => false
  | _ => true

/-- The bytes an access touches: space (0 memory, 1 on-chip map, 2 system window), start and length. -/
def accessFoot (region : Nat) (addr : Word) (runs : List (Nat × Nat)) (n : Nat) : List (Nat × Nat × Nat) :=
  let off := addr.toNat % 2 ^ 60
  match addr.toNat / 2 ^ 60 with
  | 0x0 => runs.map fun r => (0, r.1, r.2)
  | 0xC => [(1, region * 2 ^ 26 + off, n)]
  | 0xE => [(1, off, n)]
  | _ => [(2, off, n)]

/-- The bytes that a tracked operation touches; a barrier in memory is named by its address, and stands for
all of memory, as the image of a graph does, whose pages are not known before it is read. -/
def TOp.foot (region : Nat) : TOp → List (Nat × Nat × Nat)
  | .load a rs n .. => accessFoot region a rs n
  | .store a rs _ bs => accessFoot region a rs bs.length
  | .atom a rs _ _ _ n _ _ => accessFoot region a rs n
  | .reload _ _ _ _ rs _ => rs.map fun r => (0, r.1, r.2)
  | .barv p .. => barFoot p
  | .bexp p _ => barFoot p
  | .binit p .. => barFoot p
  | .graphLoad .. => [(0, 0, 2 ^ 52)]
  | _ => []
where
  barFoot (p : Nat) : List (Nat × Nat × Nat) :=
    if p / 2 ^ 60 = 0 then [(0, 0, 2 ^ 52)] else accessFoot region (wordOf p) [] 16

/-- Two footprints share a byte. -/
def footsMeet (a b : List (Nat × Nat × Nat)) : Bool :=
  a.any fun x => b.any fun y =>
    x.1 == y.1 && decide (x.2.1 < y.2.1 + y.2.2) && decide (y.2.1 < x.2.1 + x.2.2)

/-- An acquire, and a release (R332). -/
def ordAcquires : Ord → Bool
  | .acq => true
  | .acqRel => true
  | _ => false
def ordReleases : Ord → Bool
  | .rel => true
  | .acqRel => true
  | _ => false

/-- An earlier operation must be done first: it shares a byte; it is an acquire or this one is a release, which
order no access to unordered pages; or both are strongly ordered (R331, R332, R335, R336). -/
def mustFollow (region : Nat) (t e : Tracked) : Bool :=
  footsMeet (e.op.foot region) (t.op.foot region) ||
    (e.op.accesses && ((!e.uo && !t.uo && (ordAcquires e.ord || ordReleases t.ord)) || (e.so && t.so)))

/-- The k-th tracked operation, when nothing issued before it holds it back. -/
def accessReady (c : Core) (k : Nat) : Option Tracked :=
  match c.tracked[k]? with
  | none => none
  | some t =>
    if (c.tracked.take k).any (mustFollow c.region.toNat t) then none else some t

/-- The physical addresses of runs, in order. -/
def runAddrs (runs : List (Nat × Nat)) : List Nat := runs.flatMap fun r => rangeFrom r.1 r.2

/-- Bytes read from memory with one unpublished store over them. -/
def overlayOne (addrs : List Nat) (bytes : List Byte) (t : Tracked) : List Byte :=
  match t.op with
  | .store _ rs _ bs =>
    let new := (runAddrs rs).zip bs
    (addrs.zip bytes).map fun q => ((new.find? fun p => p.1 == q.1).map Prod.snd).getD q.2
  | _ => bytes

/-- Bytes that a core reads, those of memory with its own unpublished stores, oldest first (R336). -/
def Core.overlay (c : Core) (runs : List (Nat × Nat)) (bytes : List Byte) : List Byte :=
  if c.uo.isEmpty || runs.isEmpty then bytes else c.uo.foldl (overlayOne (runAddrs runs)) bytes

/-- A release publishes the stores to unordered pages up to a group (R336). -/
def State.publishTo (s : State) (g : Nat) : State :=
  { s with core := { s.core with publish := max s.core.publish g } }

/-- A release that issues publishes those of its own group and of the groups before it. -/
def State.publish (s : State) : State := s.publishTo s.core.ctx.grp

/-- A release that waits publishes those that are there. -/
def State.publishEarlier (s : State) : State :=
  s.publishTo ((s.core.uo ++ s.core.tracked.filter fun t => t.uo && t.op.stores).foldl (fun m t => max m t.grp) 0)

/-- Every access that precedes the staging in program order is performed, and its stores to unordered pages are
published (R125, R336). -/
def ChanOp.mayRun (c : Core) (o : ChanOp) : Bool :=
  !(c.tracked.any fun t => t.op.accesses && decide (t.grp ≤ o.grp)) && !c.uo.any fun t => decide (t.grp ≤ o.grp)

/-! ### The channel -/

def State.chan (s : State) (ch : Chan) : ChanState := s.core.copy.chan ch
def State.setChan (s : State) (ch : Chan) (x : ChanState) : State :=
  { s with core := { s.core with copy := s.core.copy.setChan ch x } }

/-- Replaces the running operation; the active set shows its registers. -/
def ChanState.setOp (x : ChanState) (o : ChanOp) : ChanState := { x with op := some o, active := o.regs }

/-- A pending operation moves to the active set of an idle channel (R115, R116). -/
def ChanState.startPending (x : ChanState) : ChanState :=
  match x.op, x.pending with
  | none, some p =>
    if x.err || x.paused then x
    else { x with op := some p, pending := none, active := p.regs, done := 0, cause := 0, efaddr := 0 }
  | _, _ => x

/-! ### Tiles and records in flight (R64, R121, R122) -/

/-- A tile an operation of a channel took over returns to the core, ready; a released one becomes empty. -/
def Copy.returnTile (ch : Chan) (c : Copy) (t : Nat) : Copy :=
  let x := c.tile t
  if (x.st = .filling || x.st = .draining) && x.owner.toNat == ch.num + 1 then
    c.setTile t (if x.released then { x with st := .empty, owner := 0, released := false }
      else { x with st := .ready, owner := 0 })
  else c

/-- An operation lets go of a tile. -/
def Copy.dropTile (c : Copy) (t : Nat) : Copy :=
  let x := c.tile t
  c.setTile t { x with infl := x.infl - 1 }

/-- An operation takes over a tile; one released earlier in the bundle stays released (R122). -/
def Copy.takeTile (c : Copy) (st : TileSt) (o : BitVec 2) (t : Nat) : Copy :=
  let x := c.tile t
  c.setTile t { x with st := st, owner := o, infl := x.infl + 1, released := x.released || x.st == .empty }

/-- An operation captures a record; a slot invalidated earlier in the bundle drains (R63, R64). -/
def Copy.takeTid (c : Copy) (k : Nat) : Copy :=
  let x := c.tid k
  c.setTid k { x with infl := x.infl + 1, st := if x.st = .free then .draining else x.st }

/-- An operation lets go of a record; a draining slot with nothing in flight is free. -/
def Copy.dropTid (c : Copy) (k : Nat) : Copy :=
  let x := c.tid k
  c.setTid k { x with infl := x.infl - 1, st := if x.st = .draining && x.infl ≤ 1 then .free else x.st }

/-- Invalidation of a live slot (R64). -/
def Copy.killTid (c : Copy) (k : Nat) : Copy :=
  let x := c.tid k
  if x.st = .live then
    c.setTid k { x with gen := x.gen + 1, st := if x.infl = 0 then .free else .draining }
  else c

/-- Everything an operation captured is let go (R64, R121). -/
def Copy.release (c : Copy) (o : ChanOp) : Copy :=
  let c := o.tiles.foldl Copy.dropTile c
  match o.tid with
  | some k => c.dropTid k
  | none => c

/-! ### Credits and ends (R117, R118) -/

/-- The last credit and the arrival, as two updates with nothing between: the barrier, and whether one of
them underflows. -/
def barEnd (k : Nat) (arr : Bool) (b : Nat) : Nat × Bool :=
  match barCredit k b with
  | .error _ => (b, true)
  | .ok b1 =>
    if arr then
      match barArrive b1 with
      | .error _ => (b1, true)
      | .ok b2 => (b2, false)
    else (b1, false)

/-- The end in error: ERR, the units still owed, the arrival (R118). DESIGN CHOICE (log 102): one of these updates that
would itself underflow is left out, and the others are made. -/
def barFail (k : Nat) (arr : Bool) (b : Nat) : Nat :=
  let step (f : BarFn) (b : Nat) : Nat :=
    match f b with
    | .ok b => b
    | .error _ => b
  let b := step (barCredit k) (step barMark b)
  if arr then step barArrive b else b

/-- The core is being taken from its node: what is pending on a channel starts at the next dispatch (R119). -/
def Core.leaving (c : Core) : Bool := c.binding.any Binding.preempted

/-- A recall that an operation asked for is forgotten with it (R143). -/
def dropRecall (s : State) (o : ChanOp) : State :=
  if o.regs.kind = 6 then
    s.setCoh { s.coh with recalls := s.coh.recalls.filter fun q => q.1 != o.regs.esrc.toNat / 256 + o.pos }
  else s

/-- The channel of an operation becomes idle, or stands in error. -/
def endOp (s : State) (ch : Chan) (o : ChanOp) (err : Option (Nat × Nat)) : State :=
  let s := dropRecall { s with core := { s.core with copy := s.core.copy.release o } } o
  let x := { s.chan ch with op := none }
  match err with
  | none => s.setChan ch (if s.core.leaving then x else x.startPending)
  | some (c, a) => s.setChan ch { x with err := true, cause := BitVec.ofNat 7 c, efaddr := wordOf a }

/-- The tiles of an operation return to the core. -/
def returnTiles (s : State) (ch : Chan) (o : ChanOp) : State :=
  { s with core := { s.core with copy := o.tiles.foldl (Copy.returnTile ch) s.core.copy } }

/-- An operation that gives its tiles back holds them no longer: they return once (R117). -/
def ChanOp.bare (o : ChanOp) : ChanOp := { o with tiles := [] }

/-- The tiles of a running operation return to the core, and it lets go of them. -/
def giveTiles (s : State) (ch : Chan) (o : ChanOp) : State :=
  let s := returnTiles s ch o
  let s := { s with core := { s.core with copy := o.tiles.foldl Copy.dropTile s.core.copy } }
  s.setChan ch ((s.chan ch).setOp o.bare)

/-- The agent of a channel's operation. -/
def opAgent (s : State) (ch : Chan) (o : ChanOp) : Agent := s.core.channelAgent ch o.sys o.regs.evict

/-- The end of an operation in error (R118). A credit that underflowed leaves the barrier as it was. -/
def errorEnd (s : State) (ch : Chan) (o : ChanOp) (c a : Nat) : State :=
  let s := giveTiles s ch { o with failing := some (c, a) }
  let o := { o with failing := some (c, a) }.bare
  match o.barrier with
  | none => endOp s ch o (some (c, a))
  | some p =>
    if c = 0x45 then endOp s ch o (some (c, a))
    else
      let f (bs : List Byte) : List Byte := leBytes 16 (barFail o.owed o.regs.arrive (leNat bs))
      match engUpdate (opAgent s ch o) s .barrier p 16 f with
      | .done s _ => endOp s ch o (some (c, a))
      | .wait s => s
      | .fail s _ _ => endOp s ch o (some (c, a))

/-- Credits k units of a running operation: the barrier, the units owed, ESTAT.DONE (R115, R120). DESIGN CHOICE
(log 77): with EBAR = 0 nothing is credited, and DONE counts the units all the same. -/
def payCredit (s : State) (ch : Chan) (o : ChanOp) (k : Nat) : State :=
  let paid (s : State) : State :=
    let x := s.chan ch
    s.setChan ch { x.setOp { o with credit := 0, owed := o.owed - k } with
      done := x.done + BitVec.ofNat 32 k }
  match o.barrier with
  | none => paid s
  | some p =>
    match barUpdate (opAgent s ch o) s p (barCredit k) with
    | .done s _ => paid s
    | .wait s => s
    | .fail s c a => errorEnd s ch o c a

/-- A credit that a barrier takes. -/
def barTakes (k b : Nat) : Bool :=
  match barCredit k b with
  | .ok _ => true
  | .error _ => false

/-- The completion of an operation (R117): tiles, remaining units, arrival. The units count in DONE once they
are credited, also where the arrival then underflows (R115). -/
def completeOp (s : State) (ch : Chan) (o : ChanOp) : State :=
  let s := giveTiles s ch o
  let o := o.bare
  let paid (s : State) : State :=
    let x := s.chan ch
    s.setChan ch { x with done := x.done + BitVec.ofNat 32 o.owed }
  match o.barrier with
  | none => endOp (paid s) ch o none
  | some p =>
    let f (bs : List Byte) : List Byte := leBytes 16 (barEnd o.owed o.regs.arrive (leNat bs)).1
    match engUpdate (opAgent s ch o) s .barrier p 16 f with
    | .done s old =>
      if (barEnd o.owed o.regs.arrive (leNat old)).2 then
        endOp (if barTakes o.owed (leNat old) then paid s else s) ch o (some (0x45, p))
      else endOp (paid s) ch o none
    | .wait s => s
    | .fail s c a => endOp s ch o (some (c, a))

/-! ### Moving one sector or line -/

/-- The scratchpad pointer of a byte of a tile. -/
def tilePtr (t off : Nat) : Nat := 0xC * 2 ^ 60 + t * 16384 + off

/-- LIN: one destination sector (R127). -/
def moveLin (g : Agent) (s : State) (o : ChanOp) : EngRes Nat :=
  let p := o.regs.edst.toNat
  let q := piece 64 p o.regs.elen.toNat o.pos
  (engRead g s (o.regs.esrc.toNat + (q.1 - p)) q.2).andThen fun s bs =>
    (engWrite g s q.1 bs).andThen fun s _ => .done s (pieces 32 q.1 q.2)

/-- The units of sector k of a packed image. -/
def imageUnits (r : BitVec 768) (k : Nat) : Nat := (min 64 (packedBytes r - 64 * k) + 31) / 32

/-- TLD: one sector of the image into the tiles (R127, R149). -/
def moveTld (g : Agent) (s : State) (o : ChanOp) : EngRes Nat :=
  (imageSector g s o.record (origins o.regs) o.pos).andThen fun s bs =>
    (engWrite g s (tilePtr (o.tiles.headD 0) (64 * o.pos)) bs).andThen fun s _ =>
      .done s (imageUnits o.record o.pos)

/-- TST: everything that goes to one sector of memory, out of the tiles; the units whose last item it writes
(R120, R127, R149). -/
def moveTst (g : Agent) (s : State) (o : ChanOp) : EngRes Nat :=
  let org := origins o.regs
  let qs := storeSectors o.record org
  (storeSector g s o.record org (lget 0 qs o.pos) (tilePtr (o.tiles.headD 0) 0)).andThen fun s _ =>
    .done s (unitsIn o.record org (qs.drop o.pos) - unitsIn o.record org (qs.drop (o.pos + 1)))

/-- Data that CMIG has recalled, unless a check of it fails (R143, R409). -/
def recalled (s : State) (line : Nat) (d : LineData) : EngRes (BitVec 2048) :=
  if d.bad = 0 then .done s d.bits
  else .fail (logBad s line d.bad s.core.region.toNat) 0x70 (256 * line)

/-- A physical line without a translation, recalled from its holders at its home, and its data (R143). DESIGN
CHOICE (log 79): an operand that is no valid physical address ends the operation with 0x35, as a translation to
it would (R19). -/
def recallLine (s : State) (line : Nat) : EngRes (BitVec 2048) :=
  let pa := 256 * line
  let take (f : Nat × Nat) : State := s.setCoh { s.coh with failed := s.coh.failed.erase f }
  if !paOk s.plat pa then .fail s 0x35 pa
  else if hostTier pa then
    let s := if (l2Get s.coh line).st = .m then l2Drop s line else s
    match cohRead s [(pa, 256)] 7 with
    | .done s bs => .done s (BitVec.ofNat 2048 (leNat bs))
    | .wait s => .wait s
    | .fail s c => .fail s c pa
  else
    match s.coh.failed.find? fun f => f.1 == line with
    | some f => .fail (take f) f.2 pa
    | none =>
      if isHome s.plat line then
        let busy (s : State) : Bool :=
          s.coh.resol.any (fun x => x.line == line) || s.coh.waiting.any fun x => x.line == line
        let held (s : State) : Bool :=
          (Meta.ofWord (spGet 0 s.coh.meta_ line)).st != 0 || metaBroken s.coh line
        let s := if busy s || !held s then s else homeRequest s line (.recall s.plat.ownid)
        if busy s || held s || !stackReady s.plat line then .wait s
        else
          let f := homeFetch s line s.core.region.toNat
          recalled f.1 line f.2
      else
        match s.coh.recalls.find? fun q => q.1 == line with
        | some (_, some d) =>
          recalled (s.setCoh { s.coh with recalls := s.coh.recalls.filter fun q => q.1 != line }) line d
        | some (_, none) => .wait s
        | none =>
          match noLink s.plat line with
          | some c => .fail s c pa
          | none =>
            .wait ((s.setCoh { s.coh with recalls := s.coh.recalls ++ [(line, none)] }).send
              (.recallRequest (homeChip pa) line ((portTo s.plat (homeChip pa) line).getD 0)))

/-- MIG: one line (R143). -/
def moveMig (s : State) (o : ChanOp) : EngRes Nat :=
  let src := o.regs.esrc.toNat + 256 * o.pos
  let dst := o.regs.edst.toNat + 256 * o.pos
  if !paOk s.plat dst then .fail s 0x35 dst
  else
    -- the destination is held before the source is taken, so that what was recalled is written at once
    match acquire s (dst / 256) true with
    | .wait s => .wait s
    | .fail s c => .fail s c dst
    | .ready s =>
      (recallLine s (src / 256)).andThen fun s d =>
        match cohWrite s [(dst, 256)] 7 (leBytes 256 d.toNat) with
        | .done s _ => .done s 8
        | .wait s => .wait s
        | .fail s c => .fail s c dst

/-- PREF: one line is brought into the L2; a page that fails ends the operation silently (R142). -/
def movePref (g : Agent) (s : State) (o : ChanOp) : EngRes Nat :=
  let q := piece 256 o.regs.edst.toNat o.regs.elen.toNat o.pos
  match engPage g s q.1 .read with
  | .wait s => .wait s
  | .fail s _ _ => .done s 0
  | .done s pa =>
    match acquireAll (o.regs.aux.getLsbD 8) [pa / 256] s with
    | .ready s => .done s 0
    | .wait s => .wait s
    | .fail s _ => .done s 0

/-- Whether the page of a prefetch fails, which ends it. -/
def prefFails (g : Agent) (s : State) (o : ChanOp) : Bool :=
  match engPage g s (piece 256 o.regs.edst.toNat o.regs.elen.toNat o.pos).1 .read with
  | .fail .. => true
  | _ => false

/-- FLUSH: one line leaves the L2 and the L1s of this chip (R142). -/
def moveFlush (g : Agent) (s : State) (o : ChanOp) : EngRes Nat :=
  let q := piece 256 o.regs.edst.toNat o.regs.elen.toNat o.pos
  (engPage g s q.1 .read).andThen fun s pa => .done (l2Drop s (pa / 256)) 0

/-- INV: the core's own L1 copy of one line is dropped (R142). -/
def moveInv (g : Agent) (s : State) (o : ChanOp) : EngRes Nat :=
  let q := piece 256 o.regs.edst.toNat o.regs.elen.toNat o.pos
  (engPage g s q.1 .read).andThen fun s pa =>
    .done (s.setCore { s.core with l1 := s.core.l1.filter fun l => l / 4 != pa / 256 }) 0

/-- RED and BCST: one destination sector of the result (R30, R136, R137). -/
def moveColl (g : Agent) (s : State) (o : ChanOp) : EngRes Nat :=
  let p := o.regs.edst.toNat
  let q := piece 64 p o.image.length o.pos
  (engWrite g s q.1 ((o.image.drop (q.1 - p)).take q.2)).andThen fun s _ => .done s (pieces 32 q.1 q.2)

/-- One sector of the oldest fill of a ring (R129). -/
def moveFill (g : Agent) (s : State) (o : ChanOp) : EngRes Nat :=
  match o.fills with
  | [] => .done s 0
  | f :: _ =>
    (imageSector g s o.record f.2 o.filled).andThen fun s bs =>
      (engWrite g s (tilePtr f.1 (64 * o.filled)) bs).andThen fun s _ => .done s 0

/-- The sector or line that an operation moves next: the units it writes. -/
def moveSector (g : Agent) (s : State) (o : ChanOp) : EngRes Nat :=
  match o.regs.kind with
  | 0 => moveLin g s o
  | 1 => moveTld g s o
  | 2 => moveTst g s o
  | 3 => moveFill g s o
  | 4 => moveColl g s o
  | 5 => moveColl g s o
  | 6 => moveMig s o
  | 7 => movePref g s o
  | 8 => moveFlush g s o
  | _ => moveInv g s o

/-- The global ranges that the next sector of an operation touches. -/
def ChanOp.touched (o : ChanOp) : List (Nat × Nat) :=
  let org := origins o.regs
  match o.regs.kind with
  | 0 =>
    let p := o.regs.edst.toNat
    let q := piece 64 p o.regs.elen.toNat o.pos
    [q, (o.regs.esrc.toNat + (q.1 - p), q.2)]
  | 1 => imageRanges o.record org o.pos
  | 2 => [(64 * lget 0 (storeSectors o.record org) o.pos, 64)]
  | 3 =>
    match o.fills with
    | f :: _ => imageRanges o.record f.2 o.filled
    | [] => []
  | 4 => [piece 64 o.regs.edst.toNat o.image.length o.pos]
  | 5 => [piece 64 o.regs.edst.toNat o.image.length o.pos]
  | 7 => [piece 256 o.regs.edst.toNat o.regs.elen.toNat o.pos]
  | _ => []

/-- An operation still has something to move; a collective once its result is there. -/
def ChanOp.moving (o : ChanOp) : Bool :=
  if o.regs.kind = 3 then !o.fills.isEmpty && decide (o.filled < o.total)
  else (!o.isColl || o.ready) && decide (o.pos < o.total)

/-- A sector has moved: the position, and the units to be credited, which the last ones are not until the
operation completes (R117). -/
def ChanOp.moved (o : ChanOp) (units : Nat) (stop : Bool) : ChanOp :=
  if o.regs.kind = 3 then { o with filled := o.filled + 1 }
  else if stop then { o with pos := o.total }
  else { o with pos := o.pos + 1, credit := if o.pos + 1 < o.total then units else 0 }

/-! ### Events -/

/-- COPY_SECTOR: the channel does the next thing before completion: an end in error, a credit that is due, or
one sector. -/
def execCopySector (ch : Chan) (s : State) : Host.Outcome State Fault Refusal :=
  match (s.chan ch).op with
  | none => .next s
  | some o =>
    if !o.mayRun s.core then .next s
    else match o.failing with
      | some f => .next (errorEnd s ch o f.1 f.2)
      | none =>
        if 0 < o.credit then .next (payCredit s ch o o.credit)
        else if !o.moving then .next s
        else
          -- within a sector nothing leaves the L2; a no-allocate operation leaves nothing behind it (R34)
          let g := { opAgent s ch o with evict := 0 }
          let stop := o.regs.kind == 7 && prefFails g s o
          match moveSector g s o with
          | .done s u =>
            let s := if o.regs.evict = 7 then dropTouched g s o.touched else s
            .next (s.setChan ch ((s.chan ch).setOp (o.moved u stop)))
          | .wait s => .next s
          | .fail s c a => .next (errorEnd s ch o c a)

/-- Everything the operation itself moves is moved; a flush also waits for the homes (R142). -/
def ChanOp.finished (o : ChanOp) (c : Coh) : Bool :=
  match o.regs.kind with
  | 3 => o.ready && o.fills.isEmpty
  | 4 => o.ready && decide (o.total ≤ o.pos)
  | 5 => o.ready && decide (o.total ≤ o.pos)
  | 8 => decide (o.total ≤ o.pos) && c.writebacks.isEmpty
  | _ => decide (o.total ≤ o.pos)

/-- CHANNEL_OP_COMPLETE (R117). -/
def execChannelOpComplete (ch : Chan) (s : State) : Host.Outcome State Fault Refusal :=
  match (s.chan ch).op with
  | none => .next s
  | some o =>
    if o.mayRun s.core && o.failing.isNone && o.finished s.coh then .next (completeOp s ch o)
    else .next s

/-- RING_FILL_COMPLETE: the oldest fill of a ring returns its tile, and its units are to be credited
(R129). -/
def execRingFillComplete (ch : Chan) (s : State) : Host.Outcome State Fault Refusal :=
  match (s.chan ch).op with
  | none => .next s
  | some o =>
    match o.fills with
    | [] => .next s
    | f :: fs =>
      if o.failing.isSome || 0 < o.credit || decide (o.filled < o.total) then
        .next s
      else
        let u := windowUnits o.record
        let s := { s with core := { s.core with copy := Copy.returnTile ch s.core.copy f.1 } }
        let o := { o with fills := fs, filled := 0, credit := u }
        .next (payCredit (s.setChan ch ((s.chan ch).setOp o)) ch o u)

end Sys2Proof.Machine
end

