-- ==== Sys2Proof/Machine/Float.lean ====
section
/-! DEFINITION. Floating-point values, rounding, arithmetic, conversions and MX quantisation
(R206 to R220, R224, R225). Every operation is computed exactly on integers and rounded once. -/

namespace Sys2Proof.Machine

/-! ### Formats and flags -/

/-- A binary format: exponent bits, fraction bits, bias, and whether it has infinities (R207). -/
structure Fmt where
  eb : Nat
  fb : Nat
  bias : Nat
  hasInf : Bool
  deriving DecidableEq, Repr

def fmtF32 : Fmt := ⟨8, 23, 127, true⟩
def fmtE2M1 : Fmt := ⟨2, 1, 1, false⟩

/-- The format of a floating-point TYPE (R207). -/
def fmtOf : ETy → Fmt
  | .f16 => ⟨5, 10, 15, true⟩
  | .bf16 => ⟨8, 7, 127, true⟩
  | .e5m2 => ⟨5, 2, 15, true⟩
  | .e4m3 => ⟨4, 3, 7, false⟩
  | .mxf4 => fmtE2M1
  | _ => fmtF32

def Fmt.width (t : Fmt) : Nat := 1 + t.eb + t.fb

/-- The flags of FPSTAT (R179, R221), as numbers to be ORed. -/
def flNV : Nat := 16
def flDZ : Nat := 8
def flOF : Nat := 4
def flUF : Nat := 2
def flNX : Nat := 1

/-- The rounding modes of R212. -/
inductive Rm where
  | rne | rz | rup | rdn | rna | sr
  deriving DecidableEq, Repr

def Rm.ofCode : Nat → Rm
  | 0 => .rne | 1 => .rz | 2 => .rup | 3 => .rdn | 4 => .rna | _ => .sr

/-! ### Values -/

/-- A decoded value. A NaN keeps its sign, its fraction aligned to 23 bits, and whether it signals; a finite
value is ±m × 2^e. -/
inductive FVal where
  | nan (neg : Bool) (frac : Nat) (sig : Bool)
  | inf (neg : Bool)
  | fin (neg : Bool) (m : Nat) (e : Int)
  deriving DecidableEq, Repr

/-- A real ±(m + ε) × 2^e with 0 ≤ ε < 1, where ε is nonzero exactly when `sticky`. -/
structure Real where
  neg : Bool
  m : Nat
  e : Int
  sticky : Bool
  deriving DecidableEq, Repr

/-- The value of a bit pattern (R207, R208). -/
def unpackF (t : Fmt) (v : Nat) : FVal :=
  let f := v % 2 ^ t.fb
  let ex := (v / 2 ^ t.fb) % 2 ^ t.eb
  let neg := v.testBit (t.eb + t.fb)
  let top := 2 ^ t.eb - 1
  if t.hasInf && ex == top then
    if f = 0 then .inf neg
    else .nan neg (f * 2 ^ (23 - t.fb)) (!f.testBit (t.fb - 1))
  else if t == fmtOf .e4m3 && ex == top && f == 7 then .nan neg 0 false
  else if ex = 0 then .fin neg f (1 - (t.bias : Int) - t.fb)
  else .fin neg (2 ^ t.fb + f) ((ex : Int) - t.bias - t.fb)

def signBit (t : Fmt) (neg : Bool) : Nat := if neg then 2 ^ (t.eb + t.fb) else 0

/-- Infinity, or the largest finite value where the format has none (R213; log 16). -/
def packInf (t : Fmt) (neg : Bool) : Nat :=
  signBit t neg + (if t.hasInf then (2 ^ t.eb - 1) * 2 ^ t.fb
    else if t == fmtE2M1 then 7 else 0x7E)

/-- The largest finite magnitude as (n, q) for n × 2^q (R207). -/
def maxFinite (t : Fmt) : Nat × Int :=
  let emax : Int := if t.hasInf then 2 ^ t.eb - 2 - t.bias else 2 ^ t.eb - 1 - t.bias
  ((if t == fmtOf .e4m3 then 14 else 2 ^ (t.fb + 1) - 1), emax - t.fb)

/-- The bit pattern of n × 2^q with n at most 2^(fraction bits + 1) and q the quantum of its binade. -/
def packNQ (t : Fmt) (neg : Bool) (n : Nat) (q : Int) : Nat :=
  signBit t neg + (if n = 0 then 0 else (q + t.fb + t.bias - 1).toNat * 2 ^ t.fb + n)

/-- A NaN in a format: quieted, sign and top payload bits kept (R217). -/
def packNan (t : Fmt) (neg : Bool) (frac : Nat) : Nat :=
  if t.hasInf then
    let f := frac / 2 ^ (23 - t.fb)
    signBit t neg + (2 ^ t.eb - 1) * 2 ^ t.fb +
      (if f.testBit (t.fb - 1) then f else f + 2 ^ (t.fb - 1))
  else signBit t neg + 0x7F

/-- The default NaN (R207). -/
def defaultNan (t : Fmt) : Nat := packNan t false 0

/-! ### Rounding (R212 to R215) -/

/-- What finite overflow gives: R213; saturation to the largest finite value; or the NaN of E4M3
(R213, R220). -/
inductive Over where
  | ieee | sat | nan
  deriving DecidableEq, Repr

/-- Whether rounding a discarded part r of 2^sh, with a sticky remainder, steps away from zero. -/
def stepAway (rm : Rm) (w : Nat) (neg odd : Bool) (r sh : Nat) (sticky : Bool) : Bool :=
  let inexact := r != 0 || sticky
  match rm with
  | .rz => false
  | .rup => !neg && inexact
  | .rdn => neg && inexact
  | .rne => decide (2 ^ sh < 2 * r) || (2 * r == 2 ^ sh && (sticky || odd))
  | .rna => decide (2 ^ sh ≤ 2 * r) && decide (0 < sh)
  | .sr => decide (w % 65536 < (r * 65536) / 2 ^ sh)

/-- A magnitude rounded to a multiple of 2^q: the multiple, and whether it is inexact. -/
def roundTo (rm : Rm) (w : Nat) (x : Real) (q : Int) : Nat × Bool :=
  if x.e ≥ q then
    let n := x.m * 2 ^ (x.e - q).toNat
    (if x.sticky && stepAway rm w x.neg (n % 2 == 1) 0 1 true then n + 1 else n, x.sticky)
  else
    let sh := (q - x.e).toNat
    let n := x.m / 2 ^ sh
    let r := x.m % 2 ^ sh
    (if stepAway rm w x.neg (n % 2 == 1) r sh x.sticky then n + 1 else n, r != 0 || x.sticky)

/-- The overflow result of R213 under a mode. -/
def overflow (t : Fmt) (ov : Over) (rm : Rm) (neg : Bool) : Nat :=
  let mx := packNQ t neg (maxFinite t).1 (maxFinite t).2
  let inf := if ov = .sat then mx else packInf t neg
  match ov with
  | .nan => signBit t neg + 0x7F
  | _ =>
    match rm with
    | .rz => mx
    | .rup => if neg then mx else inf
    | .rdn => if neg then inf else mx
    | _ => inf

/-- A real rounded once into a format, with its OF, UF and NX (R212 to R215). -/
def roundF (t : Fmt) (ov : Over) (rm : Rm) (w : Nat) (x : Real) : Nat × Nat :=
  if x.m = 0 && !x.sticky then (signBit t x.neg, 0)
  else
    let bige : Int := (Nat.log2 (max x.m 1) : Int) + x.e
    let emin : Int := 1 - (t.bias : Int)
    let qu := bige - t.fb
    let q := max qu (emin - t.fb)
    let (n, inexact) := roundTo rm w x q
    let (mxn, mxq) := maxFinite t
    if mxq < q || (q == mxq && decide (mxn < n)) then (overflow t ov rm x.neg, flOF ||| flNX)
    else
      let nu := (roundTo rm w x qu).1
      let tiny := decide (bige < emin) && !(bige + 1 == emin && nu == 2 ^ (t.fb + 1))
      (packNQ t x.neg n q, if inexact then (if tiny then flUF ||| flNX else flNX) else 0)

/-- The overflow kind of arithmetic: a format without infinities saturates (R213, R220). -/
def overArith (t : Fmt) : Over := if t.hasInf then .ieee else .sat

/-! ### NaN selection (R217) -/

/-- NV for any signalling NaN among the inputs. -/
def sigFlag (vs : List FVal) : Nat :=
  if vs.any fun v => match v with
    | .nan _ _ s => s
    | _ => false
  then flNV else 0

/-- The first NaN of the inputs in order, quieted in the destination. -/
def firstNan (t : Fmt) : List FVal → Option Nat
  | [] => none
  | .nan s f _ :: _ => some (packNan t s f)
  | _ :: vs => firstNan t vs

/-! ### Exact sums and products -/

/-- ±m as an integer. -/
def signedM (neg : Bool) (m : Nat) : Int := if neg then -(m : Int) else m

/-- The exact sum of two finite values. -/
def addExact (na : Bool) (ma : Nat) (ea : Int) (nb : Bool) (mb : Nat) (eb : Int) : Int × Int :=
  let e := min ea eb
  (signedM na ma * 2 ^ (ea - e).toNat + signedM nb mb * 2 ^ (eb - e).toNat, e)

/-- The sign of a zero sum: shared by equal signs, else + but − under RDN (R218). -/
def zeroSumNeg (rm : Rm) (na nb : Bool) : Bool := if na == nb then na else rm == .rdn

/-- A signed exact value rounded; `zneg` is the sign of a zero. -/
def roundSigned (t : Fmt) (rm : Rm) (w : Nat) (v : Int × Int) (zneg : Bool) : Nat × Nat :=
  if v.1 = 0 then (signBit t zneg, 0)
  else roundF t (overArith t) rm w ⟨decide (v.1 < 0), v.1.natAbs, v.2, false⟩

/-- The sum of two values (R217, R218). -/
def addV (t : Fmt) (rm : Rm) (w : Nat) (a b : FVal) : Nat × Nat :=
  match firstNan t [a, b] with
  | some n => (n, sigFlag [a, b])
  | none =>
    match a, b with
    | .inf na, .inf nb => if na == nb then (packInf t na, 0) else (defaultNan t, flNV)
    | .inf na, _ => (packInf t na, 0)
    | _, .inf nb => (packInf t nb, 0)
    | .fin na ma ea, .fin nb mb eb =>
      roundSigned t rm w (addExact na ma ea nb mb eb) (zeroSumNeg rm na nb)
    | _, _ => (defaultNan t, 0)

/-- A value with its sign inverted. -/
def negV : FVal → FVal
  | .nan s f g => .nan (!s) f g
  | .inf s => .inf (!s)
  | .fin s m e => .fin (!s) m e

/-- The product of two values. -/
def mulV (t : Fmt) (rm : Rm) (w : Nat) (a b : FVal) : Nat × Nat :=
  match firstNan t [a, b] with
  | some n => (n, sigFlag [a, b])
  | none =>
    match a, b with
    | .inf na, .inf nb => (packInf t (na != nb), 0)
    | .inf na, .fin nb mb _ => if mb = 0 then (defaultNan t, flNV) else (packInf t (na != nb), 0)
    | .fin na ma _, .inf nb => if ma = 0 then (defaultNan t, flNV) else (packInf t (na != nb), 0)
    | .fin na ma ea, .fin nb mb eb =>
      roundF t (overArith t) rm w ⟨na != nb, ma * mb, ea + eb, false⟩
    | _, _ => (defaultNan t, 0)

/-- Whether a product is 0 × ∞. -/
def zeroInf (a b : FVal) : Bool :=
  match a, b with
  | .inf _, .fin _ 0 _ => true
  | .fin _ 0 _, .inf _ => true
  | _, _ => false

/-- a × b + c rounded once (R217, R218). -/
def fmaV (t : Fmt) (rm : Rm) (w : Nat) (a b c : FVal) : Nat × Nat :=
  let zi := if zeroInf a b then flNV else 0
  match firstNan t [c, a, b] with
  | some n => (n, sigFlag [c, a, b] ||| zi)
  | none =>
    if zeroInf a b then (defaultNan t, flNV)
    else
      match a, b, c with
      | .fin na ma ea, .fin nb mb eb, .fin nc mc ec =>
        roundSigned t rm w (addExact (na != nb) (ma * mb) (ea + eb) nc mc ec)
          (zeroSumNeg rm (na != nb) nc)
      | .fin .., .fin .., .inf nc => (packInf t nc, 0)
      | a, b, c =>
        let sg : FVal → Bool := fun v => match v with
          | .inf s => s
          | .fin s _ _ => s
          | .nan s _ _ => s
        let ps := sg a != sg b
        match c with
        | .inf nc => if ps == nc then (packInf t nc, 0) else (defaultNan t, flNV)
        | _ => (packInf t ps, 0)

/-- The order of values with −0 below +0 (R219), as a comparison of a < b. -/
def ltV (zeroOrder : Bool) (a b : FVal) : Bool :=
  match a, b with
  | .inf na, .inf nb => na && !nb
  | .inf na, _ => na
  | _, .inf nb => !nb
  | .fin na ma ea, .fin nb mb eb =>
    let e := min ea eb
    let x := signedM na ma * 2 ^ (ea - e).toNat
    let y := signedM nb mb * 2 ^ (eb - e).toNat
    decide (x < y) || (zeroOrder && x == 0 && y == 0 && na && !nb)
  | _, _ => false

/-- The smaller (or larger) of two bit patterns (R219). -/
def minMaxF (t : Fmt) (wantMax : Bool) (a b : Nat) : Nat × Nat :=
  let x := unpackF t a
  let y := unpackF t b
  match firstNan t [x, y] with
  | some n => (n, sigFlag [x, y])
  | none => (if (if wantMax then ltV true x y else ltV true y x) then b else a, 0)

def addF (t : Fmt) (rm : Rm) (w a b : Nat) : Nat × Nat := addV t rm w (unpackF t a) (unpackF t b)
def subF (t : Fmt) (rm : Rm) (w a b : Nat) : Nat × Nat :=
  addV t rm w (unpackF t a) (negV (unpackF t b))
def mulF (t : Fmt) (rm : Rm) (w a b : Nat) : Nat × Nat := mulV t rm w (unpackF t a) (unpackF t b)
def fmaF (t : Fmt) (rm : Rm) (w a b c : Nat) : Nat × Nat :=
  fmaV t rm w (unpackF t a) (unpackF t b) (unpackF t c)
def fmsF (t : Fmt) (rm : Rm) (w a b c : Nat) : Nat × Nat :=
  fmaV t rm w (unpackF t a) (unpackF t b) (negV (unpackF t c))

/-- Comparison facts of VFCMP (R243): unordered, less, equal. -/
def unorderedF (t : Fmt) (a b : Nat) : Bool := (firstNan t [unpackF t a, unpackF t b]).isSome
def ltF (t : Fmt) (a b : Nat) : Bool := !unorderedF t a b && ltV false (unpackF t a) (unpackF t b)
def eqF (t : Fmt) (a b : Nat) : Bool := !unorderedF t a b && !ltF t a b && !ltF t b a

/-! ### Conversions (R220) -/

/-- Float to float. `ns` selects non-saturating FP8. -/
def cvtV (t : Fmt) (rm : Rm) (w : Nat) (ns : Bool) (v : FVal) : Nat × Nat :=
  let isE4 := t == fmtOf .e4m3
  let fp8 := isE4 || t == fmtOf .e5m2
  match v with
  | .nan s f g => (packNan t s f, if g then flNV else 0)
  | .inf s =>
    if isE4 then (if ns then (signBit t s + 0x7F, flNV) else (packInf t s, 0))
    else (packInf t s, 0)
  | .fin s m e =>
    let ov : Over := if fp8 && !ns then .sat else if isE4 then .nan else .ieee
    roundF t ov rm w ⟨s, m, e, false⟩

def cvtFF (dst src : Fmt) (rm : Rm) (w : Nat) (ns : Bool) (v : Nat) : Nat × Nat :=
  cvtV dst rm w ns (unpackF src v)

/-- Float to an integer held within bounds (R220). -/
def cvtFI (lo hi : Int) (src : Fmt) (rm : Rm) (w v : Nat) : Int × Nat :=
  match unpackF src v with
  | .nan .. => (0, flNV)
  | .inf s => (if s then lo else hi, flNV)
  | .fin s m e =>
    let (n, inexact) := roundTo rm w ⟨s, m, e, false⟩ 0
    let i := signedM s n
    if i < lo then (lo, flNV) else if hi < i then (hi, flNV)
    else (i, if inexact then flNX else 0)

/-- Integer to float (R220). -/
def cvtIF (dst : Fmt) (rm : Rm) (w : Nat) (ns : Bool) (i : Int) : Nat × Nat :=
  cvtV dst rm w ns (.fin (decide (i < 0)) i.natAbs 0)

/-! ### MX blocks (R209 to R211) -/

/-- The floor of log₂ of a finite nonzero magnitude. -/
def log2V (m : Nat) (e : Int) : Int := (Nat.log2 m : Int) + e

/-- The largest floor-log₂ magnitude of a block; none when every value is zero. -/
def blockTop : List FVal → Option Int
  | [] => none
  | .fin _ m e :: vs =>
    match blockTop vs with
    | none => if m = 0 then none else some (log2V m e)
    | some b => if m = 0 then some b else some (max b (log2V m e))
  | _ :: vs => blockTop vs

def allFinite (vs : List FVal) : Bool := vs.all fun v => match v with
  | .fin .. => true
  | _ => false

/-- One element quantised under a scale: MXINT8 as its code, MXFP4 as its code (R211). -/
def mxElem (mxf4 : Bool) (sc : Int) (rm : Rm) (w : Nat) (v : FVal) : Nat × Nat :=
  match v with
  | .fin s m e =>
    let e' := e + 127 - sc
    if mxf4 then
      let (b, fl) := roundF fmtE2M1 .sat rm w ⟨s, m, e', false⟩
      -- R211: a clamp raises NX and nothing else; inexact elements raise NX
      (if m = 0 then signBit fmtE2M1 s else
        if (fl &&& flOF) != 0 then signBit fmtE2M1 s + 7 else b, if fl = 0 then 0 else flNX)
    else
      let (n, inexact) := roundTo rm w ⟨s, m, e' + 6, false⟩ 0
      let i := signedM s n
      let k := clampI (-128) 127 i
      (wrapI 8 k, if inexact || k != i then flNX else 0)
  | _ => (0, 0)

/-- A block quantised: its scale, its element codes, its flags (R211). `ws` are the SR words. -/
def mxQuant (mxf4 : Bool) (rm : Rm) (ws : List Nat) (vs : List FVal) : Nat × List Nat × Nat :=
  if !allFinite vs then (0xFF, vs.map fun _ => 0, flNV)
  else
    let sc : Int := match blockTop vs with
      | none => 0
      | some b => clampI 0 254 (b - (if mxf4 then 2 else 0) + 127)
    let es := (List.range vs.length).map fun i =>
      mxElem mxf4 sc rm (lget 0 ws i) (lget (.fin false 0 0) vs i)
    (sc.toNat, es.map Prod.fst, es.foldl (fun f p => f ||| p.2) 0)

/-- The expanded integer of an MXFP4 code (R271). -/
def mxf4Int (c : Nat) : Int :=
  let mag : Int := lget 0 [0, 1, 2, 3, 4, 6, 8, 12] (c % 8)
  if c.testBit 3 then -mag else mag

/-- The value of an MX element under a scale; a scale of 0xFF gives none (R210). -/
def mxValue (mxf4 : Bool) (scale c : Nat) : Option FVal :=
  if scale = 255 then none
  else
    let i : Int := if mxf4 then mxf4Int c else toSigned 8 c
    let neg := if mxf4 then c.testBit 3 else decide (i < 0)
    some (.fin neg i.natAbs ((scale : Int) - 127 - (if mxf4 then 1 else 6)))

/-- Dequantisation into a format (R250). -/
def mxDequant (t : Fmt) (mxf4 : Bool) (rm : Rm) (w scale c : Nat) : Nat × Nat :=
  match mxValue mxf4 scale c with
  | none => (defaultNan t, flNV)
  | some v => cvtV t rm w false v

/-! ### Classes (R245) -/

/-- The class code of a bit pattern. -/
def classF (t : Fmt) (v : Nat) : Nat :=
  match unpackF t v with
  | .inf s => if s then 0 else 7
  | .nan _ _ sig => if sig then 8 else 9
  | .fin s m e =>
    if m = 0 then (if s then 3 else 4)
    else if log2V m e < 1 - (t.bias : Int) then (if s then 2 else 5)
    else if s then 1 else 6

/-- The total order of VCXS float keys: the mapped pattern compares unsigned (R255). -/
def keyMap (b x : Nat) : Nat :=
  if x.testBit (b - 1) then 2 ^ b - 1 - x else x + 2 ^ (b - 1)

end Sys2Proof.Machine
end

