-- ==== Sys2Proof/Machine/CopyStage.lean ====
section
/-! DEFINITION. The instructions that stage and steer channel operations: CPY, CGO, CWIN, CADV, the
collectives, cache maintenance and migration (R116, R119, R120, R123 to R129, R135, R142, R143). -/

namespace Sys2Proof.Machine

/-! ### Operands of format C (R85, R126) -/

/-- The value of SC, or the extension word in its place (R76, R126). -/
def scVal (v : Core) (o : FC) : Nat :=
  match o.x with
  | some x => x.toNat
  | none => valZ v false o.sc

/-- The shadow registers of a channel. -/
def shadowUnits (ch : Chan) : List HUnit := (List.range 8).map (engUnit ch)

/-- The channel of a copy-slot instruction. -/
def instrChan (i : Instr) : Chan :=
  match slotOf i with
  | some .cb => .b
  | _ => .a

/-- The spans that an instruction reads, and their range check (R78). -/
def planSpans (s : State) (i : Instr) (spans : List SSpan) : Plan :=
  let v := s.view
  { rd := spans.flatMap (spanUnits v false)
    faults := faultsOf [(spans.any (spanBad v false), 0x10, encode i)] }

/-- A copy-slot instruction with its spans; it waits for every ENGW of an earlier group to its channel (R202). -/
def planC (s : State) (i : Instr) (spans : List SSpan) : Plan :=
  let p := planSpans s i spans
  { p with rd := p.rd ++ shadowUnits (instrChan i) }

/-- SC as a span that is read: none under template 5. -/
def scSpan (o : FC) : List SSpan := if o.x.isSome then [] else [o.sc]

/-- ECTL with KIND, SCOPE and EVICT replaced. -/
def ectlSet (e : Word) (kind scope evict : Nat) : Word :=
  wordOf (setBitsN (setBitsN (setBitsN e.toNat 0 4 kind) 8 3 scope) 11 3 evict)

/-- A fault reported with the word of the slot. -/
def slotFault (bad : Bool) (code : Nat) (i : Instr) : List (Nat × Word) :=
  if bad then [(code, encode i)] else []

/-! ### What a staging takes -/

/-- The checks of one kind, what holds the staging, and what it captures. -/
structure Stage where
  faults : List (Nat × Word) := []
  stall : Option Why := none
  record : BitVec 768 := 0
  tid : Option Nat := none
  tiles : List Nat := []
  owed : Nat := 0
  ringN : Nat := 0

/-- The tests of R43 on a range, at staging; an empty range has no bytes to test. -/
def rangeTest (s : State) (p : Word) (n : Nat) : List (Nat × Word) :=
  let off := p.toNat % 2 ^ 60
  let code : Option Nat :=
    if n = 0 then none
    else match p.toNat / 2 ^ 60 with
      | 0x0 => extentTest (2 ^ 58) off n
      | 0xC => extentTest (2 ^ 20) off n
      | 0xD => extentTest (if s.core.kind = .a then 2 ^ 17 else 0) off n
      | 0xE =>
        (match chipArea s off with
         | none => some 0x30
         | some (_, ar, o) => if ar.at.2 < o + n then some 0x32 else none)
      | 0xF => if s.core.mode == .node then some 0x31 else sysTest s off n
      | _ => some 0x30
  code.toList.map fun c => (c, p)

/-- A flip of a tile by an earlier group has not been performed yet (R125). -/
def Core.flipping (c : Core) (k : Nat) : Bool :=
  c.tracked.any fun t => t.grp != c.ctx.grp &&
    match t.op with
    | .flip k' _ => k' == k
    | _ => false

/-- A run of tiles named by a handle (R63, R121, R123, R124, R127): faults and wait. -/
def stageTiles (s : State) (i : Instr) (ch : Chan) (h n : Nat) : Stage :=
  let b := s.core.ctx.before
  let t := handleSlot h
  let bad := n == 0 || decide (64 < t + n)
  let run := if bad then [t] else rangeFrom t n
  let hw := wordOf (h % 65536)
  let stale := if b.tileLive h then [] else [(0x40, hw)]
  let st (k : Nat) : TileSt := (b.tile k).st
  let foreign := run.any fun k => st k == .ready && (b.tile k).owner != 0 &&
    (b.tile k).owner.toNat != ch.num + 1
  { faults := stale ++ slotFault (bad || (run.drop 1).any fun k => st k == .empty) 0x41 i ++
      (if foreign && stale.isEmpty then [(0x42, hw)] else [])
    stall :=
      if run.any fun k => st k == .filling || st k == .draining || s.core.flipping k then some .tileWait else none
    tiles := run }

/-- The record that a TID handle names, with the checks of R63 and R153. -/
def stageTid (s : State) (h : Nat) : List (Nat × Word) × BitVec 768 :=
  let b := s.core.ctx.before
  if b.tidLive h then
    let r := (b.tid (handleSlot h)).record
    ((recFault r).toList, r)
  else ([(0x40, wordOf (h % 65536))], 0)

/-- An origin outside the tensor, in a dimension it does not have, or off its scale blocks (R127, R154). -/
def originBad (r : BitVec 768) (org : List Nat) (skip : Option Nat) : Bool :=
  (List.range 5).any (fun k =>
    if k < recRank r then skip != some k && decide (recDim r k ≤ lget 0 org k) else lget 0 org k != 0) ||
  (recScl r && lget 0 org 0 % 2 ^ recSblk r != 0)

/-- A window that reaches beyond the edge of a tensor whose fill mode is 0 (R149). -/
def edgeHit (r : BitVec 768) (org : List Nat) : Bool :=
  recFillM r == 0 && (List.range (recRank r)).any fun k => decide (recDim r k < lget 0 org k + recWin r k)

/-- TLD and TST (R127). -/
def stageWindow (s : State) (i : Instr) (ch : Chan) (r : EngRegs) (tileH tidH : Word) (n : Nat) : Stage :=
  let t := stageTiles s i ch tileH.toNat n
  let q := stageTid s tidH.toNat
  let bad := q.1.isEmpty && (decide (16384 * n < packedBytes q.2) || originBad q.2 (origins r) none ||
    edgeHit q.2 (origins r))
  { t with
    faults := q.1 ++ t.faults ++ slotFault bad 0x41 i
    record := q.2
    tid := some (handleSlot tidH.toNat)
    owed := windowUnits q.2 }

/-- The origin of window j of a ring (R129). -/
def ringOrigin (r : BitVec 768) (k : Nat) (org : List Nat) (j : Nat) : List Nat :=
  lset org k ((lget 0 org k + j * recWin r k) % 2 ^ 32)

/-- A window of a ring, n of them from an origin, reaches beyond the edge under fill mode 0 (R149). -/
def ringEdgeHit (r : BitVec 768) (k : Nat) (org : List Nat) (n : Nat) : Bool :=
  (List.range n).any fun j => edgeHit r (lset org k (lget 0 org k + j * recWin r k))

/-- WIN (R129). -/
def stageRing (s : State) (i : Instr) (ch : Chan) (r : EngRegs) (n : Nat) : Stage :=
  let t := stageTiles s i ch r.edst.toNat n
  let q := stageTid s r.esrc.toNat
  let k := r.kdim
  let org := origins r
  let kBad := decide (recRank q.2 ≤ k)
  let bad := q.1.isEmpty && (kBad || decide (16384 < packedBytes q.2) || originBad q.2 org (some k) ||
    ringEdgeHit q.2 k org n)
  let last := lget 0 org k + (n - 1) * recWin q.2 k
  let past := q.1.isEmpty && !kBad && decide (0 < n) && decide (recDim q.2 k ≤ last)
  { t with
    faults := q.1 ++ t.faults ++ slotFault bad 0x41 i ++ (if past then [(0x47, wordOf last)] else [])
    record := q.2
    tid := some (handleSlot r.esrc.toNat)
    owed := n * windowUnits q.2
    ringN := n }

/-! ### Collectives: membership (R135, R362) -/

/-- The node slot of a core's binding, with the binding. -/
def State.bound (s : State) : Option (Binding × NodeSlot) :=
  s.core.binding.map fun b => (b, s.pool.node b.nodeSlot)

/-- RES of a descriptor (R346). -/
def nodeRes (n : NodeSlot) : Bool := n.desc.getLsbD (64 + 11)

/-- The issuing virtual core is a member of group g of its own launch (R362). -/
def State.member (s : State) (g : Nat) : Bool :=
  match s.bound with
  | none => false
  | some (b, n) =>
    let e := s.pool.group g
    e.held && e.graph == n.graph && e.node == n.index && decide (b.v < 1024) && e.map.getLsbD b.v

/-- The faults of naming a group: its residency, with the given code, and membership (R135, R362, R364). -/
def groupFaults (s : State) (g res : Nat) (needRes : Bool) : List (Nat × Word) :=
  let resident := match s.bound with
    | some (_, n) => nodeRes n
    | none => true
  (if needRes && !resident then [(res, wordOf g)] else []) ++
    (if s.member g then [] else [(0x6E, wordOf g)])

/-- The bytes of a collective's element (R136). -/
def collSize (kind fn : Nat) : Nat := if kind = 4 && fn / 4 = 2 then 2 else if kind = 4 then 4 else 1

/-- A virtual core is the lowest-numbered member of its group. -/
def State.lowest (s : State) (g : Nat) : Bool :=
  match s.core.binding with
  | none => false
  | some b => (List.range b.v).all fun v => !(s.pool.group g).map.getLsbD v

/-- RED and BCST (R135 to R137). -/
def stageColl (s : State) (i : Instr) (r : EngRegs) (kind count : Nat) : Stage :=
  let g := r.aux.toNat % 256
  let n := count * collSize kind (r.aux.toNat / 256)
  { faults := groupFaults s g 0x6D true ++ slotFault (count == 0 || decide (2 ^ 22 ≤ n)) 0x41 i ++
      rangeTest s r.edst n ++ (if kind = 5 && !s.lowest g then [] else rangeTest s r.esrc n)
    owed := pieces 32 r.edst.toNat n }

/-- MIG (R143). -/
def stageMig (s : State) (i : Instr) (r : EngRegs) (len : Nat) : Stage :=
  let dst := r.edst.toNat
  let src := r.esrc.toNat
  { faults :=
      (if s.core.mode == .node then [(0x31, wordOf (min dst src))] else []) ++
      slotFault (dst % 16384 != 0 || src % 16384 != 0 || len % 16384 != 0 || len == 0 ||
        decide (2 ^ 21 < len)) 0x41 i
    owed := len / 32 }

/-- PREF, FLUSH and INV (R142). -/
def stageLines (s : State) (r : EngRegs) (len : Nat) : Stage :=
  { faults := rangeTest s r.edst len ++
      (if r.edst.toNat / 2 ^ 60 = 0 then [] else [(0x31, r.edst)]) }

/-- The checks of a kind; `n` is the tile count or ring length, `len` the length or count. -/
def stageKind (s : State) (i : Instr) (ch : Chan) (r : EngRegs) (n len : Nat) : Stage :=
  let long (x : Stage) : Stage := { x with faults := x.faults ++ slotFault (decide (2 ^ 22 ≤ len)) 0x41 i }
  match r.kind with
  | 0 => long { faults := rangeTest s r.edst len ++ rangeTest s r.esrc len,
                owed := pieces 32 r.edst.toNat len }
  | 1 => stageWindow s i ch r r.edst r.esrc n
  | 2 => stageWindow s i ch r r.esrc r.edst n
  | 3 => stageRing s i ch r n
  | 4 => stageColl s i r 4 len
  | 5 => stageColl s i r 5 len
  | 6 => long (stageMig s i r len)
  | 7 => long (stageLines s r len)
  | 8 => long (stageLines s r len)
  | 9 => long (stageLines s r len)
  | _ => { faults := slotFault true 0x04 i }

/-! ### Staging (R116) -/

/-- A collective that cannot run: every operation staged for the group ends in error with 0x4A (R135). -/
def failStaged (s : State) (g : Nat) : State :=
  let mark (o : ChanOp) : ChanOp :=
    if o.isColl && o.regs.aux.toNat % 256 == g then
      { o with failing := some (0x4A, 0) }
    else o
  let s' := (s.pool.staged.filter fun e => e.1 == g).foldl (fun s e =>
    match s.coreAt e.2.1 with
    | none => s
    | some c =>
      let ch : Chan := if e.2.2 = 0 then .a else .b
      let x := c.copy.chan ch
      let x := { x with op := x.op.map mark, pending := x.pending.map mark }
      s.setCoreAt e.2.1 { c with copy := c.copy.setChan ch x }) s
  { s' with pool := { s'.pool with staged := s'.pool.staged.filter fun e => e.1 != g } }

/-- The effect of a staging: the shadow set, the captures, and the operation, which starts on an idle
channel. -/
def stageEffect (ch : Chan) (r : EngRegs) (st : Stage) (s : State) : State :=
  let c := s.core
  let k := r.kind
  let org := origins r
  let n := st.ringN
  let ring := k == 3
  let fills := if ring then (List.range n).map fun j =>
      (st.tiles.headD 0 + j, ringOrigin st.record r.kdim org j) else []
  let next := ringOrigin st.record r.kdim org n
  let word (a b : Nat) : Word := wordOf (lget 0 next a + lget 0 next b * 2 ^ 32)
  -- a barrier in window 0xC is named by the core's own address in window 0xE from here on (R124)
  let base := { r with ebar := if r.ebar = 0 then 0 else barPointer c r.ebar }
  let active :=
    if ring then
      { base with elen := 0, eorg0 := word 0 1, eorg1 := word 2 3, eorg2 := wordOf (lget 0 next 4) }
    else base
  let op : ChanOp :=
    { regs := active, sys := c.mode == .sys, record := st.record, tid := st.tid, tiles := st.tiles,
      barrier := if r.ebar = 0 then none else some (barPointer c r.ebar).toNat, owed := st.owed,
      credit := 0, pos := 0, ringN := n, fills := fills, filled := 0, ready := false, failing := none,
      grp := c.ctx.grp, image := [], srcErr := none }
  let tileSt : TileSt := if k = 2 then .draining else .filling
  let copy := st.tiles.foldl (Copy.takeTile · tileSt (BitVec.ofNat 2 (ch.num + 1))) c.copy
  let copy := match st.tid with
    | some t => copy.takeTid t
    | none => copy
  let x := copy.chan ch
  let copy := copy.setChan ch { x with shadow := r, pending := some op }.startPending
  let s := (s.setCore { c with copy := copy }).publish
  if k = 4 || k = 5 then
    let g := r.aux.toNat % 256
    let s := { s with pool := { s.pool with
      staged := s.pool.staged ++ [(g, c.region.toNat, ch.num)] } }
    if (s.pool.group g).exited.isEmpty then s else failStaged s g
  else s

/-- The plan of a staging instruction, from the shadow set as it leaves it (R116): the checks of its kind, of
EBAR and of the channel, then the wait for the pending set. -/
def planStage (s : State) (i : Instr) (o : FC) (spans : List SSpan) (r : EngRegs) (st : Stage) : Plan :=
  let x := s.core.copy.chan o.ch
  let p := planC s i spans
  let err := if x.err then
      [(0x49, wordOf (x.estat % 2 ^ 32 + o.ch.num * 2 ^ 63))] else []
  let p := { p with
    faults := p.faults ++ st.faults ++ err
    stall := st.stall.orElse fun _ => if x.pending.isSome then some .pendingFull else none
    eff := stageEffect o.ch r st }
  if r.ebar = 0 then p else p.reach .barrier { barAccess s r.ebar with units := [] }

/-- The shadow set of an instruction's channel. -/
def shadowOf (s : State) (o : FC) : EngRegs := (s.core.copy.chan o.ch).shadow

/-- The shadow set with a destination, a source and a control written. -/
def shadowSet (s : State) (o : FC) (kind : Nat) (dst src : Nat) : EngRegs :=
  let r := shadowOf s o
  { r with edst := wordOf dst, esrc := wordOf src,
           ectl := ectlSet r.ectl kind o.scope.code.toNat o.evict.toNat }

/-- CPY (R127). -/
def execCpy (o : FC) (s : State) : Host.Outcome State Fault Refusal :=
  let v := s.view
  let n := scVal v o
  let fn := o.fn.toNat
  let r := shadowSet s o fn (valZ v false o.sa) (valZ v false o.sb)
  let r := if fn = 0 then { r with elen := BitVec.ofNat 22 n }
    else { r with ectl := wordOf (setBitsN r.ectl.toNat 16 6 (n + 63)) }
  runPlan (.cpy o) s
    (planStage s (.cpy o) o ([o.sa, o.sb] ++ scSpan o) r (stageKind s (.cpy o) o.ch r n n))

/-- CGO: the shadow set as it stands (R128). -/
def execCgo (o : FC) (s : State) : Host.Outcome State Fault Refusal :=
  let r := shadowOf s o
  let st := stageKind s (.cgo o) o.ch r (r.tcnt + 1) r.elen.toNat
  let st := if r.kind = 3 then { faults := slotFault true 0x41 (.cgo o) : Stage } else st
  let st := { st with faults := st.faults ++ slotFault (decide (5 ≤ r.scope)) 0x04 (.cgo o) }
  runPlan (.cgo o) s (planStage s (.cgo o) o [] r st)

/-- CWIN (R129). -/
def execCwin (o : FC) (s : State) : Host.Outcome State Fault Refusal :=
  let v := s.view
  let n := scVal v o
  let r := shadowSet s o 3 (valZ v false o.sa) (valZ v false o.sb)
  let r := { r with ectl := wordOf (setBitsN r.ectl.toNat 16 6 (n + 63)) }
  runPlan (.cwin o) s
    (planStage s (.cwin o) o ([o.sa, o.sb] ++ scSpan o) r (stageKind s (.cwin o) o.ch r n 0))

/-- The plan of a collective (R135): the control value gives the group and the count. -/
def planColl (s : State) (i : Instr) (o : FC) (kind : Nat) : Plan :=
  let v := s.view
  let ctl := scVal v o
  let count := bitsN ctl 8 22
  let r := shadowSet s o kind (valZ v false o.sa) (valZ v false o.sb)
  let r := { r with elen := BitVec.ofNat 22 count,
                    aux := BitVec.ofNat 12 (ctl % 256 + o.fn.toNat * 256) }
  planStage s i o ([o.sa, o.sb] ++ scSpan o) r (stageKind s i o.ch r 1 count)

def execCred (o : FC) (s : State) : Host.Outcome State Fault Refusal :=
  runPlan (.cred o) s (planColl s (.cred o) o 4)
def execCbcst (o : FC) (s : State) : Host.Outcome State Fault Refusal :=
  runPlan (.cbcst o) s (planColl s (.cbcst o) o 5)

/-- The plan of cache maintenance (R142). DESIGN CHOICE (log 80): the pointer stands in EDST; R142 does not name the
register. -/
def planLines (s : State) (i : Instr) (o : FC) (kind : Nat) : Plan :=
  let v := s.view
  let n := valZ v false o.sb
  let r := shadowSet s o kind (valZ v false o.sa) (shadowOf s o).esrc.toNat
  let r := { r with elen := BitVec.ofNat 22 n,
                    aux := if kind = 7 then BitVec.ofNat 12 (o.fn.toNat * 256) else r.aux }
  planStage s i o [o.sa, o.sb] r (stageKind s i o.ch r 1 n)

def execCpref (o : FC) (s : State) : Host.Outcome State Fault Refusal :=
  runPlan (.cpref o) s (planLines s (.cpref o) o 7)
def execCflush (o : FC) (s : State) : Host.Outcome State Fault Refusal :=
  runPlan (.cflush o) s (planLines s (.cflush o) o 8)
def execCinv (o : FC) (s : State) : Host.Outcome State Fault Refusal :=
  runPlan (.cinv o) s (planLines s (.cinv o) o 9)

/-- CMIG (R143). -/
def execCmig (o : FC) (s : State) : Host.Outcome State Fault Refusal :=
  let v := s.view
  let n := scVal v o
  let r := shadowSet s o 6 (valZ v false o.sa) (valZ v false o.sb)
  let r := { r with elen := BitVec.ofNat 22 n }
  runPlan (.cmig o) s
    (planStage s (.cmig o) o ([o.sa, o.sb] ++ scSpan o) r (stageKind s (.cmig o) o.ch r 1 n))

/-! ### CGO.clr (R128) -/

/-- The agent of CGO.clr's credits: the lines stay held from the probe on. -/
def clearAgent (s : State) (ch : Chan) (o : ChanOp) : Agent := s.core.channelAgent ch o.sys 0

/-- The barriers that CGO.clr is to credit can be updated now; else the state after asking for them. -/
def clearProbe (s : State) (ch : Chan) : Option State :=
  let ops := (s.chan ch).op.toList ++ (s.chan ch).pending.toList
  let r := ops.foldl (fun (r : State × Bool) o =>
    match o.barrier with
    | none => r
    | some p =>
      match barRead (clearAgent r.1 ch o) r.1 p with
      | .wait s => (s, true)
      | .done s _ => (s, r.2)
      | .fail s _ _ => (s, r.2)) (s, false)
  if r.2 then some r.1 else none

/-- An operation that CGO.clr ends: its tiles, then its barrier with ERR (R118, R128). -/
def clearOp (ch : Chan) (s : State) (o : ChanOp) : State :=
  let s := returnTiles s ch o
  let s := dropRecall { s with core := { s.core with copy := s.core.copy.release o } } o
  match o.barrier with
  | none => s
  | some p =>
    let f (bs : List Byte) : List Byte := leBytes 16 (barFail o.owed o.regs.arrive (leNat bs))
    match engUpdate (clearAgent s ch o) s .barrier p 16 f with
    | .done s _ => s
    | .wait s => s
    | .fail s _ _ => s

/-- The channel idle, with ESTAT cleared. -/
def clearChan (s : State) (ch : Chan) : State :=
  let x := s.chan ch
  let s := s.setChan ch
    { x with op := none, pending := none, done := 0, cause := 0, err := false, efaddr := 0 }
  { s with pool := { s.pool with
    staged := s.pool.staged.filter fun e => !(e.2.1 == s.core.region.toNat && e.2.2 == ch.num) } }

/-- CGO.clr: waits until the barriers it credits can be updated, then does everything at once. -/
def execCgoClr (o : FC) (s : State) : Host.Outcome State Fault Refusal :=
  let ops (s : State) : List ChanOp := (s.chan o.ch).op.toList ++ (s.chan o.ch).pending.toList
  runPlan (.cgoClr o) s
    { planC s (.cgoClr o) [] with
      stall := if (clearProbe s o.ch).isSome then some .barrierWait else none
      onStall := fun t => (clearProbe t o.ch).getD t
      eff := fun t => clearChan ((ops t).foldl (clearOp o.ch) t) o.ch }

/-! ### Window rings (R129) -/

/-- The ring that a channel runs. -/
def ringOf (x : ChanState) : Option ChanOp :=
  match x.op with
  | some o => if o.isRing && o.failing.isNone then some o else none
  | none => none

def noRing (ch : Chan) : List (Nat × Word) := [(0x4B, wordOf ch.num)]

/-- The effect of CADV on a ring. -/
def advance (ch : Chan) (g : Nat) (s : State) : State :=
  match ringOf (s.chan ch) with
  | none => s
  | some o =>
    let head := o.regs.elen.toNat % 64
    let org := origins o.regs
    let k := o.regs.kdim
    let tiles := (List.range g).map fun j => o.tiles.headD 0 + (head + j) % o.ringN
    let fills := tiles.zipIdx.map fun p => (p.1, ringOrigin o.record k org p.2)
    let next := ringOrigin o.record k org g
    let word (a b : Nat) : Word := wordOf (lget 0 next a + lget 0 next b * 2 ^ 32)
    let regs := { o.regs with elen := BitVec.ofNat 22 ((head + g) % o.ringN), eorg0 := word 0 1,
                              eorg1 := word 2 3, eorg2 := wordOf (lget 0 next 4) }
    let o := { o with regs := regs, fills := o.fills ++ fills, owed := o.owed + g * windowUnits o.record,
                      grp := s.core.ctx.grp }
    -- a tile released earlier in the bundle stays released (R122)
    let flip (c : Copy) (t : Nat) : Copy :=
      let x := c.tile t
      c.setTile t { x with st := .filling, owner := BitVec.ofNat 2 (ch.num + 1)
                           released := x.released || x.st == .empty }
    let s := s.setChan ch ((s.chan ch).setOp o)
    { s with core := { s.core with copy := tiles.foldl flip s.core.copy } }.publish

/-- CADV: what its fills follow in program order is published, as at a staging (R125, R336). -/
def execCadv (o : FC) (s : State) : Host.Outcome State Fault Refusal :=
  let v := s.view
  let g := valZ v false o.sa
  let p := planC s (.cadv o) [o.sa]
  let q : Plan :=
    match ringOf (s.chan o.ch) with
    | none => { p with faults := p.faults ++ noRing o.ch }
    | some r =>
      if g = 0 || r.ringN < g then { p with faults := p.faults ++ slotFault true 0x41 (.cadv o) }
      else
        let head := r.regs.elen.toNat % 64
        let tiles := (List.range g).map fun j => r.tiles.headD 0 + (head + j) % r.ringN
        let k := r.regs.kdim
        let from' (j : Nat) : Nat := lget 0 (origins r.regs) k + j * recWin r.record k
        -- the tiles as they stood before the bundle (R63, R72)
        let tile (t : Nat) : Tile := s.core.ctx.before.tile t
        let foreign := (tiles.find? fun t => (tile t).st == .ready && (tile t).owner != 0).toList
        let past := ((List.range g).find? fun j => decide (recDim r.record k ≤ from' j)).toList
        { p with
          faults := p.faults ++ slotFault (ringEdgeHit r.record k (origins r.regs) g) 0x41 (.cadv o) ++
            foreign.map (fun t => (0x42, wordOf (tilePtr t 0))) ++
            past.map (fun j => (0x47, wordOf (from' j)))
          stall := if tiles.any fun t => (tile t).st != .ready || s.core.flipping t then some .tileWait else none
          eff := advance o.ch g }
  runPlan (.cadv o) s q

/-- CADV.end: waits for the fills in progress, then ends the ring. -/
def execCadvEnd (o : FC) (s : State) : Host.Outcome State Fault Refusal :=
  runPlan (.cadvEnd o) s
    (match ringOf (s.chan o.ch) with
     | none => { planC s (.cadvEnd o) [] with faults := noRing o.ch }
     | some r =>
       { planC s (.cadvEnd o) [] with
         stall := if r.fills.isEmpty && r.credit == 0 then none else some .tileWait
         eff := fun t =>
           match ringOf (t.chan o.ch) with
           | some r => t.setChan o.ch ((t.chan o.ch).setOp { r with ready := true })
           | none => t })

/-! ### The start of a collective (R135 to R137) -/

/-- One member of a collective: whether it agrees with the lowest one, and whether its source is read. -/
structure CollMember where
  region : Nat
  ch : Chan
  op : ChanOp
  same : Bool
  reads : Bool

/-- The core that runs virtual core v of the node that owns a group. -/
def State.coreOf (s : State) (e : GroupEntry) (v : Nat) : Option Core :=
  let mine (c : Core) : Bool :=
    match c.binding with
    | some b => b.v == v && (s.pool.node b.nodeSlot).graph == e.graph && (s.pool.node b.nodeSlot).index == e.node
    | none => false
  if mine s.core then some s.core else (s.others.find? fun p => mine p.2).map Prod.snd

/-- The running operation of a member for the group. -/
def collOf (s : State) (g : Nat) (c : Core) : Option CollMember :=
  match s.pool.staged.find? fun e => e.1 == g && e.2.1 == c.region.toNat with
  | none => none
  | some e =>
    let ch : Chan := if e.2.2 = 0 then .a else .b
    match (c.copy.chan ch).op with
    | some o =>
      if o.isColl && o.regs.aux.toNat % 256 == g && !o.ready && o.failing.isNone && o.mayRun c then
        some ⟨c.region.toNat, ch, o, true, true⟩
      else none
    | none => none

/-- The members of a group in ascending order, if every one of them has its operation running. One that differs from
the lowest gives nothing, and in a broadcast only the lowest does (R135, R137). -/
def collMembers (s : State) (g : Nat) : Option (List CollMember) :=
  let e := s.pool.group g
  let vs := (List.range 1024).filter fun v => e.map.getLsbD v
  let ms := vs.filterMap fun v => (s.coreOf e v).bind (collOf s g)
  if ms.isEmpty || ms.length != vs.length then none
  else
    match ms with
    | [] => none
    | m0 :: _ =>
      some (ms.zipIdx.map fun q =>
        let m := q.1
        let same := m.op.regs.kind == m0.op.regs.kind && m.op.regs.elen == m0.op.regs.elen &&
          (m.op.regs.kind == 5 || m.op.regs.aux == m0.op.regs.aux)
        { m with same := same, reads := same && (m.op.regs.kind != 5 || q.2 == 0) })

/-- A member's agent. -/
def CollMember.agent (s : State) (m : CollMember) : Agent :=
  ((s.coreAt m.region).getD s.core).channelAgent m.ch m.op.sys 0

/-- The next piece of a member's source that is to be read, at most one sector; none when all is there, none can be,
or none is wanted. -/
def CollMember.wants (m : CollMember) (n : Nat) : Option (Nat × Nat) :=
  let k := m.op.image.length
  let p := m.op.regs.esrc.toNat + k
  if !m.reads || m.op.srcErr.isSome || n ≤ k then none else some (p, min (64 - p % 64) (n - k))

/-- Replaces a member's operation. -/
def CollMember.put (m : CollMember) (s : State) (o : ChanOp) : State :=
  match s.coreAt m.region with
  | none => s
  | some c => s.setCoreAt m.region { c with copy := c.copy.setChan m.ch ((c.copy.chan m.ch).setOp o) }

/-- What the reading of the sources comes to: one more sector is read, or one cannot be; something is waited for; or
nothing is left to read. -/
inductive CollRead where
  | moved (s : State)
  | wait (s : State)
  | all

/-- Reads one sector of the n bytes of a source (R30). One that is waited for does not keep the others from being
asked for; a no-allocate operation leaves nothing behind it (R34). -/
def collRead (n : Nat) : List CollMember → State → CollRead
  | [], _ => .all
  | m :: ms, s =>
    match m.wants n with
    | none => collRead n ms s
    | some q =>
      match engRead (m.agent s) s q.1 q.2 with
      | .done s bs =>
        let s := if m.op.regs.evict = 7 then dropTouched (m.agent s) s [q] else s
        .moved (m.put s { m.op with image := m.op.image ++ bs })
      | .fail s c a => .moved (m.put s { m.op with srcErr := some (c, a) })
      | .wait s =>
        match collRead n ms s with
        | .moved s => .moved s
        | .wait s => .wait s
        | .all => .wait s

/-- One step of a reduction on one element (R136). -/
def combine (fn a b : Nat) : Nat :=
  let f : Fmt := if fn / 4 = 1 then fmtF32 else fmtOf .bf16
  let float := fn / 4 = 1 || fn / 4 = 2
  match fn % 4 with
  | 0 => if float then (addF f .rne 0 a b).1 else (a + b) % 2 ^ 32
  | 1 =>
    if float then (minMaxF f true a b).1
    else if fn / 4 = 3 then max a b else if toSigned 32 a < toSigned 32 b then b else a
  | _ =>
    if float then (minMaxF f false a b).1
    else if fn / 4 = 3 then min a b else if toSigned 32 b < toSigned 32 a then b else a

/-- The result image of a reduction over sources in ascending order. -/
def reduceAll (fn count : Nat) (xs : List Nat) : Nat :=
  let b := 8 * collSize 4 fn
  match xs with
  | [] => 0
  | x :: rest => packN b count fun i => rest.foldl (fun acc y => combine fn acc (elemN b y i)) (elemN b x i)

/-- What a member gives: its source as far as it was read, zero bits where it was not (R135; log 78). -/
def CollMember.gives (m : CollMember) : Nat := if m.reads then leNat m.op.image else 0

/-- The result of a collective, once its sources are read (R136, R137). -/
def collResult (count : Nat) (m0 : CollMember) (ms : List CollMember) : Nat :=
  if m0.op.regs.kind = 5 then m0.gives
  else reduceAll (m0.op.regs.aux.toNat / 256) count ((m0 :: ms).map CollMember.gives)

/-- A member ends in error: it differs from the lowest one, or its source failed (R118, R135). -/
def CollMember.err (m : CollMember) : Option (Nat × Nat) := if m.same then m.op.srcErr else some (0x4A, 0)

/-- A member's operation once the result of n bytes is there: it writes it, or ends in error. -/
def CollMember.took (m : CollMember) (n x : Nat) : ChanOp :=
  match m.err with
  | none => { m.op with ready := true, image := leBytes n x }
  | some e => { m.op with failing := some e }

/-- COLLECTIVE_START: with every member's operation running, the sources are read sector by sector; then they are
combined in ascending order, and each member's channel writes the result to its destination. A member whose source
fails ends in error (R118); DESIGN CHOICE (log 78): what a source that fails would have given counts as zero bits to
the others, a root's too. -/
def execCollectiveStart (g : BitVec 8) (s : State) : Host.Outcome State Fault Refusal :=
  match collMembers s g.toNat with
  | none => .next s
  | some [] => .next s
  | some (m0 :: ms) =>
    let count := m0.op.regs.elen.toNat
    let n := count * collSize m0.op.regs.kind (m0.op.regs.aux.toNat / 256)
    let all := m0 :: ms
    match collRead n all s with
    | .moved s => .next s
    | .wait s => .next s
    | .all =>
      let x := collResult count m0 ms
      let s := all.foldl (fun s m => m.put s (m.took n x)) s
      let gone (e : Nat × Nat × Nat) : Bool :=
        e.1 == g.toNat && all.any fun m => m.region == e.2.1 && m.ch.num == e.2.2
      .next { s with pool := { s.pool with staged := s.pool.staged.filter fun e => !gone e } }

end Sys2Proof.Machine
end

