-- ==== Sys2Proof/Machine/CopyTables.lean ====
section
/-! DEFINITION. The copy-slot instructions that stage nothing: tiles, tensor records, transaction barriers
and the watch table (R121 to R125, R130 to R133, R153, R154). -/

namespace Sys2Proof.Machine

/-- Accesses of earlier groups are still to be performed, or their stores to unordered pages to be published
(R125, R131, R336). -/
def Core.accessesPending (c : Core) : Bool :=
  (c.tracked.any fun t => t.grp != c.ctx.grp && t.op.accesses) || !c.uo.isEmpty

/-- A release at issue waits for the accesses it covers. -/
def drainStall (c : Core) : Option Why := if c.accessesPending then some .drainWait else none

/-- An instruction that is a release, and waits for what it covers. -/
def Plan.releases (p : Plan) (s : State) : Plan :=
  { p with
    stall := p.stall.orElse fun _ => drainStall s.core
    onStall := fun t => (p.onStall t).publishEarlier }

/-- A result written to a span as a tracked operation (R97, R126). -/
def spanResult (o : FC) (sp : SSpan) (f : State → Nat) (s : State) : State :=
  s.track (if o.ch = .a then .ca else .cb) (.span sp.start.toNat sp.w (f s % 2 ^ (4 * sp.w)))

/-- The slot of a channel's instructions. -/
def chanSlot (ch : Chan) : Slot := if ch = .a then .ca else .cb

/-! ### Tiles (R130) -/

/-- The plan of an instruction that names one tile: handle, wait until ready (R63, R123). -/
def planTile (s : State) (i : Instr) (sp : SSpan) (own : Bool) (eff : Nat → State → State) : Plan :=
  let b := s.core.ctx.before
  let h := valZ s.view false sp
  let t := handleSlot h
  let hw := wordOf (h % 65536)
  let x := b.tile t
  let p := planC s i [sp]
  { p with
    faults := p.faults ++ (if !b.tileLive h then [(0x40, hw)]
      else if own && x.st == .ready && x.owner != 0 then [(0x42, hw)] else [])
    stall := if x.st = .filling || x.st = .draining || s.core.flipping t then some .tileWait else none
    eff := eff t }

def State.setTile (s : State) (t : Nat) (x : Tile) : State :=
  { s with core := { s.core with copy := s.core.copy.setTile t x } }

/-- TOWN: a release, then the flip; behind accesses of its own group the flip is performed once they are
(R125). -/
def execTown (o : FC) (s : State) : Host.Outcome State Fault Refusal :=
  let p := planTile s (.town o) o.sa true fun t s =>
    let own : BitVec 2 := BitVec.ofNat 2 o.fn.toNat
    if s.core.tracked.any fun q => q.op.accesses then (s.track (chanSlot o.ch) (.flip t own)).publish
    else s.setTile t { s.core.copy.tile t with owner := own }
  runPlan (.town o) s (p.releases s)

/-- Another core has an access to the tile in progress (R130). -/
def foreignAccess (s : State) (t : Nat) : Bool :=
  let lo := 0xE * 2 ^ 60 + s.core.region.toNat * 2 ^ 26 + t * 16384
  let hits (a n : Nat) : Bool := decide (a < lo + 16384) && decide (lo < a + n)
  s.others.any fun p => p.2.tracked.any fun q =>
    match q.op with
    | .load a _ n _ _ _ _ => hits a.toNat n
    | .store a _ _ bs => hits a.toNat bs.length
    | .atom a _ _ _ _ n _ _ => hits a.toNat n
    | _ => false

/-- TTAKE. -/
def execTtake (o : FC) (s : State) : Host.Outcome State Fault Refusal :=
  let t := handleSlot (valZ s.view false o.sa)
  let p := planTile s (.ttake o) o.sa false fun t s => s.setTile t { s.core.copy.tile t with owner := 0 }
  runPlan (.ttake o) s
    { p with stall := p.stall.orElse fun _ => if foreignAccess s t then some .tileWait else none }

/-- TSTATE, read. -/
def execTstate (o : FC) (s : State) : Host.Outcome State Fault Refusal :=
  let v := s.view
  let t := valZ v false o.sb % 64
  let p := planC s (.tstate o) [o.sb]
  runPlan (.tstate o) s
    { p with
      faults := p.faults ++ slotFault (spanBad v false o.sa) 0x10 (.tstate o)
      tw := spanUnits v false o.sa
      eff := spanResult o o.sa fun s => tileWord s.core.copy t }

/-- TSTATE.claim: an empty tile becomes ready and the core's. -/
def execTstateClaim (o : FC) (s : State) : Host.Outcome State Fault Refusal :=
  let v := s.view
  let t := valZ v false o.sb % 64
  let p := planC s (.tstateClaim o) [o.sb]
  runPlan (.tstateClaim o) s
    { p with
      faults := p.faults ++ slotFault (spanBad v false o.sa) 0x10 (.tstateClaim o)
      tw := spanUnits v false o.sa
      eff := fun s =>
        let x := s.core.copy.tile t
        if x.st = .empty then
          spanResult o o.sa (fun s => tileWord s.core.copy t) (s.setTile t { x with st := .ready, owner := 0 })
        else spanResult o o.sa (fun s => tileWord s.core.copy t + 2 ^ 63) s }

/-- TSTATE.release: SA names x0 (R122). -/
def execTstateRelease (o : FC) (s : State) : Host.Outcome State Fault Refusal :=
  let p := planTile s (.tstateRelease o) o.sb true fun t s =>
    let x := s.core.copy.tile t
    s.setTile t (if x.st = .filling || x.st = .draining then { x with released := true, gen := x.gen + 1 }
      else if x.st = .ready then { x with st := .empty, gen := x.gen + 1 } else x)
  runPlan (.tstateRelease o) s
    { p with faults := p.faults ++
        slotFault (!(o.sa.start == 0 && o.sa.w1 == 15)) 0x04 (.tstateRelease o) }

/-! ### Tensor records (R153, R154) -/

/-- A TIDLD of a slot that has not filled it yet. -/
def fillsSlot (k : Nat) (t : Tracked) : Bool :=
  match t.op with
  | .tidFill k' .. => k' == k
  | _ => false

/-- What the read of a record at issue comes to. -/
inductive RecRead where
  | got (r : BitVec 768)
  | later (s : State)
  | bad (cause : Nat) (addr : Nat)

/-- The read of 96 bytes, after the core's earlier stores (R154). -/
def readRecord (s : State) (evict : Nat) (p : Word) : RecRead :=
  match engRead (s.core.selfAgent evict) s p.toNat 96 with
  | .done _ bs => .got (BitVec.ofNat 768 (leNat bs))
  | .wait s => .later s
  | .fail _ c a => .bad c a

/-- The faults of a slot that is named by its index: the index, and a record that was written through the map since
the slot was filled, in whatever state the slot is (R153, R154). -/
def slotBad (s : State) (i : Instr) (k : Nat) : List (Nat × Word) :=
  let x := s.core.ctx.before.tid k
  if 63 < k then slotFault true 0x41 i else if x.mapped then (recFault x.record).toList else []

/-- TIDLD: the record is read and checked at issue; the slot is filled when it is free. -/
def execTidld (o : FC) (s : State) : Host.Outcome State Fault Refusal :=
  let i : Instr := .tidld o
  let v := s.view
  let a := wordOf (valZ v false o.sb)
  let k := scVal v o
  let tag := a.toNat / 2 ^ 60
  let x := access s .read a 96
  let p := planC s i ([o.sb] ++ scSpan o)
  let window := tag == 0 || tag == 0xC || tag == 0xE
  let clean := window && a.toNat % 8 == 0 && x.faults.isEmpty && !x.walks && decide (k ≤ 63)
  let pend := s.core.accessesPending
  let r : Option RecRead := if clean && !pend then some (readRecord s o.evict.toNat a) else none
  let rf : List (Nat × Word) :=
    match r with
    | some (.got r) => (recFault r).toList
    | some (.bad c ad) => [(c, wordOf ad)]
    | _ => []
  let record : BitVec 768 :=
    match r with
    | some (.got r) => r
    | _ => 0
  let late : Bool :=
    match r with
    | some (.later _) => true
    | _ => false
  let p := { p with
    faults := p.faults ++ slotFault (spanBad v false o.sa) 0x10 i ++ slotBad s i k ++
      slotFault (a.toNat % 8 != 0) 0x41 i ++ (if window then [] else [(0x31, a)]) ++ rf
    tw := spanUnits v false o.sa
    stall := if clean && pend then some .drainWait else if late then some .busy else none
    onStall := fun t =>
      if pend then t.publishEarlier
      else match readRecord t o.evict.toNat a with
        | .later t' => if late then t' else t
        | _ => t
    eff := fun t =>
      let t := if t.core.tracked.any (fillsSlot k) then t
        else { t with core := { t.core with copy := t.core.copy.killTid k } }
      t.track (chanSlot o.ch) (.tidFill k o.sa.start.toNat o.sa.w record) }
  runPlan i s (p.reach .read x)

/-- TIDLD_FILL: the oldest TIDLD of a slot fills it once it is free, and the next one invalidates it. -/
def execTidldFill (slot : BitVec 6) (s : State) : Host.Outcome State Fault Refusal :=
  let k := slot.toNat
  let c := s.core
  match c.tracked.find? (fillsSlot k) with
  | none => .next s
  | some t =>
    match t.op with
    | .tidFill _ st w r =>
      let x := c.copy.tid k
      if x.st != .free then .next s
      else
        let rest := c.tracked.erase t
        let copy := c.copy.setTid k { x with record := r, st := .live, mapped := false }
        let copy := if rest.any (fillsSlot k) then copy.killTid k else copy
        .next (s.setCore (Core.putSpan { c with tracked := rest, copy := copy } st w (x.gen.toNat * 64 + k)))
    | _ => .next s


/-- TIDRD. -/
def execTidrd (o : FC) (s : State) : Host.Outcome State Fault Refusal :=
  let i : Instr := .tidrd o
  let v := s.view
  let h := valZ v false o.sb
  let slot := o.fn != 0
  let w := scVal v o
  let p := planC s i ([o.sb] ++ (if slot then [] else scSpan o))
  let q := stageTid s h
  let faults := if slot then slotBad s i h
    else q.1 ++ slotFault (decide (11 < w)) 0x41 i
  runPlan i s
    { p with
      faults := p.faults ++ slotFault (spanBad v false o.sa) 0x10 i ++ faults
      tw := spanUnits v false o.sa
      eff := spanResult o o.sa fun s => if slot then tidWord s.core.copy h else recWord q.2 w }

/-- TIDINV. -/
def execTidinv (o : FC) (s : State) : Host.Outcome State Fault Refusal :=
  let i : Instr := .tidinv o
  let h := valZ s.view false o.sa
  let p := planC s i [o.sa]
  runPlan i s
    { p with
      faults := p.faults ++ (if o.fn = 0 then (stageTid s h).1 else slotBad s i h)
      eff := fun s => { s with core := { s.core with copy := s.core.copy.killTid (handleSlot h) } } }

/-! ### Transaction barriers (R131, R132) -/

/-- The check of a barrier update at issue: the fault it would earn now, or the state after asking for the
barrier's line. -/
def barCheck (s : State) (p : Word) (f : BarFn) : Option (Nat × Word) × Option State :=
  match barRead (s.core.selfAgent 0) s p.toNat with
  | .done _ b =>
    (match f b with
     | .ok _ => (none, none)
     | .error c => (some (c, p), none))
  | .wait s => (none, some s)
  | .fail _ c a => (some (c, wordOf a), none)

/-- The plan of a barrier instruction: the pointer's checks, then those of the update, then the tracked
update. -/
def planBarrier (s : State) (i : Instr) (o : FC) (spans : List SSpan) (f : BarFn) (op : Nat → TOp) : Plan :=
  let p := wordOf (valZ s.view false o.sa)
  let q := barPointer s.core p
  let x := barAccess s p
  let pl := planC s i spans
  let clean := x.faults.isEmpty && !x.walks
  let pend := s.core.accessesPending
  let r : Option (Nat × Word) × Option State :=
    if clean && !pend then barCheck s q f else (none, none)
  let pl := { pl with
    faults := pl.faults ++ r.1.toList.map (fun (e : Nat × Word) => (e.1, p))
    stall := if clean && pend then some .drainWait else if r.2.isSome then some .barrierWait else none
    onStall := fun t => if pend then t.publishEarlier else if r.2.isSome then (barCheck t q f).2.getD t else t
    eff := fun t => (t.track (chanSlot o.ch) (op q.toNat) (so := x.so)).publish }
  pl.reach .barrier x

/-- BINIT. -/
def execBinit (o : FC) (s : State) : Host.Outcome State Fault Refusal :=
  let a := valZ s.view false o.sb
  let p := planBarrier s (.binit o) o [o.sa, o.sb] (fun b => .ok b) fun q => .binit q a o.scope
  let bad := if 0xFFFFF < a then [(0x48, wordOf (valZ s.view false o.sa))] else []
  runPlan (.binit o) s { p with faults := p.faults ++ bad }

/-- BEXP. -/
def execBexp (o : FC) (s : State) : Host.Outcome State Fault Refusal :=
  let u := valZ s.view false o.sb
  runPlan (.bexp o) s (planBarrier s (.bexp o) o [o.sa, o.sb] (barExpect u) fun q => .bexp q u)

/-- BARV: SC names the span of the old phase. -/
def execBarv (o : FC) (s : State) : Host.Outcome State Fault Refusal :=
  let v := s.view
  let u := valZ v false o.sb
  let p := planBarrier s (.barv o) o [o.sa, o.sb] (barVisit u) fun q =>
    .barv q u o.sc.start.toNat o.sc.w
  runPlan (.barv o) s
    { p with
      faults := p.faults ++ slotFault (spanBad v false o.sc) 0x10 (.barv o)
      tw := spanUnits v false o.sc }

/-- The update of a tracked barrier operation. -/
def TOp.barrierFn : TOp → Option (Nat × BarFn)
  | .barv p u _ _ => some (p, barVisit u)
  | .bexp p u => some (p, barExpect u)
  | .binit p a sc => some (p, fun _ => .ok (barNew a sc.code.toNat))
  | _ => none

/-- A failed tracked operation is recorded for delivery; its destinations stay busy till then (R197). -/
def Core.recordFailure (c : Core) (t : Tracked) (cause : Nat) (tval : Word) (macros : List Nat) : Core :=
  { c with
    tracked := c.tracked.erase t
    failures := insertFailure { grp := t.grp, bundle := t.bundle, cause := cause, tval := tval, topc := t.pcb,
                                slot := t.slot, units := c.opUnits t.op, macros := macros } c.failures }

/-- The lines of unpublished stores are held; a store whose line is lost is a failed access (R197, R336). -/
def holdStores : List Tracked → State → State × Bool
  | [], s => (s, true)
  | t :: ts, s =>
    match t.op with
    | .store a runs _ _ =>
      (match acquireAll true (linesOf runs) s with
       | .ready s => holdStores ts s
       | .wait s => ((holdStores ts s).1, false)
       | .fail s c =>
         holdStores ts (s.setCore (Core.recordFailure { s.core with uo := s.core.uo.erase t } t c a [])))
    | _ => holdStores ts s

/-- The unpublished stores that a test selects enter the coherence order together, oldest first, once the lines of all
of them are held (R336). -/
def publishStores (f : Tracked → Bool) (s : State) : State × Bool :=
  let h := holdStores (s.core.uo.filter f) s
  if !h.2 then h
  else
    let ts := h.1.core.uo.filter f
    let write (s : State) (t : Tracked) : State := match t.op with
      | .store _ runs _ bs => s.setCoh (l2Store s.coh runs bs)
      | _ => s
    let leave (s : State) (t : Tracked) : State := match t.op with
      | .store _ runs evict _ => afterEvict s evict runs
      | _ => s
    let s := ts.foldl leave (ts.foldl write h.1)
    (s.setCore { s.core with uo := s.core.uo.filter fun t => !f t }, true)

/-- The k-th tracked operation is a release: once every access before it is performed, its stores to unordered pages
are published (R125, R336, R353). -/
def releaseStep (k : Nat) (t : Tracked) (s : State) : State × Bool :=
  if (s.core.tracked.take k).any fun q => q.op.accesses then (s, false)
  else publishStores (fun q => decide (q.grp ≤ t.grp)) s

/-- BARRIER_UPDATE_PERFORMED: the k-th tracked operation, with no earlier access left. -/
def execBarrierUpdatePerformed (k : Nat) (s : State) : Host.Outcome State Fault Refusal :=
  let c := s.core
  match c.tracked[k]? with
  | none => .next s
  | some t =>
    match t.op.barrierFn with
    | none => .next s
    | some (p, f) =>
      let r := releaseStep k t s
      if !r.2 then .next r.1
      else
        match barUpdate (c.selfAgent 0) r.1 p f with
        | .wait s => .next s
        | .fail s cause a => .next (s.setCore (s.core.recordFailure t cause (wordOf a) []))
        | .done s old =>
          let c := { s.core with tracked := s.core.tracked.erase t }
          let c := match t.op with
            | .barv _ _ st w => c.putSpan st w (barPhase old)
            | _ => c
          .next (s.setCore c)

/-! ### The watch table (R133) -/

/-- BWATCH: arms an entry. -/
def execBwatch (o : FC) (s : State) : Host.Outcome State Fault Refusal :=
  let v := s.view
  let p := wordOf (valZ v false o.sa)
  let ph := valZ v false o.sb
  let w := o.fn.toNat % 8
  let pl := planC s (.bwatch o) [o.sa, o.sb]
  let pl := { pl with
    faults := pl.faults ++ slotFault (decide (15 < ph)) 0x41 (.bwatch o)
    eff := fun s =>
      let e : Watch := { bar := barPointer s.core p, phase := BitVec.ofNat 4 ph, valid := true }
      { s with core := { s.core with copy := s.core.copy.setWatch w e } } }
  runPlan (.bwatch o) s (pl.reach .barrier { barAccess s p with units := [] })

/-- BWATCH.off: clears VALID. -/
def execBwatchOff (o : FC) (s : State) : Host.Outcome State Fault Refusal :=
  let w := o.fn.toNat % 8
  runPlan (.bwatchOff o) s
    { planC s (.bwatchOff o) [] with
      eff := fun s =>
        let e := { s.core.copy.watchAt w with valid := false }
        { s with core := { s.core with copy := s.core.copy.setWatch w e } } }

end Sys2Proof.Machine
end

