-- ==== Sys2Proof/Machine/Flags.lean ====
section
/-! DEFINITION. Flags and rounding choices: the mode an instruction rounds under and the random words it
draws (R179, R212, R216, R221, R237, R315, R316). -/

namespace Sys2Proof.Machine

/-! ### The rounding mode (R79, R179, R212) -/

/-- Whether an instruction converts (RNA allowed) or computes (RNA under the dynamic mode is RNE). -/
inductive RKind where
  | converts | computes
  deriving DecidableEq, Repr

/-- The mode of an instruction: its mode, and the generator class that SR draws from. -/
structure RMode where
  rm : Rm
  cls : Option Nat
  deriving DecidableEq, Repr

/-- RNA in an instruction that computes rounds to nearest even (R212). -/
def RKind.fit (k : RKind) (m : Rm) : Rm := if k = .computes && m == .rna then .rne else m

/-- The mode under FPCTL.DRM (R179, R242). -/
def dynMode (c : Csrs) (k : RKind) : RMode :=
  let m := k.fit (Rm.ofCode c.fpDrm.toNat)
  ⟨m, if m = .sr then some c.fpDcls.toNat else none⟩

/-- The mode of an RM field with its class (R79): 6 is the dynamic mode. -/
def fieldMode (c : Csrs) (k : RKind) (rm : BitVec 3) (cls : BitVec 4) : RMode :=
  if rm = 6 then dynMode c k
  else
    let m := k.fit (Rm.ofCode rm.toNat)
    ⟨m, if m = .sr then some cls.toNat else none⟩

/-! ### Random words (R215, R216, R315, R316) -/

/-- One step of the 32-bit Galois generator. -/
def lfsrStep (s : Nat) : Nat := if s % 2 = 1 then (s / 2) ^^^ 0x80200003 else s / 2

/-- n steps. -/
def lfsrSteps : Nat → Nat → Nat
  | 0, s => s
  | n + 1, s => lfsrSteps n (lfsrStep s)

/-- The state after one word; the word is its low 16 bits. -/
def lfsrNext (s : Nat) : Nat := lfsrSteps 16 s

/-- The ramp word of a count under a divider. -/
def rampWord (d t : Nat) : Nat := (t / 2 ^ d % 8) * 8192

/-- k words of one lane from its running state, and the state left. -/
def laneWords (g : GenClass) : Nat → Nat → List Nat × Nat
  | 0, s => ([], s)
  | k + 1, s =>
    if g.ramp then
      let r := laneWords g k ((s + 1) % 2 ^ 32)
      (rampWord g.d.toNat s :: r.1, r.2)
    else
      let n := lfsrNext s
      let r := laneWords g k n
      (n % 65536 :: r.1, r.2)

/-- k words in each of the lanes 0 to n − 1: the words element by element, and the class left. -/
def drawLanes (g : GenClass) (k n : Nat) : List Nat × GenClass :=
  let run := (List.range 128).map fun l => bitsN g.run.toNat (32 * l) 32
  let ls := (List.range n).map fun l => laneWords g k (lget 0 run l)
  (ls.flatMap Prod.fst,
   { g with run := BitVec.ofNat 4096 (packN 32 128 fun l =>
      if l < n then (lget ([], 0) ls l).2 else lget 0 run l) })

/-- R(c, l, t): the first n words of lane l's sequence from SEED (R315). -/
def seedWords (g : GenClass) (l n : Nat) : List Nat :=
  if g.ramp then (List.range n).map (rampWord g.d.toNat)
  else (laneWords g n (bitsN g.seed.toNat (32 * l) 32)).1

/-- The draw of an instruction: its words, the class it advances, and the class as the draw leaves it. -/
structure Draw where
  words : List Nat
  cls : Option (Nat × GenClass)
  deriving DecidableEq, Repr

/-- Draws k words in each of n lanes where the mode is SR (R216). -/
def draw (v : Core) (m : RMode) (k n : Nat) : Draw :=
  match m.cls with
  | none => ⟨[], none⟩
  | some c =>
    let r := drawLanes (genRead v.regs c) k n
    ⟨r.1, some (c, r.2)⟩

/-- The generator class a mode reads, as a unit (R314). -/
def RMode.units (m : RMode) : List HUnit :=
  match m.cls with
  | none => []
  | some c => [⟨.gen, c⟩]

/-- The advance of the drawn class, at issue (R216). -/
def Draw.apply (d : Draw) (s : State) : State :=
  match d.cls with
  | none => s
  | some (c, g) => s.setRegs { s.core.regs with gens := spSet genDefault s.core.regs.gens c g }

/-- The flags of the governed elements of a list of results, ORed together (R221). -/
def flagsOr (l : List Nat) : BitVec 5 := BitVec.ofNat 5 (l.foldl (· ||| ·) 0)

end Sys2Proof.Machine
end

