-- ==== Sys2Proof/Machine/Vector.lean ====
section
/-! DEFINITION. The frame of every vector-slot instruction: the choice of view, the reads and writes of
elements, the checks on spans, clusters and views, and the plan over them (R78, R160 to R176, R236 to
R238). -/

namespace Sys2Proof.Machine

/-- How an instruction sees its spans: register view or not, element width and number of elements (R236). In
lane view elements are computed at 32 bits. -/
structure VShape where
  reg : Bool
  b : Nat
  n : Nat
  deriving DecidableEq, Repr

/-- The shape of an instruction of a type over its vector operands (R160, R161, R236). -/
def vshape (ty : ETy) (ops : List VOp) : VShape :=
  if ops.all VOp.reg then ⟨true, ty.bits, 4096 / ty.bits⟩ else ⟨false, 32, 128⟩

/-- The elements of a span, packed at the width of the shape; a lane-view value is extended by sign or by
zero (R161). -/
def vget (v : Core) (sh : VShape) (sgn : Bool) (o : VOp) : Nat :=
  if sh.reg then vread v o
  else
    let raw := vread v o
    packN 32 128 fun l =>
      let x := elemN (4 * o.w) raw l
      if sgn then wrapI 32 (toSigned (4 * o.w) x) else x

/-- The writes of governed elements, each narrowed to its lane by wrapping (R161, R163). -/
def vput (c : Csrs) (sh : VShape) (o : VOp) (x : Nat) (p : Pred) : List UVal :=
  if sh.reg then vwrite c o x (elemMask sh.b sh.n p)
  else vwrite c o (packN (4 * o.w) 128 fun l => elemN 32 x l) (elemMask (4 * o.w) 128 p)

/-- One result per element, packed. -/
def vmap (sh : VShape) (f : Nat → Nat) : Nat := packN sh.b sh.n f

/-! ### Checks -/

/-- The lowest cluster that a list of physical planes meets under a test. -/
def clusterWhere (ps : List Nat) (bad : Nat → Bool) : Option Nat :=
  (List.range 5).find? fun k => bad k && ps.any fun p => clusterOf p == k

/-- The physical planes of the operands that are in range. -/
def physOf (c : Csrs) (ops : List VOp) : List Nat :=
  (ops.filter fun o => !o.bad).flatMap (VOp.phys c)

/-- The faults of vector operands: a span out of range (0x10), a cluster asleep (0x12), and a destination in
a cluster that another slot owns (0x15) (R78, R172, R173). -/
def vopFaults (v : Core) (i : Instr) (own : Nat) (srcs dsts : List VOp) : List (Nat × Word) :=
  (if (srcs ++ dsts).any VOp.bad then [(0x10, encode i)] else []) ++
  (match clusterWhere (physOf v.csr (srcs ++ dsts))
      (fun k => !clusterAwake v.regs v.mode v.xt k) with
   | some k => [(0x12, wordOf k)]
   | none => []) ++
  (match clusterWhere (physOf v.csr dsts) (fun k => (lget 0 v.regs.owners k).toNat != own) with
   | some k => [(0x15, wordOf k)]
   | none => [])

/-- The owner code of a vector slot (R174). -/
def slOwner : VSlot → Nat
  | .va => 0
  | .vb => 1

/-! ### The plan -/

/-- What a vector instruction brings to its plan. -/
structure VWork where
  sl : VSlot
  lat : Nat
  srcs : List VOp
  dsts : List VOp
  preds : List Nat := []
  scal : List SOp := []
  mode : RMode := ⟨.rne, none⟩
  faults : List (Bool × Nat × Word) := []
  draws : Draw := ⟨[], none⟩
  vals : List UVal := []
  more : List HUnit := []
  flags : BitVec 5 := 0

/-- The plan of a vector instruction (R236): its reads, its draws at issue, and one exposed result. -/
def planVec (v : Core) (i : Instr) (k : VWork) : Plan :=
  { rd := planeUnits (physOf v.csr k.srcs) ++ k.preds.flatMap predUnits ++
      (k.scal.filter fun o => !o.bad).flatMap (fun o => sliceUnits o.start o.w) ++ k.mode.units
    wr := planeUnits (physOf v.csr k.dsts) ++ k.more
    lat := k.lat
    faults := vopFaults v i (slOwner k.sl) k.srcs k.dsts ++
      (if k.scal.any SOp.bad then [(0x10, encode i)] else []) ++ faultsOf k.faults
    eff := fun t => (k.draws.apply t).post k.sl.slot k.lat k.vals k.flags }

/-- The physical predicate that a PM field names, and its bits. -/
def pmPhys (v : Core) {n : Nat} (pm : BitVec n) : Nat := rotPred v.csr.prb pm.toNat
def pmBits (v : Core) {n : Nat} (pm : BitVec n) : Pred := predRead v.regs (pmPhys v pm)

/-- The flags of the governed elements (R163, R221). -/
def govFlags (p : Pred) (n : Nat) (f : Nat → Nat) : BitVec 5 :=
  flagsOr ((List.range n).map fun i => if p.getLsbD i then f i else 0)

end Sys2Proof.Machine
end

