-- ==== Sys2Proof/Machine/MatrixOps.lean ====
section
/-! DEFINITION. The arithmetic and storage behind the M slot: pages, latches, block results, accumulator
elements, macros' modes and segments, the tree mask (R224, R225, R270 to R279, R287, R288, R301, R309). -/

namespace Sys2Proof.Machine

/-! ### Pages -/

/-- The scale store of a page (R272). -/
def Mat.scale (m : Mat) (pid k : Nat) : Byte := spGet 0x7F m.scales (1024 * pid + k)

/-- The row of a page from its stripe of a weight image (R276). -/
def imageRow (ty : ETy) (image : List Byte) (row : Nat) : Plane :=
  let at' (k : Nat) : Nat := (lget 0 image (row % 4 * 4096 + row / 4 * 64 + k)).toNat
  if ty = .mxf4 then
    BitVec.ofNat 512 (packN 5 102 fun o =>
      wrapI 5 (mxf4Int (bitsN (at' (o / 2)) (4 * (o % 2)) 4)))
  else BitVec.ofNat 512 (packN 8 64 at')

/-- Whether word q of a row was written through the storage view (R278). -/
def Mat.wordWritten (m : Mat) (pid row q : Nat) : Bool :=
  (spGet 0 m.written (256 * pid + row)).getLsbD q

/-- Words of whole rows that are written have fresh checks (R278). -/
def Mat.healRows (m : Mat) (pid row n : Nat) : Mat :=
  { m with errs := spClear (8 * (256 * pid + row)) (8 * n) m.errs }

/-- Writes w rows of a page through the storage view, from packed bytes (R278, R307). -/
def Mat.putRows (m : Mat) (pid row w v : Nat) : Mat :=
  ((List.range (64 * w)).foldl (fun m j => m.setByte pid (row + j / 64) (j % 64) (byteOf v j)) m).healRows pid row w

/-- A weight image fills a page: every word clean, a new record (R293). -/
def Mat.loadPage (m : Mat) (pid : Nat) (ty : ETy) (pa : Nat) (image : List Byte) : Mat :=
  let rows := (List.range 256).foldl (fun r k => spSet 0 r (256 * pid + k) (imageRow ty image k)) m.rows
  { m with
    rows := rows
    written := spClear (256 * pid) 256 m.written
    errs := spClear (2048 * pid) 2048 m.errs
    recs := spSet recDefault m.recs pid
      { m.pageRec pid with loaded := true, fmt := ty, dirty := false, wsrc := BitVec.ofNat 52 pa } }

/-- A scale image fills a scale store (R293). -/
def Mat.loadScales (m : Mat) (pid pa : Nat) (image : List Byte) : Mat :=
  { m with
    scales := (List.range 1024).foldl (fun r k => spSet 0x7F r (1024 * pid + k) (lget 0x7F image k)) m.scales
    recs := spSet recDefault m.recs pid { m.pageRec pid with ssrc := BitVec.ofNat 52 pa } }

/-- Word k of a provenance record (R277). -/
def PageRec.word (r : PageRec) (k : Nat) : Nat :=
  if k = 0 then (if r.dirty then 2 ^ 63 else 0) + (if r.loaded then 2 ^ 61 else 0) +
    (if r.fmt = .mxf4 then 0xE else 0xD) * 2 ^ 57 + r.wsrc.toNat
  else r.ssrc.toNat

/-- A refetch has failed. DESIGN CHOICE (log 97): the words it was for cannot be corrected from then on. -/
def Mat.losePage (m : Mat) (pid : Nat) : Mat :=
  { m with
    errs := m.errs.map fun e => if e.1 / 2048 = pid && e.2 == .parity then (e.1, .uncorrectable) else e
    refetch := m.refetch.filter fun p => p != pid }

/-- The clean words of a page are fetched again from its record (R278, R279). -/
def Mat.refetchPage (m : Mat) (pid : Nat) (image : Option (List Byte)) : Mat :=
  let r := m.pageRec pid
  let merge (row : Nat) (old : Plane) : Plane :=
    let fresh := match image with
      | some b => imageRow r.fmt b row
      | none => 0
    BitVec.ofNat 512 (packN 64 8 fun q =>
      elemN 64 (if m.wordWritten pid row q then old else fresh).toNat q)
  { m with
    rows := (List.range 256).foldl (fun t k =>
      spSet 0 t (256 * pid + k) (merge k (spGet 0 t (256 * pid + k)))) m.rows
    errs := m.errs.filter fun e => !(e.1 / 2048 == pid && e.2 == .parity)
    refetch := m.refetch.filter fun p => p != pid }

/-! ### Latches and dot products (R273, R274) -/

/-- A latch at reset: zeros, scales 0x7F, mxi8. -/
def latchDefault : Latch := { act := 0, scales := 0x7F7F7F7F7F7F7F7F, fmt := .mxi8 }
def Mat.latch (m : Mat) (k : Nat) : Latch := spGet latchDefault m.latches k
def Mat.setLatch (m : Mat) (k : Nat) (l : Latch) : Mat := { m with latches := spSet latchDefault m.latches k l }

/-- Writes a latch, whose check is then fresh (R409). -/
def State.putLatch (s : State) (k : Nat) (l : Latch) : State :=
  s.setCore ({ s.core with mat := s.core.mat.setLatch k l }.heal [⟨.latch, k⟩])

/-- The planes of a latch. -/
def Latch.planes (l : Latch) : Nat := if l.fmt = .mxf4 then 5 else 8

/-- The outputs of a format, and its f (R270, R274). -/
def outputsOf (ty : ETy) : Nat := if ty = .mxf4 then 102 else 64
def fracOf (ty : ETy) : Int := if ty = .mxf4 then 1 else 6

/-- The weight of a row at an output (R270). -/
def weightAt (ty : ETy) (row : Plane) (o : Nat) : Int :=
  if ty = .mxf4 then toSigned 5 (elemN 5 row.toNat o) else toSigned 8 (elemN 8 row.toNat o)

def blockDefault : BlockRes := { p := 0, x := 0, nan := false }

/-- Block result (o, β) of a latch against a page: P is the sum over the block's rows of activation times
weight (R274). -/
def blockResult (m : Mat) (l : Latch) (pid : Nat) (o b : Nat) : BlockRes :=
  let ty := (m.pageRec pid).fmt
  let p := (List.range 32).foldl (fun (acc : Int) r =>
    acc + toSigned 8 (elemN 8 l.act.toNat (32 * b + r)) * weightAt ty (m.row pid (32 * b + r)) o) 0
  let sa := elemN 8 l.scales.toNat b
  let sw := (m.scale pid (128 * b + o)).toNat
  { p := p, x := (sa : Int) + sw - 254 - fracOf l.fmt - fracOf ty, nan := sa == 255 || sw == 255 }

/-- A dot product replaces the result buffer of a macro and records the page's format (R296). -/
def fireMacro (m : Mat) (l : Latch) (mac pid : Nat) : Mat :=
  let ty := (m.pageRec pid).fmt
  let bufs := (List.range 102).foldl (fun t o =>
    (List.range 8).foldl (fun t b =>
      spSet blockDefault t ((102 * mac + o) * 8 + b)
        (if o < outputsOf ty then blockResult m l pid o b else blockDefault)) t) m.bufs
  { m with bufs := bufs, bufFmt := spSet .mxi8 m.bufFmt mac ty }

/-! ### Accumulator elements (R224, R225, R287) -/

/-- The anchor of the wide pair whose even tile this is. -/
def Mat.anchor (m : Mat) (t : Nat) : Option Int := if t % 2 = 0 then lget none m.wide (t / 2) else none

/-- A tile belongs to a wide pair. -/
def Mat.inWide (m : Mat) (t : Nat) : Bool := (lget none m.wide (t / 2)).isSome

/-- A tile that may be named: not the odd tile of a wide pair (R288). -/
def Mat.nameable (m : Mat) (t : Nat) : Bool := !(t % 2 == 1 && m.inWide t)

def Mat.accWord (m : Mat) (t e : Nat) : BitVec 32 := spGet 0 m.acc (1024 * t + e)
def Mat.setAccWord (m : Mat) (t e : Nat) (v : BitVec 32) : Mat :=
  { m with acc := spSet 0 m.acc (1024 * t + e) v }

/-- The signed integer of an element of a wide pair. -/
def Mat.wideInt (m : Mat) (t e : Nat) : Int :=
  toSigned 64 ((m.accWord (t + 1) e).toNat * 2 ^ 32 + (m.accWord t e).toNat)

def Mat.setWideInt (m : Mat) (t e : Nat) (i : Int) : Mat :=
  let v := wrapI 64 i
  (m.setAccWord t e (BitVec.ofNat 32 v)).setAccWord (t + 1) e (BitVec.ofNat 32 (v / 2 ^ 32))

/-- The value of an element of a logical tile. -/
def Mat.accValue (m : Mat) (t e : Nat) : FVal :=
  match m.anchor t with
  | some x => .fin (decide (m.wideInt t e < 0)) (m.wideInt t e).natAbs x
  | none => unpackF fmtF32 (m.accWord t e).toNat

/-- A signed 64-bit integer held in range, and whether it was outside. -/
def saturate64 (i : Int) : Int × Bool :=
  let j := clampI (-(2 ^ 63)) (2 ^ 63 - 1) i
  (j, j != i)

/-- A finite contribution as a multiple of 2^x, and whether bits below were lost. -/
def wideUnits (x : Int) (neg : Bool) (n : Nat) (e : Int) : Int × Bool :=
  let r := roundTo .rne 0 ⟨neg, n, e, false⟩ x
  (signedM neg r.1, r.2)

/-- What writing or adding to accumulator elements leaves: the store, the flags, and whether the tile's alarm
was set. -/
structure AccRes where
  mat : Mat
  flags : Nat
  alarm : Bool

/-- A value added to the integer of a wide pair (R225); `base` is what it is added to. -/
def wideAdd (m : Mat) (t e : Nat) (x base : Int) (v : FVal) : AccRes :=
  match v with
  | .nan _ _ sig => ⟨m, if sig then flNV else 0, true⟩
  | .inf neg => ⟨m.setWideInt t e (if neg then -(2 ^ 63) else 2 ^ 63 - 1), 0, true⟩
  | .fin neg n ex =>
    let u := wideUnits x neg n ex
    let r := saturate64 (base + u.1)
    ⟨m.setWideInt t e r.1, 0, u.2 || r.2⟩

/-- One contribution to an element of a logical tile (R224, R225). -/
def accAdd (m : Mat) (t e : Nat) (v : FVal) : AccRes :=
  match m.anchor t with
  | some x => wideAdd m t e x (m.wideInt t e) v
  | none =>
    let r := addV fmtF32 .rne 0 (unpackF fmtF32 (m.accWord t e).toNat) v
    ⟨m.setAccWord t e (BitVec.ofNat 32 r.1), r.2, false⟩

/-- A block result as a contribution: NaN raises NV (R224). -/
def BlockRes.value (b : BlockRes) : FVal :=
  if b.nan then .nan false 0 false else .fin (decide (b.p < 0)) b.p.natAbs b.x

/-- Continues with one more contribution. -/
def AccRes.add (r : AccRes) (t e : Nat) (v : FVal) (fl : Nat) : AccRes :=
  let q := accAdd r.mat t e v
  ⟨q.mat, r.flags ||| q.flags ||| fl, r.alarm || q.alarm⟩

/-- One macro's buffer into the logical tiles from t on, `u` tiles apart (R298). -/
def collectMacro (m : Mat) (t u row mac : Nat) (ty : ETy) : AccRes × List Nat :=
  (List.range (outputsOf ty)).foldl (fun (q : AccRes × List Nat) o =>
    let tile := t + u * (o / 64)
    let r := (List.range 8).foldl (fun (r : AccRes) b =>
      let res := spGet blockDefault m.bufs ((102 * mac + o) * 8 + b)
      r.add tile (64 * row + o % 64) res.value (if res.nan then flNV else 0)) { q.1 with alarm := false }
    (r, if r.alarm then q.2 ++ [tile] else q.2)) (⟨m, 0, false⟩, [])

/-- One outlier entry: a fused product and sum (R224, R304). -/
def outlierAdd (r : AccRes) (t : Nat) (x : Word) : AccRes :=
  let e := bitsN x.toNat 32 10
  let w := unpackF (fmtOf .bf16) (bitsN x.toNat 16 16)
  let a := unpackF (fmtOf .bf16) (bitsN x.toNat 0 16)
  match r.mat.anchor t with
  | none =>
    let q := fmaV fmtF32 .rne 0 a w (unpackF fmtF32 (r.mat.accWord t e).toNat)
    ⟨r.mat.setAccWord t e (BitVec.ofNat 32 q.1), r.flags ||| q.2, r.alarm⟩
  | some x0 =>
    let nans := sigFlag [a, w]
    match a, w with
    | .fin na ma ea, .fin nw mw ew =>
      let q := wideAdd r.mat t e x0 (r.mat.wideInt t e) (.fin (na != nw) (ma * mw) (ea + ew))
      ⟨q.mat, r.flags ||| q.flags, r.alarm || q.alarm⟩
    | .nan .., _ => ⟨r.mat, r.flags ||| nans, true⟩
    | _, .nan .. => ⟨r.mat, r.flags ||| nans, true⟩
    | a, w =>
      if zeroInf a w || zeroInf w a then ⟨r.mat, r.flags ||| flNV, true⟩
      else
        let sg : FVal → Bool := fun v => match v with
          | .inf s => s
          | .fin s _ _ => s
          | .nan s _ _ => s
        let q := wideAdd r.mat t e x0 0 (.inf (sg a != sg w))
        ⟨q.mat, r.flags, true⟩

/-- A tile reads +0, or its pair's integers 0 (R300). -/
def Mat.zeroTile (m : Mat) (t : Nat) : Mat := { m with acc := spClear (1024 * t) 1024 m.acc }

/-- The alarm bits of tiles. -/
def Mat.setAlarm (m : Mat) (t : Nat) (b : Bool) : Mat :=
  { m with alarms := BitVec.ofNat 32 (setBitsN m.alarms.toNat t 1 (if b then 1 else 0)) }

/-- MWIDE.off: a pair becomes an FP32 tile and a tile of +0 (R299). -/
def wideOff (m : Mat) (t : Nat) : AccRes :=
  match m.anchor t with
  | none => ⟨m, 0, false⟩
  | some x =>
    let vals := (List.range 1024).map fun e =>
      let i := m.wideInt t e
      cvtV fmtF32 .rne 0 false (.fin (decide (i < 0)) i.natAbs x)
    let z := { (m.zeroTile t).zeroTile (t + 1) with wide := lset m.wide (t / 2) none }
    ⟨(List.range 1024).foldl (fun z e => z.setAccWord t e (BitVec.ofNat 32 (lget (0, 0) vals e).1)) z,
     vals.foldl (fun f p => f ||| p.2) 0, false⟩

/-- A value converted to an integer held within bounds, from its value (R220). -/
def cvtVI (lo hi : Int) (rm : Rm) (w : Nat) (v : FVal) : Int × Nat :=
  match v with
  | .nan .. => (0, flNV)
  | .inf s => (if s then lo else hi, flNV)
  | .fin s m e =>
    let r := roundTo rm w ⟨s, m, e, false⟩ 0
    let i := signedM s r.1
    if i < lo then (lo, flNV) else if hi < i then (hi, flNV) else (i, if r.2 then flNX else 0)

/-- The value of a source element of MACWR (R302). -/
def macwrValue (ty : ETy) (v : Nat) : FVal :=
  if ty = .i8 || ty = .i16 || ty = .i32 then
    let i := toSigned ty.bits v
    .fin (decide (i < 0)) i.natAbs 0
  else unpackF (fmtOf ty) v

/-! ### Macros: mode and segment (R267, R284, R288) -/

/-- What an instruction that reaches macros through a view meets: faults, a hold, and the segments to wake. -/
structure MacCheck where
  faults : List (Nat × Word)
  stall : Option Why
  wake : List Nat

/-- The checks of a list of macros for a view. -/
def macCheck (c : Core) (cycle : Nat) (compute : Bool) (macs : List Nat) : MacCheck :=
  let auto := c.csr.cctl.getLsbD 1
  let st (m : Nat) : SegSt := segNow c.shelf cycle (m / 32)
  let wrong := macs.find? fun m => c.mat.modes.getLsbD m != compute
  let sleep := macs.filter fun m => st m == .asleep
  let hold := macs.any fun m => st m != .awake && (auto || st m != .asleep)
  { faults := (wrong.map fun m => (0x50, wordOf m)).toList ++
      (if auto then [] else (sleep.head?.map fun m => (0x53, wordOf m)).toList)
    stall := if hold then some .segment else none
    wake := if auto then sleep.map (· / 32) else [] }

/-- Adds the checks of macros to a plan. -/
def Plan.macroCheck (p : Plan) (k : MacCheck) (macs : List Nat) : Plan :=
  { p with
    macros := p.macros ++ macs
    faults := p.faults ++ k.faults
    stall := p.stall.orElse fun _ => k.stall
    onStall := fun s => s.wakeSegs s.core.region.toNat k.wake }

/-! ### What tracked operations hold in the column (R268, R269, R297) -/

/-- The halves, as physical pages over four, and the buffers a tracked operation needs in issue order. -/
def TOp.column (sh : Shelf) : TOp → List (Bool × Nat)
  | .pageRd pid .. => [(true, pid / 4)]
  | .pageClr _ pid => [(true, pid / 4)]
  | .reload _ pid .. => [(true, pid / 4)]
  | .scrub _ pid => [(true, pid / 4)]
  | .rmw _ pid .. => [(true, pid / 4)]
  | .dot mac page n half _ =>
    (rangeFrom mac n).flatMap fun m => [(true, pageId sh m half page / 4), (false, m)]
  | .coll _ _ _ mac n _ => (rangeFrom mac n).map fun m => (false, m)
  | _ => []

/-- The logical macros a tracked M-slot operation names. -/
def TOp.macs : TOp → List Nat
  | .pageClr m _ => [m]
  | .reload m .. => [m]
  | .scrub m _ => [m]
  | .rmw m .. => [m]
  | .dot m _ n _ _ => rangeFrom m n
  | _ => []

/-- Bytes of the storage view of this core that an access in window 0xE touches. -/
def viewRange (region : Nat) (a n : Nat) : Option (Nat × Nat) :=
  let lo := 0xE * 2 ^ 60 + region * 2 ^ 26 + 2 ^ 25
  if lo ≤ a && a < lo + 2 ^ 25 then some (a - lo, n) else none

/-- The macros of a core that n bytes in window 0xE touch. -/
def macsAt (region a n : Nat) : List Nat :=
  match viewRange region a n with
  | some (off, n) => (viewMacros off n).map Prod.fst
  | none => []

/-- The macros of a core that a tracked access in window 0xE touches. -/
def TOp.viewMacs (region : Nat) (op : TOp) : List Nat :=
  let of (a : Word) (n : Nat) : List Nat := macsAt region a.toNat n
  match op with
  | .load a _ n _ _ _ _ => of a n
  | .store a _ _ bs => of a bs.length
  | .atom a _ _ _ _ n _ _ => of a n
  | _ => []

/-- What is left of n bytes from an address on when k of their aligned sectors are done. -/
def restOf (p n k : Nat) : Nat × Nat :=
  let q := piece 64 p n k
  (q.1, p + n - q.1)

/-- What a copy of n bytes is still to write, and to read. -/
def copyRest (dst src n k : Nat) : List (Nat × Nat) :=
  let q := restOf dst n k
  [q, (src + (q.1 - dst), q.2)]

/-- What an operation of a channel is still to reach through window 0xE: a LIN's ranges, a collective's result. The
other kinds move between tiles and window 0x0. -/
def ChanOp.ahead (o : ChanOp) : List (Nat × Nat) :=
  let rest (qs : List (Nat × Nat)) : List (Nat × Nat) := if o.moving && o.failing.isNone then qs else []
  match o.regs.kind with
  | 0 => rest (copyRest o.regs.edst.toNat o.regs.esrc.toNat o.regs.elen.toNat o.pos)
  | 4 => rest [restOf o.regs.edst.toNat o.image.length o.pos]
  | 5 => rest [restOf o.regs.edst.toNat o.image.length o.pos]
  | _ => []

/-- What a packet in progress is still to write, and to read. -/
def Packet.ahead (p : Packet) : List (Nat × Nat) :=
  if p.err.isSome || decide (pkTotal p.bytes ≤ p.pos) then []
  else if pkKind p.bytes = 1 then [restOf (pkWord p.bytes 2) (pkLen p.bytes) p.pos]
  else copyRest (pkWord p.bytes 2) (pkWord p.bytes 1) (pkLen p.bytes) p.pos

/-- The sources that a collective which has started is still to read. -/
def collAhead (s : State) (g : Nat) : List (Nat × Nat) :=
  ((collMembers s g).getD []).filterMap fun m =>
    let n := m.op.regs.elen.toNat * collSize m.op.regs.kind (m.op.regs.aux.toNat / 256)
    (m.wants n).map fun q => (q.1, n - m.op.image.length)

/-- The source of a staged operation lies in window 0xE. -/
def sourceOnChip (s : State) (e : Nat × Nat × Nat) : Bool :=
  (s.coreAt e.2.1).any fun c => (c.copy.chan (if e.2.2 = 0 then .a else .b)).op.any fun o =>
    o.regs.esrc.toNat / 2 ^ 60 == 0xE

/-- Everything that the engines of the chip are still to reach through window 0xE (R291, R310). -/
def enginesAhead (s : State) : List (Nat × Nat) :=
  ((s.core :: s.others.map Prod.snd).flatMap fun c =>
    (c.copy.a.op.toList ++ c.copy.b.op.toList).flatMap ChanOp.ahead) ++
  (s.queues.filterMap fun q => q.2.packet).flatMap Packet.ahead ++
  ((s.pool.staged.filter (sourceOnChip s)).map Prod.fst).eraseDups.flatMap (collAhead s)

/-- Some operation is in flight on a macro of the core; of its own, those that `mine` chooses. -/
def inFlightOf (mine : Tracked → Bool) (s : State) (test : Nat → Bool) : Bool :=
  let c := s.core
  let r := c.region.toNat
  (enginesAhead s).any (fun q => (macsAt r q.1 q.2).any test) ||
  c.tracked.any (fun t => mine t && (t.op.macs.any test || (t.op.viewMacs r).any test)) ||
    s.others.any (fun p => p.2.tracked.any fun t => (t.op.viewMacs r).any test) ||
    (List.range 256).any fun m => test m && c.mat.refetch.any fun pid =>
      (List.range 8).any fun k => pageId c.shelf m (decide (4 ≤ k)) (k % 4) == pid

/-- Some operation is in flight on a macro of the core (R285). -/
def inFlight (s : State) (test : Nat → Bool) : Bool := inFlightOf (fun _ => true) s test

/-- Some operation of an earlier group, or of another agent, is in flight on a macro (R291, R310). -/
def inFlightBefore (s : State) (test : Nat → Bool) : Bool :=
  inFlightOf (fun t => t.grp != s.core.ctx.grp) s test

/-- A refetch holds a macro that the operation needs, or the data lanes of a reload (R268, R283). -/
def underRefetch (c : Core) (op : TOp) : Bool :=
  let lanes := match op with
    | .reload .. => !c.mat.refetch.isEmpty
    | _ => false
  lanes || op.macs.any c.refetches

/-! ### The tree mask (R301, R309) -/

/-- Fields of a mask parameter block: NN, mask width, KBASE, parents, ancestor masks, positions. -/
def mskNN (b : Nat) : Nat := bitsN b 0 7
def mskWidth (b : Nat) : Nat := 16 * 2 ^ bitsN b 8 2
def mskBase (b : Nat) : Nat := bitsN b 16 32
def mskParent (b n : Nat) : Nat := bitsN b (8 * (64 + n)) 8
def mskAnc (b n : Nat) : Nat := bitsN b (8 * 128 + mskWidth b * n) (mskWidth b)
def mskPos (b n : Nat) : Nat := bitsN b (8 * (640 + 4 * n)) 32

/-- The depth of a node, its parents having lower numbers. -/
def mskDepth (b : Nat) : Nat → Nat → Nat
  | 0, _ => 0
  | k + 1, n => if n = 0 then 0 else mskDepth b k (mskParent b n) + 1

/-- The first subcode that a node fails. -/
def mskNode (b n : Nat) : Option Nat :=
  let nn := mskNN b
  let p := mskParent b n
  let up := if n = 0 then 0 else mskAnc b p
  let fails : List (Nat × Bool) :=
    [(1, n == 0 && p != 0x3F), (2, decide (1 ≤ n) && p == n),
     (3, decide (1 ≤ n) && decide (n < p) && decide (p < nn)), (4, decide (1 ≤ n) && decide (nn ≤ p)),
     (5, mskAnc b n != (2 ^ n ||| up) || mskAnc b n / 2 ^ nn != 0),
     (6, mskPos b n != mskBase b + mskDepth b 64 n)]
  (fails.find? fun f => f.2).map Prod.fst

/-- The trap value of a block that does not pass; none for one that does. -/
def mskFault (b : Nat) : Option Word :=
  let nn := mskNN b
  if nn = 0 || 64 < nn || bitsN b 8 2 = 3 || mskWidth b < nn || b.testBit 7 || bitsN b 10 6 != 0 ||
      bitsN b 48 16 != 0 then some 0
  else firstSome (fun n => (mskNode b n).map fun k => wordOf (256 * k + n)) (List.range nn)

/-- An element of a tile is masked (R301). -/
def masked (b qb kb i j : Nat) : Bool :=
  let d := kb + j - mskBase b
  decide (mskBase b ≤ kb + j) &&
    (decide (mskNN b ≤ d) || decide (mskNN b ≤ qb + i) || !(mskAnc b (qb + i)).testBit d)

end Sys2Proof.Machine
end

