-- ==== Sys2Proof/Machine/Matrix.lean ====
section
/-! DEFINITION. The M-slot instructions and the completion of the tracked ones (R287 to R311). -/

namespace Sys2Proof.Machine

/-! ### Plans -/

/-- A plan with the scalar spans it reads. -/
def planM (s : State) (i : Instr) (spans : List SSpan) (pj : Nat) : Plan :=
  { planSpans s i spans with pj := pj }

/-- The value of a scalar span. -/
def mVal (s : State) (sp : SSpan) : Nat := valZ s.view false sp

/-- A run of macros past the last one (R288). -/
def macRunBad (m n : Nat) : Bool := decide (256 < m + n)

/-- The macros of a run. -/
def macRun (m n : Nat) : List Nat := (rangeFrom m n).filter fun k => k < 256

/-- The tile units of a logical tile. -/
def tileSpan (m : Mat) (t : Nat) : Nat := if (m.anchor t).isSome then 2 else 1
def accUnits (t n : Nat) : List HUnit := (rangeFrom t n).map fun k => ⟨.acc, k⟩

/-- Some accumulator tile is busy (R305). -/
def accBusy (c : Core) : Bool := c.busyUnits.any fun u => u.kind == .acc

/-- The page that a macro, a half and a page number name. -/
def pageOfMac (s : State) (m : Nat) (half : Bool) (page : Nat) : Nat := pageId s.core.shelf m half page

/-- Posts a tracked M-slot operation. -/
def trackM (op : TOp) (s : State) : State := s.track .m op

/-- ORs flags into FPSTAT. -/
def Core.orFlags (c : Core) (fl : Nat) : Core :=
  { c with csr := { c.csr with fpstat := c.csr.fpstat ||| BitVec.ofNat 5 fl } }

def State.setMat (s : State) (m : Mat) : State := { s with core := { s.core with mat := m } }

/-- An alarm of tile t: its bit, and with RATRAP a fault to be delivered (R306). -/
def raiseAlarm (t : Tracked) (c : Core) (tile : Nat) : Core :=
  let c := { c with mat := c.mat.setAlarm tile true }
  if c.csr.cctl.getLsbD 3 then
    let f : Failure :=
      { grp := t.grp, bundle := t.bundle, cause := 0x57, tval := wordOf tile, topc := t.pcb, slot := t.slot,
        units := accUnits tile (tileSpan c.mat tile), macros := [] }
    { c with failures := insertFailure f c.failures }
  else c

/-! ### MMODE and MPAGE (R291, R292) -/

/-- MMODE: the modes change when its group ends, for every later group (R291). -/
def execMmode (o : FMC) (s : State) : Host.Outcome State Fault Refusal :=
  let i : Instr := .mmode o
  let m := o.mac.toNat
  let n := o.ct.toNat + 1
  let macs := macRun m n
  let k := macCheck s.core s.cycle true macs
  let k := { k with faults := k.faults.filter fun f => f.1 != 0x50 }
  let bits := macs.foldl (fun b j => b ||| 2 ^ j) 0
  let p := (planM s i [] (8 * n)).macroCheck k macs
  runPlan i s
    { p with
      faults := p.faults ++ slotFault (macRunBad m n) 0x58 i
      stall := p.stall.orElse fun _ => if inFlightBefore s macs.contains then some .macroBusy else none
      eff := fun t =>
        let b := BitVec.ofNat 256 bits
        t.setCore { t.core with ends := t.core.ends ++ [.modes (if o.fn = 0 then 0 else b) b] } }

def execMpageRd (o : FMC) (s : State) : Host.Outcome State Fault Refusal :=
  let i : Instr := .mpageRd o
  let r := o.raw.toNat
  let pid := pageOfMac s o.mac.toNat (r.testBit 2) (r % 4)
  runPlan i s
    { planM s i [o.sa] 8 with
      rd := []
      tw := spanUnits s.view false o.sa
      macros := [o.mac.toNat]
      eff := trackM (.pageRd pid (o.fn != 0) o.sa.start.toNat o.sa.w) }

def execMpageClr (o : FMC) (s : State) : Host.Outcome State Fault Refusal :=
  let i : Instr := .mpageClr o
  let m := o.mac.toNat
  let r := o.raw.toNat
  let pid := pageOfMac s m (r.testBit 2) (r % 4)
  runPlan i s
    { (planM s i [] 512).macroCheck (macCheck s.core s.cycle true [m]) [m] with
      eff := trackM (.pageClr m pid) }

/-! ### MLOAD (R54, R293) -/

/-- A leaf that may serve a near-bank source (R54). -/
def nearLeaf (x : Xlat) (who : Walker) (asid : BitVec 16) (va : Nat) : Bool :=
  match lookup x who asid va with
  | .hit t => t.leaf.getLsbD 10 && t.leaf.getLsbD 11 && decide (21 ≤ t.log)
  | _ => false

def execMload (o : FML) (s : State) : Host.Outcome State Fault Refusal :=
  let i : Instr := .mload o
  let m := o.mac.toNat
  let n := if o.ty = .n8 then 1024 else 16384
  let a := wordOf (mVal s o.src)
  let pid := pageOfMac s m o.half o.page.toNat
  let near := a.toNat / 2 ^ 60 = 0
  let x : Access := if near then access s .read a n else { place := .nowhere, faults := rangeTest s a n }
  let cross := near && decide ((a.toNat + n - 1) / 2 ^ 21 != a.toNat / 2 ^ 21)
  let mapped := near && !x.walks && x.faults.isEmpty
  let plain := mapped && (pagesOf a.toNat n).any fun p =>
    !nearLeaf s.xlat s.core.walker s.core.csr.tasid p.1
  let p := planM s i [o.src] (if o.ty = .n8 then 128 else 2048)
  let p := { p with
    faults := p.faults ++ slotFault (a.toNat % 64 != 0) 0x58 i ++ (if cross then [(0x51, a)] else []) ++
      (if !near || plain then [(0x52, a)] else [])
    eff := fun t => t.track .m (.reload m pid o.ty a x.runs o.evict.toNat) .relaxed x.so x.uo }
  let k := macCheck s.core s.cycle true [m]
  runPlan i s ((p.macroCheck k [m]).reach .read x)

/-! ### Latches and firing (R295 to R298, R303) -/

def execMlatch (o : FMV) (s : State) : Host.Outcome State Fault Refusal :=
  let i : Instr := .mlatch o
  let v := s.view
  let h := mVal s o.sa
  let top := if o.ty = .mxf4 then 3 else 1
  let a := vop v.csr false o.vs
  let es := vread v (a.regOf 0)
  let sc := vread v (a.regOf 1)
  let code (r : Nat) : Nat :=
    if o.ty = .mxf4 then wrapI 8 (mxf4Int (elemN 4 es (256 * h + r))) else elemN 8 es (256 * h + r)
  let l : Latch :=
    { act := BitVec.ofNat 2048 (packN 8 256 code),
      scales := BitVec.ofNat 64 (packN 8 8 fun b => elemN 32 sc (8 * h + b) % 256), fmt := o.ty }
  let p := planM s i [o.sa] 64
  let srcs := [a.regOf 0, a.regOf 1]
  runPlan i s
    { p with
      rd := p.rd ++ planeUnits (physOf v.csr srcs)
      faults := p.faults ++ vopFaults v i 2 srcs [] ++ slotFault (a.groupBad 2) 0x10 i ++
        slotFault (decide (top < h)) 0x58 i
      eff := fun t => t.putLatch o.latch.toNat l }

def execMdot (o : FMA) (s : State) : Host.Outcome State Fault Refusal :=
  let i : Instr := .mdot o
  let m := o.mac.toNat
  let n := o.mcnt.toNat + 1
  let l := s.core.mat.latch o.latch.toNat
  let macs := macRun m n
  let p := (planM s i [] (180 * l.planes * n)).macroCheck (macCheck s.core s.cycle true macs) macs
  runPlan i s
    { p with
      rd := p.rd ++ [⟨.latch, o.latch.toNat⟩]
      faults := p.faults ++ slotFault (macRunBad m n) 0x58 i
      eff := trackM (.dot m o.page.toNat n o.half l) }

/-- The format a page has after the reloads and clears that issued on it so far (R296). -/
def issueFormat (c : Core) (before : List Tracked) (pid : Nat) : ETy :=
  before.foldl (fun f t =>
    match t.op with
    | .reload _ q ty _ _ _ => if q = pid && ty != .n8 then ty else f
    | .pageClr _ q => if q = pid then .mxi8 else f
    | _ => f) (c.mat.pageRec pid).fmt

/-- The format of a result buffer after the dot products that issued on it so far (R298). -/
def bufferFormat (c : Core) (mac : Nat) : ETy :=
  (c.tracked.zipIdx).foldl (fun f p =>
    match p.1.op with
    | .dot m page n half _ =>
      if m ≤ mac && mac < m + n then
        issueFormat c (c.tracked.take p.2) (pageId c.shelf mac half page)
      else f
    | _ => f) (spGet .mxi8 c.mat.bufFmt mac)

def execMcoll (o : FMA) (s : State) : Host.Outcome State Fault Refusal :=
  let i : Instr := .mcoll o
  let c := s.core
  let m := o.mac.toNat
  let n := o.mcnt.toNat + 1
  let t := o.atile.toNat
  let row := (if o.half then 8 else 0) + o.latch.toNat
  let u := tileSpan c.mat t
  let cnt := n * (if o.ty = .mxf4 then 2 else 1)
  let wide := (c.mat.anchor t).isSome
  let tiles := (List.range cnt).map fun j => t + u * j
  let bad := macRunBad m n || !c.mat.nameable t ||
    tiles.any (fun k => decide (31 < k) || c.mat.inWide k != wide || !c.mat.nameable k) ||
    (macRun m n).any fun k => bufferFormat c k != o.ty
  let p := planM s i [] ((if o.ty = .mxf4 then 64 else 40) * n)
  runPlan i s
    { p with
      macros := macRun m n
      tw := accUnits t (u * cnt)
      faults := p.faults ++ slotFault bad 0x58 i
      eff := trackM (.coll t u row m n o.ty) }

/-- The words of n elements of a logical tile from element e on, as ranges of the checked words. -/
def accRanges (m : Mat) (t e n : Nat) : List (Nat × Nat) :=
  (rangeFrom t (tileSpan m t)).map fun k => (2 ^ 20 + 4096 * k + 4 * e, 4 * n)

/-- Elements that an M-slot instruction reads at issue are checked; one that cannot be corrected leaves no effect,
and its fault is delivered as that of a load from the accumulators is (R409; log 53). -/
def accRead (t e n : Nat) (eff : State → State) (s : State) : State :=
  let rs := accRanges s.core.mat t e n
  let q := eccChecks s s.core.region.toNat rs
  match rs.find? fun r => (eccBad s.core r.1 r.2).isSome with
  | none => eff q
  | some r => q.post .m 6 [] 0 (some (0x70, wordOf (0xD * 2 ^ 60 + (r.1 - 2 ^ 20))))

def execMchain (o : FMV) (s : State) : Host.Outcome State Fault Refusal :=
  let i : Instr := .mchain o
  let v := s.view
  let t := o.atile.toNat
  let k := mVal s o.sa
  let f4 := o.ty = .mxf4
  let m := fieldMode v.csr .converts o.rm o.cls
  let per := if f4 then 8 else 4
  let dr := draw v m per (256 / per)
  let blocks := (List.range 8).map fun b =>
    mxQuant f4 m.rm ((List.range 32).map fun j => lget 0 dr.words (32 * b + j))
      ((List.range 32).map fun j => s.core.mat.accValue t (256 * k + 32 * b + j))
  let code (r : Nat) : Nat :=
    let x := lget 0 (lget (0, [], 0) blocks (r / 32)).2.1 (r % 32)
    if f4 then wrapI 8 (mxf4Int x) else x
  let l : Latch :=
    { act := BitVec.ofNat 2048 (packN 8 256 code),
      scales := BitVec.ofNat 64 (packN 8 8 fun b => (lget (0, [], 0) blocks b).1), fmt := o.ty }
  let p := planM s i [o.sa] 160
  runPlan i s
    { p with
      rd := p.rd ++ accUnits t (tileSpan s.core.mat t) ++ m.units
      faults := p.faults ++ slotFault (decide (3 < k) || !s.core.mat.nameable t) 0x58 i
      eff := accRead t (256 * k) 256 fun s =>
        let s := dr.apply s
        let s := s.putLatch o.latch.toNat l
        let fl := blocks.foldl (fun f b => f ||| b.2.2) 0
        s.setCore { s.core with ends := s.core.ends ++ [.flags (BitVec.ofNat 5 fl)] } }

/-! ### The outlier list (R304) -/

/-- n bytes of the core's scratchpad as a number, from an access that passed. -/
def localNat (s : State) (x : Access) (n : Nat) : Nat := leNat (localBytes s.core x n)

/-- A pointer outside window 0xC for an instruction that reads the scratchpad (R304, R309). -/
def padOnly (s : State) (a : Word) (n : Nat) : List (Nat × Word) :=
  if a.toNat / 2 ^ 60 = 0xC then [] else (0x31, a) :: rangeTest s a n

/-- A scratchpad read of the M slot that cannot be corrected has no effect, and its fault is delivered as that of
a load from the scratchpad is (R222, R387, R409; log 53). -/
def badRead (x : Access) (n : Nat) (a : Word) (s : State) : State :=
  (localCheck x n s).post .m 6 [] 0 (some (0x70, a))

/-- MOUTL: the words are checked as they are read; what cannot be corrected is not looked at. -/
def execMoutl (o : FMV) (s : State) : Host.Outcome State Fault Refusal :=
  let i : Instr := .moutl o
  let c := s.core
  let t := o.atile.toNat
  let u := tileSpan c.mat t
  let a := wordOf (mVal s o.sa)
  let here := a.toNat / 2 ^ 60 = 0xC
  let x0 : Access := if here then access s .read a 8 else { place := .nowhere }
  let head := if x0.faults.isEmpty then localNat s x0 8 else 0
  let n := head % 512
  let headBad := head / 512 != 0 || decide (256 < n)
  let len := if headBad then 8 else 8 * (1 + n)
  let x : Access := if here then access s .read a len else { place := .nowhere }
  let list := if x.faults.isEmpty then localNat s x len else 0
  let entries := if headBad then [] else (List.range n).map fun k => wordOf (elemN 64 list (k + 1))
  let ecc := x.faults.isEmpty && localEcc c x len
  let bad := a.toNat % 8 != 0 || !c.mat.nameable t ||
    (!ecc && (headBad || entries.any fun w => decide (2 ^ 42 ≤ w.toNat)))
  let p := planM s i [o.sa] (32 + 12 * entries.length)
  let p := { p with
    tw := accUnits t u
    faults := p.faults ++ padOnly s a 8 ++ slotFault bad 0x58 i
    eff := fun q => if ecc then badRead x len a q else trackM (.outl t u entries) (localCheck x len q) }
  runPlan i s (p.reach .read x)

/-! ### The accumulator store (R299 to R302, R305) -/

def execMwideOn (o : FMC) (s : State) : Host.Outcome State Fault Refusal :=
  let i : Instr := .mwideOn o
  let t := o.ct.toNat
  let e := o.long.toInt
  let p := planM s i [] 32
  runPlan i s
    { p with
      tw := accUnits t 2
      faults := p.faults ++ slotFault (t % 2 == 1 || decide (e < -320) || decide (320 < e)) 0x58 i
      eff := trackM (.wideOn t e) }

def execMwideOff (o : FMC) (s : State) : Host.Outcome State Fault Refusal :=
  let i : Instr := .mwideOff o
  let t := o.ct.toNat
  let p := planM s i [] 32
  runPlan i s
    { p with
      tw := accUnits t 2
      faults := p.faults ++ slotFault (t % 2 == 1) 0x58 i
      eff := trackM (.wideOff t) }

def execMacz (o : FMC) (s : State) : Host.Outcome State Fault Refusal :=
  let i : Instr := .macz o
  let m := s.core.mat
  let t := o.ct.toNat
  let n := o.raw.toNat % 32 + 1
  let last := t + n - 1
  let bad := decide (31 < last) || !m.nameable t || (last % 2 == 0 && m.inWide last)
  let p := planM s i [] (16 * n)
  runPlan i s
    { p with
      tw := accUnits t n
      faults := p.faults ++ slotFault bad 0x58 i
      eff := trackM (.accZero t n) }

/-- The element count of a type, and where `sel` puts its first element (R301). -/
def selBad (ty : ETy) (sel : Nat) : Bool := decide (1024 < 64 * (sel % 16) + 4096 / ty.bits)

def execMacrd (o : FMV) (s : State) : Host.Outcome State Fault Refusal :=
  let i : Instr := .macrd o
  let v := s.view
  let mt := s.core.mat
  let t := o.atile.toNat
  let sel := mVal s o.sa
  let n := 4096 / o.ty.bits
  let rs := sel % 16
  let msk := o.latch.getLsbD 0
  let blk := mt.mask.toNat
  let m := fieldMode v.csr .converts o.rm o.cls
  let dr := draw v m (n / 128) 128
  let neg : Nat := if o.ty = .e4m3 then 0xFE else packInf (fmtOf o.ty) true
  let elem (k : Nat) : Nat × Nat :=
    let e := 64 * rs + k
    let x := mt.accValue t e
    let w := lget 0 dr.words k
    if msk && masked blk (bitsN sel 8 6) (bitsN sel 32 32) (e / 64) (e % 64) then (neg, 0)
    else if o.ty.isInt then
      let b := o.ty.bits
      let r := cvtVI (-(2 ^ (b - 1))) (2 ^ (b - 1) - 1) m.rm w x
      (wrapI b r.1, r.2)
    else cvtV (fmtOf o.ty) m.rm w o.ns x
  let rs' := (List.range n).map elem
  let d := vop v.csr false o.vs
  let vals := vwrite v.csr d (packN o.ty.bits n fun k => (lget (0, 0) rs' k).1) (2 ^ 4096 - 1)
  let p := planM s i [o.sa] 64
  runPlan i s
    { p with
      rd := p.rd ++ accUnits t (tileSpan mt t) ++ m.units
      tw := planeUnits (physOf v.csr [d])
      faults := p.faults ++ vopFaults v i 2 [] [d] ++
        slotFault (selBad o.ty sel || !mt.nameable t || (msk && !mt.maskValid)) 0x58 i
      eff := accRead t (64 * rs) n fun s =>
        trackM (.planes vals (flagsOr (rs'.map Prod.snd))) (dr.apply s) }

def execMacwr (o : FMV) (s : State) : Host.Outcome State Fault Refusal :=
  let i : Instr := .macwr o
  let v := s.view
  let mt := s.core.mat
  let t := o.atile.toNat
  let sel := mVal s o.sa
  let n := 4096 / o.ty.bits
  let m := fieldMode v.csr .converts o.rm o.cls
  let rounds := o.ty = .i32 && (mt.anchor t).isNone
  let m : RMode := if rounds then m else ⟨.rne, none⟩
  let dr := draw v m (n / 128) 128
  let a := vop v.csr false o.vs
  let p := planM s i [o.sa] 64
  let rmCode := match m.rm with
    | .rne => 0
    | .rz => 1
    | .rup => 2
    | .rdn => 3
    | .rna => 4
    | .sr => 5
  runPlan i s
    { p with
      rd := p.rd ++ planeUnits (physOf v.csr [a]) ++ m.units
      tw := accUnits t (tileSpan mt t)
      faults := p.faults ++ vopFaults v i 2 [a] [] ++
        slotFault (selBad o.ty sel || !mt.nameable t) 0x58 i
      eff := fun s => trackM (.accWrite t (tileSpan mt t) (sel % 16) o.ty rmCode dr.words (vread v a))
        (dr.apply s) }

/-- The mask of MRANGE (R305). -/
def rangeMask (m : Mat) (which : Nat) : Nat :=
  if which = 2 then packN 1 32 fun t => if (m.anchor t).isSome then 1 else 0 else m.alarms.toNat

def execMrange (o : FMC) (s : State) : Host.Outcome State Fault Refusal :=
  let i : Instr := .mrange o
  let x := rangeMask s.core.mat o.fn.toNat
  runPlan i s
    { planM s i [o.sa] 8 with
      rd := []
      tw := spanUnits s.view false o.sa
      stall := if accBusy s.core then some .macroBusy else none
      eff := fun t =>
        let t := if o.fn = 1 then t.setMat { t.core.mat with alarms := 0 } else t
        trackM (.span o.sa.start.toNat o.sa.w (x % 2 ^ (4 * o.sa.w))) t }

/-! ### The storage view (R307, R308) -/

/-- The storage-view pointer of a row of a page (R46). -/
def viewPtr (region : BitVec 10) (m : Nat) (half : Bool) (page row : Nat) : Nat :=
  0xE * 2 ^ 60 + region.toNat * 2 ^ 26 + 2 ^ 25 + m * 2 ^ 17 + (if half then 2 ^ 16 else 0) +
    page * 2 ^ 14 + row * 64

/-- A tracked read-modify-write holds the bus of its macro (R269, R286). -/
def busHeld (c : Core) (m : Nat) : Bool := c.tracked.any fun t => t.grp != c.ctx.grp &&
  match t.op with
  | .rmw k .. => k == m
  | _ => false

/-- The operands of an M.S instruction: macro, page, first row, planes. -/
structure RowOp where
  m : Nat
  pid : Nat
  row : Nat
  ptr : Nat
  off : Nat
  vs : VOp

def rowOp (s : State) (o : FMS) : RowOp :=
  let m := o.mac.toNat
  let ptr := viewPtr s.core.region m o.half o.page.toNat o.row.toNat
  ⟨m, pageOfMac s m o.half o.page.toNat, o.row.toNat, ptr, ptr % 2 ^ 25, vop s.view.csr false o.vs⟩

/-- The plan that the three row instructions share: mode, segment, the run of rows, the bus. -/
def planRows (s : State) (i : Instr) (r : RowOp) (pj : Nat) : Plan :=
  let p := (planM s i [] (pj * r.vs.w)).macroCheck (macCheck s.core s.cycle false [r.m]) [r.m]
  { p with
    faults := p.faults ++ slotFault (decide (256 < r.row + r.vs.w)) 0x58 i
    stall := p.stall.orElse fun _ =>
      if busHeld s.core r.m || s.core.refetches r.m then some .macroBusy else none }

/-- The latency of a row access by MREAD or MWRITE, for which it uses the vertical bus (R97, R285). -/
def rowLat (m : Nat) : Nat := 12 + 2 * (m / 32)

def execMread (o : FMS) (s : State) : Host.Outcome State Fault Refusal :=
  let i : Instr := .mread o
  let v := s.view
  let r := rowOp s o
  let lat := rowLat r.m
  let k := viewCheck s.core s.cycle true true true r.off (64 * r.vs.w)
  let unc := k.faults.find? fun f => f.1 == 0x54
  let parity := !k.refetch.isEmpty
  let f : Option (Nat × Word) := unc.map fun q => (0x54, wordOf ((r.ptr + (q.2 - r.off)) / 8 * 8))
  let ps := r.vs.phys v.csr
  let vals := ps.zipIdx.map fun q => UVal.plane q.1 (s.core.mat.row r.pid (r.row + q.2)) (BitVec.allOnes 512)
  let p := planRows s i r 24
  let start := p.onStall
  runPlan i s
    { p with
      wr := planeUnits (physOf v.csr [r.vs])
      lat := lat
      faults := p.faults ++ vopFaults v i 2 [] [r.vs]
      stall := p.stall.orElse fun _ => if parity then some .macroBusy else none
      onStall := fun t =>
        let t := start t
        if parity then { k with wake := [] }.start t.core.region.toNat 1 t else t
      eff := fun t =>
        let i := t.core.region.toNat
        let t := t.busUseTo i (t.cycle + lat)
        let t := match unc with
          | some q => t.shelfFinding i true 1 0x54 q.2
          | none => viewRepair t i 1 true r.off (64 * r.vs.w)
        t.post .m lat (if f.isSome then [] else vals) 0 f }

/-- An MPAGE read of a page that issued before a write of it reads the record as it is now (R292). -/
def readFirst (c : Core) (pid : Nat) (t : Tracked) : Tracked :=
  match t.op with
  | .pageRd q word1 st w =>
    if q = pid then { t with op := .span st w ((c.mat.pageRec pid).word (if word1 then 1 else 0) % 2 ^ (4 * w)) }
    else t
  | _ => t

def execMwrite (o : FMS) (s : State) : Host.Outcome State Fault Refusal :=
  let i : Instr := .mwrite o
  let v := s.view
  let r := rowOp s o
  let ps := r.vs.phys v.csr
  let p := planRows s i r 24
  runPlan i s
    { p with
      rd := planeUnits (physOf v.csr [r.vs])
      faults := p.faults ++ vopFaults v i 2 [r.vs] []
      eff := fun t =>
        let x := packN 512 ps.length fun q => (planeRead v.regs (lget 0 ps q)).toNat
        let t := t.busUseTo t.core.region.toNat (t.cycle + rowLat r.m)
        let c := t.core
        t.setCore { c with
          tracked := c.tracked.map (readFirst c r.pid)
          mat := c.mat.putRows r.pid r.row ps.length x } }

def execMrmw (o : FMS) (s : State) : Host.Outcome State Fault Refusal :=
  let i : Instr := .mrmw o
  let v := s.view
  let r := rowOp s o
  let ps := r.vs.phys v.csr
  let x := packN 512 ps.length fun q => (planeRead v.regs (lget 0 ps q)).toNat
  let p := planRows s i r 48
  runPlan i s
    { p with
      rd := planeUnits (physOf v.csr [r.vs])
      tw := planeUnits (physOf v.csr [r.vs])
      faults := p.faults ++ vopFaults v i 2 [] [r.vs]
      eff := trackM (.rmw r.m r.pid r.row r.vs.w o.ty ps x) }

/-! ### Mask, segments, scrub (R309 to R311) -/

def execMmask (o : FMC) (s : State) : Host.Outcome State Fault Refusal :=
  let i : Instr := .mmask o
  let a := wordOf (mVal s o.sa)
  let here := a.toNat / 2 ^ 60 = 0xC
  let x : Access := if here then access s .read a 896 else { place := .nowhere }
  let ok := here && x.faults.isEmpty && a.toNat % 64 == 0
  let b := if ok then localNat s x 896 else 0
  let ecc := ok && localEcc s.core x 896
  let bad := if ok && !ecc then ((mskFault b).map fun v => (0x56, v)).toList else []
  let p := planM s i [o.sa] 96
  let p := { p with
    faults := p.faults ++ padOnly s a 896 ++ slotFault (a.toNat % 64 != 0) 0x58 i ++ bad
    eff := fun t =>
      if ecc then badRead x 896 a t
      else
        let t := localCheck x 896 t
        t.setMat { t.core.mat with maskValid := true, mask := BitVec.ofNat 7168 b } }
  runPlan i s (p.reach .read x)

def execMmaskClr (o : FMC) (s : State) : Host.Outcome State Fault Refusal :=
  runPlan (.mmaskClr o) s
    { planM s (.mmaskClr o) [] 96 with
      eff := fun t => t.setMat { t.core.mat with maskValid := false } }

/-- The segments that a mask names. -/
def maskSegs (o : FMC) : List Nat := (List.range 8).filter fun k => o.raw.getLsbD k

def execLwake (o : FMC) (s : State) : Host.Outcome State Fault Refusal :=
  let sh := s.core.shelf
  let segs := (maskSegs o).filter fun k => segNow sh s.cycle k == .asleep
  runPlan (.lwake o) s
    { planM s (.lwake o) [] (40000 * segs.length) with
      stall := if segs.any (remapDue s s.core.region.toNat) then some .macroBusy else none
      eff := fun t => t.wakeSegs t.core.region.toNat (maskSegs o) }

def execLsleep (o : FMC) (s : State) : Host.Outcome State Fault Refusal :=
  let sh := s.core.shelf
  let segs := maskSegs o
  let waking := segs.any fun k => match segNow sh s.cycle k with
    | .waking _ => true
    | _ => false
  let busy := inFlightBefore s fun m => segs.contains (m / 32)
  runPlan (.lsleep o) s
    { planM s (.lsleep o) [] (400 * (segs.filter fun k => segNow sh s.cycle k != .asleep).length) with
      stall := if waking then some .segment else if busy then some .macroBusy else none
      eff := fun t => t.setCore { t.core with
        shelf := { t.core.shelf with segs := segs.foldl (fun l k => lset l k .asleep) t.core.shelf.segs } } }

def execMscrub (o : FMC) (s : State) : Host.Outcome State Fault Refusal :=
  let i : Instr := .mscrub o
  let m := o.mac.toNat
  let r := o.raw.toNat
  runPlan i s
    { (planM s i [] 1024).macroCheck (macCheck s.core s.cycle true [m]) [m] with
      eff := trackM (.scrub m (pageOfMac s m (r.testBit 2) (r % 4))) }

end Sys2Proof.Machine
end

