-- ==== Sys2Proof/Machine/MatrixDone.lean ====
section
/-! DEFINITION. The completion of tracked M-slot operations, the scrub, refetches, wakes, and the testing and
repair of the vertical bus (R268, R269, R279, R280, R284 to R286, R293, R294, R297, R298, R308, R311). -/

namespace Sys2Proof.Machine

/-- No operation issued earlier needs the same half or buffer (R268, R297). -/
def columnFree (c : Core) (k : Nat) (op : TOp) : Bool :=
  let mine := op.column c.shelf
  !(c.tracked.take k).any fun t => (t.op.column c.shelf).any fun u => mine.contains u

/-- The k-th tracked operation, when nothing of its half or buffer stands before it and no refetch is in its
way (R283). -/
def columnOp (s : State) (k : Nat) : Option Tracked :=
  match s.core.tracked[k]? with
  | none => none
  | some t => if t.slot == 4 && columnFree s.core k t.op && !underRefetch s.core t.op then some t else none

/-- A tracked operation is done. -/
def Core.untrack (c : Core) (t : Tracked) : Core := { c with tracked := c.tracked.erase t }

def wakePending (c : Core) (cycle : Nat) (macs : List Nat) : Bool :=
  macs.any fun m => segNow c.shelf cycle (m / 32) != .awake

/-- MLOAD_COMPLETE: the image is read, after the accesses of its core that it must follow, and the page or scale
store filled (R293, R294, R331, R332, R335). -/
def execMloadComplete (k : Nat) (s : State) : Host.Outcome State Fault Refusal :=
  match columnOp s k with
  | none => .next s
  | some t =>
    match t.op with
    | .reload m pid ty va runs evict =>
      let pa := (runs.map Prod.fst).headD 0
      if (accessReady s.core k).isNone then .next s
      else match cohRead s runs evict with
      | .wait s => .next s
      | .done s b =>
        let b := s.core.overlay runs b
        let mt := if ty = .n8 then s.core.mat.loadScales pid pa b else s.core.mat.loadPage pid ty pa b
        .next (s.setCore ({ s.core with mat := mt }.untrack t))
      | .fail s cause =>
        let mt := if ty = .n8 then s.core.mat.clearScales pid else s.core.mat.clearPage pid
        .next (s.setCore ({ s.core with mat := mt }.recordFailure t cause va [m]))
    | _ => .next s

/-- MDOT_COMPLETE: every macro of the run has its block results (R274, R296). -/
def execMdotComplete (k : Nat) (s : State) : Host.Outcome State Fault Refusal :=
  match columnOp s k with
  | none => .next s
  | some t =>
    match t.op with
    | .dot m page n half l =>
      let c := s.core
      let mt := (rangeFrom m n).foldl (fun mt j => fireMacro mt l j (pageId c.shelf j half page)) c.mat
      .next (s.setCore ({ c with mat := mt }.untrack t))
    | _ => .next s

/-- MCOLL_COMPLETE: the buffers are added, in ascending order (R224, R298). -/
def execMcollComplete (k : Nat) (s : State) : Host.Outcome State Fault Refusal :=
  match columnOp s k with
  | none => .next s
  | some t =>
    match t.op with
    | .coll tile u row m n ty =>
      let c := s.core
      let step := u * (if ty = .mxf4 then 2 else 1)
      let r := (List.range n).foldl (fun (q : AccRes × List Nat) j =>
        let x := collectMacro q.1.mat (tile + step * j) u row (m + j) ty
        (⟨x.1.mat, q.1.flags ||| x.1.flags, false⟩, q.2 ++ x.2)) (⟨c.mat, 0, false⟩, [])
      let c := ({ c with mat := r.1.mat }.untrack t).orFlags r.1.flags
      .next (s.setCore (r.2.eraseDups.foldl (raiseAlarm t) c))
    | _ => .next s

/-- OUTLIER_LIST_COMPLETE: the entries are added in list order (R275, R304). -/
def execOutlierListComplete (k : Nat) (s : State) : Host.Outcome State Fault Refusal :=
  match columnOp s k with
  | none => .next s
  | some t =>
    match t.op with
    | .outl tile _ es =>
      let c := s.core
      let r := es.foldl (fun r x => outlierAdd r tile x) ⟨c.mat, 0, false⟩
      let c := ({ c with mat := r.mat }.untrack t).orFlags r.flags
      .next (s.setCore (if r.alarm then raiseAlarm t c tile else c))
    | _ => .next s

/-! ### The others -/

/-- MACWR's write of its elements (R302). -/
def accWriteAll (m : Mat) (t rs : Nat) (ty : ETy) (rm : Nat) (ws : List Nat) (v : Nat) : AccRes :=
  (List.range (4096 / ty.bits)).foldl (fun (r : AccRes) k =>
    let e := 64 * rs + k
    let x := macwrValue ty (elemN ty.bits v k)
    match r.mat.anchor t with
    | some x0 =>
      let q := wideAdd r.mat t e x0 0 x
      ⟨q.mat, r.flags ||| q.flags, r.alarm || q.alarm⟩
    | none =>
      let q := cvtV fmtF32 (Rm.ofCode rm) (lget 0 ws k) false x
      ⟨r.mat.setAccWord t e (BitVec.ofNat 32 q.1), r.flags ||| q.2, r.alarm⟩) ⟨m, 0, false⟩

/-- Elements of a logical tile that are written whole have fresh checks (R409). -/
def Core.healAcc (c : Core) (t u e n : Nat) : Core :=
  let f (l : Sparse WordErr) (k : Nat) :=
    spClear (2 ^ 17 + 512 * k + (e + 1) / 2) ((e + n) / 2 - (e + 1) / 2) l
  { c with ecc := (rangeFrom t u).foldl f c.ecc }

/-- The words of rows of a page that hold an error of a kind. -/
def errWords (m : Mat) (pid row n : Nat) (e : WordErr) : List Nat :=
  (m.errs.filter fun x => x.2 == e && decide (8 * (256 * pid + row) ≤ x.1) &&
    decide (x.1 < 8 * (256 * pid + row + n))).map Prod.fst

/-- The logical macro at a physical position; none for a spare out of use or a regular position moved. -/
def macroAt (sh : Shelf) (pos : Nat) : Option Nat :=
  (List.range 256).find? fun m => 34 * (m / 32) + macroPos sh m == pos

/-- The storage-view offset of a word of a physical page. A position that no logical macro has is reported with a
macro number that the spec does not give, a free value (log 81). -/
def State.viewOff (s : State) (pid row word : Nat) : Nat :=
  let m := (macroAt s.core.shelf (pid / 8)).getD ((Config.freeValue s.free).toNat % 256)
  m * 2 ^ 17 + pid / 4 % 2 * 2 ^ 16 + pid % 4 * 2 ^ 14 + row % 256 * 64 + word % 8 * 8

/-- One finding of the core's column, at word `key` of its errors (R279, R281, R411). -/
def State.matFinding (s : State) (unc : Bool) (src cause key : Nat) : State :=
  let t := s.shelfFinding s.core.region.toNat unc src cause (s.viewOff (key / 2048) (key / 8) key)
  if (macroAt s.core.shelf (key / 2048 / 8)).isSome then t else { t with free := t.free + 1 }

/-- One finding of the scrub (R279, R280): logged, and corrected or refetched where it can be. -/
def scrubFinding (pid : Nat) (s : State) (e : Nat × WordErr) : State :=
  let s := s.matFinding (e.2 == .uncorrectable) 0 0 e.1
  let m := s.core.mat
  s.setMat (match e.2 with
    | .parity => if m.refetch.contains pid then m else { m with refetch := m.refetch ++ [pid] }
    | .correctable => { m with errs := m.errs.filter fun x => x.1 != e.1 }
    | .uncorrectable => m)

/-- The scrub of rows of a page. -/
def scrubRows (s : State) (pid row n : Nat) : State :=
  let hit := s.core.mat.errs.filter fun x => decide (8 * (256 * pid + row) ≤ x.1) &&
    decide (x.1 < 8 * (256 * pid + row + n))
  hit.foldl (scrubFinding pid) s

/-- MRMW's read, addition and write (R307). -/
def rowsAdd (m : Mat) (pid row : Nat) (ty : ETy) (w v : Nat) : Mat :=
  m.putRows pid row w (packN 512 w fun q =>
    packN ty.bits (512 / ty.bits) fun k =>
      elemN ty.bits (m.row pid (row + q)).toNat k + elemN ty.bits (elemN 512 v q) k)

/-- The planes of a result land at once, and those written whole have fresh checks (R409). -/
def landAll (c : Core) (vals : List UVal) : Core := (vals.foldl landVal c).heal (vals.flatMap UVal.whole)

/-- TRACKED_M_SLOT_OPERATION_COMPLETE: every tracked M-slot operation without an event of its own. -/
def execTrackedMSlotOperationComplete (k : Nat) (s : State) : Host.Outcome State Fault Refusal :=
  let no : Host.Outcome State Fault Refusal := .next s
  match columnOp s k with
  | none => no
  | some t =>
    let c := s.core
    let done (c : Core) : Host.Outcome State Fault Refusal := .next (s.setCore (c.untrack t))
    match t.op with
    | .pageRd pid word1 st w => done (c.putSpan st w ((c.mat.pageRec pid).word (if word1 then 1 else 0)))
    | .span st w v => done (c.putSpan st w v)
    | .pageClr _ pid => done { c with mat := c.mat.clearPage pid }
    | .accZero t0 n =>
      let m := (rangeFrom t0 n).foldl (fun m j => (m.zeroTile j).setAlarm j false) c.mat
      done ({ c with mat := m }.healAcc t0 n 0 1024)
    | .wideOn t0 e =>
      let m := (c.mat.zeroTile t0).zeroTile (t0 + 1)
      let m := (m.setAlarm t0 false).setAlarm (t0 + 1) false
      done ({ c with mat := { m with wide := lset m.wide (t0 / 2) (some e) } }.healAcc t0 2 0 1024)
    | .wideOff t0 =>
      let r := wideOff c.mat t0
      done ({ c with mat := r.mat }.orFlags r.flags)
    | .accWrite t0 u rs ty rm ws v =>
      let r := accWriteAll c.mat t0 rs ty rm ws v
      let c := (({ c with mat := r.mat }.untrack t).orFlags r.flags).healAcc t0 u (64 * rs) (4096 / ty.bits)
      .next (s.setCore (if r.alarm then raiseAlarm t c t0 else c))
    | .planes vals fl =>
      let c := landAll c vals
      done { c with csr := { c.csr with fpstat := c.csr.fpstat ||| fl } }
    | .scrub m pid =>
      if wakePending c s.cycle [m] then no
      else
        let s := scrubRows s pid 0 256
        .next (s.setCore (s.core.untrack t))
    | .rmw m pid row w ty ps v =>
      match errWords c.mat pid row w .uncorrectable with
      | e :: es =>
        let q := es.foldl min e
        let s := s.matFinding true 1 0x54 q
        .next (s.setCore (s.core.recordFailure t 0x54
          (wordOf (0xE * 2 ^ 60 + c.region.toNat * 2 ^ 26 + 2 ^ 25 + s.viewOff (q / 2048) (q / 8) q)) []))
      | [] =>
        match errWords c.mat pid row w .parity with
        | [] =>
          let off := m * 2 ^ 17 + pid / 4 % 2 * 2 ^ 16 + pid % 4 * 2 ^ 14 + 64 * row
          let s := viewRepair s c.region.toNat 1 true off (64 * w)
          let c := s.core
          let old := (List.range w).map fun q => UVal.plane (lget 0 ps q) (c.mat.row pid (row + q))
            (BitVec.allOnes 512)
          .next (s.setCore ((landAll { c with mat := rowsAdd c.mat pid row ty w v } old).untrack t))
        | es =>
          let s := es.foldl (fun s e => s.matFinding false 1 0 e) s
          .next (s.setMat { s.core.mat with refetch := s.core.mat.refetch ++ [pid] })
    | _ => no

/-! ### Refetch, wakes and the background scrub (R279, R280, R284) -/

/-- PARITY_REFETCH_COMPLETE: the oldest refetch restores its page's clean words; a failed one is over, is logged, and
is a machine check with the physical address (R408), which a core that is stopped already does not take again. -/
def execParityRefetchComplete (s : State) : Host.Outcome State Fault Refusal :=
  match s.core.mat.refetch with
  | [] => .next s
  | pid :: _ =>
    let r := s.core.mat.pageRec pid
    if r.loaded then
      match cohRead s [(r.wsrc.toNat, 16384)] 0 with
      | .wait s => .next s
      | .done s b => .next (s.setMat (s.core.mat.refetchPage pid (some b)))
      | .fail s cause =>
        let t := (s.setMat (s.core.mat.losePage pid)).matFinding true 3 cause (2048 * pid)
        .next (if s.core.run = .stopped then t else machineCheck t 2 cause (r.wsrc.setWidth 64))
    else .next (s.setMat (s.core.mat.refetchPage pid none))

/-- SEGMENT_WAKE_COMPLETE: a waking segment whose time has come is awake. -/
def execSegmentWakeComplete (seg : BitVec 3) (s : State) : Host.Outcome State Fault Refusal :=
  match lget .awake s.core.shelf.segs seg.toNat with
  | .waking t =>
    let sh := s.core.shelf
    .next (if t ≤ s.cycle then
        s.setCore { s.core with shelf := { sh with segs := lset sh.segs seg.toNat .awake } }
      else s)
  | _ => .next s

/-- The place the background scrub reads next: position of 272, page of 8, row of 256. -/
def scrubPlaces : Nat := 272 * 8 * 256

/-- A position is retired: a regular one that a valid REMAP entry has moved, or a spare that the catalogue
retires (R280, R282). -/
def posRetired (s : State) (pos : Nat) : Bool :=
  let c := s.core
  if pos % 34 < 32 then (macroAt c.shelf pos).isNone
  else (spGet 0 s.plat.spares (lget 0 s.plat.aSites c.region.toNat)).getLsbD (2 * (pos / 34) + (pos % 34 - 32))

/-- SCRUB_TICK: one row of one page is read, unless its segment sleeps or its position is retired. A busy half
makes the read wait, and after one whole period it goes ahead of what is queued there (R280). -/
def execScrubTick (s : State) : Host.Outcome State Fault Refusal :=
  let c := s.core
  let sh := c.shelf
  if !sh.scrubEn || c.kind == .g then .next s
  else
    let p := sh.scrubPos % scrubPlaces
    let pos := p / 2048
    let on : State := s.setCore { c with shelf := { sh with scrubPos := (p + 1) % scrubPlaces, scrubWait := false } }
    let busy := c.tracked.any fun t => (t.op.column sh).contains (true, p / 256 / 4)
    if segNow sh s.cycle (pos / 34) != .awake || posRetired s pos then .next on
    else if c.mat.refetch.any (fun q => q / 8 == pos) then .next s
    else if busy && !sh.scrubWait then .next (s.setCore { c with shelf := { sh with scrubWait := true } })
    else .next (scrubRows on (p / 256) (p % 256) 1)

/-! ### The vertical bus (R285, R286) -/

/-- The bus is quiet: no operation of the column in flight, a row access of MREAD or MWRITE included, and no lock
held. -/
def busQuiet (s : State) : Bool := !inFlight s (fun _ => true) && decide (s.core.shelf.busLast ≤ s.cycle)

/-- CANARY_MEASURE: a drift above the limit schedules a repair of the region. -/
def execCanaryMeasure (region : BitVec 3) (drift : BitVec 8) (s : State) : Host.Outcome State Fault Refusal :=
  let sh := s.core.shelf
  let r := region.toNat
  if sh.canlim.toNat < drift.toNat && !sh.repairRegions.contains r then
    .next (s.setCore { s.core with shelf := { sh with repairRegions := sh.repairRegions ++ [r] } })
  else .next s

/-- TEMPERATURE_SWING: the temperature of the bus; one too far from that of its last test marks it. -/
def execTemperatureSwing (temp : Int) (s : State) : Host.Outcome State Fault Refusal :=
  let sh := s.core.shelf
  let far := decide ((sh.tswing.toNat : Int) < (temp - sh.testTemp).natAbs)
  .next (s.setCore { s.core with shelf := { sh with temp := temp, retestPending := sh.retestPending || far } })

/-- A 16-bit count that saturates. -/
def satInc (v : BitVec 16) : BitVec 16 := if v = 0xFFFF then v else v + 1

/-- The bus has been idle for 1,024 core cycles (R285). -/
def busIdle (s : State) : Bool := busQuiet s && decide (s.core.shelf.busLast + 1024 ≤ s.cycle)

/-- BUS_RETEST: it takes the temperature of its test. -/
def execBusRetest (s : State) : Host.Outcome State Fault Refusal :=
  let sh := s.core.shelf
  if sh.retestPending && busIdle s then
    .next (s.setCore { s.core with
      shelf := { sh with retestPending := false, retests := satInc sh.retests, testTemp := sh.temp } })
  else .next s

/-- BUS_REPAIR: spare lanes replace the lanes of the oldest region due that fail the margin; a lane that
finds no spare left is a machine check. -/
def execBusRepair (failing : Nat) (s : State) : Host.Outcome State Fault Refusal :=
  let sh := s.core.shelf
  match sh.repairRegions with
  | [] => .next s
  | r :: rs =>
    if !busQuiet s then .next s
    else
      let sh := { sh with repairRegions := rs, repairs := satInc sh.repairs,
                          lanesUsed := min 64 (sh.lanesUsed + failing) }
      let t := s.setCore { s.core with shelf := sh }
      if 64 < s.core.shelf.lanesUsed + failing then
        -- the catalogue has no field for a lane of a bus: recording it raises the sequence number (log 82)
        .next (machineCheck { t with plat := { t.plat with catalogue := t.plat.catalogue.rewrite } } 4 0 0)
      else .next t

end Sys2Proof.Machine
end

