-- ==== Sys2Proof/Machine/Pool.lean ====
section
/-! DEFINITION. The ready pool as data: node descriptors, the check and loading of graph images, launches,
triggers, retirement, abandonment, and the start of a virtual core (R346 to R359, R362, R407, R430). -/

namespace Sys2Proof.Machine

def State.setPool (s : State) (p : Pool) : State := { s with pool := p }

/-! ### Node descriptors (R346, R347) -/

/-- Bits of a word of a descriptor. -/
def dBits (d : BitVec 512) (word lo len : Nat) : Nat := bitsN d.toNat (64 * word + lo) len

def dEntry (d : BitVec 512) : Nat := dBits d 0 0 64
def dShoff (d : BitVec 512) : Nat := dBits d 1 32 12
def dBkv (d : BitVec 512) : Bool := d.getLsbD 94
def dBucket (d : BitVec 512) : Nat := dBits d 1 24 6
def dSkew (d : BitVec 512) : Nat := dBits d 1 16 8
def dPrio (d : BitVec 512) : Nat := dBits d 1 13 3
def dGang (d : BitVec 512) : Bool := d.getLsbD 76
def dRes (d : BitVec 512) : Bool := d.getLsbD 75
def dKind (d : BitVec 512) : CoreKind := if d.getLsbD 74 then .g else .a
def dWidth (d : BitVec 512) : Nat := dBits d 1 0 10 + 1
def dWdog (d : BitVec 512) : Nat := dBits d 2 32 32
def dCost (d : BitVec 512) : Nat := dBits d 2 0 32
def dScrimg (d : BitVec 512) : Nat := dBits d 3 0 58
def dTidn (d : BitVec 512) : Nat := dBits d 4 21 7
def dScrlen (d : BitVec 512) : Nat := dBits d 4 0 21
def dTidimg (d : BitVec 512) : Nat := dBits d 5 0 58
def dSave (d : BitVec 512) : Nat := dBits d 6 0 52

/-- The region indices of the enabled cores of a kind, ascending (R14). -/
def coresOf (p : Platform) : CoreKind → List Nat
  | .a => List.range p.aSites.length
  | .g => rangeFrom 512 p.gSites.length

/-- A descriptor is invalid (R347). -/
def descBad (p : Platform) (d : BitVec 512) : Bool :=
  let tag := dEntry d / 2 ^ 60
  (dBits d 1 44 20 != 0 || d.getLsbD 95 || dBits d 3 58 6 != 0 || dBits d 4 28 36 != 0 ||
    dBits d 5 58 6 != 0 || dBits d 6 52 12 != 0 || dBits d 7 0 64 != 0) ||
  !((tag == 0 && decide (dEntry d % 2 ^ 60 < 2 ^ 58)) || (tag == 0xC && decide (dEntry d % 2 ^ 60 < 2 ^ 20))) ||
  dEntry d % 4 != 0 ||
  decide (2559 < dShoff d) || decide (64 < dTidn d) || decide (2 ^ 20 < dScrlen d) ||
  (dGang d && !dRes d) || (dSkew d != 0 && !dGang d) ||
  (dRes d && decide ((coresOf p (dKind d)).length < dWidth d))

/-- The positions of a node (R357). -/
def positionsOf (p : Platform) (d : BitVec 512) : Nat :=
  if dRes d then dWidth d else min (dWidth d) (coresOf p (dKind d)).length

/-- The first virtual core of a position (R358). -/
def firstV (w p k : Nat) : Nat := (k * w + p - 1) / p

/-! ### Graph images (R348, R350) -/

/-- How bytes of an image are read: offset and length. -/
abbrev ImageReader := State → Nat → Nat → EngRes (List Byte)

/-- Counts and identity of a header; none when it is invalid. -/
structure ImageHead where
  nn : Nat
  ne : Nat
  ng : Nat
  asid : BitVec 16
  root : BitVec 52

def imageHead (b : List Byte) : Option ImageHead :=
  let w := leNat b
  let nn := bitsN w 0 13
  let ng := bitsN w 32 9
  if nn = 0 || 4096 < nn || 256 < ng || bitsN w 13 3 != 0 || bitsN w 30 2 != 0 || bitsN w 41 23 != 0 ||
      bitsN w 80 48 != 0 || bitsN w 128 14 != 0 || bitsN w 180 332 != 0 then none
  else some ⟨nn, bitsN w 16 14, ng, BitVec.ofNat 16 (bitsN w 64 16),
    BitVec.ofNat 52 (bitsN w 142 38 * 2 ^ 14)⟩

def edgeOf (w : Nat) : Edge :=
  { src := bitsN w 0 12, dst := bitsN w 16 12, tie := bitsN w 28 2, g := bitsN w 32 8, sat := false }

/-- An edge breaks R350 by itself: reserved bits, order, TIE. -/
def edgeBad (nn w : Nat) : Bool :=
  let e := edgeOf w
  bitsN w 12 4 != 0 || bitsN w 30 2 != 0 || bitsN w 40 24 != 0 || e.tie == 3 ||
    !(decide (e.src < e.dst) && decide (e.dst < nn))

def groupOfBytes (w : Nat) : GroupRec :=
  { g := bitsN w 0 8, node := bitsN w 16 12, map := BitVec.ofNat 1024 (w / 2 ^ 64) }

/-- A group record breaks R350, given the records before it. -/
def groupBad (descs : List (BitVec 512)) (prev : List GroupRec) (w : Nat) : Bool :=
  let r := groupOfBytes w
  bitsN w 8 8 != 0 || bitsN w 28 36 != 0 || (prev.any fun q => q.g == r.g) ||
    decide (descs.length ≤ r.node) || r.map.toNat / 2 ^ dWidth (lget 0 descs r.node) != 0

/-- A checked list of image items: read one, test it, go on. -/
def readItems {α : Type} (rd : ImageReader) (size : Nat) (bad : List α → Nat → Bool) (of : Nat → α) :
    Nat → Nat → List α → State → EngRes (List α)
  | 0, _, acc, s => .done s acc
  | n + 1, off, acc, s =>
    (rd s off size).andThen fun s b =>
      if bad acc (leNat b) then .fail s 0x6B off
      else readItems rd size bad of n (off + size) (acc ++ [of (leNat b)]) s

/-- The words of image items, unchecked. -/
def readWords (rd : ImageReader) (size : Nat) : Nat → Nat → State → EngRes (List Nat)
  | 0, _, s => .done s []
  | n + 1, off, s =>
    (rd s off size).andThen fun s b =>
      (readWords rd size n (off + size) s).andThen fun s l => .done s (leNat b :: l)

/-- The first bad edge of an image, each edge judged whole in its turn: by itself, and an edge of TIE 2 by the
group records of the image, in which one must name its G with its FROM (R350). -/
def badEdge (nn : Nat) (es gs : List Nat) : Option Nat :=
  let loose (e : Edge) : Bool := e.tie == 2 && !gs.any fun w => (groupOfBytes w).g == e.g && (groupOfBytes w).node == e.src
  es.findIdx? fun w => edgeBad nn w || loose (edgeOf w)

/-- The first bad group record, after k good ones. -/
def badGroup (ds : List (BitVec 512)) : List GroupRec → List Nat → Option Nat
  | _, [] => none
  | prev, w :: ws =>
    if groupBad ds prev w then some prev.length else badGroup ds (prev ++ [groupOfBytes w]) ws

/-- A whole image, checked in the order of R350: header, descriptors, edges, group records. The group records are
read before the edges are judged where an edge needs them. -/
def readImage (s : State) (rd : ImageReader) : EngRes (ImageHead × List (BitVec 512) × List Edge × List GroupRec) :=
  (rd s 0 64).andThen fun s b =>
    match imageHead b with
    | none => .fail s 0x6B 0
    | some h =>
      let eo := 64 + 64 * h.nn
      let go := eo + 8 * h.ne
      (readItems rd 64 (fun _ w => descBad s.plat (BitVec.ofNat 512 w)) (BitVec.ofNat 512) h.nn 64 [] s).andThen
        fun s ds =>
        (readWords rd 8 h.ne eo s).andThen fun s es =>
          -- an edge that is bad by itself, with none of TIE 2 before it, needs no group record
          let plain := es.takeWhile fun w => (edgeOf w).tie != 2
          match plain.findIdx? (edgeBad h.nn) with
          | some k => .fail s 0x6B (eo + 8 * k)
          | none =>
            (readWords rd 136 h.ng go s).andThen fun s gs =>
              match badEdge h.nn es gs with
              | some k => .fail s 0x6B (eo + 8 * k)
              | none =>
                match badGroup ds [] gs with
                | some k => .fail s 0x6B (go + 136 * k)
                | none => .done s (h, ds, es.map edgeOf, gs.map groupOfBytes)

/-- The free node slots, ascending. -/
def freeSlots (p : Pool) : List Nat := (List.range 4096).filter fun k => (p.node k).st == .free

/-- GLOAD's effect after its checks: the lowest free slots are claimed (R350, R65). The answer is the handle. -/
def loadGraph (s : State) (rd : ImageReader) : EngRes Nat :=
  (readImage s rd).andThen fun s (h, ds, es, gs) =>
    let free := freeSlots s.pool
    match (List.range 64).find? fun k => (s.pool.graph k).st == .free with
    | none => .fail s 0x6F h.nn
    | some k =>
      if free.length < h.nn then .fail s 0x6F h.nn
      else
        let slots := free.take h.nn
        let g0 := s.pool.graph k
        let g : Graph := { g0 with st := .loaded, asid := h.asid, root := h.root, nodes := slots, edges := es,
                                   groups := gs, lcnt := 0, fail := false, err := 0 }
        let p := slots.zipIdx.foldl (fun (p : Pool) q =>
          p.setNode q.1 { nodeDefault with desc := lget 0 ds q.2, st := .loaded, graph := k, index := q.2 }) s.pool
        .done (s.setPool (p.setGraph k g)) (g.gen.toNat * 64 + k)

/-- A graph slot is current for a handle (R63). -/
def graphLive (p : Pool) (h : Nat) : Bool :=
  let g := p.graph (handleSlot h)
  (g.st == .loaded || g.st == .running) && g.gen.toNat == handleGen h

/-- The slot and its node slots are free; the generation stays. -/
def Pool.dropGraph (p : Pool) (k : Nat) : Pool :=
  let g := p.graph k
  (g.nodes.foldl (fun (p : Pool) n => p.setNode n nodeDefault) p).setGraph k { graphDefault with gen := g.gen }

/-- GLOAD.free's effect: a slot that is live drains (R64, R350). -/
def Pool.freeGraph (p : Pool) (k : Nat) : Pool :=
  let g := p.graph k
  if g.st = .loaded || g.st = .running then p.setGraph k { g with gen := g.gen + 1, st := .draining } else p

/-- A draining slot with no launch that has not retired is free, and its node slots with it; a launch that shared its
bundle with the invalidation has begun before then (R63, R350). -/
def Pool.sweep (p : Pool) : Pool :=
  (p.graphs.filter fun e => e.2.st == .draining && e.2.nodes.all fun n => (p.node n).st == .loaded).foldl
    (fun (p : Pool) e => p.dropGraph e.1) p

/-! ### Readiness, triggers, retirement (R351, R352, R354) -/

/-- A node becomes ready: the next sequence number, PRIO (R354, R355). -/
def Pool.makeReady (p : Pool) (n : Nat) : Pool :=
  let x := p.node n
  { p.setNode n { x with st := .ready, seq := p.seq, prio := dPrio x.desc, sinceReady := 0 } with seq := p.seq + 1 }

/-- Every edge of a graph that a test selects, and that is not yet satisfied, is satisfied. -/
def Pool.satisfy (p : Pool) (k : Nat) (f : Edge → Bool) : Pool :=
  let g := p.graph k
  let hit := g.edges.filter fun e => f e && !e.sat
  let p := p.setGraph k { g with edges := g.edges.map fun e => { e with sat := e.sat || f e } }
  hit.foldl (fun (p : Pool) e =>
    let n := lget 4096 g.nodes e.dst
    let x := p.node n
    let p := p.setNode n { x with pending := x.pending - 1 }
    if x.st = .waiting && x.pending ≤ 1 then p.makeReady n else p) p

/-- A launch retires once every node is over and every position is released (R351, R430): its group entries
are free, LCNT counts it, and a graph that was invalidated is free (R350). -/
def Pool.retire (p : Pool) (k : Nat) : Pool :=
  let g := p.graph k
  let ended (n : NodeSlot) : Bool :=
    (n.st == .done || n.st == .skipped || n.st == .abandoned) && n.live.isEmpty
  if (g.st == .running || g.st == .draining) && g.nodes.all fun n => ended (p.node n) then
    let p := { p with groups := p.groups.filter fun e => !(e.2.held && e.2.graph == k) }
    let p := g.nodes.foldl (fun (p : Pool) n => p.setNode n { p.node n with st := .loaded }) p
    let p := p.setGraph k { g with st := .loaded, lcnt := g.lcnt + 1 }
    if g.st = .draining then p.dropGraph k else p
  else p

/-- TRIG g of virtual core v: counted once (R364). -/
def Pool.trigGroup (p : Pool) (g v : Nat) : Pool :=
  let e := p.group g
  if e.triggered.contains v then p
  else
    let p := p.setGroup g { e with triggered := e.triggered ++ [v], tpend := e.tpend - 1 }
    if e.tpend = 1 then p.satisfy e.graph fun x => x.tie == 2 && x.g == g else p

/-- The node trigger of virtual core v: counted once (R352, R364). -/
def Pool.trigNode (p : Pool) (n v : Nat) : Pool :=
  let x := p.node n
  if x.triggered.contains v then p
  else
    let p := p.setNode n { x with triggered := x.triggered ++ [v] }
    if x.triggered.length + 1 = dWidth x.desc then p.satisfy x.graph fun e => e.tie == 1 && e.src == x.index
    else p

/-- The groups that virtual core v of a node belongs to, ascending (R362). -/
def Pool.groupsOf (p : Pool) (graph index v : Nat) : List Nat :=
  (p.groups.filter fun e => e.2.held && e.2.graph == graph && e.2.node == index && e.2.map.getLsbD v).map
    Prod.fst

/-- A node and every node that waits on it, directly or through others, is abandoned; the graph records the
first cause of the launch (R356, R369, R407). Edges run from lower to higher indices, so one pass in index
order reaches them all. -/
def Pool.abandon (p : Pool) (n cause : Nat) : Pool :=
  let x := p.node n
  let k := x.graph
  let g := p.graph k
  if x.st = .abandoned || x.st = .free then p
  else
    let dead := (rangeFrom (x.index + 1) g.nodes.length).foldl (fun dead j =>
      if (g.edges.any fun e => e.dst == j && dead.contains e.src) &&
          (p.node (lget 4096 g.nodes j)).st == .waiting then dead ++ [j] else dead) [x.index]
    let p := dead.foldl (fun (p : Pool) j =>
      let q := lget 4096 g.nodes j
      p.setNode q { p.node q with st := .abandoned, saved := [] }) p
    let g' := if g.fail then g else { g with fail := true, err := BitVec.ofNat 8 cause }
    (p.setGraph k g').retire k

/-! ### Launches (R351) -/

/-- The virtual core of a graph that is in more than four groups (R362). -/
def groupExcess (g : Graph) : Option (Nat × Word) :=
  let excess (j v : Nat) : Bool :=
    decide (4 < (g.groups.filter fun r => r.node == j && r.map.getLsbD v).length)
  firstSome (fun j => ((List.range 1024).find? (excess j)).map fun v => (0x69, wordOf (j * 1024 + v)))
    (if g.groups.length ≤ 4 then [] else List.range g.nodes.length)

/-- The fault of a launch: a virtual core in more than four groups, else an entry held by another graph (R11, R351). -/
def launchFault (p : Pool) (k : Nat) : Option (Nat × Word) :=
  let g := p.graph k
  (groupExcess g).orElse fun _ => (g.groups.find? fun r => (p.group r.g).held).map fun r => (0x6F, wordOf r.g)

/-- A launch of graph k for a bucket: groups filled, nodes skipped or waiting, the first ones ready. -/
def launchGraph (p : Pool) (k : Nat) (bucket : Option Nat) : Pool :=
  let g := p.graph k
  let skip (n : Nat) : Bool := dBkv (p.node n).desc && bucket != some (dBucket (p.node n).desc)
  let skipped := g.nodes.map skip
  let sat (e : Edge) : Bool := lget false skipped e.src
  let edges := g.edges.map fun e => { e with sat := sat e }
  let p := g.groups.foldl (fun (p : Pool) r =>
    p.setGroup r.g { groupDefault with held := true, graph := k, node := r.node, map := r.map,
                                       tpend := popN r.map.toNat 1024 }) p
  let st : GraphSt := if g.st = .draining then .draining else .running
  let p := p.setGraph k { g with st := st, edges := edges, fail := false, err := 0 }
  let p := g.nodes.zipIdx.foldl (fun (p : Pool) q =>
    let x := p.node q.1
    p.setNode q.1 { nodeDefault with
      desc := x.desc, graph := k, index := q.2,
      st := if lget false skipped q.2 then .skipped else .waiting,
      pending := (edges.filter fun e => e.dst == q.2 && !e.sat).length }) p
  let p := g.nodes.foldl (fun (p : Pool) n =>
    if (p.node n).st = .waiting && (p.node n).pending = 0 then p.makeReady n else p) p
  p.retire k

/-! ### The start of a virtual core (R359) -/

/-- The agent that copies the images of a start: node-mode accesses in the graph's address space. -/
def startAgent (i : Nat) (g : Graph) : Agent :=
  { who := ⟨i, true⟩, asid := g.asid, root := g.root.toNat, sys := false, region := i, owner := 0,
    unbound := true, evict := 0 }

/-- Stored bytes as a sparse scratchpad. -/
def padOf (bs : List Byte) : Sparse Byte :=
  (bs.zipIdx.filter fun p => p.1 != 0).map fun p => (p.2, p.1)

/-- A core as the start of virtual core v leaves it, given its images. -/
def startedCore (c : Core) (d : BitVec 512) (g : Graph) (b : Binding) (scr : List Byte)
    (tids : List (List Byte)) : Core :=
  let w := dWidth d
  let used := (dScrlen d + 16383) / 16384
  let r := Reset.regs c.kind
  let size := if c.kind = .g then 2 * 2 ^ 20 else 40 * 2 ^ 20
  let tiles := (List.range 64).foldl (fun (m : Sparse Tile) t =>
    spSet tileDefault m t { tileDefault with st := if t < used then .ready else .empty,
                                             gen := (c.copy.tile t).gen }) []
  let slots := (List.range 64).foldl (fun (m : Sparse TidSlot) k =>
    let x := c.copy.tid k
    spSet tidDefault m k (match tids[k]? with
      | some bs => { record := BitVec.ofNat 768 (leNat bs), gen := x.gen, st := .live, infl := 0, mapped := false }
      | none => { tidDefault with record := x.record, gen := x.gen, mapped := x.mapped })) []
  { c with
    run := .running, mode := .node, pc := wordOf (dEntry d), vcore := BitVec.ofNat 10 b.v,
    regs := { r with scalar := scalarWrite (scalarWrite r.scalar 48 16 b.v) 64 16 w },
    csr := { Reset.csrs with
      shoff := BitVec.ofNat 12 (dShoff d), tbase := g.root.setWidth 64, tasid := g.asid,
      tcause := c.csr.tcause, tval := c.csr.tval, tpc := c.csr.tpc, topc := c.csr.topc, tact := c.csr.tact,
      pm := c.csr.pm, tvec := c.csr.tvec, dbgctl := c.csr.dbgctl, tscr := c.csr.tscr,
      psave := BitVec.ofNat 52 (dSave d + b.pos * size) },
    copy := { Reset.copy with tiles := tiles, tids := slots },
    mat := { c.mat with acc := [], wide := List.replicate 16 none, alarms := 0, maskValid := false },
    pad := padOf scr, nodeXt := 0, sysXt := 0, inflight := [], bank := [], bankBad := false, tracked := [],
    uo := [], publish := 0, failures := [], wait := .none, stall := 0, binding := some b, gangPath := [], ends := [],
    ecc := [], inner := [] }

/-- The TID records of a node's image. -/
def startTids (a : Agent) (base : Nat) : Nat → State → EngRes (List (List Byte))
  | 0, s => .done s []
  | n + 1, s =>
    (startTids a base n s).andThen fun s l =>
      (engRead a s (base + 128 * n) 96).andThen fun s b => .done s (l ++ [b])

/-- A core lets go of its position: the committed energy returns to the pool (R356, R365). -/
def releaseCore (s : State) (i : Nat) : State :=
  match s.coreAt i with
  | none => s
  | some c =>
    match c.binding with
    | none => s
    | some b =>
      let p := s.pool
      let n := p.node b.nodeSlot
      let p := p.setNode b.nodeSlot { n with live := n.live.filter fun q => q.2 != i }
      let k := s.kiln
      let s := s.setCoreAt i { c with binding := none, run := if c.run = .stopped then .stopped else .idle,
                                      mode := .node, wait := .none, stall := 0, gangPath := [] }
      { s with pool := p.retire n.graph,
               xlat := leaveWalks s.xlat ⟨i, false⟩,
               kiln := { k with kcommit := k.kcommit - BitVec.ofNat 32 b.cost } }

/-- The virtual core that a core's binding names starts on it, once its images are read; a failure abandons
the node (log 19). -/
def startVcore (s : State) (i : Nat) : State :=
  match s.coreAt i with
  | none => s
  | some c =>
    match c.binding with
    | none => s
    | some b =>
      let n := s.pool.node b.nodeSlot
      let g := s.pool.graph n.graph
      let d := n.desc
      let a := startAgent i g
      let read := (if dScrlen d = 0 then .done s [] else engRead a s (dScrimg d) (dScrlen d)).andThen
        fun s scr => (startTids a (dTidimg d) (dTidn d) s).andThen fun s tids => .done s (scr, tids)
      match read with
      | .wait s => s
      | .fail s cause _ => releaseCore (s.setPool (s.pool.abandon b.nodeSlot cause)) i
      | .done s x =>
        match s.coreAt i with
        | none => s
        | some c => s.setCoreAt i (startedCore c d g b x.1 x.2)

/-- The core waits for its virtual core to start: it has a position and runs nothing yet. -/
def Core.startPending (c : Core) : Bool := c.binding.isSome && c.run == .idle

/-! ### The end of a virtual core (R365) -/

/-- EXIT once everything before it is done: the triggers it counts for, then the next virtual core of the
position, or the position's release; the node completes with its last virtual core. -/
def exitDone (s : State) : State :=
  match s.core.binding with
  | none => { s with core := { s.core with run := .idle, mode := .node, wait := .none } }
  | some b =>
    let i := s.core.region.toNat
    let n := s.pool.node b.nodeSlot
    let gs := s.pool.groupsOf n.graph n.index b.v
    let p := gs.foldl (fun (p : Pool) g =>
      let p := p.trigGroup g b.v
      p.setGroup g { p.group g with exited := (p.group g).exited ++ [b.v] }) s.pool
    let p := p.trigNode b.nodeSlot b.v
    let n := p.node b.nodeSlot
    let p := p.setNode b.nodeSlot { n with exited := n.exited + 1 }
    let s := gs.foldl failStaged (s.setPool p)
    let dead := n.st == .abandoned
    let more := decide (b.v + 1 < b.width) && (b.v + 1) * b.positions / b.width == b.pos && !dead
    if more then
      let b' : Binding := { b with v := b.v + 1, cycles := 0, expired := false, fired := false }
      startVcore (s.setCore { s.core with binding := some b', run := .idle, mode := .node, wait := .none }) i
    else
      let s := if n.exited + 1 = b.width && !dead then
          s.setPool ((s.pool.setNode b.nodeSlot { s.pool.node b.nodeSlot with st := .done }).satisfy n.graph
            fun e => e.tie == 0 && e.src == n.index)
        else s
      releaseCore s i

end Sys2Proof.Machine
end

