-- ==== Sys2Proof/Machine/Control.lean ====
section
/-! DEFINITION. The B slot: branches and loops, traps, waits, fences, triggers, exits, clusters, and the ends of
the waits (R69, R133, R134, R168 to R174, R203 to R205, R338, R362 to R366, R393). -/

namespace Sys2Proof.Machine

/-! ### The end of a group -/

/-- The group is over (R72, R74): its stores and lends take effect, and exposed time moves past it; what is due
before then has landed. Its stall count is still to be counted down (R94). -/
def Core.endGroup (c : Core) : Core :=
  let c := c.finishGroup
  let t := c.xt + 1
  ({ c with stall := c.ctx.stall }.setXt t).landTo (t - 1)

/-- One exposed cycle of the stall count (R94). -/
def Core.stallCycle (c : Core) : Core :=
  ({ c with stall := c.stall - 1 }.setXt (c.xt + 1)).landTo c.xt

/-- The stall count is counted down at once, where a boundary follows that is not the next group's issue. -/
def Core.expire (c : Core) : Core :=
  if c.stall = 0 then c
  else
    let t := c.xt + c.stall
    (({ c with stall := 0 }.charge c.stall).setXt t).landTo (t - 1)

/-- An instruction that issued has ended its group by itself. -/
def asEnded (r : Host.Outcome State Fault Refusal) : Host.Outcome State Fault Refusal :=
  match r with
  | .next t => .next (if t.core.report = .issued then t.report .ended else t)
  | r => r

/-! ### Header-only bundles (R69) -/

/-- An empty bundle: nothing issues, and its stall count idles the core. -/
def execEmptyBundle (join : Bool) (stall : BitVec 4) (s : State) : Host.Outcome State Fault Refusal :=
  runPlan (.emptyBundle join stall) s
    { eff := fun t =>
        let x := t.core.ctx
        t.setCore { t.core with ctx := { x with stall := max x.stall stall.toNat } } }

/-! ### Branches (R203, R204) -/

/-- The target of a displacement in words of 4 bytes. -/
def dispTarget (pcb : Word) {n : Nat} (disp : BitVec n) : Word := pcb + 4 * disp.signExtend 64

/-- The target of a form that takes a template: X where it is present (R77). -/
def longTarget (s : State) {n : Nat} (disp : BitVec n) (x : Option Word) : Word :=
  x.getD (dispTarget s.core.ctx.pcb disp)

/-- The program counter after a branch: the target with bits 1:0 clear, or the address after the group. -/
def branch (taken : Bool) (target : Word) (s : State) : State :=
  s.setCore { s.core with pc := if taken then target &&& ~~~3#64 else s.core.ctx.fall }

/-- The result of a call: x1 receives the address after the group, one exposed cycle later. -/
def linkX1 (s : State) : State := s.post .b 1 [.slices 16 16 s.core.ctx.fall.toNat]

def execBr (o : FBC) (s : State) : Host.Outcome State Fault Refusal :=
  let v := s.view
  let p := rotPred v.csr.prb o.pred.toNat
  runPlan (.br o) s
    { rd := predUnits p
      eff := branch (((predRead v.regs p).getLsbD 0) != o.neg) (longTarget s o.disp o.x) }

/-- The plan of BRZ and BRNZ. -/
def planBrz (s : State) (i : Instr) (o : FBZ) (whenZero : Bool) : Plan :=
  let v := s.view
  { rd := spanUnits v false o.sa
    faults := faultsOf [(spanBad v false o.sa, 0x10, encode i)]
    eff := branch ((valZ v false o.sa == 0) == whenZero) (dispTarget s.core.ctx.pcb o.disp) }

def execBrz (o : FBZ) (s : State) : Host.Outcome State Fault Refusal :=
  runPlan (.brz o) s (planBrz s (.brz o) o true)
def execBrnz (o : FBZ) (s : State) : Host.Outcome State Fault Refusal :=
  runPlan (.brnz o) s (planBrz s (.brnz o) o false)

def execJmp (o : FBJ) (s : State) : Host.Outcome State Fault Refusal :=
  runPlan (.jmp o) s { eff := branch true (longTarget s o.disp o.x) }

/-- The units that a call writes. -/
def x1Units : List HUnit := sliceUnits 16 16

def execCall (o : FBJ) (s : State) : Host.Outcome State Fault Refusal :=
  runPlan (.call o) s
    { wr := x1Units, lat := 1, eff := fun t => branch true (longTarget s o.disp o.x) (linkX1 t) }

/-- The plan of a branch to the value of SA and an immediate; the reading precedes the link. -/
def planIndirect (s : State) (i : Instr) (sa : SSpan) (imm : BitVec 13) (link : Bool) : Plan :=
  let v := s.view
  let target := wordOf (valZ v false sa) + 4 * imm.signExtend 64
  { rd := spanUnits v false sa
    wr := if link then x1Units else []
    lat := 1
    faults := faultsOf [(spanBad v false sa, 0x10, encode i)]
    eff := fun t => branch true target (if link then linkX1 t else t) }

def execJmpi (o : FBR) (s : State) : Host.Outcome State Fault Refusal :=
  runPlan (.jmpi o) s (planIndirect s (.jmpi o) o.sa o.imm false)
def execCalli (o : FBR) (s : State) : Host.Outcome State Fault Refusal :=
  runPlan (.calli o) s (planIndirect s (.calli o) o.sa o.imm true)
def execRet (sa : SSpan) (s : State) : Host.Outcome State Fault Refusal :=
  runPlan (.ret sa) s (planIndirect s (.ret sa) sa 0 false)

/-! ### CLOOP (R168, R205) -/

/-- The loop registers after one CLOOP with some stage live: COUNT and LPLIVE. -/
def loopNext (c : Csrs) : Nat × Nat :=
  let count := c.lpCount.toNat
  let new := if count = 0 then 0 else 1
  (count - 1, (c.lplive.toNat * 2 + new) % 2 ^ (c.lpDepth.toNat + 1))

/-- The results of one CLOOP: the loop registers, the bases, and the stage predicates under the new base. -/
def loopVals (c : Csrs) : List UVal :=
  let n := loopNext c
  let prb := c.prb - 1
  [.csr 6 (wordOf n.1) 0xFFFFFFFF, .csr 7 (wordOf n.2) 0xFFFFFFFF,
   .csr 4 ((c.vrb - 1).setWidth 64) 0xFF, .csr 5 (prb.setWidth 64) 0x1F] ++
  (List.range (c.lpDepth.toNat + 1)).map fun k =>
    .pred (rotPred prb (32 + k)) (if n.2.testBit k then predOnes else 0) predOnes

def execCloop (disp : BitVec 19) (s : State) : Host.Outcome State Fault Refusal :=
  let c := s.view.csr
  let live := c.lplive != 0
  let vals := if live then loopVals c else []
  runPlan (.cloop disp) s
    { rd := [⟨.csr, 6⟩, ⟨.csr, 7⟩, ⟨.csr, 4⟩, ⟨.csr, 5⟩]
      wr := vals.flatMap UVal.units
      lat := 1
      eff := fun t => branch (live && (loopNext c).2 != 0) (dispTarget s.core.ctx.pcb disp)
        (if live then t.post .b 1 vals else t) }

/-! ### Traps (R393) -/

/-- TRAP: every bundle of its group takes effect, and then the trap is taken. -/
def execTrap (imm : BitVec 13) (s : State) : Host.Outcome State Fault Refusal :=
  asEnded (runPlan (.trap imm) s
    { eff := fun t =>
        let t := t.setCore t.core.endGroup.expire
        takeTrap t
          { cause := 0x78, tval := imm.setWidth 64, slot := some Slot.b.num, defer := false,
            tpc := t.core.ctx.next, topc := t.core.ctx.pcb, resumeXt := t.core.nodeXt } })

/-- An instruction that waits until every result has landed: the fault that one of an earlier group delivers in
place of landing is delivered first (R222, R365, R387, R393). -/
def afterLandings (s : State) (k : Host.Outcome State Fault Refusal) : Host.Outcome State Fault Refusal :=
  let c := s.core
  match dueFault ({ c with inflight := c.inflight.filter fun r => r.grp != c.ctx.grp }.setXt (lastLanding c)) with
  | none => k
  | some r =>
    .next ((trapDeferred (s.setCore (c.dropResult r)) r.slot r.deliver.1 r.deliver.2 r.topc).report
      (.deferred r.deliver.1 r.deliver.2 r.topc r.slot))

/-- TRET. In node mode it waits for nothing: it faults. -/
def execTret (s : State) : Host.Outcome State Fault Refusal :=
  let k := asEnded (runPlan .tret s
    { faults := faultsOf [(s.core.mode == .node, 0x08, encode .tret)]
      eff := fun t => trapReturn (t.setCore t.core.endGroup.expire) })
  if s.core.mode = .node then k else afterLandings s k

/-- BKPT: a precise fault, or with HOT a halt. -/
def execBkpt (imm : BitVec 13) (s : State) : Host.Outcome State Fault Refusal :=
  runPlan (.bkpt imm) s { faults := [(0x79, imm.setWidth 64)] }

/-! ### Clusters (R170, R171, R174) -/

/-- Some unit of a list is a plane of a cluster. -/
def inCluster (k : Nat) (us : List HUnit) : Bool := us.any fun u => u.kind == .plane && clusterOf u.n == k

/-- A result without its share in the planes of a cluster. -/
def Result.dropCluster (k : Nat) (r : Result) : Result :=
  { r with vals := r.vals.filter fun v => match v with
      | .plane p _ _ => clusterOf p != k
      | _ => true }

/-- A cluster goes to sleep: its contents are discarded, and the results pending to it, held ones too (R170,
R391). -/
def Core.sleepCluster (c : Core) (k : Nat) : Core :=
  { c with
    regs := { c.regs with clusters := lset c.regs.clusters k .asleep,
                          planes := spClear (512 * k) 512 c.regs.planes },
    inflight := c.inflight.map (Result.dropCluster k),
    bank := c.bank.map (Result.dropCluster k) }

/-- RFCL on one cluster. -/
def rfclOne (mask : BitVec 5) (c : Core) (k : Nat) : Core :=
  let set (x : ClusterSt) : Core := { c with regs := { c.regs with clusters := lset c.regs.clusters k x } }
  match lget .awake c.regs.clusters k with
  | .asleep => if mask.getLsbD k then set (.waking c.mode (c.xt + 24)) else c
  | .awake => if mask.getLsbD k then c else c.sleepCluster k
  | .waking _ _ =>
    if mask.getLsbD k then c
    else if clusterAwake c.regs c.mode c.xt k then c.sleepCluster k else set .asleep

def execRfcl (mask : BitVec 5) (s : State) : Host.Outcome State Fault Refusal :=
  let c := s.core
  let busy := (rangeFrom 1 4).any fun k =>
    !mask.getLsbD k && clusterAwake c.regs c.mode c.xt k && inCluster k c.busyUnits
  runPlan (.rfcl mask) s
    { stall := if busy then some .clusterBusy else none
      eff := fun t => t.setCore ((rangeFrom 1 4).foldl (rfclOne mask) t.core) }

/-- LEND: the new owner holds from the next group on. -/
def execLend (owner : BitVec 2) (k : BitVec 3) (s : State) : Host.Outcome State Fault Refusal :=
  let c := s.core
  let pending := (s.view.inflight.any fun r => r.grp != c.ctx.grp && inCluster k.toNat r.units) ||
    (c.bank.any fun r => inCluster k.toNat r.units) || inCluster k.toNat c.busyUnits
  runPlan (.lend owner k) s
    { faults := faultsOf [(owner == 2 && c.kind == .g, 0x04, encode (.lend owner k)),
        (pending, 0x13, k.setWidth 64)]
      eff := fun t => t.setCore { t.core with ends := t.core.ends ++ [.owner k.toNat owner] } }

/-! ### Waits (R134, R338, R363, R364, R366) -/

/-- A wait begins. -/
def State.setWait (s : State) (w : BWait) (pcb : Word) : State :=
  s.setCore { s.core with wait := w, waitPcb := pcb }

/-- An instruction that has issued holds every later group until its wait ends (R338, R365). -/
def hold (w : BWait) (s : State) : State := s.setWait w s.core.ctx.pcb

/-- An instruction stalls the issue of its own group until its wait is over (R94, R363): the group then issues,
and the wait is gone. -/
def Plan.awaits (p : Plan) (passed : Bool) (why : Why) (begin : State → State) : Plan :=
  { p with
    stall := p.stall.orElse fun _ => if passed then none else some why
    onStall := fun t => if p.stall.isSome || passed then p.onStall t else begin t
    eff := fun t => p.eff (if passed then t.setWait .none t.core.waitPcb else t) }

/-- What WAITA found is taken: the entry waits for its next phase, and the next search begins behind it; 8 stands for
no entry (R134). -/
def takeFound (dst : SSpan) (k : Nat) (c : Core) : Core :=
  let copy :=
    if 8 ≤ k then c.copy
    else
      let e := c.copy.watchAt k
      { c.copy.setWatch k { e with phase := e.phase + 1 } with next := BitVec.ofNat 3 ((k + 1) % 8) }
  { c with copy := copy }.putSpan dst.start.toNat dst.w k

/-- WAITA: its group issues once its search has found something. -/
def execWaita (mask : BitVec 8) (dst : SSpan) (s : State) : Host.Outcome State Fault Refusal :=
  let v := s.view
  let got : Option Nat := match s.core.wait with
    | .found k => some k
    | _ => none
  let p : Plan :=
    { tw := spanUnits v false dst
      sync := true
      faults := faultsOf [(spanBad v false dst, 0x10, encode (.waita mask dst))]
      eff := fun t => t.setCore (takeFound dst (got.getD 8) t.core) }
  runPlan (.waita mask dst) s
    (p.awaits got.isSome .barrierWait fun t => t.setWait (.waita mask) t.core.ctx.groupPc)

/-- A tracked load, store or atomic. -/
def TOp.isMem : TOp → Bool
  | .load .. => true
  | .store .. => true
  | .atom .. => true
  | _ => false

/-- A tracked access that a FENCE orders: a load, a store, an atomic, the update of a barrier, the reading of an
MLOAD or of a GLOAD (R131, R338). -/
def TOp.isAccess : TOp → Bool
  | .load .. => true
  | .store .. => true
  | .atom .. => true
  | .barv .. => true
  | .bexp .. => true
  | .binit .. => true
  | .reload .. => true
  | .graphLoad .. => true
  | _ => false

/-- A tracked operation that has a value to read. -/
def TOp.isRead (op : TOp) : Bool :=
  op.isAccess && match op with
    | .store .. => false
    | _ => true

/-- Of what is in flight, the operations of other groups, and those of a bundle before its own, came before an
instruction. -/
def Core.before (c : Core) (t : Tracked) : Bool := t.grp != c.ctx.grp || decide (t.bundle < c.ctx.bundle)

/-- Something before an instruction is in flight. -/
def Core.earlier (c : Core) (f : TOp → Bool) : Bool := c.tracked.any fun t => c.before t && f t.op

/-- Accesses that a FENCE waits for are in flight: any, or reads without their value (R338). -/
def fenceAwaits (c : Core) (order : FenceOrder) : Bool := c.earlier (if order = .acq then TOp.isRead else TOp.isAccess)

/-- What a FENCE waits for is left: such accesses, or stores to publish (R336). -/
def fenceOpen (c : Core) (order : FenceOrder) : Bool :=
  fenceAwaits c order || (order != .acq && c.uo.any c.before)

/-- FENCE: its group issues once nothing of the groups before it is left to wait for; for what an earlier bundle of
its own group began it then holds the groups after it (R338). -/
def execFence (order : FenceOrder) (scope : Scope) (s : State) : Host.Outcome State Fault Refusal :=
  let p : Plan :=
    { sync := true
      eff := fun t => if fenceOpen t.core order then hold (.fenced order scope) t else t }
  runPlan (.fence order scope) s
    (p.awaits (s.core.wait == .passed none || !fenceOpen s.core order) .drainWait fun t =>
      t.setWait (.fence order scope) t.core.ctx.groupPc)

/-- A tracked load, store or atomic in window 0x0, 0xE or 0xF (R366). -/
def TOp.inMemClass : TOp → Bool
  | .load a .. => a.toNat / 2 ^ 60 != 0xC
  | .store a .. => a.toNat / 2 ^ 60 != 0xC
  | .atom a .. => a.toNat / 2 ^ 60 != 0xC
  | _ => false

/-- A tracked operation of a class of WAITT (R366). -/
def inClass (mask : BitVec 5) (t : Tracked) : Bool :=
  (mask.getLsbD 0 && t.op.inMemClass) || (mask.getLsbD 1 && t.slot == Slot.m.num) ||
    (mask.getLsbD 4 && match t.op with
      | .csrWrite .. => true
      | .engWrite .. => true
      | _ => false)

/-- A channel has an operation of an earlier group that WAITT waits for: a ring only while it fills. -/
def chanOpen (c : Core) (ch : Chan) : Bool :=
  let x := c.copy.chan ch
  let old (o : ChanOp) : Bool := o.grp != c.ctx.grp && !(o.isRing && o.fills.isEmpty && o.credit == 0)
  x.op.any old || x.pending.any fun o => o.grp != c.ctx.grp

/-- Operations that WAITT waits for are left. -/
def waittOpen (c : Core) (mask : BitVec 5) : Bool :=
  (c.tracked.any fun t => t.grp != c.ctx.grp && inClass mask t) ||
    (mask.getLsbD 2 && chanOpen c .a) || (mask.getLsbD 3 && chanOpen c .b)

/-- WAITT. -/
def execWaitt (mask : BitVec 5) (s : State) : Host.Outcome State Fault Refusal :=
  let p : Plan := { sync := true }
  runPlan (.waitt mask) s
    (if mask = 0 then p
     else p.awaits (s.core.wait == .passed none) .drainWait fun t => t.setWait (.waitt mask) t.core.ctx.groupPc)

/-! ### Groups of virtual cores (R364) -/

/-- A change to the count of a member's BARGs. -/
def countBarg (e : GroupEntry) (v : Nat) (f : Nat → Nat) : GroupEntry :=
  if e.bargs.any fun q => q.1 == v then
    { e with bargs := e.bargs.map fun q => if q.1 = v then (v, f q.2) else q }
  else { e with bargs := e.bargs ++ [(v, f 0)] }

/-- The BARGs a member has counted. -/
def bargsOf (e : GroupEntry) (v : Nat) : Nat := ((e.bargs.find? fun q => q.1 == v).map Prod.snd).getD 0

/-- Changes the issuing virtual core's count of BARGs on a group. -/
def State.barg (s : State) (g : Nat) (f : Nat → Nat) : State :=
  match s.core.binding with
  | none => s
  | some b => s.setPool (s.pool.setGroup g (countBarg (s.pool.group g) b.v f))

/-- BARG: it counts, and waits for the episode of its count. -/
def execBarg (g : BitVec 8) (s : State) : Host.Outcome State Fault Refusal :=
  let p : Plan := { sync := true, faults := groupFaults s g.toNat 0x6A true }
  runPlan (.barg g) s
    ((p.releases s).awaits (s.core.wait == .passed (some g)) .barrierWait fun t =>
      (t.barg g.toNat (· + 1)).setWait (.barg g) t.core.ctx.groupPc)

/-- The trigger of a group, or of the node, is counted for the running virtual core. -/
def State.trigger (s : State) (g : Option (BitVec 8)) : State :=
  match s.core.binding, g with
  | none, _ => s
  | some b, some g => s.setPool (s.pool.trigGroup g.toNat b.v)
  | some b, none => s.setPool (s.pool.trigNode b.nodeSlot b.v)

/-- A trigger is a release (R353): behind accesses of its own group it is counted once they are performed. -/
def trigIssue (g : Option (BitVec 8)) (s : State) : State :=
  if s.core.tracked.any fun q => q.op.accesses then (s.track .b (.trig g)).publish else s.trigger g

/-- TRIG. -/
def execTrig (g : BitVec 8) (s : State) : Host.Outcome State Fault Refusal :=
  let p : Plan :=
    { sync := true
      faults := groupFaults s g.toNat 0 false
      eff := trigIssue (some g) }
  runPlan (.trig g) s (p.releases s)

/-- TRIG.node. -/
def execTrigNode (s : State) : Host.Outcome State Fault Refusal :=
  let p : Plan := { sync := true, eff := trigIssue none }
  runPlan .trigNode s (p.releases s)

/-! ### EXIT (R365) -/

/-- Ends a window ring as CADV.end does, once its fills are done. -/
def endRing (s : State) (ch : Chan) : State :=
  match ringOf (s.chan ch) with
  | some r =>
    if r.fills.isEmpty && r.credit == 0 then s.setChan ch ((s.chan ch).setOp { r with ready := true }) else s
  | none => s

/-- Both channels are idle with nothing pending. -/
def Copy.idle (c : Copy) : Bool :=
  c.a.op.isNone && c.a.pending.isNone && c.b.op.isNone && c.b.pending.isNone

/-- Nothing is left of a virtual core that EXIT has ended but its end: no access, no operation of a channel, and no
result that delivers a fault in place of landing. -/
def Core.exited (c : Core) : Bool :=
  c.tracked.isEmpty && c.uo.isEmpty && c.copy.idle && (dueFault c).isNone

/-- EXIT stalls until every result of the earlier groups has landed and nothing tracked is left of them; then window
rings end, and it stalls until the channels are idle; with what its own group began it then ends the virtual core
(R363, R365). -/
def execExit (s : State) : Host.Outcome State Fault Refusal :=
  let c := s.core
  let early := c.tracked.any (fun t => t.grp != c.ctx.grp) || c.uo.any fun t => t.grp != c.ctx.grp
  afterLandings s (asEnded (runPlan .exit s
    { sync := true
      stall := if early || !s.core.copy.idle then some .exitWait else none
      onStall := fun t => if early then t.publishEarlier else endRing (endRing t .a) .b
      eff := fun t =>
        let t := (t.setCore t.core.endGroup.expire.landAll).publish
        if t.core.exited then exitDone t else hold .exit t }))

/-! ### The ends of the waits -/

/-- What a look at the watched barriers gives. -/
inductive Look where
  | hit (s : State) (w : Nat)
  | none (s : State) (any : Bool)
  | wait (s : State)
  | fail (s : State) (cause : Nat) (bar : Word)

/-- WAITA's search over entries in rotating order. -/
def lookAt (mask : BitVec 8) : List Nat → Bool → State → Look
  | [], any, s => .none s any
  | w :: ws, any, s =>
    let e := s.core.copy.watchAt w
    if !(mask.getLsbD w && e.valid) then lookAt mask ws any s
    else
      match barRead (s.core.selfAgent 0) s e.bar.toNat with
      | .wait s => .wait s
      | .fail s c _ => .fail s c e.bar
      | .done s b => if barPhase b != e.phase.toNat then .hit s w else lookAt mask ws true s

/-- The count of a BARG that waits, or has waited, is withdrawn (R363). -/
def withdraw (s : State) : State :=
  match s.core.wait with
  | .barg g => s.barg g.toNat (· - 1)
  | .passed (some g) => s.barg g.toNat (· - 1)
  | _ => s

/-- A wait that stalled its own group is given up: the group is asked again. -/
def dropWait (s : State) : State := (withdraw s).setWait .none s.core.waitPcb

/-- A wait that stalled its own group is over. -/
def passWait (s : State) (w : BWait) : State := s.setWait w s.core.waitPcb

/-- A look at the watched barriers ends WAITA's search with an entry, or with none; a barrier that cannot be read is a
failed access, which the group of the WAITA takes delivery of (R134, R197; log 44). -/
def endSearch (s : State) : Look → State
  | .wait t => t
  | .none t true => t
  | .none t false => passWait t (.found 8)
  | .hit t k => passWait t (.found k)
  | .fail t cause bar =>
    let c := t.core
    let f : Failure := { grp := c.ctx.grp, bundle := c.ctx.bundle, cause := cause, tval := bar, topc := s.core.waitPcb,
                         slot := Slot.b.num, units := [], macros := [] }
    dropWait (t.setCore { c with failures := insertFailure f c.failures })

/-- BARRIER_WAIT_END: WAITA's loop looks again. A failure that arose meanwhile is delivered by its group (R197). -/
def execBarrierWaitEnd (s : State) : Host.Outcome State Fault Refusal :=
  match s.core.wait with
  | .waita mask =>
    if !s.core.failures.isEmpty then .next (dropWait s)
    else
      let s0 := s.core.copy.next.toNat
      .next (endSearch s (lookAt mask ((List.range 8).map fun j => (s0 + j) % 8) false s))
  | _ => .next s

/-- The accesses that a FENCE waits for are performed, and what it publishes has entered the coherence order in this
very step (R336, R338); else the state in which it waits on. -/
def fenceDone (s : State) (order : FenceOrder) : State × Bool :=
  if fenceAwaits s.core order then (s, false)
  else if order = .acq then (s, true)
  else publishStores s.core.before s

/-- FENCE_COMPLETE: the group of the FENCE issues, or delivers the failure that arose meanwhile; a FENCE that has
issued lets the next group go (R197, R338). -/
def execFenceComplete (s : State) : Host.Outcome State Fault Refusal :=
  match s.core.wait with
  | .fence order _ =>
    if !s.core.failures.isEmpty then .next (dropWait s)
    else
      let r := fenceDone s order
      .next (if r.2 && r.1.core.failures.isEmpty then passWait r.1 (.passed none) else r.1)
  | .fenced order _ =>
    let r := fenceDone s order
    .next (if r.2 then passWait r.1 .none else r.1)
  | _ => .next s

/-- The episode of the waiting member's own count is complete (R364). -/
def episodeOver (e : GroupEntry) (v : Nat) : Bool :=
  let k := bargsOf e v
  (List.range 1024).all fun u => !e.map.getLsbD u || e.exited.contains u || decide (k ≤ bargsOf e u)

/-- BARG_EPISODE_COMPLETE: the group of the BARG issues. A failure that arose meanwhile is delivered first, by the
group (R363). -/
def execBargEpisodeComplete (s : State) : Host.Outcome State Fault Refusal :=
  match s.core.wait, s.core.binding with
  | .barg g, some b =>
    if !s.core.failures.isEmpty then .next (dropWait s)
    else if episodeOver (s.pool.group g.toNat) b.v then .next (s.setWait (.passed (some g)) s.core.waitPcb)
    else .next s
  | _, _ => .next s

/-- WAITT_COMPLETE: the group of the WAITT issues, or delivers the failure that arose meanwhile. -/
def execWaittComplete (s : State) : Host.Outcome State Fault Refusal :=
  match s.core.wait with
  | .waitt mask =>
    if !s.core.failures.isEmpty then .next (dropWait s)
    else if waittOpen s.core mask then .next s
    else .next (s.setWait (.passed none) s.core.waitPcb)
  | _ => .next s

/-- A wait ends without effect (R134, R338, R363, R400): its bundle is executed again on return, with its own stall
count. A FENCE that has issued waits on: what is left are accesses of its own group, which the drain that follows
performs (log 94). -/
def cancelWait (s : State) : State :=
  match s.core.wait with
  | .none => s
  | .fenced .. => s
  | _ =>
    let t := dropWait s
    t.setCore { t.core with pc := t.core.waitPcb, stall := 0 }

/-- CLUSTER_WAKE_COMPLETE: a wake whose exposed cycle has come is over; with no group due before it, exposed
time counts down to it (R94, R171). -/
def execClusterWakeComplete (k : BitVec 3) (s : State) : Host.Outcome State Fault Refusal :=
  let c := s.core
  match lget .awake c.regs.clusters k.toNat with
  | .waking m t =>
    if m == c.mode && decide (t ≤ c.xt) then
      .next (s.setCore { c with regs := { c.regs with clusters := lset c.regs.clusters k.toNat .awake } })
    else .next s
  | _ => .next s

end Sys2Proof.Machine
end

