-- ==== Sys2Proof/Machine/Fetch.lean ====
section
/-! DEFINITION. Fetch: the bytes at a program counter, the bundles of an issue group and the faults that a
bundle earns before any of its instructions is asked (R45, R66 to R77, R87). -/

namespace Sys2Proof.Machine

/-! ### Bytes (R45) -/

/-- What a fetch of bytes gives: the bytes, a fault with its address, or a wait. -/
inductive Fetched where
  | ok (s : State) (bytes : List Byte)
  | fault (s : State) (cause : Nat) (tval : Word)
  | wait (s : State)

/-- Fetch from the global window: the page must grant execute, and the lines are read coherently. -/
def fetchGlobal (s : State) (p : Word) (n : Nat) : Fetched :=
  let x := globAccess s .fetch (p.toNat % 2 ^ 60) n
  if x.walks then .wait (x.begin .fetch s)
  else match lowestFault x.faults with
    | some f => .fault s f.1 f.2
    | none =>
      match cohRead s x.runs 0 with
      | .done s b => .ok s b
      | .wait s => .wait s
      | .fail s c => .fault s c p

/-- Fetch from the own scratchpad: only from tiles of the core (R124). -/
def fetchPad (s : State) (p : Word) (n : Nat) : Fetched :=
  let off := p.toNat % 2 ^ 60
  match extentTest (2 ^ 20) off n with
  | some f => .fault s f p
  | none =>
    match lowestFault (tileFault s.core ownTile (0xC * 2 ^ 60) off n) with
    | some f => .fault s f.1 f.2
    | none =>
      let t := eccCheck s s.core.region.toNat off n
      if (eccBad s.core off n).isSome then .fault t 0x70 p
      else .ok t (areaBytes t.core .pad off n)

/-- The cause of a fetch from a window that holds no code: 0x30 in a hole of it, else 0x31; in node mode the
system window is not looked into (R43 to R46). -/
def fetchClosed (s : State) (p : Word) (n : Nat) : Nat :=
  let off := p.toNat % 2 ^ 60
  match p.toNat / 2 ^ 60 with
  | 0xD => (extentTest (if s.core.kind = .a then 2 ^ 17 else 0) off n).getD 0x31
  | 0xE =>
    match chipArea s off with
    | none => 0x30
    | some (_, ar, o) => if ar.at.2 < o + n then 0x32 else 0x31
  | 0xF => if s.core.mode == .node then 0x31 else (sysTest s off n).getD 0x31
  | _ => 0x30

/-- Fetch of n bytes at a generic pointer. -/
def fetchBytes (s : State) (p : Word) (n : Nat) : Fetched :=
  match p.toNat / 2 ^ 60 with
  | 0x0 => fetchGlobal s p n
  | 0xC => fetchPad s p n
  | _ => .fault s (fetchClosed s p n) p

/-! ### Bundles -/

/-- A bundle of a group: its header address, its header, the faults it earns by itself, whether those are of
the header alone, so that no slot is decoded (R71), the bytes after its header, and the instructions it holds, in
slot order. -/
structure Bundle where
  pcb : Word
  header : Header
  faults : List (Nat × Word × Option Nat)
  closed : Bool
  body : List Byte
  insts : List Instr

/-- The address of the 64-byte line of an address. -/
def lineStart (p : Word) : Word := p &&& ~~~63#64

/-- A bundle extends past the end of its line (R71). -/
def crosses (p : Word) (h : Header) : Bool := decide (64 < p.toNat % 64 + h.size)

/-- The bundle of a header and of the bytes after it. -/
def bundleOf (kind : CoreKind) (p : Word) (h : Header) (body : List Byte) : Bundle :=
  let ds := decodeSlots kind h body
  let bad := ds.filterMap fun d => match d.res with
    | .error 0x02 => some (0x02, h.setWidth 64, none)
    | .error c => some (c, d.word, some d.slot.num)
    | .ok _ => none
  let good := ds.filterMap fun d => match d.res with
    | .ok i => some i
    | .error _ => none
  { pcb := p, header := h, faults := bad, closed := false, body := body
    insts := if h.presBits = 0 then [.emptyBundle h.join (h.extractLsb' 12 4)] else good }

/-- A bundle whose header earns a fault. -/
def closedBundle (p : Word) (h : Header) (cause : Nat) : Bundle :=
  { pcb := p, header := h, faults := [(cause, h.setWidth 64, none)], closed := true, body := [], insts := [] }

/-- Adds a fault of the header to a bundle. -/
def Bundle.add (b : Bundle) (cause : Nat) : Bundle :=
  { b with faults := b.faults ++ [(cause, b.header.setWidth 64, none)] }

/-- A STALL that is not the group's last one (R74): an illegal header, and nothing else is tested. -/
def Bundle.checkStall (b : Bundle) : Bundle :=
  if b.header.stall = 0 then b else closedBundle b.pcb b.header 0x01

/-! ### Groups (R72 to R74) -/

/-- A group as fetch finds it: its bundles, the address after the last one, the header address of the next
group. -/
structure Group where
  bundles : List Bundle
  fall : Word
  next : Word

/-- What fetch gives at a program counter. -/
inductive GroupRes where
  | ok (s : State) (g : Group)
  | fault (s : State) (pc : Word) (cause : Nat) (tval : Word)
  | wait (s : State)

/-- The bundle at an address whose header has been fetched: the tests of the header come first (R71); then the
slots, whose bytes lie in the same line. `used` names the slots of the group's earlier bundles and `first` its
first line (R73). -/
def readBundle (s : State) (p : Word) (h : Header) (used : BitVec 8) (first : Word) :
    Option (State × Bundle) :=
  match headerFault s.core.kind h with
  | some c => some (s, closedBundle p h c)
  | none =>
    if crosses p h then some (s, closedBundle p h 0x05)
    else
      let conflict := used &&& h.presBits != 0 ||
        !(lineStart p == first || lineStart p == first + 64)
      let put (s : State) (body : List Byte) : Option (State × Bundle) :=
        let b := bundleOf s.core.kind p h body
        some (s, if conflict then b.add 0x06 else b)
      if h.size = 4 then put s []
      else match fetchBytes s (p + 4) (h.size - 4) with
        | .ok s body => put s body
        | .fault s c v =>
          let b : Bundle := { closedBundle p h 0 with faults := [(c, v, none)] }
          some (s, if conflict then b.add 0x06 else b)
        | .wait _ => none

/-- A fetch that fails where the next bundle would stand ends the group (R72), and is no access of its own: the walk
that failed is forgotten, and the group that comes there walks again (R57). -/
def skipFetch (s : State) (p : Word) : State :=
  if p.toNat / 2 ^ 60 = 0 then s.setXlat (s.xlat.forget s.core.walker s.core.csr.tasid p.toNat) else s

/-- Gathers the bundles of a group from an address on: `n` bounds the headers looked at, `bs` are the bundles found
so far, last first, and `fall` is the address after the last of them. DESIGN CHOICE (log 103): with TRCTL.FWAIT set
a translation fault of the header looked at next is waited for, and its group with it; it does not end the group. -/
def gatherGroup : Nat → State → Word → List Bundle → BitVec 8 → Word → Word → GroupRes
  | 0, s, p, bs, _, _, fall => .ok s ⟨bs.reverse, fall, p⟩
  | n + 1, s, p, bs, used, first, fall =>
    match fetchBytes s p 4 with
    | .wait s => .wait s
    | .fault s c v =>
      if bs.isEmpty then .fault s p c v else .ok (skipFetch s p) ⟨bs.reverse, fall, fall⟩
    | .ok s raw =>
      let h : Header := BitVec.ofNat 32 (leNat raw)
      if h.isFiller then gatherGroup n s (lineStart p + 64) bs used first fall
      else if !bs.isEmpty && !h.join then .ok s ⟨bs.reverse, fall, p⟩
      else
        let bs := match bs with
          | b :: r => b.checkStall :: r
          | [] => []
        let first := if bs.isEmpty then lineStart p else first
        match readBundle s p h used first with
        | none => .wait s
        | some (s, b) =>
          let after := p + BitVec.ofNat 64 h.size
          -- nothing stands behind an illegal header
          if b.closed && b.faults.any (fun f => f.1 == 1) then .ok s ⟨(b :: bs).reverse, after, after⟩
          else gatherGroup n s after (b :: bs) (used ||| h.presBits) first after

/-- The most headers that lie between an address and the end of its window. -/
def fetchFuel : Nat := 2 ^ 57

/-- The group at a program counter. Any number of fillers may stand before a group or inside it (R70, R73). -/
def fetchGroup (s : State) (pc : Word) : GroupRes := gatherGroup fetchFuel s pc [] 0 0 pc

/-- The first n bundles of a group, as a group of their own with no stall count. -/
def Group.cut (g : Group) (n : Nat) : Group :=
  match g.bundles[n]? with
  | none => g
  | some b => { bundles := g.bundles.take n, fall := b.pcb, next := b.pcb }

/-- A group that has issued, as the members of a gang follow it (R361). -/
def Group.toStep (g : Group) (due : Nat) : GangStep :=
  { due := due, bundles := g.bundles.map fun b => (b.pcb, leBytes 4 b.header.toNat ++ b.body), fall := g.fall,
    next := g.next }

/-- The group that a member of a gang executes. -/
def GangStep.group (kind : CoreKind) (e : GangStep) : Group :=
  { bundles := e.bundles.map fun q => bundleOf kind q.1 (BitVec.ofNat 32 (leNat (q.2.take 4))) (q.2.drop 4),
    fall := e.fall, next := e.next }

end Sys2Proof.Machine
end

