-- ==== Sys2Proof/Machine/Place.lean ====
section
/-! DEFINITION. Where a program stands that is loaded from outside: one bundle at the start of the scratchpad
(log 2). -/

namespace Sys2Proof.Machine

/-- The presence bit of the slot that a word of the opcode table is for (log 14). -/
def tableSlot (nbits w : Nat) : Slot :=
  match decodeTableWord nbits w with
  | some i => (slotOf i).getD .s
  | none => if nbits ≤ 32 then .b else .s

/-- The bundle that holds a word of the opcode table alone: the header, then the slot; a header-only bundle is
its word. -/
def tableBundle (nbits w : Nat) : List Byte :=
  match decodeTableWord nbits w with
  | some (.emptyBundle ..) => leBytes 4 w
  | _ =>
    let sl := tableSlot nbits w
    leBytes 4 (2 ^ sl.num) ++ leBytes sl.bytes w

/-- The energy a placed program finds: one share of configuration 0 (R414). -/
def placedShare : Nat := 17600

/-- A core with a bundle at the start of its scratchpad, about to issue it in node mode: tile 0 is ready and
core-owned, as for a virtual core whose image is loaded (R359). -/
def placeBundle (c : Core) (bytes : List Byte) : Core :=
  let c := areaWrite c .pad 0 bytes
  { c with
    run := .running, mode := .node, pc := 0xC000000000000000, wait := .none, report := .issued,
    kilnUnits := max c.kilnUnits placedShare,
    copy := c.copy.setTile 0 { c.copy.tile 0 with st := .ready, owner := 0, released := false } }

end Sys2Proof.Machine
end

