-- ==== Sys2Proof/Machine/Graphs.lean ====
section
/-! DEFINITION. GLOAD, GLOAD.free and GLAUNCH, the host's commands, and the generation sequencer (R349 to R351,
R368, R369). -/

namespace Sys2Proof.Machine

/-- The fault of a privileged form in node mode (R87, R349). -/
def privileged (s : State) (i : Instr) : List (Nat × Word) := slotFault (s.core.mode == .node) 0x08 i

/-- GLOAD: tracked; the image is read when it completes. The kinds of its pages are known only then: its place among
accesses to strongly ordered pages is kept, which is right for either kind (R335; log 95). -/
def execGload (o : FC) (s : State) : Host.Outcome State Fault Refusal :=
  let i : Instr := .gload o
  let v := s.view
  let c := s.core
  let img := wordOf (valZ v false o.sb)
  let p := planC s i [o.sb]
  runPlan i s
    { p with
      faults := p.faults ++ privileged s i ++ slotFault (spanBad v false o.sa) 0x10 i
      tw := spanUnits v false o.sa
      eff := fun t => (t.track (chanSlot o.ch)
        (.graphLoad img o.evict.toNat o.sa.start.toNat o.sa.w c.csr.tbase c.csr.tasid
          (c.mode == .sys)) (so := true)).publish }

/-- Reads ranges one after another. -/
def engReads (a : Agent) : List (Nat × Nat) → State → EngRes (List Byte)
  | [], s => .done s []
  | q :: qs, s =>
    (engRead a s q.1 q.2).andThen fun s b => (engReads a qs s).andThen fun s bs => .done s (b ++ bs)

/-- The reader of an image by virtual address, one sector at a time (R350). -/
def imageByVa (a : Agent) (img : Nat) : ImageReader := fun s off n =>
  engReads a ((List.range (pieces 64 (img + off) n)).map (piece 64 (img + off) n)) s

/-- GRAPH_LOAD_COMPLETE: the k-th tracked operation, a GLOAD with no earlier access left: the core's own earlier
stores are in its image. -/
def execGraphLoadComplete (k : Nat) (s : State) : Host.Outcome State Fault Refusal :=
  let no : Host.Outcome State Fault Refusal := .next s
  match s.core.tracked[k]? with
  | none => no
  | some t =>
    match t.op with
    | .graphLoad img ev st w tb asid sys =>
      let r := releaseStep k t s
      let s := r.1
      if !r.2 then .next s
      else if img.toNat / 2 ^ 60 != 0 then .next (s.setCore (s.core.recordFailure t 0x31 img []))
      else
        let a : Agent := { s.core.selfAgent ev with asid := asid, root := tb.toNat, sys := sys }
        match loadGraph s (imageByVa a img.toNat) with
        | .wait s => .next s
        | .fail s c ad => .next (s.setCore (s.core.recordFailure t c (wordOf ad) []))
        | .done s h =>
          .next (s.setCore ({ s.core with tracked := s.core.tracked.erase t }.putSpan st w h))
    | _ => no

/-- A graph handle that an instruction names is checked against the slots as they stood before its bundle (R63). -/
def graphNamed (s : State) (h : Nat) : Bool := graphLive { s.pool with graphs := s.core.ctx.graphs } h

/-- The fault of a stale graph handle (R63). -/
def graphStale (s : State) (h : Nat) : List (Nat × Word) :=
  if graphNamed s h then [] else [(0x40, wordOf (h % 65536))]

/-- GLOAD.free. -/
def execGloadFree (o : FC) (s : State) : Host.Outcome State Fault Refusal :=
  let i : Instr := .gloadFree o
  let h := valZ s.view false o.sa
  let p := planC s i [o.sa]
  runPlan i s
    { p with
      faults := p.faults ++ privileged s i ++ graphStale s h
      eff := fun t => t.setPool (t.pool.freeGraph (handleSlot h)) }

/-- A launch of a graph has not retired. -/
def launchOpen (p : Pool) (h : Nat) : Bool := graphLive p h && (p.graph (handleSlot h)).st == .running

/-- GLAUNCH: waits, then performs its whole effect at issue. -/
def execGlaunch (o : FC) (s : State) : Host.Outcome State Fault Refusal :=
  let i : Instr := .glaunch o
  let v := s.view
  let h := valZ v false o.sa
  let bucket := if o.fn = 1 then some (valZ v false o.sb % 64) else none
  let p := planC s i (if o.fn = 1 then [o.sa, o.sb] else [o.sa])
  let held := launchOpen s.pool h
  let checks := if held || s.core.accessesPending || !graphNamed s h then []
    else (launchFault s.pool (handleSlot h)).toList
  let p : Plan :=
    { p with
      faults := p.faults ++ privileged s i ++ graphStale s h ++ checks
      stall := if held then some .launchWait else none
      eff := fun t => t.setPool (launchGraph t.pool (handleSlot h) bucket) }
  runPlan i s (p.releases s)

/-! ### Host commands (R369) -/

/-- A command finishes: HRES holds its cause and its handle. -/
def finishCmd (s : State) (cause h : Nat) : State :=
  s.setPool { s.pool with hcmd := .none, hresCause := BitVec.ofNat 7 cause, hresHandle := BitVec.ofNat 16 h }

/-- The reader of an image by physical address. -/
def imageByPa (pa : Nat) : ImageReader := fun s off n =>
  if paOk s.plat (pa + off) then (cohRead s [(pa + off, n)] 0).eng (pa + off) else .fail s 0x35 (pa + off)

/-- A command that is in progress, or that begins now: none where another one is in progress, which ignores
it, or where the part takes nothing (R369, R420). -/
def cmdTurn (s : State) (cmd : HostCmd) : Bool :=
  !s.plat.recovery && (s.pool.hcmd == .none || s.pool.hcmd == cmd)

/-- HCMD_LOAD. -/
def execHcmdLoad (pa : Word) (s : State) : Host.Outcome State Fault Refusal :=
  if !cmdTurn s (.load pa) then .next s
  else
    let s := s.setPool { s.pool with hcmd := .load pa }
    if !s.plat.poolUp then .next s
    else match loadGraph s (imageByPa pa.toNat) with
      | .wait s => .next s
      | .fail s c _ => .next (finishCmd s c 0)
      | .done s h => .next (finishCmd s 0 h)

/-- HCMD_LAUNCH: waits as GLAUNCH waits. -/
def execHcmdLaunch (h : BitVec 16) (bucket : Option (BitVec 6)) (s : State) : Host.Outcome State Fault Refusal :=
  if !cmdTurn s (.launch h bucket) then .next s
  else
    let s := s.setPool { s.pool with hcmd := .launch h bucket }
    let n := h.toNat
    if !s.plat.poolUp then .next s
    else if !graphLive s.pool n then .next (finishCmd s 0x40 n)
    else if launchOpen s.pool n then .next s
    else match launchFault s.pool (handleSlot n) with
      | some f => .next (finishCmd s f.1 n)
      | none =>
        .next (finishCmd (s.setPool (launchGraph s.pool (handleSlot n) (bucket.map BitVec.toNat))) 0 n)

/-- HCMD_FREE. -/
def execHcmdFree (h : BitVec 16) (s : State) : Host.Outcome State Fault Refusal :=
  if !cmdTurn s (.free h) then .next s
  else
    let s := s.setPool { s.pool with hcmd := .free h }
    let n := h.toNat
    if !s.plat.poolUp then .next s
    else if !graphLive s.pool n then .next (finishCmd s 0x40 n)
    else .next (finishCmd (s.setPool (s.pool.freeGraph (handleSlot n))) 0 n)

/-! ### The generation sequencer (R368) -/

/-- The lowest bucket entry that OCC and DLEN match. -/
def chooseBucket (p : Pool) : Option (Nat × Bucket) :=
  if p.occ = 0 then none
  else ((List.range 64).map fun b => (b, spGet bucketDefault p.buckets b)).find? fun e =>
    e.2.valid && decide (e.2.occLo ≤ p.occ) && decide (p.occ ≤ e.2.occHi) && decide (e.2.dlenLo ≤ p.dlen) &&
      decide (p.dlen ≤ e.2.dlenHi)

/-- The sequencer stops: STOP, EN clear, the vector. -/
def seqHalt (s : State) : State :=
  (s.setPool { s.pool with seqStop := true, seqEn := false, seqSeen := false, seqJob := none }).send
    (.msix s.pool.seqVec)

/-- The sequencer's launch of an entry's graph, waiting as GLAUNCH does; the advance is served when it is over. -/
def seqLaunch (s : State) (bucket : BitVec 6) (graph : BitVec 16) : State :=
  let p := s.pool
  let h := graph.toNat
  let s' := s.setPool { p with seqJob := some (bucket, graph) }
  if !graphLive p h then seqHalt s
  else if launchOpen p h then s'
  else if (launchFault p (handleSlot h)).isSome then seqHalt s
  else s.setPool (launchGraph { p with seqJob := none } (handleSlot h) (some bucket.toNat))

/-- SEQUENCER_LAUNCH: a launch that waits is looked at again; else one look at SEQBAR, and an advance that is due
is observed, reads OCC and DLEN, chooses its entry and launches one graph. -/
def execSequencerLaunch (s : State) : Host.Outcome State Fault Refusal :=
  match s.pool.seqJob with
  | some (k, g) => .next (seqLaunch s k g)
  | none =>
    if !s.pool.seqEn then .next s
    else
      match barRead (bulkAgent s s.pool.seqAsid 0) s s.pool.seqBar.toNat with
      | .wait s => .next s
      | .fail s _ _ => .next (seqHalt s)
      | .done s b =>
        let p := s.pool
        let ph := BitVec.ofNat 4 (barPhase b)
        if !p.seqSeen then .next (s.setPool { p with seqSeen := true, seqPhase := ph })
        else if ph = p.seqPhase then .next s
        else match chooseBucket p with
          | none => .next (seqHalt s)
          | some (k, e) =>
            .next (seqLaunch (s.setPool { p with seqPhase := p.seqPhase + 1 }) (BitVec.ofNat 6 k) e.graph)

end Sys2Proof.Machine
end

