-- ==== Sys2Proof/Machine/Context.lean ====
section
/-! DEFINITION. Pre-emption: the context record of a position, its saving and its restoring (R399 to R407,
R430). -/

namespace Sys2Proof.Machine

/-! ### Physical reads and writes of the pool -/

/-- Reads bytes of physical memory. -/
def physRead (s : State) (pa n : Nat) : EngRes (List Byte) :=
  if n = 0 then .done s []
  else if !(paOk s.plat pa && paOk s.plat (pa + n - 1)) then .fail s 0x35 pa
  else (cohRead s [(pa, n)] 0).eng pa

/-- Writes bytes of physical memory. -/
def physWrite (s : State) (pa : Nat) (bs : List Byte) : EngRes Unit :=
  let n := bs.length
  if n = 0 then .done s ()
  else if !(paOk s.plat pa && paOk s.plat (pa + n - 1)) then .fail s 0x35 pa
  else ((cohWrite s [(pa, n)] 0 bs).eng pa).andThen fun s _ => .done s ()

/-- Writes a list of areas. -/
def physWriteAll (base : Nat) : List (Nat × List Byte) → State → EngRes Unit
  | [], s => .done s ()
  | a :: as, s => (physWrite s (base + a.1) a.2).andThen fun s _ => physWriteAll base as s

/-! ### The snapshot bank (R391, R403) -/

/-- One unit word's worth of a result: kind, first unit, count, data bytes, and the mask of the nibbles that
are written. -/
structure UnitRun where
  kind : Nat
  start : Nat
  count : Nat
  data : List Byte
  mask : List Bool

/-- Data padded to 8 bytes. -/
def pad8 (bs : List Byte) : List Byte := bs ++ List.replicate ((8 - bs.length % 8) % 8) 0

/-- The nibbles of a mask of bits: written if some bit is. -/
def nibblesOf (n mask : Nat) : List Bool := (List.range n).map fun k => bitsN mask (4 * k) 4 != 0

/-- The image of one class state. -/
def genImage (g : GenClass) : List Byte :=
  leBytes 8 ((if g.ramp then 128 else 0) + g.d.toNat) ++ leBytes 512 g.seed.toNat ++ leBytes 512 g.run.toNat

/-- A masked value as data: the bits of a unit that are not written stand as the unit holds them. -/
def merged {n : Nat} (old v mask : BitVec n) : Nat := ((old &&& ~~~mask) ||| (v &&& mask)).toNat

/-- One share of a result as a run. -/
def runOf (c : Core) : UVal → UnitRun
  | .slices st w v =>
    let bs := pad8 (leBytes ((w + 1) / 2) (v % 2 ^ (4 * w)))
    ⟨0, st, w, bs, List.replicate (2 * bs.length) true⟩
  | .plane p v m =>
    ⟨1, p, 1, leBytes 64 (merged (planeRead c.regs p) v m), nibblesOf 128 m.toNat⟩
  | .pred p v m => ⟨2, p, 1, leBytes 128 (merged (predRead c.regs p) v m), nibblesOf 256 m.toNat⟩
  | .stream q lanes tag =>
    let bs := lanes.flatMap (fun l => leBytes 64 l.toNat) ++ leBytes 8 (tagWord tag)
    ⟨3, q, 1, bs, List.replicate (2 * bs.length) true⟩
  | .gen k g =>
    let bs := genImage g
    ⟨4, k, 1, bs, List.replicate (2 * bs.length) true⟩
  | .csr n v m => ⟨5, n, 1, leBytes 8 (merged ((c.csrRead n).getD 0) v m), nibblesOf 16 m.toNat⟩

/-- The most units of a kind that one unit word counts. -/
def runMax (kind : Nat) : Nat := if kind = 1 then 8 else if kind = 2 then 32 else 1

/-- Consecutive planes and predicates share a unit word. -/
def joinRuns : List UnitRun → List UnitRun
  | [] => []
  | r :: rs =>
    match joinRuns rs with
    | [] => [r]
    | q :: qs =>
      if r.kind = q.kind && r.start + r.count = q.start && r.count + q.count ≤ runMax r.kind then
        ⟨r.kind, r.start, r.count + q.count, r.data ++ q.data, r.mask ++ q.mask⟩ :: qs
      else r :: q :: qs

def runsOf (c : Core) (r : Result) : List UnitRun := joinRuns (r.vals.map (runOf c))

/-- A mask of nibbles as bytes. -/
def maskImage (m : List Bool) : List Byte :=
  leBytes (m.length / 8) (packN 1 m.length fun k => if lget false m k then 1 else 0)

/-- The data of a result, with its mask where some nibble is not written. -/
def resultData (rs : List UnitRun) : List Byte × Bool :=
  let mask := rs.flatMap fun r => r.mask
  let masked := mask.any fun b => !b
  (rs.flatMap (fun r => r.data) ++ (if masked then pad8 (maskImage mask) else []), masked)

/-- A descriptor. -/
def descImage (c : Core) (r : Result) (off : Nat) : List Byte :=
  let rs := runsOf c r
  let masked := (resultData rs).2
  let w0 := r.flags.toNat + (r.land - c.nodeXt) % 256 * 2 ^ 8 + r.slot % 8 * 2 ^ 16 +
    (if masked then 2 ^ 19 else 0) + (rs.length - 1) % 8 * 2 ^ 20 + off % 2 ^ 32 * 2 ^ 32
  let unit (k : Nat) : Nat :=
    match rs[k]? with
    | some u => u.kind + u.start % 4096 * 2 ^ 3 + (u.count - 1) % 64 * 2 ^ 15
    | none => 0
  leBytes 8 w0 ++ (List.range 7).flatMap fun k => leBytes 8 (unit k)

/-- Descriptors and data pool of the results held; a result that carries a fault is no result of a unit
(log 23). -/
def bankImage (c : Core) : List Byte × List Byte × Nat :=
  let held := c.bank.filter fun r => r.fault.isNone
  let r := held.foldl (fun (a : List Byte × List Byte) r =>
    (a.1 ++ descImage c r a.2.length, a.2 ++ (resultData (runsOf c r)).1)) ([], [])
  (r.1, r.2, held.length)

/-- One share of a result from its unit word and its data: `at'` gives the data bytes, `on` the nibbles. -/
def valsOf (kind start count : Nat) (at' : Nat → Nat → Nat) (on : Nat → Bool) : List UVal :=
  let maskN (lo n : Nat) : Nat := packN 4 n fun k => if on (lo + k) then 15 else 0
  match kind with
  | 0 => [.slices start count (at' 0 ((count + 1) / 2) % 2 ^ (4 * count))]
  | 1 => (List.range count).map fun k =>
      .plane (start + k) (BitVec.ofNat 512 (at' (64 * k) 64)) (BitVec.ofNat 512 (maskN (128 * k) 128))
  | 2 => (List.range count).map fun k =>
      .pred (start + k) (BitVec.ofNat 1024 (at' (128 * k) 128)) (BitVec.ofNat 1024 (maskN (256 * k) 256))
  | 3 => [.stream start ((List.range 128).map fun l => BitVec.ofNat 512 (at' (64 * l) 64)) (tagOf (at' 8192 8))]
  | 4 => [.gen start { ramp := (at' 0 1).testBit 7, d := BitVec.ofNat 4 (at' 0 1),
                       seed := BitVec.ofNat 4096 (at' 8 512), run := BitVec.ofNat 4096 (at' 520 512) }]
  | _ => [.csr start (wordOf (at' 0 8)) (BitVec.ofNat 64 (maskN 0 16))]

/-- The size of a run's data. -/
def runBytesOf (kind count : Nat) : Nat :=
  match kind with
  | 0 => ((count + 1) / 2 + 7) / 8 * 8
  | 1 => 64 * count
  | 2 => 128 * count
  | 3 => 8200
  | 4 => 1032
  | _ => 8

/-- The results of a saved bank: they land on an exposed time that begins at 0. The header of the instruction
a result came from is not in the record: it is a free value (log 23). -/
def bankOf (n : Nat) (descs pool : List Byte) (free : Nat) : List Result :=
  (List.range n).map fun e =>
    let w (k : Nat) : Nat := bytesWord descs (64 * e + 8 * k)
    let off := bitsN (w 0) 32 32
    let runs := (List.range (bitsN (w 0) 20 3 + 1)).map fun k =>
      (bitsN (w (k + 1)) 0 3, bitsN (w (k + 1)) 3 12, bitsN (w (k + 1)) 15 6 + 1)
    let sizes := runs.map fun r => runBytesOf r.1 r.2.2
    let total := sizes.foldl (· + ·) 0
    let masked := (w 0).testBit 19
    let bytes (lo m : Nat) : Nat := leNat ((pool.drop (off + lo)).take m)
    let vals := runs.zipIdx.flatMap fun q =>
      let base := (sizes.take q.2).foldl (· + ·) 0
      let on (k : Nat) : Bool :=
        !masked || (bytes (total + (2 * base + k) / 8) 1).testBit ((2 * base + k) % 8)
      valsOf q.1.1 q.1.2.1 q.1.2.2 (fun lo m => bytes (base + lo) m) on
    { land := bitsN (w 0) 8 8, grp := 0, bundle := e, slot := bitsN (w 0) 16 3, vals := vals,
      flags := BitVec.ofNat 5 (w 0), fault := none, topc := Config.freeValue (free + e) }

/-! ### Engine sets (R119, R402) -/

/-- The registers of a set, with what the model keeps beside them in reserved register 10 (log 21). -/
def setImage (r : Nat → Word) (o : Option ChanOp) (aux : BitVec 12) (record : BitVec 768) : List Byte :=
  let extra := aux.toNat + (match o with
    | some o => if o.sys then 2 ^ 16 else 0
    | none => 0)
  (List.range 16).flatMap (fun k => leBytes 8 (if k = 10 then extra else (r k).toNat)) ++ leBytes 96 record.toNat

/-- The three sets of a channel. -/
def chanImage (x : ChanState) : List (Nat × List Byte) :=
  let recOf (o : Option ChanOp) : BitVec 768 := (o.map ChanOp.record).getD 0
  let pend (k : Nat) : Word := match x.pending with
    | some o => o.regs.get k
    | none => 0
  [(0, setImage x.activeReg x.op x.active.aux (recOf x.op)),
   (256, setImage x.shadow.get none x.shadow.aux 0),
   (512, setImage pend x.pending ((x.pending.map fun o => o.regs.aux).getD 0) (recOf x.pending))]

/-- The registers of a set from its image. -/
def engOf (bs : List Byte) : EngRegs :=
  let w (k : Nat) : Word := wordOf (bytesWord bs (8 * k))
  let r := (List.range 8).foldl (fun (r : EngRegs) k => r.set k (w k)) Reset.engRegs
  { r with aux := BitVec.ofNat 12 (bytesWord bs 80) }

/-- An operation from its saved registers and record: a paused ring or a staged collective from the active
set, anything from the pending set. -/
def opOf (bs : List Byte) (active : Bool) : ChanOp :=
  let r := engOf bs
  let k := r.kind
  let n := r.tcnt
  let record : BitVec 768 := BitVec.ofNat 768 (leNat ((bs.drop 128).take 96))
  let tileH := if k = 2 then r.esrc else r.edst
  let tidH := if k = 2 then r.edst else r.esrc
  let windows := k == 1 || k == 2 || k == 3
  let tiles := if windows then rangeFrom (handleSlot tileH.toNat) n else []
  let size := collSize k (r.aux.toNat / 256)
  let ring := k == 3 && !active
  let org := origins r
  let start := lset org r.kdim ((lget 0 org r.kdim + 2 ^ 32 - n * recWin record r.kdim % 2 ^ 32) % 2 ^ 32)
  let owed :=
    match k with
    | 0 => pieces 32 r.edst.toNat r.elen.toNat
    | 1 => windowUnits record
    | 2 => windowUnits record
    | 3 => if active then 0 else n * windowUnits record
    | 4 => pieces 32 r.edst.toNat (r.elen.toNat * size)
    | 5 => pieces 32 r.edst.toNat (r.elen.toNat * size)
    | 6 => r.elen.toNat / 32
    | _ => 0
  { regs := r, sys := (bytesWord bs 80).testBit 16, record := record,
    tid := if windows then some (handleSlot tidH.toNat) else none, tiles := tiles,
    barrier := if r.ebar = 0 then none else some r.ebar.toNat, owed := owed, credit := 0, pos := 0,
    ringN := if k = 3 then n else 0,
    fills := if ring then (List.range n).map fun j =>
      (tiles.headD 0 + j, ringOrigin record r.kdim start j) else [],
    filled := 0, ready := false, failing := none, grp := 0, image := [], srcErr := none }

/-- A channel from its saved sets; a pending operation starts where the channel is idle (R119). -/
def chanOf (act sh pend : List Byte) : ChanState :=
  let st := bytesWord act 64
  let x : ChanState :=
    { shadow := engOf sh
      pending := if st.testBit 2 then some (opOf pend false) else none
      active := engOf act
      op := if bitsN st 0 2 = 1 then some (opOf act true) else none
      done := BitVec.ofNat 32 (st / 2 ^ 32), cause := BitVec.ofNat 7 (st / 2 ^ 8), err := bitsN st 0 2 == 2
      efaddr := wordOf (bytesWord act 72), paused := false }
  x.startPending

/-! ### The record (R402, R404) -/

/-- The logical pages of a core: macro, half, page. -/
def logicalPages : List (Nat × Nat × Nat) :=
  (List.range 256).flatMap fun m => (List.range 2).flatMap fun h => (List.range 4).map fun g => (m, h, g)

def pageOfLog (c : Core) (p : Nat × Nat × Nat) : Nat := pageId c.shelf p.1 (p.2.1 == 1) p.2.2

/-- The dirty pages, in logical order. -/
def dirtyPages (c : Core) : List (Nat × Nat × Nat) :=
  if c.mat.recs.any fun e => e.2.dirty then
    logicalPages.filter fun p => (c.mat.pageRec (pageOfLog c p)).dirty
  else []

/-- The bytes of a page in storage-view layout. -/
def pageImage (c : Core) (pid : Nat) : List Byte :=
  (List.range 256).flatMap fun r => leBytes 64 (c.mat.row pid r).toNat

/-- One dirty-page entry. -/
def dirtyEntry (c : Core) (j : Nat) (p : Nat × Nat × Nat) : List (Nat × List Byte) :=
  let pid := pageOfLog c p
  let base := 0x400000 + 17408 * j
  [(base, leBytes 64 (p.1 + p.2.1 * 256 + p.2.2 * 512)),
   (base + 64, (List.range 256).map fun r => spGet 0 c.mat.written (256 * pid + r)),
   (base + 1024, pageImage c pid)]

/-- The header of the record, but for VALID's word. -/
def headImage (c : Core) (b : Binding) (snapn : Nat) (f : Option Failure) : List (Nat × List Byte) :=
  let word (off n : Nat) : Nat × List Byte := (off, leBytes 8 n)
  [word 0x008 c.pc.toNat, word 0x010 (c.stall % 16 + snapn * 2 ^ 8),
   word 0x018 (match f with
     | some f => 2 ^ 63 + f.cause % 128
     | none => 0),
   word 0x020 (match f with
     | some f => f.tval.toNat
     | none => 0),
   word 0x028 (match f with
     | some f => f.topc.toNat
     | none => 0)] ++
  (List.range 10).map (fun k => word (0x040 + 8 * k) ((c.csrRead k).getD 0).toNat) ++
  [word 0x090 c.csr.tbase.toNat, word 0x098 c.csr.tasid.toNat] ++
  (List.range 4).map (fun k => word (0x0A0 + 8 * k) (lget 0 c.csr.tscr k).toNat) ++
  [word 0x100 (packN 1 32 (fun t => if t % 2 = 0 && (lget none c.mat.wide (t / 2)).isSome then 1 else 0) +
     c.mat.alarms.toNat * 2 ^ 32),
   (0x108, (List.range 16).flatMap fun p => leBytes 2 (wrapI 16 ((lget none c.mat.wide p).getD 0)))] ++
  (List.range 64).map (fun t => word (0x200 + 8 * t) (tidWord c.copy t)) ++
  [word 0x000 (1 + (dirtyPages c).length % 65536 * 2 ^ 16 + b.v % 1024 * 2 ^ 32)]

/-- The M-state areas, which a G-node's record does not have. -/
def matImage (c : Core) : List (Nat × List Byte) :=
  let m := c.mat
  let awake := packN 1 8 fun k => if segNow c.shelf 0 k = .asleep then 0 else 1
  (List.range 8).map (fun n =>
    let l := m.latch n
    (0xC000 + 512 * n, leBytes 256 l.act.toNat ++ leBytes 8 l.scales.toNat ++ [l.fmt.code.setWidth 8])) ++
  [(0xD000, leBytes 896 m.mask.toNat ++ [if m.maskValid then 1 else 0]),
   (0xE000, leBytes 32 m.modes.toNat ++ leBytes 1 awake),
   (0x80000, areaBytes c .acc 0 131072),
   (0xA0000, logicalPages.flatMap fun p =>
     let r := m.pageRec (pageOfLog c p)
     leBytes 8 (r.word 0) ++ leBytes 8 (r.word 1))] ++
  (List.range 256).flatMap (fun k =>
    let word (o b : Nat) : Nat :=
      let r := spGet blockDefault m.bufs ((102 * k + o) * 8 + b)
      wrapI 21 r.p + wrapI 10 r.x * 2 ^ 32 + (if r.nan then 2 ^ 63 else 0)
    [(0x200000 + 8192 * k, (List.range 102).flatMap fun o => (List.range 8).flatMap fun b =>
        leBytes 8 (word o b)),
     (0x200000 + 8192 * k + 8191, [(spGet ETy.mxi8 m.bufFmt k).code.setWidth 8])]) ++
  (dirtyPages c).zipIdx.flatMap fun p => dirtyEntry c p.2 p.1

/-- A result that would deliver a fault, and a failure recorded: what the record carries (R402; log 23). -/
def heldFailure (c : Core) : Option Failure :=
  (c.failures.head?).orElse fun _ =>
    (c.bank.find? fun r => r.fault.isSome).map fun r =>
      { grp := r.grp, bundle := r.bundle, cause := r.deliver.1, tval := r.deliver.2, topc := r.topc,
        slot := r.slot, units := [], macros := [] }

/-- Every area of the record of a core's position. -/
def recordImage (c : Core) (b : Binding) : List (Nat × List Byte) :=
  let bank := bankImage c
  let sets (x : ChanState) (base : Nat) : List (Nat × List Byte) :=
    (chanImage x).map fun p => (0x1200 + base + p.1, p.2)
  [(0x1000, areaBytes c .slices 0 256), (0x1100, areaBytes c .watch 0 256)] ++
  sets c.copy.a 0 ++ sets c.copy.b 768 ++
  [(0x1800, areaBytes c .tiles 0 1024), (0x2000, areaBytes c .preds 0 8192), (0x4000, areaBytes c .tids 0 8192),
   (0x6000, areaBytes c .tags 0 64),
   (0x6040, (List.range 16).map fun k =>
     let g := genRead c.regs k
     BitVec.ofNat 8 ((if g.ramp then 128 else 0) + g.d.toNat)),
   (0x8000, (List.range 16).flatMap fun k =>
     leBytes 512 (genRead c.regs k).seed.toNat ++ leBytes 512 (genRead c.regs k).run.toNat),
   (0x10000, areaBytes c .streams 0 65536), (0x20000, areaBytes c .vec 0 163840),
   (0x48000, bank.1), (0x4C000, bank.2.1), (0x100000, areaBytes c .pad 0 1048576)] ++
  (if c.kind = .a then matImage c else []) ++ headImage c b bank.2.2 (heldFailure c)

/-! ### Restoring (R405) -/

/-- A provenance record from its words. -/
def recOfWords (w0 w1 : Nat) : PageRec :=
  { loaded := w0.testBit 61, fmt := if bitsN w0 57 4 = 0xE then .mxf4 else .mxi8, dirty := w0.testBit 63,
    wsrc := BitVec.ofNat 52 w0, ssrc := BitVec.ofNat 52 w1 }

/-- The scales of a page from its source. -/
def restoreScales (c : Core) (pid : Nat) (r : PageRec) (s : State) : EngRes Core :=
  if r.ssrc = 0 then .done s { c with mat := c.mat.clearScales pid }
  else (physRead s r.ssrc.toNat 1024).andThen fun s b =>
    .done s { c with mat := c.mat.loadScales pid r.ssrc.toNat b }

/-- One clean page: kept where its record stands, else fetched again. -/
def restoreClean (c : Core) (pid : Nat) (r : PageRec) (s : State) : EngRes Core :=
  if c.mat.pageRec pid = r then .done s c
  else
    let c := { c with mat := c.mat.clearPage pid }
    (if r.loaded then (physRead s r.wsrc.toNat 16384).andThen fun s b =>
        .done s { c with mat := c.mat.loadPage pid r.fmt r.wsrc.toNat b }
      else .done s c).andThen fun s c =>
    (restoreScales c pid r s).andThen fun s c => .done s { c with mat := c.mat.setRec pid r }

/-- One dirty page from its entry; its scales as those of a clean page. -/
def restoreDirty (base : Nat) (c : Core) (j pid : Nat) (r : PageRec) (s : State) : EngRes Core :=
  let e := base + 0x400000 + 17408 * j
  (physRead s (e + 64) 256).andThen fun s map =>
  (physRead s (e + 1024) 16384).andThen fun s img =>
    let same := (c.mat.pageRec pid).ssrc == r.ssrc
    (if same then .done s c else restoreScales c pid r s).andThen fun s c =>
      let m := c.mat
      let rows := (List.range 256).foldl (fun t k =>
        spSet 0 t (256 * pid + k) (BitVec.ofNat 512 (leNat ((img.drop (64 * k)).take 64)))) m.rows
      let written := (List.range 256).foldl (fun t k => spSet 0 t (256 * pid + k) (lget 0 map k)) m.written
      let m := { m with rows := rows, written := written, errs := spClear (2048 * pid) 2048 m.errs }
      .done s { c with mat := m.setRec pid r }

/-- Every page, in logical order; dirty pages take the entries in turn. -/
def restorePages (base : Nat) (recs : List Byte) : List (Nat × Nat × Nat) → Nat → Core → State → EngRes Core
  | [], _, c, s => .done s c
  | p :: ps, j, c, s =>
    let off := 128 * p.1 + 16 * (4 * p.2.1 + p.2.2)
    let r := recOfWords (bytesWord recs off) (bytesWord recs (off + 8))
    let pid := pageOfLog c p
    (if r.dirty then restoreDirty base c j pid r s else restoreClean c pid r s).andThen fun s c =>
      restorePages base recs ps (if r.dirty then j + 1 else j) c s

/-- The result buffers of every macro. -/
def restoreBufs (base : Nat) : Nat → Mat → State → EngRes Mat
  | 0, m, s => .done s m
  | k + 1, m, s =>
    (restoreBufs base k m s).andThen fun s m =>
      (physRead s (base + 0x200000 + 8192 * k) 8192).andThen fun s bs =>
        let bufs := (List.range (102 * 8)).foldl (fun t i =>
          let w := bytesWord bs (8 * i)
          spSet blockDefault t (102 * 8 * k + i)
            { p := toSigned 21 (bitsN w 0 21), x := toSigned 10 (bitsN w 32 10), nan := w.testBit 63 }) m.bufs
        let fmt : ETy := if (lget 0 bs 8191).toNat = 0xE then .mxf4 else .mxi8
        .done s { m with bufs := bufs, bufFmt := spSet .mxi8 m.bufFmt k fmt }

/-- The M-state of a record. -/
def restoreMat (base : Nat) (head : List Byte) (c : Core) (s : State) : EngRes Core :=
  (physRead s (base + 0xC000) 4096).andThen fun s lat =>
  (physRead s (base + 0xD000) 897).andThen fun s mask =>
  (physRead s (base + 0xE000) 33).andThen fun s modes =>
  (physRead s (base + 0x80000) 131072).andThen fun s acc =>
  (physRead s (base + 0xA0000) 32768).andThen fun s recs =>
    -- every segment is awake while the pages are written
    let c := { c with shelf := { c.shelf with segs := List.replicate 8 .awake } }
    (restoreBufs base 256 c.mat s).andThen fun s m =>
      let latches := (List.range 8).foldl (fun t n =>
        let b := lat.drop (512 * n)
        spSet latchDefault t n
          { act := BitVec.ofNat 2048 (leNat (b.take 256)), scales := BitVec.ofNat 64 (bytesWord b 256),
            fmt := if (lget 0 b 264).toNat = 0xE then .mxf4 else .mxi8 }) []
      let w := bytesWord head 0x100
      let m := { m with
        latches := latches, mask := BitVec.ofNat 7168 (leNat (mask.take 896)),
        maskValid := (lget 0 mask 896).getLsbD 0,
        wide := (List.range 16).map fun p =>
          if w.testBit (2 * p) then some (toSigned 16 (leNat ((head.drop (0x108 + 2 * p)).take 2))) else none,
        alarms := BitVec.ofNat 32 (w / 2 ^ 32) }
      let c := areaWrite { c with mat := { m with acc := [] } } .acc 0 acc
      (restorePages base recs logicalPages 0 c s).andThen fun s c =>
        let awake := (lget 0 modes 32).toNat
        let seg (k : Nat) : SegSt := if awake.testBit k then .awake else .asleep
        .done s { c with mat := { c.mat with modes := BitVec.ofNat 256 (leNat (modes.take 32)) },
                         shelf := { c.shelf with segs := (List.range 8).map seg } }

/-- A tile from its saved word. -/
def tileOf (w : Nat) : Tile :=
  { st := match w % 4 with
      | 0 => .empty
      | 1 => .filling
      | 2 => .ready
      | _ => .draining
    owner := BitVec.ofNat 2 (w / 4), released := w.testBit 4, gen := BitVec.ofNat 10 (w / 2 ^ 22),
    infl := bitsN w 32 8 }

/-- A TID slot from its saved word and record. DESIGN CHOICE (log 91): a record that is not zero is checked as one
that the map wrote, since the image does not say which it is. -/
def tidOf (w : Nat) (rec' : List Byte) : TidSlot :=
  { record := BitVec.ofNat 768 (leNat rec'), gen := BitVec.ofNat 10 (w / 2 ^ 16), infl := bitsN w 8 8,
    mapped := leNat rec' != 0,
    st := match w % 4 with
      | 0 => .free
      | 1 => .live
      | _ => .draining }

/-- Tile table, TID table, watch table and channels of a record. -/
def restoreCopy (base : Nat) (head : List Byte) (c : Core) (s : State) : EngRes Core :=
  (physRead s (base + 0x1100) 256).andThen fun s watch =>
  (physRead s (base + 0x1200) 1536).andThen fun s eng =>
  (physRead s (base + 0x1800) 1024).andThen fun s tiles =>
  (physRead s (base + 0x4000) 8192).andThen fun s tids =>
    let copy : Copy := { Reset.copy with
      tiles := (List.range 64).foldl (fun t k =>
        spSet tileDefault t k (tileOf (bytesWord tiles (16 * k)))) []
      tids := (List.range 64).foldl (fun t k =>
        spSet tidDefault t k (tidOf (bytesWord head (0x200 + 8 * k)) ((tids.drop (128 * k)).take 96))) [] }
    let set (k : Nat) : List Byte := (eng.drop (256 * k)).take 224
    let copy := { copy with a := chanOf (set 0) (set 1) (set 2), b := chanOf (set 3) (set 4) (set 5) }
    .done s (areaWrite { c with copy := copy } .watch 0 watch)

/-- The register files and the scratchpad of a record. -/
def restoreRegs (base : Nat) (head : List Byte) (c : Core) (s : State) : EngRes Core :=
  (physRead s (base + 0x1000) 256).andThen fun s sl =>
  (physRead s (base + 0x2000) 8192).andThen fun s preds =>
  (physRead s (base + 0x6000) 80).andThen fun s tags =>
  (physRead s (base + 0x8000) 16384).andThen fun s gens =>
  (physRead s (base + 0x10000) 65536).andThen fun s streams =>
  (physRead s (base + 0x20000) 163840).andThen fun s vec =>
  (physRead s (base + 0x100000) 1048576).andThen fun s pad =>
    let clst := bytesWord head (0x040 + 64)
    let r : Regs := { Reset.regs c.kind with
      gens := (List.range 16).foldl (fun t k =>
        let b := (lget 0 tags (64 + k)).toNat
        spSet genDefault t k
          { ramp := b.testBit 7, d := BitVec.ofNat 4 b,
            seed := BitVec.ofNat 4096 (leNat ((gens.drop (1024 * k)).take 512)),
            run := BitVec.ofNat 4096 (leNat ((gens.drop (1024 * k + 512)).take 512)) }) [] }
    -- every unit is written, so that no check of what stood there before is left (R409)
    let c := { c with regs := r, pad := [], ecc := [], inner := [], bankBad := false }
    let c := areaWrite (areaWrite (areaWrite c .slices 0 sl) .preds 0 preds) .tags 0 (tags.take 64)
    let c := areaWrite (areaWrite (areaWrite c .streams 0 streams) .vec 0 vec) .pad 0 pad
    let csr := (List.range 8).foldl (fun (x : Csrs) k => x.write k (wordOf (bytesWord head (0x040 + 8 * k)))) c.csr
    let csr := { csr with
      tbase := wordOf (bytesWord head 0x090), tasid := BitVec.ofNat 16 (bytesWord head 0x098),
      tscr := (List.range 4).map fun k => wordOf (bytesWord head (0x0A0 + 8 * k)) }
    .done s { c with csr := csr, regs := { c.regs with
      clusters := (List.range 5).map fun k => if clst.testBit k then .awake else .asleep,
      owners := (List.range 5).map fun k => BitVec.ofNat 2 (clst / 2 ^ (10 + 2 * k)) } }

/-- The size of one position's record (R402). -/
def recordSize (k : CoreKind) : Nat := if k = .g then 2 * 2 ^ 20 else 40 * 2 ^ 20

/-- Everything that a failed operation can keep busy or name. -/
def anyUnit : List HUnit := sliceUnits 0 512 ++ (rangeFrom 0 32).map fun t => ⟨.acc, t⟩

/-- The failure of a record, as the earliest recorded (R197, R405). The record holds neither its slot, which is a
free value, nor what it keeps busy: the first group that reads or writes a scalar span, or names a tile or a macro,
takes delivery of it too (log 23). -/
def lostFailure (head : List Byte) (free : Nat) : List Failure :=
  let f := bytesWord head 0x18
  if f.testBit 63 then
    [{ grp := 0, bundle := 0, cause := f % 128, tval := wordOf (bytesWord head 0x20),
       topc := wordOf (bytesWord head 0x28), slot := (Config.freeValue free).toNat % 8, units := anyUnit,
       macros := List.range 256 }]
  else []

/-- A position's record read back onto a core. -/
def restoreCore (s : State) (c : Core) (b : Binding) (d : BitVec 512) : EngRes Core :=
  let base := dSave d + b.pos * recordSize c.kind
  (physRead s base 4096).andThen fun s head =>
    let w0 := bytesWord head 0
    if !w0.testBit 0 then .fail s 0x71 base
    else
      let snapn := bitsN (bytesWord head 0x10) 8 8
      (physRead s (base + 0x48000) (64 * snapn)).andThen fun s descs =>
      (physRead s (base + 0x4C000) (if snapn = 0 then 0 else 208 * 1024)).andThen fun s pool =>
      (restoreRegs base head c s).andThen fun s c =>
      (restoreCopy base head c s).andThen fun s c =>
      (if c.kind = .a then restoreMat base head c s else .done s c).andThen fun s c =>
        let v := bitsN w0 32 10
        let bank := bankOf snapn descs pool s.free
        .done { s with free := s.free + snapn + 1 }
          { c with
            run := .running, mode := .node, pc := wordOf (bytesWord head 8), vcore := BitVec.ofNat 10 v,
            csr := { c.csr with psave := BitVec.ofNat 52 base }, nodeXt := 0, sysXt := 0, inflight := bank,
            bank := [], tracked := [], uo := [], publish := 0, failures := lostFailure head (s.free + snapn),
            wait := .none, stall := bytesWord head 0x10 % 16, ends := [], gangPath := [],
            ctx := { c.ctx with grp := max 1 c.ctx.grp }, report := .issued,
            binding := some { b with v := v, preempted := false } }

/-- The machine with another core as the one that moves next. -/
def State.focus (s : State) (i : Nat) : State :=
  if i = s.core.region.toNat then s
  else match s.coreAt i with
    | none => s
    | some c =>
      { s with core := c
               others := putOther s.core.region.toNat s.core (s.others.filter fun p => p.1 != i) }

/-- A failure delivered at the group boundary where a core stands (R387, R400, R405). -/
def deliverHere (s : State) (f : Failure) : State :=
  let s := s.setCore s.core.expire
  takeTrap s { cause := f.cause, tval := f.tval, slot := some f.slot, defer := true, tpc := s.core.pc,
               topc := f.topc, resumeXt := s.core.nodeXt }

/-- The group of a collective that a channel holds staged. -/
def stagedOn (x : ChanState) : List Nat :=
  ((x.op.toList ++ x.pending.toList).filter fun o =>
    o.isColl && !o.ready && o.failing.isNone).map fun o => o.regs.aux.toNat % 256

/-- The collectives that a restored core holds staged are staged there again (R119, R135, R405). -/
def rejoin (s : State) (i : Nat) (c : Core) : State :=
  let put (ch : Chan) (gs : List Nat) : List (Nat × Nat × Nat) := gs.map fun g => (g, i, ch.num)
  let a := stagedOn c.copy.a
  let b := stagedOn c.copy.b
  let s := s.setPool { s.pool with staged := s.pool.staged ++ put .a a ++ put .b b }
  (a ++ b).foldl (fun s g => if (s.pool.group g).exited.isEmpty then s else failStaged s g) s

/-- An error that a context record meets is logged with the cause of the record (R412): a finding that this chip has
just logged, in a state that `old` went before, under its own entry, and another by one of its own. -/
def logRecord (old s : State) (hop cause code i a : Nat) : State :=
  let p := s.plat
  let k := (p.loghead - 1).toNat % 256
  let w := (spGet 0 p.log k).toNat
  if cause = 0x70 && p.loghead != old.plat.loghead && bitsN w 48 7 == 0x70 then
    { s with plat := { p with log := spSet 0 p.log k (BitVec.ofNat 128 (setBitsN w 48 7 code)) } }
  else logError s hop true code 0 i a

/-- A bound position whose core has not begun: a saved one is restored; another starts its virtual core. A record
that cannot be restored abandons the node (R407). -/
def beginPosition (s : State) (i : Nat) : State :=
  match s.coreAt i with
  | none => s
  | some c =>
    match c.binding with
    | none => s
    | some b =>
      if !b.preempted then startVcore s i
      else
        let d := (s.pool.node b.nodeSlot).desc
        match restoreCore s c b d with
        | .wait s => s
        | .fail t cause a =>
          let s := logRecord s t 0 cause 0x71 i a
          releaseCore (s.setPool (s.pool.abandon b.nodeSlot 0x71)) i
        | .done s c => rejoin (s.setCoreAt i c) i c

/-! ### Leaving a core (R400, R430) -/

/-- The core has to leave its position: its node is being pre-empted, or is abandoned. -/
def mustLeave (s : State) (c : Core) : Bool :=
  match c.binding with
  | none => false
  | some b => s.pool.preempting == some b.nodeSlot || (s.pool.node b.nodeSlot).st == .abandoned

/-- A channel at rest for pre-emption: idle, a ring with no fill begun, or a collective that cannot start. -/
def chanRests (x : ChanState) : Bool :=
  match x.op with
  | none => true
  | some o =>
    o.failing.isNone && o.credit == 0 &&
      ((o.isRing && o.fills.isEmpty) || (o.isColl && !o.ready))

/-- Tracked operations done and published, channels at rest, refetches and wakes over (R400, steps 4 and 5). A
collective whose members have all staged is not at rest. -/
def drained (s : State) (c : Core) : Bool :=
  let due := s.pool.staged.any fun e => e.2.1 == c.region.toNat && (collMembers s e.1).isSome
  let waking := (List.range 8).any fun k => match segNow c.shelf s.cycle k with
    | .waking _ => true
    | _ => false
  c.tracked.isEmpty && c.uo.isEmpty && chanRests c.copy.a && chanRests c.copy.b && !due &&
    c.mat.refetch.isEmpty && !waking

/-- Every wake of a cluster is completed: it counts no exposed time any more (R400, step 4; log 72). -/
def Core.finishWakes (c : Core) : Core :=
  let wake (x : ClusterSt) : ClusterSt := match x with
    | .waking .. => .awake
    | x => x
  { c with regs := { c.regs with clusters := c.regs.clusters.map wake } }

/-- A global hold keeps the core's issue (R283): what its last group waited for, or a repair that is due. -/
def Core.inHold (c : Core) : Bool :=
  !c.shelf.repairRegions.isEmpty ||
    match c.report with
    | .stalled .energy => true
    | .stalled .segment => true
    | .stalled .macroBusy => !c.mat.refetch.isEmpty
    | _ => false

/-- A member of a gang has followed the lead as far as it went: nothing is left of the path, or the one group at
whose BARG it waits, as the lead does, which the lead will issue again (R361, R400). -/
def Core.pathDone (c : Core) : Bool :=
  c.gangPath.isEmpty || (c.gangPath.length == 1 && match c.wait with
    | .barg _ => true
    | _ => false)

/-- The channels of a core that leaves keep nothing. -/
def dropStaged (s : State) (i : Nat) : State :=
  s.setPool { s.pool with staged := s.pool.staged.filter fun e => e.2.1 != i }

/-- The errors in the pages that the record holds. -/
def dirtyErrs (c : Core) : List (Nat × WordErr) :=
  c.mat.errs.filter fun e => (c.mat.pageRec (e.1 / 2048)).dirty

/-- What the record cannot hold: a word of it whose check fails, with its place (R407, R409, R410). -/
def recordBad (s : State) : Option (Nat × Nat) :=
  let c := s.core
  let i := c.region.toNat
  match c.ecc.find? fun e => e.2 == .uncorrectable, (dirtyErrs c).find? fun e => e.2 == .uncorrectable with
  | some e, _ => some (4, 0xE * 2 ^ 60 + i * 2 ^ 26 + 8 * e.1)
  | none, some e => some (5, 0xE * 2 ^ 60 + i * 2 ^ 26 + 2 ^ 25 + s.viewOff (e.1 / 2048) (e.1 / 8) e.1)
  | none, none => none

/-- A finding of the record's own reads that can be mended: a word is corrected, a page refetched (R279, R409). -/
def mendWord (s : State) (e : Nat × WordErr) : State :=
  let s := s.matFinding false 2 0 e.1
  let m := s.core.mat
  s.setMat (if e.2 = .parity then
      { m with refetch := m.refetch ++ (if m.refetch.contains (e.1 / 2048) then [] else [e.1 / 2048]) }
    else { m with errs := m.errs.filter fun x => x.1 != e.1 })

/-- The node of a position whose record cannot be written is abandoned (R407); `old` is the state before the
writing. -/
def leaveFailed (old s : State) (b : Binding) (hop cause a : Nat) : State :=
  let i := s.core.region.toNat
  let s := dropStaged (logRecord old s hop cause 0x72 i a) i
  releaseCore (s.setPool { s.pool.abandon b.nodeSlot 0x72 with preempting := none }) i

/-- Steps 6 and 7: the record is written and the core released; the node returns to its order when its last
position has left. Internal state whose check fails is a machine check (R408, R409). -/
def saveAndLeave (s : State) (b : Binding) : State :=
  let c := s.core
  let i := c.region.toNat
  let d := (s.pool.node b.nodeSlot).desc
  let base := dSave d + b.pos * recordSize c.kind
  let mend := (dirtyErrs c).filter fun e => e.2 != .uncorrectable
  let leave (s : State) : State :=
    let n := s.pool.node b.nodeSlot
    let w := dWdog d
    -- an expiry that has not been raised comes again
    let cycles := if w != 0 && (b.expired || !b.fired) then min b.cycles (w - 1) else b.cycles
    let s := s.setPool (s.pool.setNode b.nodeSlot { n with saved := n.saved ++ [(b.pos, cycles)] })
    let s := dropStaged (releaseCore (s.setCore { s.core with inflight := [], bank := [], failures := [] }) i) i
    let n := s.pool.node b.nodeSlot
    if n.live.isEmpty then
      s.setPool { s.pool.setNode b.nodeSlot { n with st := .ready, sinceReady := n.sinceReady } with
        preempting := none }
    else s
  if !c.inner.isEmpty || c.bankBad then machineCheck s 5 0x7F 0
  else match recordBad s with
    | some w => leaveFailed s s b w.1 0 w.2
    | none =>
      if !mend.isEmpty then mend.foldl mendWord s
      else
        match physWriteAll base (recordImage c b) (eccCheck s i 0 (2 ^ 20 + 2 ^ 17)) with
        | .wait s => s
        | .done s _ => leave s
        | .fail t cause a => leaveFailed s t b 0 cause a

/-- The pre-emption of a node with nothing left to leave is over. -/
def settlePreempt (s : State) : State :=
  match s.pool.preempting with
  | none => s
  | some k =>
    let n := s.pool.node k
    if n.live.isEmpty then
      let st := if n.st = .running && !n.saved.isEmpty then NodeSt.ready else n.st
      s.setPool { s.pool.setNode k { n with st := st } with preempting := none }
    else s

/-- A FENCE that has issued waits for accesses of its own group (R338). -/
def BWait.issued : BWait → Bool
  | .fenced .. => true
  | _ => false

/-- POSITION_SAVE: the next step by which this core leaves its position (R400, R430): at a group boundary in node
mode the waits end and exposed time stops; once everything is drained the record is written, or for an abandoned
node the position is dropped. DESIGN CHOICE (log 100): a fault wait (R59) ends without a trap, and the position is
saved at the faulting bundle. -/
def execPositionSave (s : State) : Host.Outcome State Fault Refusal :=
  let c := s.core
  match c.binding with
  | none => .next s
  | some b =>
    let dead := (s.pool.node b.nodeSlot).st == .abandoned
    if !mustLeave s c || c.run == .halted || c.run == .stopped then .next s
    else if c.run == .idle then
      -- bound and not begun: nothing to save but the position itself
      let i := c.region.toNat
      let n := s.pool.node b.nodeSlot
      let s := if dead then s
        else if b.preempted then
          s.setPool (s.pool.setNode b.nodeSlot { n with saved := n.saved ++ [(b.pos, b.cycles)] })
        else s
      if dead || b.preempted then .next (settlePreempt (releaseCore s i)) else .next s
    else if !b.preempted then
      if c.mode == .sys || c.wait.issued || !c.pathDone || c.inHold then .next s
      else
        let s := cancelWait (s.setCore { c with gangPath := [] })
        match s.core.failures with
        | f :: _ =>
          let t := s.setCore { s.core with failures := [] }
          .next (if dead then t else deliverHere t f)
        | [] =>
          let c := captureBank s.core s.core.nodeXt
          let t := s.setCore { c.finishWakes with binding := some { b with preempted := true } }
          .next { t with xlat := leaveWalks t.xlat ⟨c.region.toNat, false⟩ }
    else if !drained s c then .next s
    else if dead then
      let i := c.region.toNat
      .next (settlePreempt (releaseCore (dropStaged (s.setCore { c with
        inflight := [], bank := [], failures := [], copy := { c.copy with a := Reset.chan, b := Reset.chan } }) i) i))
    else .next (settlePreempt (saveAndLeave s b))

end Sys2Proof.Machine
end

