-- ==== Sys2Proof/Machine/SpecialFn.lean ====
section
/-! DEFINITION. The special functions (R227 to R235): the FP32 procedures over the tables of R229 and the
coefficients of R230, and the correctly rounded results of the narrower formats. -/

namespace Sys2Proof.Machine

/-! ### Tables (R229): each entry the FP32 value nearest the exact real -/

def tabT : List Nat :=
  [0x3F800000, 0x3F82CD87, 0x3F85AAC3, 0x3F88980F, 0x3F8B95C2, 0x3F8EA43A, 0x3F91C3D3, 0x3F94F4F0,
   0x3F9837F0, 0x3F9B8D3A, 0x3F9EF532, 0x3FA27043, 0x3FA5FED7, 0x3FA9A15B, 0x3FAD583F, 0x3FB123F6,
   0x3FB504F3, 0x3FB8FBAF, 0x3FBD08A4, 0x3FC12C4D, 0x3FC5672A, 0x3FC9B9BE, 0x3FCE248C, 0x3FD2A81E,
   0x3FD744FD, 0x3FDBFBB8, 0x3FE0CCDF, 0x3FE5B907, 0x3FEAC0C7, 0x3FEFE4BA, 0x3FF5257D, 0x3FFA83B3]

def tabRC : List Nat :=
  [0x3F800000, 0x3F783E10, 0x3F70F0F1, 0x3F6A0EA1, 0x3F638E39, 0x3F5D67C9, 0x3F579436, 0x3F520D21,
   0x3F4CCCCD, 0x3F47CE0C, 0x3F430C31, 0x3F3E82FA, 0x3F3A2E8C, 0x3F360B61, 0x3F321643, 0x3F2E4C41,
   0x3F2AAAAB, 0x3F272F05, 0x3F23D70A, 0x3F20A0A1, 0x3F1D89D9, 0x3F1A90E8, 0x3F17B426, 0x3F14F209,
   0x3F124925, 0x3F0FB824, 0x3F0D3DCB, 0x3F0AD8F3, 0x3F088889, 0x3F064B8A, 0x3F042108, 0x3F020821]

def tabLG : List Nat :=
  [0x00000000, 0x3D35D690, 0x3DB31FB7, 0x3E0462C4, 0x3E2E00D1, 0x3E567AEF, 0x3E7DE0B5, 0x3E92203D,
   0x3EA4D3C2, 0x3EB71110, 0x3EC8DDD3, 0x3EDA3F60, 0x3EEB3A9E, 0x3EFBD42A, 0x3F060828, 0x3F0DF98A,
   0x3F15C01A, 0x3F1D5DA0, 0x3F24D3C3, 0x3F2C2410, 0x3F335004, 0x3F3A58FE, 0x3F41404E, 0x3F480731,
   0x3F4EAECF, 0x3F553847, 0x3F5BA4A5, 0x3F61F4E5, 0x3F6829FA, 0x3F6E44CF, 0x3F744636, 0x3F7A2F03]

def tabRS : List Nat :=
  [0x3F800000, 0x3F785B42, 0x3F715BEF, 0x3F6AEBF5, 0x3F64F92E, 0x3F5F7483, 0x3F5A514A, 0x3F5584CD,
   0x3F5105EC, 0x3F4CCCCD, 0x3F48D2AB, 0x3F4511A3, 0x3F41848F, 0x3F3E26EB, 0x3F3AF4BA, 0x3F37EA74,
   0x3F3504F3, 0x3F2F9D53, 0x3F2AAAAB, 0x3F261D5F, 0x3F21E89B, 0x3F1E01B3, 0x3F1A5FB2, 0x3F16FB06,
   0x3F13CD3A, 0x3F10D0C3, 0x3F0E00D5, 0x3F0B5948, 0x3F08D677, 0x3F067532, 0x3F0432A5, 0x3F020C52]

def tabSN : List Nat :=
  [0x00000000, 0x3D48FB30, 0x3DC8BD36, 0x3E164083, 0x3E47C5C2, 0x3E78CFCC, 0x3E94A031, 0x3EAC7CD4,
   0x3EC3EF15, 0x3EDAE880, 0x3EF15AEA, 0x3F039C3D, 0x3F0E39DA, 0x3F187FC0, 0x3F226799, 0x3F2BEB4A,
   0x3F3504F3, 0x3F3DAEF9, 0x3F45E403, 0x3F4D9F02, 0x3F54DB31, 0x3F5B941A, 0x3F61C598, 0x3F676BD8,
   0x3F6C835E, 0x3F710908, 0x3F74FA0B, 0x3F7853F8, 0x3F7B14BE, 0x3F7D3AAC, 0x3F7EC46D, 0x3F7FB10F]

def tabCS : List Nat :=
  [0x3F800000, 0x3F7FB10F, 0x3F7EC46D, 0x3F7D3AAC, 0x3F7B14BE, 0x3F7853F8, 0x3F74FA0B, 0x3F710908,
   0x3F6C835E, 0x3F676BD8, 0x3F61C598, 0x3F5B941A, 0x3F54DB31, 0x3F4D9F02, 0x3F45E403, 0x3F3DAEF9,
   0x3F3504F3, 0x3F2BEB4A, 0x3F226799, 0x3F187FC0, 0x3F0E39DA, 0x3F039C3D, 0x3EF15AEA, 0x3EDAE880,
   0x3EC3EF15, 0x3EAC7CD4, 0x3E94A031, 0x3E78CFCC, 0x3E47C5C2, 0x3E164083, 0x3DC8BD36, 0x3D48FB30]

/-! ### FP32 steps (R228) -/

/-- A step's result and whether any step so far discarded a nonzero fraction. -/
structure Step32 where
  v : Nat
  nx : Bool

def st32 (p : Nat × Nat) (nx : Bool) : Step32 := ⟨p.1, nx || (p.2 &&& flNX) != 0⟩

def mul32 (a b : Step32) : Step32 := st32 (mulF fmtF32 .rne 0 a.v b.v) (a.nx || b.nx)
def add32 (a b : Step32) : Step32 := st32 (addF fmtF32 .rne 0 a.v b.v) (a.nx || b.nx)
def fma32 (a b c : Step32) : Step32 := st32 (fmaF fmtF32 .rne 0 a.v b.v c.v) (a.nx || b.nx || c.nx)
def k32 (v : Nat) : Step32 := ⟨v, false⟩
def tab (l : List Nat) (j : Nat) : Step32 := k32 (lget 0 l j)
def neg32 (a : Step32) : Step32 := ⟨if a.v < 2 ^ 31 then a.v + 2 ^ 31 else a.v - 2 ^ 31, a.nx⟩
def one32 : Step32 := k32 0x3F800000
def minusOne32 : Step32 := k32 0xBF800000

/-- ±m × 2^e of a finite FP32 pattern. -/
def finOf (v : Nat) : Bool × Nat × Int :=
  match unpackF fmtF32 v with
  | .fin s m e => (s, m, e)
  | _ => (false, 0, 0)

/-- `fin` of R228: the exact value a × b + c scaled by 2^n, rounded once; its OF and NX kept in a flag
set. -/
def fin32 (a b c : Step32) (n : Int) : Nat × Nat :=
  let (na, ma, ea) := finOf a.v
  let (nb, mb, eb) := finOf b.v
  let (nc, mc, ec) := finOf c.v
  let x := addExact (na != nb) (ma * mb) (ea + eb) nc mc ec
  let (r, fl) := roundSigned fmtF32 .rne 0 (x.1, x.2 + n) false
  (r, (fl &&& (flOF ||| flNX)) ||| (if a.nx || b.nx || c.nx then flNX else 0))

def zero32 : Step32 := k32 0

/-- UF is raised when a result is zero or subnormal and the procedure was inexact (R228). -/
def ufFix (p : Nat × Nat) : Nat × Nat :=
  if (p.2 &&& flNX) != 0 && decide (p.1 % 2 ^ 31 < 2 ^ 23) then (p.1, p.2 ||| flUF) else p

/-- The significand of a finite nonzero value as an FP32 value in [1, 2), and its exponent. -/
def normal32 (v : Nat) : Nat × Int :=
  let (_, m, e) := finOf v
  let l := Nat.log2 m
  (0x3F800000 + (m * 2 ^ (23 - l) - 2 ^ 23), e + l)

/-- The fraction bits of an FP32 significand. -/
def frac32 (m : Nat) : Nat := m % 2 ^ 23

def pos32 (v : Nat) : Nat := v % 2 ^ 31

/-! ### The procedures (R231 to R235) -/

/-- A dyadic ±m × 2^e rounded to an integer by RNE. -/
def rneInt (neg : Bool) (m : Nat) (e : Int) : Int :=
  signedM neg (roundTo .rne 0 ⟨neg, m, e, false⟩ 0).1

/-- x − k / 2^j as an FP32 value; the procedures use it where it is exact. -/
def minusFrac (v : Nat) (k : Int) (j : Nat) : Step32 :=
  let (s, m, e) := finOf v
  let x := addExact s m e (decide (0 < k)) k.natAbs (-(j : Int))
  k32 (roundSigned fmtF32 .rne 0 x false).1

/-- exp2 on finite x or an infinity (R231). -/
def exp2P (a : Step32) : Nat × Nat :=
  match unpackF fmtF32 a.v with
  | .inf s => (if s then 0 else 0x7F800000, if a.nx then flNX else 0)
  | .nan .. => (0x7FC00000, 0)
  | .fin s m e =>
    let big := !s && decide (m ≠ 0) && decide (7 ≤ log2V m e)
    -- x < −160: compare m × 2^e with 160
    let small := s && decide ((160 : Int) * 2 ^ (0 - min e 0).toNat < m * 2 ^ (e - min e 0).toNat)
    if big then (0x7F800000, flOF ||| flNX)
    else if small then (0, flUF ||| flNX)
    else
      let k := rneInt s m (e + 5)
      let n := k / 32
      let j := (k % 32).toNat
      let r := minusFrac a.v k 5
      let p := fma32 r (k32 0x3C1D955B) (k32 0x3D635847)
      let p := fma32 r p (k32 0x3E75FDF0)
      let p := fma32 r p (k32 0x3F317218)
      let p := mul32 p r
      let t := tab tabT j
      fin32 t ⟨p.v, p.nx || a.nx⟩ t n

/-- The reduction shared by log2 and rcp (R232, R233): m, e and k. -/
def reduceRC (v : Nat) : Nat × Int × Nat :=
  let (m, e) := normal32 v
  let g := frac32 m / 2 ^ 17
  let k := (g + 1) / 2
  if k = 32 then (m - 2 ^ 23, e + 1, 0) else (m, e, k)

/-- An integer as FP32, exact for the exponents that occur. -/
def int32F (i : Int) : Step32 := k32 (cvtIF fmtF32 .rne 0 false i).1

/-- log2 on finite x > 0 (R232). -/
def log2P (v : Nat) : Nat × Nat :=
  let (m, e, k) := reduceRC v
  let r := fma32 (k32 m) (tab tabRC k) minusOne32
  let q := fma32 r (k32 0xBEB8AA3B) (k32 0x3EF6384A)
  let q := fma32 r q (k32 0xBF38AA3B)
  let q := fma32 r q (k32 0x3FB8AA3B)
  let t := fma32 r q (tab tabLG k)
  let z := add32 (int32F e) t
  (z.v, if z.nx then flNX else 0)

/-- rcp on finite nonzero x (R233). -/
def rcpP (a : Step32) : Nat × Nat :=
  let (m, e, k) := reduceRC (pos32 a.v)
  let r := fma32 (neg32 (k32 m)) (tab tabRC k) one32
  let c := add32 r one32
  let c := fma32 r c one32
  let c := fma32 r c one32
  let c := fma32 r c one32
  let (z, fl) := fin32 (tab tabRC k) ⟨c.v, c.nx || a.nx⟩ zero32 (-e)
  (if a.v < 2 ^ 31 then z else z + 2 ^ 31, fl)

/-- The reduction shared by rsqrt and sqrt (R234): m as FP32 in [1, 4), e even, j. -/
def reduceRS (v : Nat) : Nat × Int × Nat :=
  let (m0, e0) := normal32 v
  let odd := e0 % 2 == 1
  let m := if odd then m0 + 2 ^ 23 else m0
  let e := if odd then e0 - 1 else e0
  let g := frac32 m0 / 2 ^ 18
  let k := (g + 1) / 2
  if !odd then (m, e, k)
  else if k = 16 then (m - 2 ^ 24, e + 2, 0)
  else (m, e, 16 + k)

/-- t, b and the exponent of R234. -/
def rsParts (v : Nat) : Step32 × Step32 × Int × Nat :=
  let (m, e, j) := reduceRS v
  let rs := tab tabRS j
  let t := mul32 (k32 m) rs
  let r := fma32 (neg32 t) rs one32
  let a := fma32 r (k32 0x3E8C0000) (k32 0x3EA00000)
  let a := fma32 r a (k32 0x3EC00000)
  let a := fma32 r a (k32 0x3F000000)
  (t, mul32 r a, e, j)

def rsqrtP (v : Nat) : Nat × Nat :=
  let (_, b, e, j) := rsParts v
  fin32 (tab tabRS j) b (tab tabRS j) (-(e / 2))

def sqrtP (v : Nat) : Nat × Nat :=
  let (t, b, e, _) := rsParts v
  fin32 t b t (e / 2)

/-- A procedure used inside another contributes only NX (R235). -/
def inner (p : Nat × Nat) : Step32 := ⟨p.1, (p.2 &&& flNX) != 0⟩

/-- rcp with its special inputs, for use inside a procedure. -/
def rcpAny (a : Step32) : Step32 :=
  match unpackF fmtF32 a.v with
  | .inf s => ⟨if s then 0x80000000 else 0, a.nx⟩
  | .nan .. => a
  | .fin s m _ =>
    if m = 0 then ⟨if s then 0xFF800000 else 0x7F800000, a.nx⟩ else inner (rcpP a)

/-- tanh on finite nonzero x (R235). -/
def tanhP (v : Nat) : Nat × Nat :=
  let a := pos32 v
  let x := k32 v
  if a < 0x39800000 then (v, 0)
  else if a < 0x3E000000 then
    let w := mul32 x x
    let p := fma32 w (k32 0xBD5D0DD1) (k32 0x3E088889)
    let p := fma32 w p (k32 0xBEAAAAAB)
    let p := mul32 p w
    let z := fma32 x p x
    (z.v, if z.nx then flNX else 0)
  else if a < 0x41200000 then
    let ex := inner (exp2P (mul32 (k32 a) (k32 0x4038AA3B)))
    let q := rcpAny (add32 ex one32)
    let z := mul32 (add32 ex minusOne32) q
    (if v < 2 ^ 31 then z.v else z.v + 2 ^ 31, if z.nx then flNX else 0)
  else (if v < 2 ^ 31 then 0x3F800000 else 0xBF800000, 0)

/-- sigmoid on finite nonzero x (R235). -/
def sigmP (v : Nat) : Nat × Nat :=
  let u := neg32 (mul32 (k32 v) (k32 0x3FB8AA3B))
  let z := rcpAny (add32 one32 (inner (exp2P u)))
  (z.v, if z.nx then flNX else 0)

/-- sinpi and cospi on finite x (R235). -/
def sincosP (cosine : Bool) (v : Nat) : Nat × Nat :=
  let (s, m, e) := finOf v
  if 0x4B800000 ≤ pos32 v then (if cosine then 0x3F800000 else if s then 0x80000000 else 0, 0)
  else
    let k := rneInt s m (e + 6)
    let r := minusFrac v k 6
    let j := ((k + (if cosine then 32 else 0)) % 128).toNat
    let h := j / 32
    let i := j % 32
    let w := mul32 r r
    let sp := mul32 r (fma32 w (k32 0xC0A55DC7) (k32 0x40490FDB))
    let cp := fma32 w (fma32 w (k32 0x4081E0F8) (k32 0xC09DE9E6)) one32
    let z := if h % 2 = 0 then fma32 (tab tabCS i) sp (mul32 (tab tabSN i) cp)
      else fma32 (neg32 (tab tabSN i)) sp (mul32 (tab tabCS i) cp)
    let z := if h < 2 then z else neg32 z
    let out := if pos32 z.v = 0 then (if cosine then 0 else if s then 0x80000000 else 0) else z.v
    (out, if z.nx then flNX else 0)

/-! ### Correctly rounded results (R227)

The exact value is bracketed by integers at 256 fractional bits; 40 low bits are guard. -/

def fxOne : Nat := 2 ^ 256
def fxPi : Nat := 0x3243F6A8885A308D313198A2E03707344A4093822299F31D0082EFA98EC4E6C89
def fxLn2 : Nat := 0xB17217F7D1CF79ABC9E3B39803F2F6AF40F343267298B62D8A0D175B8BAAFA2B
def fxLog2e : Nat := 0x171547652B82FE1777D0FFDA0D23A7D11D6AEF551BAD2B4B1164A2CD9A342648F

def fxMul (a b : Nat) : Nat := a * b / fxOne

/-- e^y for 0 ≤ y < 1, by its series; `t` is the current term. -/
def fxExpFrom (y : Nat) : Nat → Nat → Nat → Nat
  | 0, _, _ => 0
  | fuel + 1, n, t => t + fxExpFrom y fuel (n + 1) (fxMul t y / n)

def fxExp (y : Nat) : Nat := fxExpFrom y 70 1 fxOne

/-- 2^r for 0 ≤ r < 1. -/
def fxExp2 (r : Nat) : Nat := fxExp (fxMul r fxLn2)

/-- z + z³/3 + z⁵/5 + … -/
def fxAtanhFrom (z2 : Nat) : Nat → Nat → Nat → Nat
  | 0, _, _ => 0
  | fuel + 1, n, t => t / n + fxAtanhFrom z2 fuel (n + 2) (fxMul t z2)

/-- log₂ of a fixed-point number in [1, 2). -/
def fxLog2 (m : Nat) : Nat :=
  let z := (m - fxOne) * fxOne / (m + fxOne)
  fxMul (2 * fxAtanhFrom (fxMul z z) 90 1 z) fxLog2e

/-- 1 − u/3! + u²/5! − …, with u = (πz)². -/
def fxSincFrom (u : Nat) : Nat → Nat → Int → Int
  | 0, _, _ => 0
  | fuel + 1, n, t => t + fxSincFrom u fuel (n + 2) (-(t * u / fxOne / ((n + 1) * (n + 2) : Nat)))

/-- sin(πz) / (πz) for 0 ≤ z ≤ 1/2. -/
def fxSinc (z : Nat) : Nat :=
  let y := fxMul z fxPi
  (fxSincFrom (fxMul y y) 40 1 fxOne).toNat

/-- A bracketed magnitude: v × 2^e known to within 2^30 units of v, guard bits dropped. -/
def bracket (neg : Bool) (v : Nat) (e : Int) : Real := ⟨neg, (v - 2 ^ 30) / 2 ^ 40, e + 40, true⟩

/-- A value just above (or just below) ±m × 2^e. -/
def justAbove (neg : Bool) (m : Nat) (e : Int) : Real := ⟨neg, m * 2 ^ 64, e - 64, true⟩
def justBelow (neg : Bool) (m : Nat) (e : Int) : Real := ⟨neg, m * 2 ^ 64 - 1, e - 64, true⟩

def exactR (neg : Bool) (m : Nat) (e : Int) : Real := ⟨neg, m, e, false⟩

/-- m × 2^e as a fixed-point number, floored. -/
def toFx (m : Nat) (e : Int) : Nat :=
  if 0 ≤ e + 256 then m * 2 ^ (e + 256).toNat else m / 2 ^ (-(e + 256)).toNat

/-- The integer square root, one result bit at a time from bit `fuel` down. -/
def isqrtFrom (n : Nat) : Nat → Nat → Nat
  | 0, r => r
  | k + 1, r => let r' := r + 2 ^ k; isqrtFrom n k (if r' * r' ≤ n then r' else r)

def isqrt (n : Nat) : Nat := isqrtFrom n (Nat.log2 n / 2 + 1) 0

/-- 2^x for finite x. -/
def exp2R (s : Bool) (m : Nat) (e : Int) : Real :=
  if m = 0 then exactR false 1 0
  else if log2V m e < -60 then (if s then justBelow false 1 0 else justAbove false 1 0)
  else if 12 ≤ log2V m e then (if s then justAbove false 1 (-5000) else justAbove false 1 5000)
  else
    let fx := toFx m e
    let x : Int := if s then -(fx : Int) else fx
    let n := x / (fxOne : Int)
    let r := (x % (fxOne : Int)).toNat
    if r = 0 then exactR false 1 n else bracket false (fxExp2 r) (n - 256)

/-- log₂ of m × 2^e, m > 0. -/
def log2R (m : Nat) (e : Int) : Real :=
  let l := Nat.log2 m
  let ex := e + l
  let mm := toFx m (-(l : Int))
  if mm = fxOne then exactR (decide (ex < 0)) ex.natAbs 0
  else
    let v : Int := ex * fxOne + fxLog2 mm
    bracket (decide (v < 0)) v.natAbs (-256)

/-- 1/x. -/
def rcpR (s : Bool) (m : Nat) (e : Int) : Real := ⟨s, 2 ^ 64 / m, -e - 64, 2 ^ 64 % m != 0⟩

/-- √x. -/
def sqrtR (m : Nat) (e : Int) : Real :=
  let odd := e % 2 == 1
  let n := m * 2 ^ (if odd then 65 else 64)
  let r := isqrt n
  ⟨false, r, ((if odd then e - 1 else e) - 64) / 2, r * r != n⟩

/-- 1/√x: the square root of 2^128 / m, exact exactly when m is a power of four in effect. -/
def rsqrtR (m : Nat) (e : Int) : Real :=
  let odd := e % 2 == 1
  let n := 2 ^ (if odd then 127 else 128)
  let q := n / m
  let r := isqrt q
  ⟨false, r, -((if odd then e + 127 else e + 128) / 2), r * r * m != n⟩

/-- tanh x, x nonzero. -/
def tanhR (s : Bool) (m : Nat) (e : Int) : Real :=
  if log2V m e < -20 then justBelow s m e
  else if 6 ≤ log2V m e then justBelow s 1 0
  else
    let t := fxMul (2 * toFx m e) fxLog2e
    let n := t / fxOne
    let ex := fxExp2 (t % fxOne) * 2 ^ n
    bracket s ((ex - fxOne) * fxOne / (ex + fxOne)) (-256)

/-- 1/(1 + e^−x). -/
def sigmR (s : Bool) (m : Nat) (e : Int) : Real :=
  if m = 0 then exactR false 1 (-1)
  else if log2V m e < -60 then (if s then justBelow false 1 (-1) else justAbove false 1 (-1))
  else if 8 ≤ log2V m e then (if s then justAbove false 1 (-5000) else justBelow false 1 0)
  else
    let t := fxMul (toFx m e) fxLog2e
    let x : Int := if s then t else -(t : Int)
    let n := x / (fxOne : Int)
    let ex := fxExp2 (x % (fxOne : Int)).toNat
    if 0 ≤ n then
      bracket false (fxOne * fxOne * 2 ^ n.toNat / (fxOne + ex * 2 ^ n.toNat)) (-256 - n)
    else bracket false (fxOne * fxOne / (fxOne + ex / 2 ^ (-n).toNat)) (-256)

/-- sin(πz) for a dyadic 0 < z ≤ 1/2, with z = m × 2^e. -/
def sinZ (neg : Bool) (m : Nat) (e : Int) : Real :=
  if log2V m e = -1 && m == 2 ^ Nat.log2 m then exactR neg 1 0
  else
    let l := Nat.log2 m
    let mant := toFx m (-(l : Int))
    let v := fxMul (fxMul mant fxPi) (fxSinc (toFx m e))
    bracket neg v (e + l - 256)

/-- sin πx (or cos πx) of a finite x as a real, and none for a zero result. -/
def sincosR (cosine s : Bool) (m : Nat) (e : Int) : Option Real :=
  -- y = |x| mod 2 in units of 2^−f
  let f := (0 - min e 0).toNat
  let one := 2 ^ f
  let y := (m * 2 ^ (e + f).toNat) % (2 * one)
  if cosine then
    let y := if one < y then 2 * one - y else y
    let neg := decide (one < 2 * y)
    let y := if neg then one - y else y
    -- cos πy = sin π(1/2 − y), in units of 2^−(f+1)
    let z := one - 2 * y
    if z = 0 then none else some (sinZ neg z (-(f : Int) - 1))
  else
    let neg := s != decide (one ≤ y)
    let y := if one ≤ y then y - one else y
    let z := if one < 2 * y then one - y else y
    if z = 0 then none else some (sinZ neg z (-(f : Int)))

/-! ### The nine functions (R235, R256) -/

inductive SpFn where
  | exp2 | log2 | rcp | rsqrt | sqrt | tanh | sigm | sinp | cosp
  deriving DecidableEq, Repr

/-- The FP32 procedure of a function on a finite input that the table of R235 leaves to it. -/
def spProc (f : SpFn) (v : Nat) : Nat × Nat :=
  ufFix (match f with
    | .exp2 => exp2P (k32 v)
    | .log2 => log2P v
    | .rcp => rcpP (k32 v)
    | .rsqrt => rsqrtP v
    | .sqrt => sqrtP v
    | .tanh => tanhP v
    | .sigm => sigmP v
    | .sinp => sincosP false v
    | .cosp => sincosP true v)

/-- The exact value of a function on a finite input, for the narrower formats. -/
def spReal (f : SpFn) (s : Bool) (m : Nat) (e : Int) : Option Real :=
  match f with
  | .exp2 => some (exp2R s m e)
  | .log2 => some (log2R m e)
  | .rcp => some (rcpR s m e)
  | .rsqrt => some (rsqrtR m e)
  | .sqrt => some (sqrtR m e)
  | .tanh => some (tanhR s m e)
  | .sigm => some (sigmR s m e)
  | .sinp => sincosR false s m e
  | .cosp => sincosR true s m e

/-- The special inputs of R235 other than NaN: the result and flags, or none. -/
def spSpecial (f : SpFn) (t : Fmt) (v : FVal) : Option (Nat × Nat) :=
  let one (s : Bool) : Nat := (roundF t .sat .rne 0 (exactR s 1 0)).1
  let half : Nat := (roundF t .sat .rne 0 (exactR false 1 (-1))).1
  let bad := some (defaultNan t, flNV)
  match f, v with
  | .exp2, .inf s => some (if s then 0 else packInf t false, 0)
  | .exp2, .fin _ 0 _ => some (one false, 0)
  | .log2, .inf s => if s then bad else some (packInf t false, 0)
  | .log2, .fin s m _ => if m = 0 then some (packInf t true, flDZ) else if s then bad else none
  | .rcp, .inf s => some (signBit t s, 0)
  | .rcp, .fin s 0 _ => some (packInf t s, flDZ)
  | .rsqrt, .inf s => if s then bad else some (0, 0)
  | .rsqrt, .fin s m _ => if m = 0 then some (packInf t s, flDZ) else if s then bad else none
  | .sqrt, .inf s => if s then bad else some (packInf t false, 0)
  | .sqrt, .fin s m _ => if m = 0 then some (signBit t s, 0) else if s then bad else none
  | .tanh, .inf s => some (one s, 0)
  | .tanh, .fin s 0 _ => some (signBit t s, 0)
  | .sigm, .inf s => some (if s then 0 else one false, 0)
  | .sigm, .fin _ 0 _ => some (half, 0)
  | .sinp, .inf _ => bad
  | .sinp, .fin s 0 _ => some (signBit t s, 0)
  | .cosp, .inf _ => bad
  | .cosp, .fin _ 0 _ => some (one false, 0)
  | _, _ => none

/-- One element of a special function: result and flags (R227, R228, R235). -/
def spElem (f : SpFn) (ty : ETy) (rm : Rm) (w v : Nat) : Nat × Nat :=
  let t := fmtOf ty
  match unpackF t v with
  | .nan s fr g => (packNan t s fr, if g then flNV else 0)
  | x =>
    match spSpecial f t x with
    | some r => r
    | none =>
      if ty = .f32 then spProc f v
      else
        match x with
        | .fin s m e =>
          match spReal f s m e with
          | some r => roundF t (overArith t) rm w r
          | none => (if f = .sinp then signBit t s else 0, 0)
        | _ => (defaultNan t, 0)

end Sys2Proof.Machine
end

