-- ==== Sys2Proof/Machine/VectorFloat.lean ====
section
/-! DEFINITION. Vector floating-point arithmetic, comparisons, selection, classification and the special
functions (R242 to R245, R256). -/

namespace Sys2Proof.Machine

/-- Lane view is admitted for f32 spans of width 8 only (R162). -/
def laneBad (sh : VShape) (ty : ETy) (ops : List VOp) : Bool :=
  !sh.reg && !(ty == .f32 && ops.all fun o => o.w == 8)

/-! ### Arithmetic (R242) -/

/-- An element operation: format, mode, random word, first source, second source, old destination. -/
abbrev VFOp := Fmt → Rm → Nat → Nat → Nat → Nat → Nat × Nat

/-- The work of a floating-point instruction of format V.R under DRM: `one` for one source, `old` where the
destination is a source. Under SR it draws for every element, whether or not its rounding can turn out inexact
(R216). -/
def vfWork (v : Core) (i : Instr) (o : FVR) (lat : Nat) (one old : Bool) (f : VFOp) : VWork :=
  let d := vop v.csr o.d o.vd
  let a := vop v.csr o.d o.va
  let bb := vop v.csr o.d o.vb
  let srcs := if one then [a] else [a, bb]
  let sh := vshape o.ty (d :: srcs)
  let xs := vread v a
  let ys := if one then 0 else vread v bb
  let zs := if old then vread v d else 0
  let m := dynMode v.csr .computes
  let dr := draw v m (sh.n / 128) 128
  let rs := (List.range sh.n).map fun j =>
    f (fmtOf o.ty) m.rm (lget 0 dr.words j) (elemN sh.b xs j) (elemN sh.b ys j) (elemN sh.b zs j)
  let p := pmBits v o.pm
  { sl := o.sl, lat := lat, srcs := if old then srcs ++ [d] else srcs, dsts := [d],
    preds := [pmPhys v o.pm], mode := m, draws := dr,
    faults := [(laneBad sh o.ty (d :: srcs), 0x11, encode i)],
    vals := vput v.csr sh d (vmap sh fun j => (lget (0, 0) rs j).1) p,
    flags := govFlags p sh.n fun j => (lget (0, 0) rs j).2 }

def planVF (s : State) (i : Instr) (o : FVR) (lat : Nat) (old : Bool) (f : VFOp) : Plan :=
  planVec s.view i (vfWork s.view i o lat false old f)

def execVfadd (o : FVR) (s : State) : Host.Outcome State Fault Refusal :=
  runPlan (.vfadd o) s (planVF s (.vfadd o) o 4 false fun t m w a b _ => addF t m w a b)
def execVfsub (o : FVR) (s : State) : Host.Outcome State Fault Refusal :=
  runPlan (.vfsub o) s (planVF s (.vfsub o) o 4 false fun t m w a b _ => subF t m w a b)
def execVfmul (o : FVR) (s : State) : Host.Outcome State Fault Refusal :=
  runPlan (.vfmul o) s (planVF s (.vfmul o) o 4 false fun t m w a b _ => mulF t m w a b)
def execVfma (o : FVR) (s : State) : Host.Outcome State Fault Refusal :=
  runPlan (.vfma o) s (planVF s (.vfma o) o 5 true fun t m w a b c => fmaF t m w a b c)
def execVfms (o : FVR) (s : State) : Host.Outcome State Fault Refusal :=
  runPlan (.vfms o) s (planVF s (.vfms o) o 5 true fun t m w a b c => fmsF t m w a b c)

/-- VFMIN and VFMAX choose one of their values (R219). -/
def planVFSelect (s : State) (i : Instr) (o : FVR) (max : Bool) : Plan :=
  planVec s.view i (vfWork s.view i o 4 false false fun t _ _ a b _ => minMaxF t max a b)

def execVfmin (o : FVR) (s : State) : Host.Outcome State Fault Refusal :=
  runPlan (.vfmin o) s (planVFSelect s (.vfmin o) o false)
def execVfmax (o : FVR) (s : State) : Host.Outcome State Fault Refusal :=
  runPlan (.vfmax o) s (planVFSelect s (.vfmax o) o true)

/-- The work of VFABS and VFNEG: the sign bit only, no flag (R242). -/
def planVFSign (s : State) (i : Instr) (o : FVR) (f : Nat → Nat → Nat) : Plan :=
  planVec s.view i (vfWork s.view i o 2 true false fun t _ _ a _ _ =>
    (f (t.eb + t.fb) a, 0))

def execVfabs (o : FVR) (s : State) : Host.Outcome State Fault Refusal :=
  runPlan (.vfabs o) s (planVFSign s (.vfabs o) o fun k a => a % 2 ^ k)
def execVfneg (o : FVR) (s : State) : Host.Outcome State Fault Refusal :=
  runPlan (.vfneg o) s (planVFSign s (.vfneg o) o fun k a => a ^^^ 2 ^ k)

/-! ### Comparisons into a predicate (R243) -/

/-- The work of a comparison: bits of governed elements, bits at and above the element count zero. -/
def vcWork (v : Core) (o : FVC) (lat : Nat) (sh : VShape) (a b : VOp) (p : Pred)
    (bad : List (Bool × Nat × Word)) (holds : Nat → Bool) (fl : BitVec 5) : VWork :=
  let pd := rotPred v.csr.prb o.pd.toNat
  let x := packN 1 sh.n fun j => if holds j then 1 else 0
  let lowMask := 2 ^ sh.n - 1
  let mask := (p.toNat % 2 ^ sh.n) + (2 ^ 1024 - 1 - lowMask)
  { sl := o.sl, lat := lat, srcs := [a, b], dsts := [], preds := [pmPhys v o.pm], more := predUnits pd,
    faults := bad, vals := [.pred pd (BitVec.ofNat 1024 x) (BitVec.ofNat 1024 mask)], flags := fl }

/-- The integer conditions of VCMP. -/
def vcmpHolds (cond : Nat) (a b : Int) (x y : Nat) : Bool :=
  match cond with
  | 0 => a == b
  | 1 => a != b
  | 2 => decide (a < b)
  | 3 => decide (a ≤ b)
  | 4 => decide (b < a)
  | 5 => decide (b ≤ a)
  | _ => (x &&& y) != 0

/-- The floating-point conditions of VFCMP. -/
def vfcmpHolds (cond : Nat) (t : Fmt) (x y : Nat) : Bool :=
  let un := unorderedF t x y
  let lt := ltF t x y
  let eq := eqF t x y
  match cond with
  | 0 => eq
  | 1 => !eq
  | 2 => lt
  | 3 => lt || eq
  | 4 => !un && !lt && !eq
  | 5 => !un && !lt
  | 6 => un
  | _ => !un

def execVcmp (o : FVC) (s : State) : Host.Outcome State Fault Refusal :=
  let v := s.view
  let a := vop v.csr o.d o.va
  let b := vop v.csr o.d o.vb
  let sh := vshape o.ty [a, b]
  let sgn := o.ty.isSigned
  let xs := vget v sh sgn a
  let ys := vget v sh sgn b
  let val (x : Nat) : Int := if sgn then toSigned sh.b x else (x : Int)
  runPlan (.vcmp o) s (planVec v (.vcmp o) (vcWork v o 2 sh a b (pmBits v o.pm) []
    (fun j =>
      let x := elemN sh.b xs j
      let y := elemN sh.b ys j
      vcmpHolds o.cond.toNat (val x) (val y) x y) 0))

def execVfcmp (o : FVC) (s : State) : Host.Outcome State Fault Refusal :=
  let v := s.view
  let a := vop v.csr o.d o.va
  let b := vop v.csr o.d o.vb
  let sh := vshape o.ty [a, b]
  let t := fmtOf o.ty
  let xs := vread v a
  let ys := vread v b
  let p := pmBits v o.pm
  runPlan (.vfcmp o) s (planVec v (.vfcmp o) (vcWork v o 4 sh a b p
    [(laneBad sh o.ty [a, b], 0x11, encode (.vfcmp o))]
    (fun j => vfcmpHolds o.cond.toNat t (elemN sh.b xs j) (elemN sh.b ys j))
    (govFlags p sh.n fun j => sigFlag [unpackF t (elemN sh.b xs j), unpackF t (elemN sh.b ys j)])))

/-- VSEL (R244): the predicate selects; every element is written. -/
def execVsel (o : FVR) (s : State) : Host.Outcome State Fault Refusal :=
  let v := s.view
  let d := vop v.csr o.d o.vd
  let a := vop v.csr o.d o.va
  let b := vop v.csr o.d o.vb
  let sh := vshape o.ty [d, a, b]
  let xs := vget v sh false a
  let ys := vget v sh false b
  let p := pmBits v o.pm
  runPlan (.vsel o) s (planVec v (.vsel o)
    { sl := o.sl, lat := 2, srcs := [a, b], dsts := [d], preds := [pmPhys v o.pm],
      vals := vput v.csr sh d
        (vmap sh fun j => if p.getLsbD j then elemN sh.b xs j else elemN sh.b ys j) predOnes })

/-! ### One-source forms of format V.U -/

/-- The work of an element-wise instruction of format V.U on floating-point elements of one type. -/
def vuWork (v : Core) (i : Instr) (o : FVU) (lat : Nat) (m : RMode) (f : Rm → Nat → Nat → Nat × Nat) :
    VWork :=
  let d := vop v.csr o.d o.vd
  let a := vop v.csr o.d o.va
  let sh := vshape o.ty [d, a]
  let xs := vread v a
  let dr := draw v m (sh.n / 128) 128
  let rs := (List.range sh.n).map fun j => f m.rm (lget 0 dr.words j) (elemN sh.b xs j)
  let p := pmBits v o.pm
  { sl := o.sl, lat := lat, srcs := [a], dsts := [d], preds := [pmPhys v o.pm], mode := m, draws := dr,
    faults := [(laneBad sh o.ty [d, a], 0x11, encode i)],
    vals := vput v.csr sh d (vmap sh fun j => (lget (0, 0) rs j).1) p,
    flags := govFlags p sh.n fun j => (lget (0, 0) rs j).2 }

/-- VCLASS (R245). -/
def execVclass (o : FVU) (s : State) : Host.Outcome State Fault Refusal :=
  runPlan (.vclass o) s (planVec s.view (.vclass o)
    (vuWork s.view (.vclass o) o 2 ⟨.rne, none⟩ fun _ _ x => (classF (fmtOf o.ty) x, 0)))

/-- A special function (R256): f32 results ignore RM and draw nothing. -/
def planVSpecial (s : State) (i : Instr) (o : FVU) (f : SpFn) : Plan :=
  let m : RMode := if o.ty = .f32 then ⟨.rne, none⟩ else fieldMode s.view.csr .computes o.rm o.cls
  planVec s.view i (vuWork s.view i o 10 m fun rm w x => spElem f o.ty rm w x)

def execVexp2 (o : FVU) (s : State) : Host.Outcome State Fault Refusal :=
  runPlan (.vexp2 o) s (planVSpecial s (.vexp2 o) o .exp2)
def execVlog2 (o : FVU) (s : State) : Host.Outcome State Fault Refusal :=
  runPlan (.vlog2 o) s (planVSpecial s (.vlog2 o) o .log2)
def execVrcp (o : FVU) (s : State) : Host.Outcome State Fault Refusal :=
  runPlan (.vrcp o) s (planVSpecial s (.vrcp o) o .rcp)
def execVrsqrt (o : FVU) (s : State) : Host.Outcome State Fault Refusal :=
  runPlan (.vrsqrt o) s (planVSpecial s (.vrsqrt o) o .rsqrt)
def execVsqrt (o : FVU) (s : State) : Host.Outcome State Fault Refusal :=
  runPlan (.vsqrt o) s (planVSpecial s (.vsqrt o) o .sqrt)
def execVtanh (o : FVU) (s : State) : Host.Outcome State Fault Refusal :=
  runPlan (.vtanh o) s (planVSpecial s (.vtanh o) o .tanh)
def execVsigm (o : FVU) (s : State) : Host.Outcome State Fault Refusal :=
  runPlan (.vsigm o) s (planVSpecial s (.vsigm o) o .sigm)
def execVsinp (o : FVU) (s : State) : Host.Outcome State Fault Refusal :=
  runPlan (.vsinp o) s (planVSpecial s (.vsinp o) o .sinp)
def execVcosp (o : FVU) (s : State) : Host.Outcome State Fault Refusal :=
  runPlan (.vcosp o) s (planVSpecial s (.vcosp o) o .cosp)

end Sys2Proof.Machine
end

