-- ==== Sys2Proof/Machine/Convert.lean ====
section
/-! DEFINITION. Vector conversions and reductions (R223, R246 to R251). -/

namespace Sys2Proof.Machine

/-! ### Integers of a type -/

/-- The range of an integer type held in w bits. -/
def intRange (sgn : Bool) (w : Nat) : Int × Int :=
  if sgn then (-(2 ^ (w - 1) : Int), 2 ^ (w - 1) - 1) else (0, 2 ^ w - 1)

/-- An element of b bits as an integer by signedness. -/
def intOf (sgn : Bool) (b x : Nat) : Int := if sgn then toSigned b x else (x : Int)

/-! ### VCVT (R246) -/

/-- One element converted between types of equal width; `b` is the width the source is read at and `dw` the
width an integer result is held to. -/
def cvtElem (dst src : ETy) (b dw : Nat) (rm : Rm) (w : Nat) (ns : Bool) (x : Nat) : Nat × Nat :=
  if dst.isFlt then
    if src.isFlt then cvtFF (fmtOf dst) (fmtOf src) rm w ns x
    else cvtIF (fmtOf dst) rm w ns (intOf src.isSigned b x)
  else
    let r := intRange dst.isSigned dw
    let y := cvtFI r.1 r.2 (fmtOf src) rm w x
    (wrapI b y.1, y.2)

def execVcvt (o : FVU) (s : State) : Host.Outcome State Fault Refusal :=
  let v := s.view
  let d := vop v.csr o.d o.vd
  let a := vop v.csr o.d o.va
  let sh := vshape o.ty [d, a]
  let m := fieldMode v.csr .converts o.rm o.cls
  let xs := if o.ty2.isFlt then vread v a else vget v sh o.ty2.isSigned a
  let dr := draw v m (sh.n / 128) 128
  let dw := if sh.reg then sh.b else 4 * d.w
  let rs := (List.range sh.n).map fun j =>
    cvtElem o.ty o.ty2 sh.b dw m.rm (lget 0 dr.words j) o.ns (elemN sh.b xs j)
  let p := pmBits v o.pm
  let laneOk := (o.ty == .f32 && d.w == 8) || (o.ty2 == .f32 && a.w == 8)
  runPlan (.vcvt o) s (planVec v (.vcvt o)
    { sl := o.sl, lat := 3, srcs := [a], dsts := [d], preds := [pmPhys v o.pm], mode := m, draws := dr,
      faults := [(!sh.reg && !laneOk, 0x11, encode (.vcvt o))],
      vals := vput v.csr sh d (vmap sh fun j => (lget (0, 0) rs j).1) p,
      flags := govFlags p sh.n fun j => (lget (0, 0) rs j).2 })

/-! ### Groups of registers (R166) -/

/-- The registers of a group that a span heads. -/
def groupRegs (o : VOp) (g : Nat) : List VOp := (List.range g).map o.regOf

/-- Element i of the sequence that a group of g registers holds: register i mod g, element i div g. -/
def groupElem (g b : Nat) (regs : List Nat) (i : Nat) : Nat := elemN b (lget 0 regs (i % g)) (i / g)

/-- The writes of a sequence of elements of b bits to a group: register r holds elements g × e + r; the
predicate governs element i of the sequence. -/
def groupPut (c : Csrs) (o : VOp) (g b : Nat) (p : Pred) (f : Nat → Nat) : List UVal :=
  (List.range g).flatMap fun r =>
    vwrite c (o.regOf r) (packN b (4096 / b) fun e => f (g * e + r))
      (packN b (4096 / b) fun e => if p.getLsbD (g * e + r) then 2 ^ b - 1 else 0)

/-! ### VWIDEN and VNARROW (R247, R248) -/

/-- One element widened. -/
def widenElem (dst src : ETy) (b x : Nat) : Nat × Nat :=
  if src.isFlt then cvtFF (fmtOf dst) (fmtOf src) .rne 0 false x
  else if dst.isFlt then cvtIF (fmtOf dst) .rne 0 false (intOf src.isSigned b x)
  else (wrapI 32 (intOf src.isSigned b x), 0)

def execVwiden (o : FVU) (s : State) : Host.Outcome State Fault Refusal :=
  let v := s.view
  let d := vop v.csr o.d o.vd
  let a := vop v.csr o.d o.va
  let p := pmBits v o.pm
  let reg := d.reg && a.reg
  let g := o.ty.bits / o.ty2.bits
  let sb := o.ty2.bits
  let sh : VShape := if reg then ⟨true, sb, 4096 / sb⟩ else ⟨false, 32, 128⟩
  let xs := vget v sh o.ty2.isSigned a
  let rs := (List.range sh.n).map fun j => widenElem o.ty o.ty2 sh.b (elemN sh.b xs j)
  let res (j : Nat) : Nat := (lget (0, 0) rs j).1
  runPlan (.vwiden o) s (planVec v (.vwiden o)
    { sl := o.sl, lat := 3, srcs := [a], dsts := if reg then groupRegs d g else [d],
      preds := [pmPhys v o.pm],
      faults := [(reg && d.groupBad g, 0x10, encode (.vwiden o)),
                 (!reg && (o.ty.isFlt || o.ty2.isFlt), 0x11, encode (.vwiden o))],
      vals := if reg then groupPut v.csr d g o.ty.bits p res else vput v.csr sh d (vmap sh res) p,
      flags := govFlags p sh.n fun j => (lget (0, 0) rs j).2 })

/-- One element narrowed; `b` is the width the source is read at, `dw` the width of the result. -/
def narrowElem (dst src : ETy) (b dw : Nat) (rm : Rm) (w : Nat) (ns : Bool) (x : Nat) : Nat × Nat :=
  if dst.isFlt then cvtFF (fmtOf dst) (fmtOf src) rm w ns x
  else
    let i := intOf src.isSigned b x
    let r := intRange dst.isSigned dw
    (wrapI dw (if ns then i else clampI r.1 r.2 i), 0)

def execVnarrow (o : FVU) (s : State) : Host.Outcome State Fault Refusal :=
  let v := s.view
  let d := vop v.csr o.d o.vd
  let a := vop v.csr o.d o.va
  let p := pmBits v o.pm
  let reg := d.reg && a.reg
  let g := o.ty2.bits / o.ty.bits
  let sb := o.ty2.bits
  let db := o.ty.bits
  let n := if reg then 4096 / db else 128
  let m := fieldMode v.csr .converts o.rm o.cls
  let dr := draw v m (n / 128) 128
  let srcs := if reg then groupRegs a g else [a]
  let regs := srcs.map (vread v)
  let dw := if reg then db else 4 * d.w
  let rs := (List.range n).map fun j =>
    if reg then narrowElem o.ty o.ty2 sb dw m.rm (lget 0 dr.words j) o.ns (groupElem g sb regs j)
    else narrowElem o.ty o.ty2 (4 * a.w) dw m.rm 0 o.ns (elemN (4 * a.w) (lget 0 regs 0) j)
  let sh : VShape := if reg then ⟨true, db, n⟩ else ⟨false, 32, 128⟩
  runPlan (.vnarrow o) s (planVec v (.vnarrow o)
    { sl := o.sl, lat := 3, srcs := srcs, dsts := [d], preds := [pmPhys v o.pm], mode := m, draws := dr,
      faults := [(reg && a.groupBad g, 0x10, encode (.vnarrow o)),
                 (!reg && (o.ty.isFlt || o.ty2.isFlt), 0x11, encode (.vnarrow o))],
      vals := vput v.csr sh d (vmap sh fun j => (lget (0, 0) rs j).1) p,
      flags := govFlags p n fun j => (lget (0, 0) rs j).2 })

/-! ### VMXQ and VMXD (R211, R249, R250) -/

def execVmxq (o : FVU) (s : State) : Host.Outcome State Fault Refusal :=
  let v := s.view
  let d := vop v.csr o.d o.vd
  let a := vop v.csr o.d o.va
  let eb := o.ty.bits
  let n := 4096 / eb
  let sb := o.ty2.bits
  let g := sb / eb
  let m := fieldMode v.csr .converts o.rm o.cls
  let dr := draw v m (n / 128) 128
  let regs := (groupRegs a g).map (vread v)
  let isF4 := o.ty == .mxf4
  let blocks := (List.range (n / 32)).map fun k =>
    mxQuant isF4 m.rm ((List.range 32).map fun j => lget 0 dr.words (32 * k + j))
      ((List.range 32).map fun j => unpackF (fmtOf o.ty2) (groupElem g sb regs (32 * k + j)))
  let elems := packN eb n fun i => lget 0 (lget (0, [], 0) blocks (i / 32)).2.1 (i % 32)
  let scales := packN 32 128 fun l => if l < n / 32 then (lget (0, [], 0) blocks l).1 else 0
  let ones := 2 ^ 4096 - 1
  runPlan (.vmxq o) s (planVec v (.vmxq o)
    { sl := o.sl, lat := 3, srcs := groupRegs a g, dsts := groupRegs d 2, mode := m, draws := dr,
      faults := [(!(d.reg && a.reg), 0x04, encode (.vmxq o)),
                 (a.groupBad g || d.groupBad 2, 0x10, encode (.vmxq o))],
      vals := vwrite v.csr (d.regOf 0) elems ones ++ vwrite v.csr (d.regOf 1) scales ones,
      flags := flagsOr (blocks.map fun b => b.2.2) })

def execVmxd (o : FVU) (s : State) : Host.Outcome State Fault Refusal :=
  let v := s.view
  let d := vop v.csr o.d o.vd
  let a := vop v.csr o.d o.va
  let eb := o.ty2.bits
  let n := 4096 / eb
  let g := o.ty.bits / eb
  let m := fieldMode v.csr .converts o.rm o.cls
  let dr := draw v m (n / 128) 128
  let es := vread v (a.regOf 0)
  let sc := vread v (a.regOf 1)
  let rs := (List.range n).map fun i =>
    mxDequant (fmtOf o.ty) (o.ty2 == .mxf4) m.rm (lget 0 dr.words i) (elemN 32 sc (i / 32) % 256)
      (elemN eb es i)
  let p := pmBits v o.pm
  runPlan (.vmxd o) s (planVec v (.vmxd o)
    { sl := o.sl, lat := 3, srcs := groupRegs a 2, dsts := groupRegs d g, preds := [pmPhys v o.pm],
      mode := m, draws := dr,
      faults := [(!(d.reg && a.reg), 0x04, encode (.vmxd o)),
                 (a.groupBad 2 || d.groupBad g, 0x10, encode (.vmxd o))],
      vals := groupPut v.csr d g o.ty.bits p fun i => (lget (0, 0) rs i).1,
      flags := govFlags p n fun i => (lget (0, 0) rs i).2 })

/-! ### Reductions (R223, R251) -/

/-- One level of the pairwise tree: adjacent pairs combine; an empty node yields the other. -/
def treeLevel (f : Nat → Nat → Nat × Nat) : List (Option Nat) → List (Option Nat) × Nat
  | [] => ([], 0)
  | [x] => ([x], 0)
  | x :: y :: rest =>
    let r := treeLevel f rest
    match x, y with
    | none, y => (y :: r.1, r.2)
    | x, none => (x :: r.1, r.2)
    | some a, some b => (some (f a b).1 :: r.1, (f a b).2 ||| r.2)

/-- The tree over 2^k leaves: its root and its flags. -/
def treeRoot (f : Nat → Nat → Nat × Nat) : Nat → List (Option Nat) → Option Nat × Nat
  | 0, l => (lget none l 0, 0)
  | k + 1, l =>
    let r := treeLevel f l
    let t := treeRoot f k r.1
    (t.1, r.2 ||| t.2)

/-- The work of a reduction: `read` extends an element of the shape, `f` combines, `done` makes the 32-bit
result of the root. -/
def reduceWork (v : Core) (i : Instr) (o : FVU) (flt : Bool) (read : VShape → Nat → Nat × Nat)
    (f : Nat → Nat → Nat × Nat) (done : VShape → Option Nat → Nat × Nat) : VWork :=
  let d := vop v.csr o.d o.vd
  let a := vop v.csr o.d o.va
  let sh := vshape o.ty [d, a]
  let xs := if flt then vread v a else vget v sh o.ty.isSigned a
  let p := pmBits v o.pm
  let es := (List.range sh.n).map fun j => read sh (elemN sh.b xs j)
  let leaves := (List.range sh.n).map fun j =>
    if p.getLsbD j then some (lget (0, 0) es j).1 else none
  let root := treeRoot f (Nat.log2 sh.n) leaves
  let r := done sh root.1
  { sl := o.sl, lat := 6, srcs := [a], dsts := [d], preds := [pmPhys v o.pm],
    faults := [(flt && laneBad sh o.ty [d, a], 0x11, encode i)],
    vals := vwrite v.csr d (r.1 % 2 ^ (4 * d.w)) (2 ^ (4 * d.w) - 1),
    flags := flagsOr [govFlags p sh.n (fun j => (lget (0, 0) es j).2) |>.toNat, root.2, r.2] }

/-- VRSUM: integer sum wrapping at 32 bits. -/
def execVrsum (o : FVU) (s : State) : Host.Outcome State Fault Refusal :=
  runPlan (.vrsum o) s (planVec s.view (.vrsum o) (reduceWork s.view (.vrsum o) o false
    (fun sh x => (wrapI 32 (intOf o.ty.isSigned sh.b x), 0))
    (fun a b => ((a + b) % 2 ^ 32, 0)) (fun _ r => (r.getD 0, 0))))

/-- The mode of VRFSUM: a dynamic RNA or SR rounds to nearest even (R251). -/
def vrfsumRm (c : Csrs) (o : FVU) : Rm :=
  if o.rm = 6 && (c.fpDrm = 4 || c.fpDrm = 5) then .rne else (fieldMode c .computes o.rm o.cls).rm

def execVrfsum (o : FVU) (s : State) : Host.Outcome State Fault Refusal :=
  let v := s.view
  let t := fmtOf o.ty2
  runPlan (.vrfsum o) s (planVec v (.vrfsum o) (reduceWork v (.vrfsum o) o true
    (fun _ x => if o.ty2 = o.ty then (x, 0) else cvtFF t (fmtOf o.ty) .rne 0 false x)
    (addF t (vrfsumRm v.csr o) 0)
    (fun _ r => match r with
      | none => (0, 0)
      | some x => cvtFF fmtF32 t .rne 0 false x)))

/-- The work of VRMAX and VRMIN: integers by signedness, an empty result at the width they are read at;
floats by R219, the winner widened to f32. -/
def planVrMinMax (s : State) (i : Instr) (o : FVU) (wantMax : Bool) : Plan :=
  let v := s.view
  let t := fmtOf o.ty
  if o.ty.isFlt then
    planVec v i (reduceWork v i o true (fun _ x => (x, 0)) (minMaxF t wantMax)
      (fun _ r => match r with
        | none => (packInf fmtF32 wantMax, 0)
        | some x => cvtFF fmtF32 t .rne 0 false x))
  else
    let sgn := o.ty.isSigned
    planVec v i (reduceWork v i o false
      (fun sh x => (wrapI 32 (intOf sgn sh.b x), 0))
      (fun a b => ((if wantMax then (if intOf sgn 32 a < intOf sgn 32 b then b else a)
        else (if intOf sgn 32 b < intOf sgn 32 a then b else a)), 0))
      (fun sh r => match r with
        | none =>
          let rg := intRange sgn sh.b
          (wrapI 32 (if wantMax then rg.1 else rg.2), 0)
        | some x => (x, 0)))

def execVrmax (o : FVU) (s : State) : Host.Outcome State Fault Refusal :=
  runPlan (.vrmax o) s (planVrMinMax s (.vrmax o) o true)
def execVrmin (o : FVU) (s : State) : Host.Outcome State Fault Refusal :=
  runPlan (.vrmin o) s (planVrMinMax s (.vrmin o) o false)

end Sys2Proof.Machine
end

