-- ==== Sys2Proof/Machine/Dispatching.lean ====
section
/-! DEFINITION. The pool binds nodes to cores, ages them, refills the kiln; the watchdog; pre-emption requests;
single steps and the debugger (R354 to R358, R367, R395, R396, R398, R399, R413, R414). -/

namespace Sys2Proof.Machine

/-! ### Orders (R354, R355) -/

/-- The current priority: one step for every 4,096 decisions waited, up to 7. -/
def priorityNow (n : NodeSlot) : Nat := min 7 (n.prio + n.sinceReady / 4096)

/-- Node a stands before node b in an order; sequence numbers are compared modulo 2³². -/
def ranksBefore (a b : NodeSlot) : Bool :=
  decide (priorityNow b < priorityNow a) ||
    (priorityNow a == priorityNow b && (b.seq - a.seq) != 0 && !(b.seq - a.seq).getLsbD 31)

/-- The ready nodes of a kind, by slot. -/
def readyOf (p : Pool) (kind : CoreKind) : List Nat :=
  (p.nodes.filter fun e => e.2.st == .ready && dKind e.2.desc == kind).map Prod.fst

/-- The head of an order. -/
def headOf (p : Pool) (kind : CoreKind) : Option Nat :=
  (readyOf p kind).foldl (fun h k =>
    match h with
    | none => some k
    | some j => if ranksBefore (p.node k) (p.node j) then some k else some j) none

/-- Puts a saved position in its place among others, the lowest first. -/
def insertLow (q : Nat × Nat) : List (Nat × Nat) → List (Nat × Nat)
  | [] => [q]
  | p :: ps => if q.1 ≤ p.1 then q :: p :: ps else p :: insertLow q ps

/-- The positions of a node that no core is bound to, in the order they are bound: those that stand saved,
then those that were never bound, each with its watchdog count and whether it was saved. -/
def unbound (p : Platform) (n : NodeSlot) : List (Nat × Nat × Bool) :=
  (n.saved.foldr insertLow []).map (fun q => (q.1, q.2, true)) ++
    (rangeFrom n.next (positionsOf p n.desc - n.next)).map fun k => (k, 0, false)

/-- A started node of a kind that still has positions to be bound: it stands ahead of the head (R357). -/
def bindingNode (s : State) (kind : CoreKind) : Option Nat :=
  (s.pool.nodes.find? fun e => e.2.st == .running && dKind e.2.desc == kind &&
    s.pool.preempting != some e.1 && !(unbound s.plat e.2).isEmpty).map Prod.fst

/-! ### Binding (R356, R357, R419) -/

/-- The free enabled cores of a kind, ascending; none while the kind is not ready. -/
def freeCores (s : State) (kind : CoreKind) : List Nat :=
  let up := match kind with
    | .a => s.plat.acoreUp
    | .g => s.plat.gcoreUp
  if !up then []
  else (coresOf s.plat kind).filter fun i =>
    match s.coreAt i with
    | some c => c.run == .idle && c.binding.isNone
    | none => false

/-- Binds one position to a core; its energy is committed, and it begins. -/
def bindPosition (s : State) (k : Nat) (q : Nat × Nat × Bool) (i : Nat) : State :=
  let n := s.pool.node k
  let d := n.desc
  let w := dWidth d
  let p := positionsOf s.plat d
  let b : Binding :=
    { nodeSlot := k, pos := q.1, positions := p, width := w, v := firstV w p q.1, gang := dGang d,
      cycles := q.2.1, expired := false, fired := dWdog d != 0 && decide (dWdog d ≤ q.2.1), preempted := q.2.2,
      cost := dCost d, clock := 0 }
  let n := { n with
    live := n.live ++ [(q.1, i)], saved := n.saved.filter fun x => x.1 != q.1,
    next := if q.2.2 then n.next else q.1 + 1 }
  match s.coreAt i with
  | none => s
  | some c =>
    let kc := s.kiln
    let s := s.setPool (s.pool.setNode k n)
    let s := { s with kiln := { kc with kcommit := kc.kcommit + BitVec.ofNat 32 (dCost d) } }
    beginPosition (s.setCoreAt i { c with binding := some b }) i

/-- Energy for n more positions of a node is there (R356): the allowance is that of the last refill (R414). -/
def affords (s : State) (d : BitVec 512) (n : Nat) : Bool :=
  decide (s.kiln.kcommit.toNat + dCost d * n ≤ s.kiln.allow.toNat)

/-- A dispatch decision is made: the other ready nodes of the kind have waited one more (R355). -/
def countDecision (p : Pool) (kind : CoreKind) (k : Nat) : Pool :=
  ((readyOf p kind).filter fun j => j != k).foldl (fun (p : Pool) j =>
    p.setNode j { p.node j with sinceReady := (p.node j).sinceReady + 1 }) p

/-- NODE_DISPATCH: the head of an order starts, or faults with an unattainable cost. -/
def execNodeDispatch (kind : CoreKind) (s : State) : Host.Outcome State Fault Refusal :=
  let no : Host.Outcome State Fault Refusal := .next s
  match headOf s.pool kind with
  | none => no
  | some k =>
    let n := s.pool.node k
    let res := dRes n.desc
    if s.pool.preempting == some k || (bindingNode s kind).isSome then no
    else if s.kiln.allow.toNat < dCost n.desc * (if res then dWidth n.desc else 1) then
      .next (s.setPool (s.pool.abandon k 0x6C))
    else
      let todo := if res then unbound s.plat n else (unbound s.plat n).take 1
      let free := freeCores s kind
      if todo.isEmpty || free.length < todo.length || !affords s n.desc todo.length then no
      else
        let p := countDecision s.pool kind k
        let s := s.setPool (p.setNode k { p.node k with st := .running })
        .next ((todo.zip free).foldl (fun s q => bindPosition s k q.1 q.2) s)

/-- A bound core whose position has not begun: its images or its record are still being read. -/
def pendingStart (s : State) (kind : CoreKind) : Option Nat :=
  (coresOf s.plat kind).find? fun i =>
    match s.coreAt i with
    | some c => c.startPending && !mustLeave s c
    | none => false

/-- POSITION_BIND: the next position of a started node is bound; a bound one that could not begin tries
again. -/
def execPositionBind (kind : CoreKind) (s : State) : Host.Outcome State Fault Refusal :=
  let no : Host.Outcome State Fault Refusal := .next s
  let retry : Host.Outcome State Fault Refusal :=
    match pendingStart s kind with
    | some i => .next (beginPosition s i)
    | none => no
  match bindingNode s kind with
  | none => retry
  | some k =>
    let n := s.pool.node k
    match unbound s.plat n, freeCores s kind with
    | q :: _, i :: _ => if affords s n.desc 1 then .next (bindPosition s k q i) else retry
    | _, _ => retry

/-- PRIORITY_AGING: a ready node that has waited 4,096 decisions rises by one. -/
def execPriorityAging (slot : BitVec 12) (s : State) : Host.Outcome State Fault Refusal :=
  let n := s.pool.node slot.toNat
  if n.st = .ready && 4096 ≤ n.sinceReady then
    .next (s.setPool (s.pool.setNode slot.toNat
      { n with prio := min 7 (n.prio + 1), sinceReady := n.sinceReady - 4096 }))
  else .next s

/-! ### The watchdog (R367) -/

/-- The limit of the virtual core that a core runs; 0 for none. A gang's count is its lead's. -/
def wdogOf (s : State) (c : Core) : Nat :=
  match c.binding with
  | none => 0
  | some b => if b.gang && b.v != 0 then 0 else dWdog (s.pool.node b.nodeSlot).desc

/-- WATCHDOG_EXPIRY: the count has reached WDOG. In node mode a wait ends as for a pre-emption; the fault is taken
at the next node-mode group. It expires once (log 46). -/
def execWatchdogExpiry (s : State) : Host.Outcome State Fault Refusal :=
  match s.core.binding with
  | none => .next s
  | some b =>
    let w := wdogOf s s.core
    if w = 0 || b.cycles < w || b.fired || s.core.run != .running then .next s
    else
      let t := if s.core.mode = .node then cancelWait s else s
      .next (t.setCore { t.core with binding := some { b with expired := true, fired := true } })

/-- The trap of an expiry, in place of the next node-mode group. -/
def expiryTrap (s : State) : State :=
  let c := s.core
  let t := s.setCore { c with binding := c.binding.map fun b => { b with expired := false } }
  takeTrap t { cause := 0x68, tval := wordOf (wdogOf s c), slot := none, defer := false, tpc := c.pc, topc := c.pc,
               resumeXt := c.nodeXt }

/-! ### The kiln (R413, R414) -/

/-- The share of a core of a kind per refill period. -/
def kilnShare (s : State) (kind : CoreKind) : Nat :=
  let allow := s.kiln.allow.toNat
  let g := min allow s.kiln.gres.toNat
  max 512 (match kind with
    | .a => (allow - g) / s.plat.aSites.length
    | .g => g / s.plat.gSites.length)

/-- KILN_REFILL: KALLOW and KGRES as they are written now take effect, and every enabled core has its share; the
remainder is kept, the holds of the period are over. -/
def execKilnRefill (s : State) : Host.Outcome State Fault Refusal :=
  if s.plat.upAt.isNone then .next s
  else
    let s := { s with kiln := { s.kiln with allow := s.kiln.kallow, gres := s.kiln.kgres } }
    .next ((coresOf s.plat .a ++ coresOf s.plat .g).foldl (fun t i =>
      match t.coreAt i with
      | none => t
      | some c => t.setCoreAt i { c with kilnUnits := kilnShare s c.kind, kilnHolds := 0 }) s)

/-- A core begins an energy-shortfall hold (R416). -/
def countHold (s : State) : State :=
  let k := s.kiln
  { s with core := { s.core with kilnHolds := s.core.kilnHolds + 1 },
           kiln := { k with kholds := if k.kholds = 0xFFFFFFFF then k.kholds else k.kholds + 1 } }

/-! ### Requests from outside (R395, R396, R398, R399) -/

/-- PREEMPT. -/
def execPreempt (slot : BitVec 12) (s : State) : Host.Outcome State Fault Refusal :=
  .next (s.asked fun s => s.setPool (preemptNode s.pool slot.toNat))

/-- A member of a gang that follows the lead. -/
def Core.follows (c : Core) : Bool := c.binding.any fun b => b.gang && b.v != 0

/-- SINGLE_STEP: the trap that follows a group completed in node mode with DBGCTL.SS set, at the next group
boundary; in a gang only the lead steps (R395). -/
def execSingleStep (s : State) : Host.Outcome State Fault Refusal :=
  let c := s.core
  if c.csr.dbgctl.getLsbD 0 && c.mode == .node && c.run == .running && c.wait == .none && !c.follows then
    let c := c.expire
    .next (trapOrHalt (s.setCore c)
      { cause := 0x7A, tval := 0, slot := none, defer := false, tpc := c.pc, topc := c.pc, resumeXt := c.nodeXt })
  else .next s

/-- DEBUG_HALT_REQUEST: HREQ is written to 1. -/
def execDebugHaltRequest (i : BitVec 10) (s : State) : Host.Outcome State Fault Refusal :=
  match s.coreAt i.toNat with
  | none => .next s
  | some c => .next (s.asked fun s => s.setCoreAt i.toNat (debugWrite c 0 1 1))

/-- The waits that stall a group that has not issued are given up at a halt; those of an instruction that has
issued go on. -/
def haltWait (s : State) : State :=
  match s.core.wait with
  | .none => s
  | .fenced .. => s
  | .exit => s
  | _ => dropWait s

/-- DEBUG_HALT: the request is taken at a group boundary, after every hold; a walk that the core waited for is
given up, and its group issues again on return. -/
def execDebugHalt (s : State) : Host.Outcome State Fault Refusal :=
  let c := s.core
  if c.dbg.hreq && c.run == .running && !c.inHold then
    let t := enterHalt (haltWait s) 0 c.pc c.nodeXt
    .next { t with xlat := leaveWalks t.xlat ⟨c.region.toNat, false⟩ }
  else .next s

/-- DEBUG_RESUME: HREQ is written to 0. -/
def execDebugResume (i : BitVec 10) (s : State) : Host.Outcome State Fault Refusal :=
  match s.coreAt i.toNat with
  | none => .next s
  | some c => .next (s.asked fun s => s.setCoreAt i.toNat (debugWrite c 0 0 1))

/-! ### Machine check (R408, R411) -/

/-- A channel of a stopped core: its operations end with ERR. -/
def stopChannel (s : State) (ch : Chan) : State :=
  let ops := (s.chan ch).op.toList ++ (s.chan ch).pending.toList
  let s := ops.foldl (clearOp ch) s
  s.setChan ch { s.chan ch with op := none, pending := none, err := !ops.isEmpty || (s.chan ch).err,
                                cause := if ops.isEmpty then (s.chan ch).cause else 0x7F }

/-- The barriers that a stopped core's channels are to credit cannot be updated yet. -/
def stopProbe (s : State) : Option State := (clearProbe s .a).orElse fun _ => clearProbe s .b

/-- The log entry and the vector of a machine check. -/
def reportCheck (s : State) : State :=
  let d := s.core.dbg
  if d.mcNew then
    let s := s.setCore { s.core with dbg := { d with mcNew := false } }
    (logError s 6 true 0x7F d.mcSyn.toNat s.core.region.toNat d.mcaddr.toNat).send (.msix d.dvec)
  else s

/-- What the chip does with a core that a machine check has stopped: log and vector, channels, node. -/
def stopCleanup (s : State) : State :=
  let s := reportCheck s
  match stopProbe s with
  | some t => t
  | none =>
    let s := stopChannel (stopChannel s .a) .b
    let i := s.core.region.toNat
    match s.core.binding with
    | none => dropStaged s i
    | some b => settlePreempt (dropStaged (releaseCore (s.setPool (s.pool.abandon b.nodeSlot 0x7F)) i) i)

end Sys2Proof.Machine
end

