-- ==== Sys2Proof/Machine/Queues.lean ====
section
/-! DEFINITION. Shared queues and the bulk engines that serve them (R138 to R141). -/

namespace Sys2Proof.Machine

/-! ### A queue in memory (R138, R140) -/

/-- The base of a queue's memory. -/
def Queue.start (q : Queue) : Nat := q.base.toNat / 4096 * 4096

def Queue.slots (q : Queue) : Nat := 2 ^ q.log2n.toNat

/-- The address of slot k mod N. -/
def Queue.slotAt (q : Queue) (k : Nat) : Nat := q.start + 256 + 64 * (k % q.slots)

/-- Where a queue stands. -/
inductive QueueLook where
  | idle (s : State)
  | packet (s : State) (ridx : Nat) (bytes : List Byte)
  | malformed (s : State) (ridx : Nat)
  | wait (s : State)
  | fail (s : State) (ridx cause : Nat)

/-- The engine's look at a queue: the indices, then the sequence number of the slot at the read index. -/
def lookQueue (s : State) (q : Queue) : QueueLook :=
  let a := bulkAgent s q.asid 0
  match engRead a s q.start 8 with
  | .wait s => .wait s
  | .fail s c _ => .fail s 0 c
  | .done s wb =>
    match engRead a s (q.start + 64) 8 with
    | .wait s => .wait s
    | .fail s c _ => .fail s 0 c
    | .done s rb =>
      let r := leNat rb
      if leNat wb ≤ r then .idle s
      else
        match engRead a s (q.slotAt r) 64 with
        | .wait s => .wait s
        | .fail s c _ => .fail s r c
        | .done s bs =>
          let seq := bytesWord bs 56
          if seq = (r + 1) % 2 ^ 64 then .packet s r bs
          else if seq = 0 || seq = (r + 1 + 2 ^ 64 - q.slots) % 2 ^ 64 then .idle s
          else .malformed s r

/-! ### Packets (R139, R141) -/

/-- One arrival at completion: ARRIVE, or the kind that only arrives. -/
def pkArrive (b : List Byte) : Bool := (pkWord b 0).testBit 10 || pkKind b == 2

/-- A pointer that a packet may hold. -/
def pkPointer (p : Nat) : Bool := p / 2 ^ 60 == 0 || p / 2 ^ 60 == 0xE

/-- A packet breaks R141 in itself. DESIGN CHOICE (log 90): a SCOPE of 5 to 7, which R139 does not give and R141 does
not list, is served. -/
def pkBad (b : List Byte) : Bool :=
  let w := pkWord b
  decide (2 < pkKind b) || bitsN (w 0) 11 53 != 0 || w 5 != 0 || w 6 != 0 || decide (2 ^ 22 ≤ pkLen b) ||
    (pkKind b == 1 && bitsN (w 1) 8 56 != 0) || (pkKind b == 0 && !pkPointer (w 1)) ||
    (pkKind b != 2 && !pkPointer (w 2)) || (w 4 != 0 && !pkPointer (w 4))

/-- The units a packet owes (R120). -/
def pkUnits (b : List Byte) : Nat := if pkKind b = 2 then 0 else pieces 32 (pkWord b 2) (pkLen b)

/-- The bytes of one destination sector. -/
def pkBytes (a : Agent) (s : State) (b : List Byte) (q : Nat × Nat) : EngRes (List Byte) :=
  if pkKind b = 1 then .done s (List.replicate q.2 (BitVec.ofNat 8 (pkWord b 1)))
  else engRead a s (pkWord b 1 + (q.1 - pkWord b 2)) q.2

/-- The range tests of R43 on the pointers of a packet. -/
def pkRange (a : Agent) (s : State) (b : List Byte) : Option Nat :=
  let n := pkLen b
  let test (p n : Nat) : Option Nat :=
    match engTarget a s p n with
    | .error e => some e.1
    | .ok (tag, off) =>
      if tag != 0xE then none
      else match chipArea s off with
        | none => some 0x30
        | some (_, ar, o) => if ar.at.2 < o + n then some 0x32 else none
  if n = 0 || pkKind b = 2 then none
  else (if pkKind b = 0 then test (pkWord b 1) n else none).orElse fun _ => test (pkWord b 2) n

/-- A line is held, or can never be. -/
def lineHeld (a : Agent) (s : State) (p n : Nat) : State × Bool :=
  match engHold a s p n with
  | .wait s => (s, false)
  | .done s _ => (s, true)
  | .fail s _ _ => (s, true)

/-- The next sector of a packet is read and written, as LIN moves it (R127, R139). The lines of a no-allocate packet
leave the L2 (R34). -/
def movePacket (a : Agent) (p : Packet) (s : State) : EngRes Unit :=
  let b := p.bytes
  let q := piece 64 (pkWord b 2) (pkLen b) p.pos
  (pkBytes a s b q).andThen fun s bs =>
    (engWrite a s q.1 bs).andThen fun s _ =>
      .done (if pkEvict b = 7 then
          dropTouched a s [q, if pkKind b = 0 then (pkWord b 1 + (q.1 - pkWord b 2), q.2) else q]
        else s) ()

/-- The barrier of a packet after it: credits and arrival, or ERR and everything owed (R118, R120). -/
def settlePacket (a : Agent) (b : List Byte) (err : Option Nat) (s : State) : State × Option Nat :=
  if pkWord b 4 = 0 then (s, err)
  else
    let f (bs : List Byte) : List Byte :=
      leBytes 16 (match err with
        | none => (barEnd (pkUnits b) (pkArrive b) (leNat bs)).1
        | some _ => barFail (pkUnits b) (pkArrive b) (leNat bs))
    match engUpdate a s .barrier (pkWord b 4) 16 f with
    | .done s old =>
      (s, err.orElse fun _ => if (barEnd (pkUnits b) (pkArrive b) (leNat old)).2 then some 0x45 else none)
    | .wait s => (s, err)
    | .fail s c _ => (s, err.orElse fun _ => some c)

/-! ### Serving (R140, R141) -/

/-- A queue stops: its error record, EN clear. -/
def stopQueue (s : State) (k base asid ridx slots cause : Nat) : State :=
  let bs := leBytes 8 (cause % 256 + 2 ^ 63) ++ leBytes 8 (ridx % slots)
  let s := match engWrite (bulkAgent s (BitVec.ofNat 16 asid) 0) s (base + 128) bs with
    | .done s _ => s
    | .wait s => s
    | .fail s _ _ => s
  let q : Queue := { spGet queueDefault s.queues k with en := false, packet := none }
  { s with queues := spSet queueDefault s.queues k q }

/-- The queue has a packet, or a reason to stop, as things stand. -/
def queueReady (s : State) (q : Queue) : Bool :=
  q.en && match lookQueue s q with
    | .packet .. => true
    | .malformed .. => true
    | .fail .. => true
    | _ => false

/-- The engine of a queue has another one to serve first: one whose packet it performs, or one that is ready in the
turn that begins after the queue served last (R140). -/
def otherFirst (s : State) (k : Nat) (q : Queue) : Bool :=
  let last := lget 0 s.served q.engine.toNat
  let order := (List.range 64).map fun j => (last + 1 + j) % 64
  (s.queues.any fun e => e.1 != k && e.2.engine == q.engine && e.2.packet.isSome) ||
    (order.takeWhile fun j => j != k).any fun j =>
      let r := spGet queueDefault s.queues j
      r.engine == q.engine && queueReady s r

/-- The engine is done with a packet of a queue, or with its reason to stop. -/
def servedNow (s : State) (k : Nat) (q : Queue) : State := { s with served := lset s.served q.engine.toNat k }

/-- The engine looks at a queue, and reads the packet that is next: RIDX goes on, and the packet is captured with
the registration it was read by (R64, R140). -/
def readPacket (s : State) (k : Nat) (q : Queue) : State :=
  let a := bulkAgent s q.asid 0
  let stop (s : State) (r cause : Nat) : State :=
    let h := lineHeld a s (q.start + 128) 16
    if h.2 then servedNow (stopQueue h.1 k q.start q.asid.toNat r q.slots cause) k q else h.1
  match lookQueue s q with
  | .wait s => s
  | .idle s => s
  | .fail s r c => stop s r c
  | .malformed s r => stop s r 0x46
  | .packet s r b =>
    if pkBad b then stop s r 0x46
    else match engWrite a s (q.start + 64) (leBytes 8 (r + 1)) with
      | .wait s => s
      | .fail s c _ => stop s r c
      | .done s _ =>
        let p : Packet :=
          { ridx := r, bytes := b, base := q.base, log2n := q.log2n, asid := q.asid, pos := 0, err := none }
        let q : Queue := { q with packet := some p }
        { s with queues := spSet queueDefault s.queues k q }

/-- The packet of a queue as it now stands. -/
def setPacket (s : State) (k : Nat) (p : Option Packet) : State :=
  let q : Queue := { spGet queueDefault s.queues k with packet := p }
  { s with queues := spSet queueDefault s.queues k q }

/-- A packet comes to its end: the barrier, then the queue goes on, or stops where the packet failed. Nothing is done
until the barrier and the error record can be reached. -/
def endPacket (s : State) (k : Nat) (q : Queue) (p : Packet) : State :=
  let a := bulkAgent s p.asid 0
  let reg : Queue := { q with base := p.base, log2n := p.log2n }
  let h := lineHeld a s (reg.start + 128) 16
  let h2 := if pkWord p.bytes 4 = 0 then (h.1, true) else
    match barRead a h.1 (pkWord p.bytes 4) with
    | .wait s => (s, false)
    | .done s _ => (s, true)
    | .fail s _ _ => (s, true)
  if !(h.2 && h2.2) then h2.1
  else
    let fin := settlePacket a p.bytes p.err h2.1
    match fin.2 with
    | none => servedNow (setPacket fin.1 k none) k q
    | some c => servedNow (stopQueue fin.1 k reg.start p.asid.toNat p.ridx reg.slots c) k q

/-- The engine performs the packet that it has read: the tests of its ranges, one sector after another, then its
end. A packet read before its queue was deregistered completes (R138). -/
def performPacket (s : State) (k : Nat) (q : Queue) (p : Packet) : State :=
  let a := bulkAgent s p.asid 0
  match (if p.pos = 0 && p.err.isNone then pkRange a s p.bytes else none) with
  | some c => setPacket s k (some { p with err := some c })
  | none =>
    if p.err.isSome || pkTotal p.bytes ≤ p.pos then endPacket s k q p
    else match movePacket a p s with
      | .wait s => s
      | .fail s c _ => setPacket s k (some { p with err := some c })
      | .done s _ => setPacket s k (some { p with pos := p.pos + 1 })

/-- QUEUE_PACKET_SERVE: the engine of a queue reads its next packet, or performs the one that it has read; a
malformed or failing packet stops the queue. -/
def execQueuePacketServe (n : BitVec 6) (s : State) : Host.Outcome State Fault Refusal :=
  let k := n.toNat
  let q := spGet queueDefault s.queues k
  match q.packet with
  | some p => .next (performPacket s k q p)
  | none => if !q.en || otherFirst s k q then .next s else .next (readPacket s k q)

/-- QUEUE_TABLE_WRITE: the host writes word 0 or word 1 of a registration; one that would serve the queue waits while
its slot drains (R64). -/
def execQueueTableWrite (n : BitVec 6) (hi : Bool) (v : Word) (s : State) : Host.Outcome State Fault Refusal :=
  .next (s.asked fun s => hostRegWrite s (0x800000 + 64 * n.toNat + (if hi then 8 else 0)) v)

end Sys2Proof.Machine
end

