-- ==== Sys2Proof/Machine/Device.lean ====
section
/-! DEFINITION. The steps of the device that end what an instruction began, and the messages that reach the
chip: landing, tracked accesses, walks, invalidations, register writes, coherence and the host (R23 to R40,
R57 to R61, R95, R180, R196 to R200, R282, R335). -/

namespace Sys2Proof.Machine

/-! ### Landing (R95, R96) -/

/-- The earliest due result that carries no fault, what stands before it and after it. -/
def splitDue (t : Nat) : List Result → Option (List Result × Result × List Result)
  | [] => none
  | r :: rs =>
    if r.due t then some ([], r, rs)
    else (splitDue t rs).map fun q => (r :: q.1, q.2.1, q.2.2)

/-- EXPOSED_RESULT_LAND: the earliest due result lands. -/
def execExposedResultLand (s : State) : Host.Outcome State Fault Refusal :=
  let c := s.core
  match splitDue c.xt c.inflight with
  | none => .next s
  | some (pre, r, post) =>
    let c1 := landGo c.xt [] [r] { c with inflight := pre }
    .next (s.setCore { c1 with inflight := c1.inflight ++ post.map (Result.reseed r.seeds) })

/-! ### Tracked accesses (R195 to R200, R331, R332, R335) -/

/-- The sectors that a load of memory leaves in the L1 (R33, R34): not those of a strongly ordered page. -/
def fillL1 (c : Core) (so : Bool) (evict : Nat) (runs : List (Nat × Nat)) : Core :=
  if so || evict = 7 then c
  else
    let ss := runs.flatMap fun r =>
      if r.2 = 0 then [] else rangeFrom (r.1 / 64) ((r.1 + r.2 - 1) / 64 - r.1 / 64 + 1)
    { c with l1 := c.l1 ++ ss.filter fun x => !c.l1.contains x }

/-- What a tracked access comes to. -/
inductive Perf where
  | done (s : State) (old : List Byte)
  | wait (s : State)
  | fail (s : State) (cause : Nat)

/-- The place of an offset among the checked words of a region: those of the scratchpad and the accumulators. -/
def Area.checked (ar : Area) (o : Nat) : Option Nat :=
  match ar with
  | .pad => some o
  | .acc => some (2 ^ 20 + o)
  | _ => none

/-- An access through window 0xE meets a macro under refetch (R283). -/
def refetchMet (s : State) (i : Nat) (ar : Area) (o n : Nat) : Bool :=
  ar == .macros && (s.coreAt i).any fun c => (viewMacros o n).any fun m => c.refetches m.1

/-- Accesses n bytes of the on-chip map at an offset, which wait for a refetch (R283); the checks of the address were
made at issue (R194), and those of the data are made here (R279, R409). A register whose check fails is a machine
check of its core, and the access fails (R408; log 9). -/
def chipPerform (s : State) (off n : Nat) (f : List Byte → Option (List Byte)) (reads : Bool) : Perf :=
  match chipArea s off with
  | none => .fail s 0x30
  | some (i, ar, o) =>
    if refetchMet s i ar o n then .wait s else
    let w := if reads then ar.checked o else none
    let bad := w.any fun w => (s.coreAt i).any fun c => (eccBad c w n).isSome
    let s := match w with
      | some w => eccCheck s i w n
      | none => s
    let s := if ar == .macros then viewRepair (s.busUse i) i 1 reads o n else s
    match s.coreAt i with
    | none => .fail s 0x30
    | some c =>
      if bad then .fail s 0x70
      else if reads && ar.bad c o n then .fail (machineCheckAt s i 5 0x7F 0) 0x70
      else
        let old := areaBytes c ar o n
        match f old with
        | none => .done s old
        | some new => .done (s.setCoreAt i (areaWrite c ar o new)) old

/-- A coherent access of memory, as a tracked access comes to it. -/
def MemRes.perf : MemRes → Perf
  | .done s b => .done s b
  | .wait s => .wait s
  | .fail s c => .fail s c

/-- Performs a tracked access: the bytes that were there, and `f` says what is written, if anything. -/
def perform (s : State) (addr : Word) (runs : List (Nat × Nat)) (n evict : Nat)
    (f : List Byte → Option (List Byte)) (reads writes : Bool) : Perf :=
  let off := addr.toNat % 2 ^ 60
  match addr.toNat / 2 ^ 60 with
  | 0x0 => (cohAccess s runs evict reads writes f).perf
  | 0xC => chipPerform s (s.core.region.toNat * 2 ^ 26 + off) n f reads
  | 0xE => chipPerform s off n f reads
  | _ =>
    let old := if reads then sysBytes s off n else []
    match f old with
    | none => .done s old
    | some new =>
      if sysWaits s off new then .wait s
      else .done (sysStore s off new) old

/-- The bytes an atomic writes: none when a CAS finds another value (R199, R337). -/
def AtomOp.writes (op : AtomOp) (n v : Nat) (old : List Byte) : Option (List Byte) :=
  match op with
  | .cas e => if leNat old = e then some (leBytes n v) else none
  | _ => some (leBytes n (op.new n (leNat old) v))

/-- Ends a tracked access: its effect on the core, or the record of its failure (R197). -/
def settleAccess (t : Tracked) (addr : Word) (f : Core → List Byte → Core) (r : Perf) :
    Host.Outcome State Fault Refusal :=
  match r with
  | .wait s => .next s
  | .fail s cause => .next (s.setCore (s.core.recordFailure t cause addr []))
  | .done s old => .next (s.setCore (f (s.core.untrack t) old))

/-- The sectors of the L1 that a load finds bad are dropped and read again from the L2, and logged (R33, R409,
R411). -/
def l1Check (s : State) (runs : List (Nat × Nat)) : State :=
  let c := s.core
  let hit := c.l1Bad.filter (sectorsOf runs).contains
  if hit.isEmpty then s
  else
    let c : Core := { c with l1 := c.l1.filter fun q => !hit.contains q, l1Bad := c.l1Bad.filter fun q => !hit.contains q }
    hit.foldl (fun t q => logError t 3 false 0 0 c.region.toNat (64 * q)) (s.setCore c)

/-- An operation shares a byte with a store that is not published yet. -/
def meetsUo (c : Core) (t : Tracked) : Bool :=
  c.uo.any fun u => footsMeet (u.op.foot c.region.toNat) (t.op.foot c.region.toNat)

/-- A tracked operation waits for stores that are not published: an atomic or a store to another kind of page that
shares a byte with one (R331). -/
def waitsUo (c : Core) (t : Tracked) : Bool :=
  match t.op with
  | .atom .. => meetsUo c t
  | .store .. => !t.uo && meetsUo c t
  | _ => false

/-- Stores that are not published enter the coherence order (R336): every one where their core leaves its position
(R400); the oldest, where an access to the same bytes waits for it; and those that a release covers, once the accesses
before it are performed. -/
def drainUo (s : State) : State :=
  let c := s.core
  if c.uo.isEmpty then s
  else if c.leaving then (publishStores (fun _ => true) s).1
  else if c.tracked.any (waitsUo c) then (publishStores (fun t => c.uo.head? == some t) s).1
  else if c.tracked.any fun q => q.op.isMem && decide (q.grp ≤ c.publish) then s
  else (publishStores (fun t => decide (t.grp ≤ c.publish)) s).1

/-- A flip is performed: a tile that is ready and the core's own goes to its new owner (R125). -/
def flipTile (s : State) (tile : Nat) (own : BitVec 2) : State :=
  let x := s.core.copy.tile tile
  if x.st = .ready && x.owner = 0 then s.setTile tile { x with owner := own } else s

/-- TRACKED_ACCESS_COMPLETE: the k-th tracked operation, a load, a store, an atomic, the write of a span, a flip or
a trigger, is performed and its busy bits clear; past the last one, stores to unordered pages are published. A store
to unordered pages stays with its core until then (R336). -/
def execTrackedAccessComplete (k : Nat) (s : State) : Host.Outcome State Fault Refusal :=
  let no : Host.Outcome State Fault Refusal := .next s
  if s.core.tracked.length ≤ k then .next (drainUo s)
  else match accessReady s.core k with
    | none => no
    | some t =>
      if waitsUo s.core t then no
      else match t.op with
        | .load a runs n evict st w ext =>
          settleAccess t a
            (fun c old => (fillL1 c t.so evict runs).putSpan st w (ext.value (c.overlay runs old) w))
            (perform (l1Check s runs) a runs n evict (fun _ => none) true false)
        | .store a runs evict bytes =>
          if t.uo then .next (s.setCore { s.core.untrack t with uo := s.core.uo ++ [t] })
          else settleAccess t a (fun c _ => c) (perform s a runs bytes.length evict (fun _ => some bytes) false true)
        | .atom a runs evict op v n st w =>
          settleAccess t a (fun c old => c.putSpan st w (op.ext.value old w))
            (perform s a runs n evict (op.writes n v) true true)
        | .span st w v => if t.slot == 4 then no else .next (s.setCore ((s.core.untrack t).putSpan st w v))
        | .flip tile own =>
          let r := releaseStep k t s
          .next (if r.2 then flipTile (r.1.setCore (r.1.core.untrack t)) tile own else r.1)
        | .trig g =>
          let r := releaseStep k t s
          .next (if r.2 then (r.1.setCore (r.1.core.untrack t)).trigger g else r.1)
        | _ => no

/-! ### Register writes that are tracked (R114, R180, R201, R202) -/

/-- The value that CSRW, CSRS or CSRC leaves. -/
def csrMerge (f : Nat) (old v : Word) : Word :=
  match f with
  | 0 => v
  | 1 => old ||| v
  | _ => old &&& ~~~v

/-- CSR_WRITE_LANDS: the k-th tracked operation, the write of a CSR or of a shadow engine register, lands. Two
writes of one register land in order. -/
def execCsrWriteLands (k : Nat) (s : State) : Host.Outcome State Fault Refusal :=
  let no : Host.Outcome State Fault Refusal := .next s
  let c := s.core
  match c.tracked[k]? with
  | none => no
  | some t =>
    if (c.tracked.take k).any fun e => meets (c.opUnits e.op) (c.opUnits t.op) then no
    else match t.op with
      | .csrWrite n f v =>
        let c := c.untrack t
        .next (s.setCore ({ c with csr := c.csr.write n (csrMerge f ((c.csrRead n).getD 0) v) }.heal [⟨.csr, n⟩]))
      | .engWrite ch r v =>
        let c := c.untrack t
        let x := c.copy.chan ch
        let d := { c with copy := c.copy.setChan ch { x with shadow := x.shadow.set r v } }
        .next (s.setCore (d.heal [⟨.eng, 16 * ch.num + r⟩]))
      | _ => no

/-! ### Translation (R57 to R61) -/

/-- WALK_COMPLETE: the k-th open walk ends. -/
def execWalkComplete (k : Nat) (s : State) : Host.Outcome State Fault Refusal :=
  match s.xlat.walks[k]? with
  | none => .next s
  | some _ => .next (walkDone s k)

/-- FLTRETRY. -/
def execFltretry (s : State) : Host.Outcome State Fault Refusal :=
  .next (s.asked fun s => s.setXlat (restartWalks s.xlat))

/-- The host asks for an invalidation. -/
def askInval (s : State) (op va : Nat) : State :=
  s.asked fun s => s.setXlat { s.xlat with invals := s.xlat.invals ++ [⟨none, tlbiOf s.xlat (op * 2 ^ 62 + va % 2 ^ 58)⟩] }

/-- TLBIOP 0b00. -/
def execTlbiVa (va : Word) (s : State) : Host.Outcome State Fault Refusal := .next (askInval s 0 va.toNat)
/-- TLBIOP 0b01. -/
def execTlbiAsid (s : State) : Host.Outcome State Fault Refusal := .next (askInval s 1 0)
/-- TLBIOP 0b10. -/
def execTlbiAsidGlobal (s : State) : Host.Outcome State Fault Refusal := .next (askInval s 2 0)
/-- TLBIOP 0b11. -/
def execTlbiAll (s : State) : Host.Outcome State Fault Refusal := .next (askInval s 3 0)

/-- TLB_INVALIDATION_COMPLETE: the oldest invalidation has reached every TLB. -/
def execTlbInvalidationComplete (s : State) : Host.Outcome State Fault Refusal :=
  if s.xlat.invals.isEmpty then .next s
  else .next (s.setXlat (invalDone s.xlat))

/-! ### Links (R428) -/

/-- A message from another chip has arrived whole: no failure of its port is in succession with a later one. It comes
by the port by which this chip would answer (log 59). -/
def goodFlit (s : State) (chip line : Nat) : State :=
  match portTo s.plat chip line with
  | none => s
  | some k =>
    let q := lget Reset.port s.plat.ports k
    if q.inRow = 0 then s else { s with plat := { s.plat with ports := lset s.plat.ports k { q with inRow := 0 } } }

/-- A party's message has arrived. -/
def goodFlitOf (s : State) (p : Party) (line : Nat) : State :=
  match p with
  | .chip id => goodFlit s id.toNat line
  | .host _ => s

/-! ### Requests at the home (R23 to R28, R37, R38) -/

/-- This chip is the home of an existing line, and takes requests (R420). -/
def homeLine (s : State) (line : Nat) : Bool :=
  !s.plat.recovery && isHome s.plat line && paOk s.plat (256 * line)

/-- RDS. -/
def execRds (req : BitVec 8) (line : Nat) (s : State) : Host.Outcome State Fault Refusal :=
  if homeLine s line then .next (settle (homeRequest (goodFlit s req.toNat line) line (.rds req)))
  else .next s

/-- RDX. -/
def execRdx (req : BitVec 8) (line : Nat) (s : State) : Host.Outcome State Fault Refusal :=
  if homeLine s line then .next (settle (homeRequest (goodFlit s req.toNat line) line (.rdx req)))
  else .next s

/-- WBD: dirty sectors come home, and are acknowledged. -/
def execWbd (req : BitVec 8) (line : Nat) (dirty : BitVec 4) (data : BitVec 2048) (s : State) :
    Host.Outcome State Fault Refusal :=
  if homeLine s line then
    .next (settle (homeWriteback (goodFlit s req.toNat line) req.toNat line dirty ⟨data, 0⟩))
  else .next s

/-- WAITING_REQUEST_RESOLVE: the oldest request that waits for a line that can be resolved now (R24, R419). -/
def execWaitingRequestResolve (line : Nat) (s : State) : Host.Outcome State Fault Refusal :=
  match s.coh.waiting.find? fun w => w.line == line with
  | none => .next s
  | some w =>
    if lineFree s line then
      .next (settle (homeServe (s.setCoh { s.coh with waiting := s.coh.waiting.erase w }) line w.what))
    else .next s

/-- MEMRD. -/
def execMemrd (pa : Nat) (excl : Bool) (s : State) : Host.Outcome State Fault Refusal :=
  if homeLine s (pa / 256) then .next (settle (homeRequest s (pa / 256) (.memrd pa excl)))
  else .next s

/-- MEMWR: `enable` chooses the bytes of MemWrPtl. -/
def execMemwr (pa : Nat) (enable : BitVec 64) (data : BitVec 512) (keeps : Bool) (s : State) :
    Host.Outcome State Fault Refusal :=
  if homeLine s (pa / 256) then .next (settle (homeRequest s (pa / 256) (.memwr pa enable data keeps)))
  else .next s

/-! ### Snoops (R26, R29) -/

/-- This chip's L2 answers a snoop of another home: the answer to the home, the data to the requester, or on a
recall to the home. -/
def answerSnoop (s : State) (req line : Nat) (k : SnoopKind) : Host.Outcome State Fault Refusal :=
  if hostTier (256 * line) || isHome s.plat line then .next s
  else
    let r := l2Snoop (goodFlit s (homeChip (256 * line)) line) line k
    let s := match r.2.2 with
      | some d => r.1.send (.data (if k = SnoopKind.rcl then homeChip (256 * line) else req) line d)
      | none => r.1
    .next (s.send (.answer line r.2.1))

/-- FWDS. -/
def execFwds (req : BitVec 8) (line : Nat) (s : State) : Host.Outcome State Fault Refusal :=
  answerSnoop s req.toNat line .fwdS
/-- FWDX. -/
def execFwdx (req : BitVec 8) (line : Nat) (s : State) : Host.Outcome State Fault Refusal :=
  answerSnoop s req.toNat line .fwdX
/-- INV: it cannot arise for a line that the L2 holds in M or E (R26). -/
def execInv (req : BitVec 8) (line : Nat) (s : State) : Host.Outcome State Fault Refusal :=
  let st := (l2Get s.coh line).st
  if (st = .m || st = .e) && !hostTier (256 * line) && !isHome s.plat line then .fault (.cannotArise "INV")
  else answerSnoop s req.toNat line .inv
/-- RCL: of a line of another home, this chip gives it back; of one of this chip's memory, another chip's CMIG
asks for its recall (R26, R143; log 70). -/
def execRcl (req : BitVec 8) (line : Nat) (s : State) : Host.Outcome State Fault Refusal :=
  if homeLine s line then
    .next (if req = s.plat.ownid then s else settle (homeRequest s line (.recall req)))
  else answerSnoop s req.toNat line .rcl

/-! ### Answers and completions (R23, R31, R32) -/

/-- A core with a tracked access to a line: the one that asked for it. -/
def asksFor (line : Nat) (c : Core) : Bool :=
  c.tracked.any fun t => footsMeet (t.op.foot c.region.toNat) [(0, 256 * line, 256)]

/-- The region of the requesting core (R408; log 9): the current core unless only another asks. -/
def requester (s : State) (line : Nat) : Nat :=
  if asksFor line s.core then s.core.region.toNat
  else match s.others.find? fun p => asksFor line p.2 with
    | some p => p.1
    | none => s.core.region.toNat

/-- A line that this chip asked for is lost, with a cause. -/
def lineLost (s : State) (line cause : Nat) : State :=
  s.setCoh { s.coh with
    misses := s.coh.misses.filter fun m => m.1 != line
    recalls := s.coh.recalls.filter fun m => m.1 != line
    fills := s.coh.fills.filter fun f => f.line != line
    failed := s.coh.failed ++ [(line, cause)] }

/-- The entry of a resolution is given up, and its requester hears a cause. -/
def abandonResol (s : State) (x : Resol) (cause : Nat) : State :=
  let s := s.setCoh { s.coh with resol := s.coh.resol.filter fun y => y.line != x.line }
  let tell (r : Nat) : State :=
    if r = s.plat.ownid.toNat then lineLost s x.line cause else s.send (.failed r x.line cause)
  match x.what with
  | .rds r => tell r.toNat
  | .rdx r => tell r.toNat
  | .recall r => tell r.toNat
  | .memrd pa _ => s.send (.hostError pa)
  | .memwr pa _ _ _ => s.send (.hostError pa)
  | .mend => s
  | .wb .. => s

/-- Two holders of one line were dirty (R32): a machine check at the requester. -/
def twoDirty (s : State) (x : Resol) : State :=
  if x.what.who = s.plat.ownid.toNat then
    machineCheckAt (s.setCoh { s.coh with resol := s.coh.resol.filter fun y => y.line != x.line })
      (requester s x.line) 3 0x7F (wordOf (256 * x.line))
  else abandonResol s x 0x7F

/-- SNOOP_ANSWER: a party answers; with the last answer the request is completed. -/
def execSnoopAnswer (sender : Party) (line : Nat) (ans : SnoopAns) (data : LineData) (s : State) :
    Host.Outcome State Fault Refusal :=
  match s.coh.resol.find? fun x => x.line == line && x.awaiting.contains sender with
  | none => .next s
  | some x =>
    let s := rebuildData (goodFlitOf s sender line) x sender ans (some data)
    let y := homeAnswer x sender ans (some data)
    if y.rebuild && 2 ≤ y.holders then .next (settle (twoDirty s x))
    else if y.awaiting.isEmpty then .next (settle (homeFinish s y))
    else .next (s.setCoh { s.coh with resol := s.coh.resol.map fun z => if z.line = line then y else z })

/-- The weaker of two states. -/
def weaker (a b : LineSt) : LineSt := if LineSt.code a < LineSt.code b then a else b

/-- The fill of a host-tier line. -/
def fillOf (c : Coh) (line : Nat) : HostFill :=
  (c.fills.find? fun f => f.line == line).getD ⟨line, 0, .m, 0, 0, 0⟩

/-- Replaces the fill of a line; one without a sector is not listed. -/
def setFill (c : Coh) (f : HostFill) : Coh :=
  { c with fills := c.fills.filter (fun g => g.line != f.line) ++ (if f.got = 0 && f.again = 0 then [] else [f]) }

/-- Asks the host for sectors of a line that a fill needs again, once nothing of the line is being written back. -/
def askAgain (s : State) (line : Nat) : State :=
  let f := fillOf s.coh line
  match s.coh.misses.find? fun m => m.1 == line with
  | none => s
  | some m =>
    if f.again = 0 || s.coh.writebacks.contains line then s
    else (List.range 4).foldl (fun t k =>
      if f.again.getLsbD k then t.send (.hostRequest (256 * line + 64 * k) m.2) else t)
      (s.setCoh (setFill s.coh { f with again := 0 }))

/-- COMPLETION: another home grants a line this chip asked for, gives the line that CMIG had recalled, or, like
the host for a line it is home of, acknowledges a write-back. An owner that asked for ownership keeps its own
current data; data that an owner gave, and memory does not hold, come dirty (R25, R27, R143). -/
def execCompletion (line : Nat) (grant : LineSt) (data : Supply) (s : State) :
    Host.Outcome State Fault Refusal :=
  let s := if hostTier (256 * line) || isHome s.plat line then s else goodFlit s (homeChip (256 * line)) line
  let c := s.coh
  let held := l2Get c line
  if grant = .i && c.writebacks.contains line then
    .next (settle (askAgain (s.setCoh { c with writebacks := c.writebacks.erase line }) line))
  else if grant = .i && c.recalls.any fun m => m.1 == line && m.2.isNone then
    match data with
    | .nothing => .next s
    | .home d => .next (s.setCoh { c with recalls := c.recalls.map fun m => if m.1 = line then (line, some d) else m })
    | .owner d => .next (s.setCoh { c with recalls := c.recalls.map fun m => if m.1 = line then (line, some d) else m })
  else if grant != .i && !hostTier (256 * line) && c.misses.any fun m => m.1 == line then
    match data with
    | .nothing =>
      if held.st = .o && grant = .m then
        .next (settle (l2Fill s line .m ⟨held.data, held.bad⟩ held.dirty))
      else .next s
    | .home d => .next (settle (l2Fill s line grant d 0))
    | .owner d => .next (settle (l2Fill s line grant d (if grant = .m then 15 else 0)))
  else .next s

/-- The causes that a home reports of a line (R31, R32, R409). -/
def toldCause (c : BitVec 7) : Bool := [0x36, 0x37, 0x38, 0x70].contains c.toNat

/-- The host is among the parties that have not answered. -/
def hostSilent (x : Resol) : Bool :=
  x.awaiting.any fun p => match p with
    | .host _ => true
    | .chip _ => false

/-- COHERENCE_TIMEOUT: at this home a silent party ends the resolution (R31, R32); DESIGN CHOICE (log 71): with
the host and another chip both silent the cause is 0x37. At the requester, the host or the home of a line never
answers, or that home tells the cause (R31, R32, R36). -/
def execCoherenceTimeout (what : Silence) (s : State) : Host.Outcome State Fault Refusal :=
  match what with
  | .here line =>
    (match s.coh.resol.find? fun x => x.line == line && !x.awaiting.isEmpty with
     | some x =>
       .next (settle (abandonResol (bumpErr s 48) x
         (if x.rebuild then 0x36 else if hostSilent x then 0x37 else 0x38)))
     | none =>
       if s.coh.misses.any (fun m => m.1 == line) || s.coh.recalls.any fun m => m.1 == line && m.2.isNone then
         .next (settle (lineLost s line (if hostTier (256 * line) then 0x37 else 0x38)))
       else .next s)
  | .told line cause =>
    if hostTier (256 * line) || isHome s.plat line then .next s
    else if s.coh.misses.any (fun m => m.1 == line) || s.coh.recalls.any fun m => m.1 == line && m.2.isNone then
      if cause = 0x7F then
        .next (settle (machineCheckAt (s.setCoh { s.coh with
          misses := s.coh.misses.filter fun m => m.1 != line
          recalls := s.coh.recalls.filter fun m => m.1 != line }) (requester s line) 3 0x7F (wordOf (256 * line))))
      else if toldCause cause then .next (settle (lineLost s line cause.toNat))
      else .next s
    else .next s

/-! ### The host tier (R36, R38) -/

/-- One sector of a host-tier line goes back to the host: its data, or the error response where its check failed
(R36, R410; log 88). -/
def hostGive (s : State) (pa : Nat) (d : LineData) : State :=
  let k := pa / 64 % 4
  if d.bad.getLsbD k then s.send (.hostError (pa / 64 * 64))
  else s.send (.hostData (pa / 64 * 64) (BitVec.ofNat 512 (bitsN d.bits.toNat (512 * k) 512)))

/-- What the chip answers of a sector: dirty with its data, clean, or that it holds nothing. -/
def sectorAns (held dirty : Bool) (kind : SnoopKind) : SnoopAns :=
  if dirty then .dirty else if held then .clean
  else if kind = .inv || kind = .rcl then .ack else .notHeld

/-- A snoop of a sector that the host has granted to a line not yet filled. The sector is held: one granted dirty
gives its data, and is shared from then on. A snoop that ends the hold drops every sector that came; the dirty ones
are written back, and all are asked for again (R36, R38; log 89). -/
def snoopFill (s : State) (pa : Nat) (kind : SnoopKind) (f : HostFill) : State :=
  let line := pa / 256
  let k := pa / 64 % 4
  let bit := BitVec.ofNat 4 (2 ^ k)
  let d : LineData := ⟨f.data, 0⟩
  let s := if f.dirty &&& bit = 0 then s else hostGive s pa d
  let s :=
    if kind = .fwdS then s.setCoh (setFill s.coh { f with st := weaker f.st .s, dirty := f.dirty &&& ~~~bit })
    else
      let s := s.setCoh (setFill s.coh { f with got := 0, st := .m, data := 0, dirty := 0, again := f.again ||| f.got })
      -- an S copy that was to be upgraded goes with it
      askAgain (evictSectors (dropL1 (s.setCoh (l2Put s.coh line l2None)) line) line (f.dirty &&& ~~~bit) d) line
  s.send (.hostAnswer (pa / 64 * 64) (sectorAns true (f.dirty &&& bit != 0) kind))

/-- A snoop of a sector of a line as the L2 holds it. A hold that ends takes the whole line with it; a line in M
that is to be shared is written back and moves to S. -/
def snoopHeld (s : State) (pa : Nat) (kind : SnoopKind) : State :=
  let line := pa / 256
  let x := l2Get s.coh line
  let bit := BitVec.ofNat 4 (2 ^ (pa / 64 % 4))
  let r := l2Read s line x.dirty
  let s := if x.dirty &&& bit = 0 then r.1 else hostGive r.1 pa r.2
  let s := evictSectors s line (x.dirty &&& ~~~bit) r.2
  let ends := kind != .fwdS
  let s := if ends then dropL1 s line else s
  let st : LineSt := if ends || x.st = .i then .i else .s
  (s.setCoh (l2Put s.coh line { x with st := st, dirty := 0 })).send
    (.hostAnswer (pa / 64 * 64) (sectorAns (x.st != .i) (x.dirty &&& bit != 0) kind))

/-- HOST_SNOOP: answered for one sector (R36, R38). -/
def execHostSnoop (pa : Nat) (kind : SnoopKind) (s : State) : Host.Outcome State Fault Refusal :=
  let f := fillOf s.coh (pa / 256)
  let upgraded := f.got != 0 && (l2Get s.coh (pa / 256)).st != .i
  if !hostTier pa then .next s
  else if f.got.getLsbD (pa / 64 % 4) || (upgraded && kind != .fwdS) then .next (snoopFill s pa kind f)
  else .next (snoopHeld s pa kind)

/-- HOST_CACHE_GRANT: with the fourth sector the line is held in the weakest state granted. A sector granted in
M comes dirty; where the line ends in a weaker state it is written back by DirtyEvict at once (log 66). A grant of
nothing is an access that the host does not complete (R36, R38). -/
def execHostCacheGrant (pa : Nat) (grant : LineSt) (data : BitVec 512) (s : State) :
    Host.Outcome State Fault Refusal :=
  let line := pa / 256
  let k := pa / 64 % 4
  let c := s.coh
  if !hostTier pa || grant = .o || !(c.misses.any fun m => m.1 == line) then .next s
  else if grant = .i then .next (settle (lineLost s line 0x37))
  else
    let f := fillOf c line
    let bit := BitVec.ofNat 4 (2 ^ k)
    let f : HostFill :=
      { f with got := f.got ||| bit, st := weaker f.st grant, dirty := if grant = .m then f.dirty ||| bit else f.dirty,
               data := BitVec.ofNat 2048 (setBitsN f.data.toNat (512 * k) 512 data.toNat) }
    if f.got != 15 then .next (s.setCoh (setFill c f))
    else
      let s := s.setCoh (setFill c { f with got := 0, again := 0 })
      if f.st = .m then .next (settle (l2Fill s line .m ⟨f.data, 0⟩ f.dirty))
      else .next (settle (evictSectors (l2Fill s line f.st ⟨f.data, 0⟩ 0) line f.dirty ⟨f.data, 0⟩))

/-! ### Registers from outside (R5, R281, R282) -/

/-- REMAP_WRITE: entry n of a core's REMAP registers; a write that is refused changes nothing. -/
def execRemapWrite (i : BitVec 10) (n : BitVec 4) (v : Word) (s : State) : Host.Outcome State Fault Refusal :=
  .next (s.asked fun s => shelfWrite s i.toNat (8 * n.toNat) v (BitVec.allOnes 64))

/-- REGISTER_WRITE: a doubleword written to a register of the system window by the host. A hole takes nothing. -/
def execRegisterWrite (off : BitVec 28) (v : Word) (s : State) : Host.Outcome State Fault Refusal :=
  let o := off.toNat / 8 * 8
  .next (s.asked fun s => if (sysTest s o 8).isSome then s else hostRegWrite s o v)

end Sys2Proof.Machine
end

