-- ==== Sys2Proof/Machine/Permute.lean ====
section
/-! DEFINITION. Vector permutes, moves and constants, the duplicate check, and the predicate operations
(R176, R252 to R255, R257, R263 to R265). -/

namespace Sys2Proof.Machine

/-! ### Permutes -/

/-- VPERM (R252). -/
def execVperm (o : FVR) (s : State) : Host.Outcome State Fault Refusal :=
  let v := s.view
  let d := vop v.csr o.d o.vd
  let a := vop v.csr o.d o.va
  let b := vop v.csr o.d o.vb
  let sh := vshape o.ty [d, a, b]
  let xs := vget v sh false a
  let ys := vget v sh false b
  runPlan (.vperm o) s (planVec v (.vperm o)
    { sl := o.sl, lat := 3, srcs := [a, b], dsts := [d], preds := [pmPhys v o.pm],
      vals := vput v.csr sh d (vmap sh fun j => elemN sh.b xs (elemN sh.b ys j % sh.n)) (pmBits v o.pm) })

/-- The unsigned immediate of a permute: IMM20 zero-extended, or X (R253). -/
def FVI.index (o : FVI) : Nat :=
  match o.x with
  | none => o.imm.toNat
  | some x => x.toNat

/-- A permute of format V.I, which has no governing predicate; `p` holds the elements it writes. -/
def planVPermImm (s : State) (i : Instr) (o : FVI) (f : VShape → Nat → Nat → Nat)
    (p : VShape → Pred) : Plan :=
  let v := s.view
  let d := vop v.csr o.d o.vd
  let a := vop v.csr o.d o.va
  let sh := vshape o.ty [d, a]
  let xs := vget v sh false a
  planVec v i
    { sl := o.sl, lat := 3, srcs := [a], dsts := [d],
      vals := vput v.csr sh d (vmap sh (f sh xs)) (p sh) }

/-- The predicate with one bit set. -/
def oneBit (j : Nat) : Pred := BitVec.ofNat 1024 (2 ^ j)

def execVslide (o : FVI) (s : State) : Host.Outcome State Fault Refusal :=
  runPlan (.vslide o) s (planVPermImm s (.vslide o) o
    (fun sh xs j =>
      let k : Int := (j : Int) + o.long.toInt
      if 0 ≤ k && k < sh.n then elemN sh.b xs k.toNat else 0) fun _ => predOnes)
def execVbcast (o : FVI) (s : State) : Host.Outcome State Fault Refusal :=
  runPlan (.vbcast o) s (planVPermImm s (.vbcast o) o
    (fun sh xs _ => elemN sh.b xs (FVI.index o % sh.n)) fun _ => predOnes)
def execVextr (o : FVI) (s : State) : Host.Outcome State Fault Refusal :=
  runPlan (.vextr o) s (planVPermImm s (.vextr o) o
    (fun sh xs _ => elemN sh.b xs (FVI.index o % sh.n)) fun _ => oneBit 0)
def execVins (o : FVI) (s : State) : Host.Outcome State Fault Refusal :=
  runPlan (.vins o) s (planVPermImm s (.vins o) o
    (fun sh xs _ => elemN sh.b xs 0) fun sh => oneBit (FVI.index o % sh.n))

/-- VZIP and VUNZIP (R254): register r of the pair receives element z(r, e) of the sequence. -/
def planVZip (s : State) (i : Instr) (o : FVR) (z : Nat → (Nat → Nat) → (Nat → Nat) → Nat → Nat → Nat) :
    Plan :=
  let v := s.view
  let d := vop v.csr o.d o.vd
  let a := vop v.csr o.d o.va
  let b := vop v.csr o.d o.vb
  let w := o.ty.bits
  let n := 4096 / w
  let xs := vread v a
  let ys := vread v b
  let p := pmBits v o.pm
  planVec v i
    { sl := o.sl, lat := 3, srcs := [a, b], dsts := [d.regOf 0, d.regOf 1], preds := [pmPhys v o.pm],
      faults := [(!(d.reg && a.reg && b.reg), 0x04, encode i), (d.groupBad 2, 0x10, encode i)],
      vals := [0, 1].flatMap fun r =>
        vwrite v.csr (d.regOf r) (packN w n (z n (elemN w xs) (elemN w ys) r)) (elemMask w n p) }

def execVzip (o : FVR) (s : State) : Host.Outcome State Fault Refusal :=
  runPlan (.vzip o) s (planVZip s (.vzip o) o fun n x y r e =>
    let k := r * n + e
    if k % 2 = 0 then x (k / 2) else y (k / 2))
def execVunzip (o : FVR) (s : State) : Host.Outcome State Fault Refusal :=
  runPlan (.vunzip o) s (planVZip s (.vunzip o) o fun n x y r e =>
    let k := 2 * e + r
    if k < n then x k else y (k - n))

/-- VCXS (R255): one compare-exchange stage on keys and payloads. -/
def execVcxs (o : FVX) (s : State) : Host.Outcome State Fault Refusal :=
  let v := s.view
  let key := vop v.csr o.d o.key
  let pay := vop v.csr o.d o.pay
  let sh := vshape o.ty [key, pay]
  let kb := if sh.reg then sh.b else 4 * key.w
  let pb := if sh.reg then sh.b else 4 * pay.w
  let ks := vread v key
  let ps := vread v pay
  let rank (j : Nat) : Int :=
    let x := elemN kb ks j
    if o.ty.isFlt then keyMap kb x else if o.ty.isSigned then toSigned kb x else x
  let J := o.j.toNat
  let K := o.k.toNat
  let swaps (j : Nat) : Bool :=
    let up := (!j.testBit K) != o.dir
    let a := rank j
    let b := rank (j + 2 ^ J)
    if up then decide (b < a) else decide (a < b)
  let from' (j : Nat) : Nat :=
    if j.testBit J then (if swaps (j - 2 ^ J) then j - 2 ^ J else j)
    else if swaps j then j + 2 ^ J else j
  let all (b : Nat) : Nat := 2 ^ (b * sh.n) - 1
  runPlan (.vcxs o) s (planVec v (.vcxs o)
    { sl := o.sl, lat := 3, srcs := [key, pay], dsts := [key, pay],
      faults := [(decide (K ≤ J) || decide (Nat.log2 sh.n < K), 0x04, encode (.vcxs o)),
                 (o.ty.isFlt && !sh.reg && !(o.ty == .f32 && key.w == 8), 0x11, encode (.vcxs o))],
      vals := vwrite v.csr key (packN kb sh.n fun j => elemN kb ks (from' j)) (all kb) ++
        vwrite v.csr pay (packN pb sh.n fun j => elemN pb ps (from' j)) (all pb) })

/-! ### Moves and constants -/

/-- VMOV (R263). -/
def execVmov (o : FVU) (s : State) : Host.Outcome State Fault Refusal :=
  let v := s.view
  let d := vop v.csr o.d o.vd
  let a := vop v.csr o.d o.va
  let sh := vshape o.ty [d, a]
  runPlan (.vmov o) s (planVec v (.vmov o)
    { sl := o.sl, lat := 2, srcs := [a], dsts := [d], preds := [pmPhys v o.pm],
      vals := vput v.csr sh d (vget v sh o.ty.isSigned a) (pmBits v o.pm) })

/-- VLI (R264). -/
def execVli (o : FVI) (s : State) : Host.Outcome State Fault Refusal :=
  let v := s.view
  let d := vop v.csr o.d o.vd
  let sh := vshape o.ty [d]
  runPlan (.vli o) s (planVec v (.vli o)
    { sl := o.sl, lat := 2, srcs := [], dsts := [d],
      vals := vput v.csr sh d (vmap sh fun _ => o.long.toNat) predOnes })

/-- VIOTA (R265): the running count of set predicate bits below each element. -/
def execViota (o : FVU) (s : State) : Host.Outcome State Fault Refusal :=
  let v := s.view
  let d := vop v.csr o.d o.vd
  let sh := vshape o.ty [d]
  let p := (pmBits v o.pm).toNat
  runPlan (.viota o) s (planVec v (.viota o)
    { sl := o.sl, lat := 2, srcs := [], dsts := [d], preds := [pmPhys v o.pm],
      vals := vput v.csr sh d (vmap sh fun j => popN p j) predOnes })

/-- The first difference of two spans: the lowest plane, then the lowest lane (R176). -/
def firstDiff (v : Core) (a b : VOp) : Option Nat :=
  (List.range (128 * a.w)).find? fun k =>
    let q := k / 128
    let l := k % 128
    bitsN (planeRead v.regs (rotPlane v.csr.vrb (a.start + q))).toNat (4 * l) 4 !=
      bitsN (planeRead v.regs (rotPlane v.csr.vrb (b.start + q))).toNat (4 * l) 4

/-- VCHK (R176): no destination; a difference faults. -/
def execVchk (o : FVR) (s : State) : Host.Outcome State Fault Refusal :=
  let v := s.view
  let a := vop v.csr o.d o.va
  let b := vop v.csr o.d o.vb
  let diff := firstDiff v a b
  runPlan (.vchk o) s
    { rd := planeUnits (physOf v.csr [a, b])
      faults := vopFaults v (.vchk o) (slOwner o.sl) [a, b] [] ++
        faultsOf [(diff.isSome, 0x14, wordOf (diff.getD 0))] }

/-! ### Predicate operations (R257) -/

/-- A predicate operation over all 1,024 bits. -/
def planPred (s : State) (o : FVP) (one : Bool) (f : Pred → Pred → Pred) : Plan :=
  let v := s.view
  let a := pmPhys v o.pa
  let b := pmPhys v o.pb
  let d := pmPhys v o.pd
  { rd := predUnits a ++ (if one then [] else predUnits b)
    wr := predUnits d
    lat := 2
    eff := fun t => t.post o.sl.slot 2
      [.pred d (f (predRead v.regs a) (predRead v.regs b)) predOnes] }

def execPand (o : FVP) (s : State) : Host.Outcome State Fault Refusal :=
  runPlan (.pand o) s (planPred s o false (· &&& ·))
def execPor (o : FVP) (s : State) : Host.Outcome State Fault Refusal :=
  runPlan (.por o) s (planPred s o false (· ||| ·))
def execPxor (o : FVP) (s : State) : Host.Outcome State Fault Refusal :=
  runPlan (.pxor o) s (planPred s o false (· ^^^ ·))
def execPnot (o : FVP) (s : State) : Host.Outcome State Fault Refusal :=
  runPlan (.pnot o) s (planPred s o true fun a _ => ~~~a)

/-- PCNT and PFIRST: a number of the bits that both predicates have below n, into a scalar span. -/
def planPredNum (s : State) (i : Instr) (o : FVP) (f : Nat → Nat → Nat) : Plan :=
  let v := s.view
  let a := pmPhys v o.pa
  let b := pmPhys v o.pb
  let d := sop v.csr o.d o.sd
  let n := 4096 / o.ty.bits
  let x := f n (predRead v.regs a &&& predRead v.regs b).toNat
  { rd := predUnits a ++ predUnits b
    wr := if d.bad then [] else sliceUnits d.start d.w
    lat := 2
    faults := faultsOf [(d.bad, 0x10, encode i)]
    eff := fun t => t.post o.sl.slot 2 [.slices d.start d.w (x % 2 ^ (4 * d.w))] }

def execPcnt (o : FVP) (s : State) : Host.Outcome State Fault Refusal :=
  runPlan (.pcnt o) s (planPredNum s (.pcnt o) o fun n x => popN x n)
def execPfirst (o : FVP) (s : State) : Host.Outcome State Fault Refusal :=
  runPlan (.pfirst o) s (planPredNum s (.pfirst o) o fun n x => ctzN x n)

end Sys2Proof.Machine
end

