-- ==== Sys2Proof/Machine/Platform.lean ====
section
/-! DEFINITION. Bring-up, measurement and attestation, the catalogue and the links (R14, R17, R18, R413, R417 to
R428). -/

namespace Sys2Proof.Machine

def State.setPlat (s : State) (p : Platform) : State := { s with plat := p }

/-! ### The firing schedule (R417, R418) -/

/-- Cycles pass in which a core that runs occupies itself with nothing else (R367). -/
def Core.occupied (c : Core) (n : Nat) : Core := if c.run = .running then c.charge n else c

/-- Time has come to a step's fixed cycle; a virtual core that runs meanwhile counts it (R367, R419). -/
def State.reach (s : State) (cycle : Nat) : State :=
  let n := cycle - s.cycle
  if n = 0 then s
  else { s with cycle := cycle, core := s.core.occupied n, others := s.others.map fun p => (p.1, p.2.occupied n) }

/-- ACORE is set once every group with an enabled site and all eight shelves are up. -/
def acoreReady (p : Platform) : Bool :=
  p.cat && (p.aSites.all fun x => p.groupsUp.getLsbD (x / 16)) && p.shelvesUp == 255

/-- Every step of the schedule has run: each unit but the ports is ready, and each port of the configuration has
trained, or has failed to (R417, R425). -/
def bringUpOver (p : Platform) : Bool :=
  p.fw && p.hostUp && p.cat && p.l2Up && p.poolUp && p.gcoreUp && p.acoreUp &&
    ((stacksUsed p).all fun k => p.hbmUp.getLsbD k) &&
    (List.range 12).all fun k => descWidth p.desc k == 0 || (lget Reset.port p.ports k).tried

/-- What follows a step: ACORE, and with the last one the end of bring-up, at which the first refill starts
(R414, R417, R418). -/
def bringUp (s : State) : State :=
  let s := s.setPlat { s.plat with acoreUp := s.plat.acoreUp || acoreReady s.plat }
  if s.plat.upAt.isNone && bringUpOver s.plat then
    let s := s.setPlat { s.plat with upAt := some s.cycle }
    match execKilnRefill s with
    | .next t => t
    | _ => s
  else s

/-- The part after its power has gone and come back: only the catalogue and the firmware image, which lie in flash,
are what they were (R3, R420, R423); the model's own agenda, messages sent and free values go on. -/
def nextBringUp (s : State) : State :=
  let r := State.reset
  { r with plat := { r.plat with good := true, catalogue := s.plat.catalogue, image := s.plat.image },
           outbox := s.outbox, agenda := s.agenda, free := s.free }

/-- POWER_GOOD: the schedule counts from here; on a part that has power it is the next bring-up. -/
def execPowerGood (s : State) : Host.Outcome State Fault Refusal :=
  if s.plat.good then .next (nextBringUp s)
  else .next { s with cycle := 0, plat := { s.plat with good := true } }

/-- One measurement register extended by a digest (R421). -/
def extendMeas (p : Platform) (i : Nat) (d : BitVec 512) : Platform :=
  let m := lget 0 p.measured i
  { p with measured := lset p.measured i (sha3 (leBytes 64 m.toNat ++ leBytes 64 d.toNat)) }

/-- FIRMWARE_VERIFY: step 0 (R420, R421). -/
def execFirmwareVerify (s : State) : Host.Outcome State Fault Refusal :=
  let p := s.plat
  if !p.good || p.fw || p.recovery then .next s
  else if Config.mldsaVerify p.image then
    .next (bringUp (s.setPlat { extendMeas p 0 (sha3 p.image) with fw := true }))
  else .next (s.setPlat { p with recovery := true })

/-- RECOVERY_MAILBOX_IMAGE: after a failed check the part takes a new image through its host link, and nothing
else (R420). -/
def execRecoveryMailboxImage (image : List Byte) (s : State) : Host.Outcome State Fault Refusal :=
  let p := s.plat
  if p.recovery && p.hostUp then .next (s.setPlat { p with image := image, recovery := false })
  else .next s

/-- HOST_LINK_TRAIN: step 1 (R417, R427). -/
def execHostLinkTrain (shape : HostLink) (s : State) : Host.Outcome State Fault Refusal :=
  if s.plat.good then
    let s := s.reach 8000000
    .next (bringUp (s.setPlat { s.plat with hostUp := true, hlink := shape }))
  else .next s

/-! ### The choice of the configuration (R14, R17, R282, R413, R424, R425) -/

/-- The members of 0 to n − 1 that a bit mask does not retire. -/
def surviving (n : Nat) (retired : Nat) : List Nat := (List.range n).filter fun k => !retired.testBit k

/-- The lanes of a port that are not retired. -/
def goodLanes (c : Catalogue) (port : Nat) : List Nat := surviving 16 (spGet 0 c.lanes port).toNat

/-- A descriptor fits what survives. -/
def descFits (c : Catalogue) (d : BitVec 512) : Bool :=
  decide (bitsN d.toNat 8 10 ≤ (surviving 272 c.aSites.toNat).length) &&
    decide (bitsN d.toNat 18 6 ≤ (surviving 32 c.gSites.toNat).length) &&
    decide (bitsN d.toNat 24 10 ≤ (surviving 512 c.channels.toNat).length) &&
    (List.range 12).all fun k => decide (descWidth d k ≤ (goodLanes c k).length / 4 * 4)

/-- REMAP of the A-core with a physical site, from the accessions. -/
def accessions (c : Catalogue) (site : Nat) : List Word :=
  (List.range 16).map fun n => (spGet 0 c.accessions (16 * site + n)).setWidth 64 &&& remapMask

/-- The REMAP registers of every enabled A-core. -/
def setAccessions (s : State) : State :=
  (s.plat.aSites.zipIdx).foldl (fun t q =>
    match t.coreAt q.2 with
    | none => t
    | some c =>
      let sh := c.shelf
      let r := accessions s.plat.catalogue q.1
      if sh.remap = r then t else t.setCoreAt q.2 { c with shelf := { sh with remap := r } }) s

/-- CONFIGURATION_CHOICE: step 2. The lowest-numbered descriptor that fits is current; with none, CFGNUM is
0xFF and CAT stays clear. -/
def execConfigurationChoice (s : State) : Host.Outcome State Fault Refusal :=
  let p := s.plat
  if !p.fw || p.cat || p.cfgnum == 0xFF then .next s
  else
    let s := s.reach 8000000
    let c := p.catalogue
    let p := extendMeas p 1 (sha3 (catalogueImage c))
    match c.descs.find? (descFits c) with
    | none => .next (s.setPlat { p with cfgnum := 0xFF })
    | some d =>
      let w := d.toNat
      let k := s.kiln
      let allow := BitVec.ofNat 32 (bitsN w 128 32)
      let gres := BitVec.ofNat 32 (bitsN w 160 32)
      let s := { s with kiln := { k with kallow := allow, kgres := gres, allow := allow, gres := gres } }
      let s := s.setPlat { p with
        cat := true, cfgnum := BitVec.ofNat 8 w, desc := d,
        aSites := (surviving 272 c.aSites.toNat).take (bitsN w 8 10),
        gSites := (surviving 32 c.gSites.toNat).take (bitsN w 18 6),
        channels := (surviving 512 c.channels.toNat).take (bitsN w 24 10),
        lanes := (List.range 12).map fun k => (goodLanes c k).take (descWidth d k),
        spares := c.spares }
      .next (bringUp (setAccessions s))

/-! ### The units (R417, R419, R425) -/

/-- L2_POOL_INIT: step 3. -/
def execL2PoolInit (s : State) : Host.Outcome State Fault Refusal :=
  if s.plat.cat && !s.plat.l2Up then
    let s := s.reach 9000000
    .next (bringUp (s.setPlat { s.plat with l2Up := true, poolUp := true }))
  else .next s

/-- GCORE_BRINGUP: step 4. -/
def execGcoreBringup (s : State) : Host.Outcome State Fault Refusal :=
  if s.plat.cat && !s.plat.gcoreUp then
    let s := s.reach 10000000
    .next (bringUp (s.setPlat { s.plat with gcoreUp := true }))
  else .next s

/-- ACORE_GROUP_BRINGUP: step 5, one group of sixteen sites. -/
def execAcoreGroupBringup (g : BitVec 5) (s : State) : Host.Outcome State Fault Refusal :=
  if s.plat.cat && decide (g.toNat < 17) && !s.plat.groupsUp.getLsbD g.toNat then
    let s := s.reach (11000000 + 65536 * g.toNat)
    .next (bringUp (s.setPlat { s.plat with groupsUp := s.plat.groupsUp ||| BitVec.ofNat 17 (2 ^ g.toNat) }))
  else .next s

/-- The segment of a shelf is awake in every enabled A-core. -/
def wakeShelf (s : State) (k : Nat) : State :=
  (coresOf s.plat .a).foldl (fun t i =>
    match t.coreAt i with
    | none => t
    | some c =>
      if lget .awake c.shelf.segs k = .awake then t
      else
        let sh := c.shelf
        t.setCoreAt i { c with shelf := { sh with segs := lset sh.segs k .awake } }) s

/-- The accessions of a site. -/
def siteEntries (c : Catalogue) (site : Nat) : List Nat :=
  (List.range 16).map fun n => (spGet 0 c.accessions (16 * site + n)).toNat

/-- A spare of a shelf of a site that is neither retired nor in use. -/
def freeSpare (c : Catalogue) (site shelf : Nat) : Option Nat :=
  (List.range 2).find? fun k =>
    !(spGet 0 c.spares site).getLsbD (2 * shelf + k) &&
      !(siteEntries c site).any fun e => e.testBit 15 && bitsN e 8 3 == shelf && bitsN e 0 1 == k

/-- A failing position of a shelf is recorded (R282, R423, R426): a spare out of use, and a spare that has failed
already, is retired; a regular position, or the spare in its place, is replaced by a free spare of its shelf in an
entry of the site; with none left, the site is retired, which the next bring-up sees (log 83). -/
def accede (c : Catalogue) (site shelf pos : Nat) : Catalogue :=
  let es := siteEntries c site
  let spareBit : BitVec 16 := BitVec.ofNat 16 (2 ^ (2 * shelf + (pos - 32)))
  let retired : Catalogue :=
    if pos < 32 then c else { c.rewrite with spares := spSet 0 c.spares site (spGet 0 c.spares site ||| spareBit) }
  let holds (e : Nat) : Bool := e.testBit 15 && bitsN e 8 3 == shelf &&
    (if pos < 32 then bitsN e 1 5 == pos else bitsN e 0 1 == pos - 32)
  let old := es.findIdx? holds
  if 32 ≤ pos && old.isNone then retired
  else
    let regular := if pos < 32 then pos else bitsN (lget 0 es (old.getD 0)) 1 5
    let slot := old.orElse fun _ => es.findIdx? fun e => !e.testBit 15
    match freeSpare retired site shelf, slot with
    | some k, some n =>
      let e : BitVec 16 := BitVec.ofNat 16 (2 ^ 15 + shelf * 2 ^ 8 + regular * 2 + k)
      { retired.rewrite with accessions := spSet 0 retired.accessions (16 * site + n) e }
    | _, _ => { retired.rewrite with aSites := retired.aSites ||| BitVec.ofNat 272 (2 ^ site) }

/-- A shelf of every A-core is tested and accessioned: the catalogue, the REMAP registers while the shelf's segment
sleeps, and the test of the bus (R282, R285, R417). -/
def testShelves (s : State) (shelf : Nat) (failing : List (Nat × Nat)) : State :=
  let mine := failing.filter fun f => s.plat.aSites.contains f.1 && decide (f.2 < 34)
  let old (i : Nat) : List Word := ((s.coreAt i).map fun c => c.shelf.remap).getD []
  let cat := mine.foldl (fun c f => accede c f.1 shelf f.2) s.plat.catalogue
  let t := setAccessions (s.setPlat { s.plat with catalogue := cat })
  (coresOf t.plat .a).foldl (fun t i =>
    match t.coreAt i with
    | none => t
    | some c =>
      let c := if c.shelf.remap = old i then c else freshSpares c shelf (old i)
      let sh := c.shelf
      if sh.testTemp = sh.temp && !sh.retestPending && c.shelf.remap = old i then t
      else t.setCoreAt i { c with shelf := { sh with testTemp := sh.temp, retestPending := false } }) t

/-- SHELF_BRINGUP: step 6, one shelf of every A-core, after their groups: tested, accessioned, woken. -/
def execShelfBringup (test : ShelfTest) (s : State) : Host.Outcome State Fault Refusal :=
  let p := s.plat
  let k := test.shelf.toNat
  if p.cat && (p.aSites.all fun x => p.groupsUp.getLsbD (x / 16)) && !p.shelvesUp.getLsbD k then
    let s := wakeShelf (testShelves (s.reach (13000000 + 2000 * k)) k test.failing) k
    .next (bringUp (s.setPlat { s.plat with shelvesUp := s.plat.shelvesUp ||| BitVec.ofNat 8 (2 ^ k) }))
  else .next s

/-- The stack of a line of this chip's memory (R17). -/
def stackOf (p : Platform) (line : Nat) : Nat :=
  lget 0 p.channels (bitsN (256 * line) 8 32 % p.channels.length) / 32

/-- HBM_STACK_BRINGUP: step 7. The stack's lines are zero, their metadata is zero, and no check fails. -/
def execHbmStackBringup (k : BitVec 4) (s : State) : Host.Outcome State Fault Refusal :=
  let p := s.plat
  if p.cat && (stacksUsed p).contains k.toNat && !p.hbmUp.getLsbD k.toNat then
    let s := s.reach (14000000 + 2 ^ 20 * k.toNat)
    let here (line : Nat) : Bool := isHome p line && stackOf p line == k.toNat
    let c := s.coh
    let c := { c with
      meta_ := c.meta_.filter fun e => !here e.1,
      metaErr := c.metaErr.filter fun e => !here e.1,
      dataErr := c.dataErr.filter fun e => !here (e.1 / 4) }
    let s := { s with coh := c, mem := s.mem.filter fun e => !here (e.1 / 256) }
    .next (bringUp (s.setPlat { s.plat with hbmUp := s.plat.hbmUp ||| BitVec.ofNat 16 (2 ^ k.toNat) }))
  else .next s

/-- A port with its lanes: the widest multiple of four among those that are good. -/
def Port.train (q : Port) (good : List Nat) (width : Nat) : Port :=
  let n := min good.length width / 4 * 4
  let lanes := good.take n
  if n = 0 then { q with ready := false, width := 0, lanes := 0, inRow := 0, tried := true }
  else { q with ready := true, tried := true, width := BitVec.ofNat 5 n, inRow := 0,
                lanes := BitVec.ofNat 16 (packN 1 16 fun j => if lanes.contains j then 1 else 0) }

/-- The lanes that step 2 enabled on a port. -/
def enabledLanes (p : Platform) (k : Nat) : List Nat := lget [] p.lanes k

/-- The lanes of a port recorded as retired. -/
def Catalogue.retireLanes (c : Catalogue) (port : Nat) (bad : List Nat) : Catalogue :=
  bad.foldl (fun c j =>
    { c.rewrite with lanes := spSet 0 c.lanes port (spGet 0 c.lanes port ||| BitVec.ofNat 16 (2 ^ j)) }) c

/-- PORT_TRAIN: step 8. `pass` names the lanes that pass; enabled lanes that fail are retired. -/
def execPortTrain (k : BitVec 4) (pass : BitVec 16) (s : State) : Host.Outcome State Fault Refusal :=
  let p := s.plat
  let n := k.toNat
  if p.cat && decide (n < 12) && descWidth p.desc n != 0 && !(lget Reset.port p.ports n).tried then
    let s := s.reach (40000000 + 2 ^ 20 * n)
    let lanes := enabledLanes p n
    let good := lanes.filter fun j => pass.getLsbD j
    let bad := lanes.filter fun j => !pass.getLsbD j
    let q := (lget Reset.port p.ports n).train good (descWidth p.desc n)
    .next (bringUp (s.setPlat { s.plat with
      ports := lset p.ports n q, catalogue := p.catalogue.retireLanes n bad }))
  else .next s

/-! ### Measurement and attestation (R421, R422) -/

/-- A request of the platform area from outside. -/
def platAsk (s : State) (off : Nat) (v : Word) : State :=
  s.asked fun s => platWrite s off v (BitVec.allOnes 64)

/-- MEAS_EXTEND: a write of MEXT. -/
def execMeasExtend (i : Word) (s : State) : Host.Outcome State Fault Refusal := .next (platAsk s 0x10240 i)

/-- MEASUREMENT_EXTENSION_COMPLETE. -/
def execMeasurementExtensionComplete (s : State) : Host.Outcome State Fault Refusal :=
  let p := s.plat
  match p.extending with
  | none => .next s
  | some q => .next (s.setPlat { extendMeas p q.1.toNat q.2 with extending := none })

/-- ATTESTATION_REQUEST: 1 is written to ACMD. -/
def execAttestationRequest (s : State) : Host.Outcome State Fault Refusal :=
  .next (platAsk s 0x11040 1)

/-- The report before its signature. -/
def reportBody (p : Platform) : List Byte :=
  leBytes 8 (1 + 256 * p.cfgnum.toNat) ++ leBytes 8 (readyWord p) ++
  (List.range 8).flatMap (fun i => leBytes 64 (lget 0 p.measured i).toNat) ++
  leBytes 64 (sha3 (catalogueImage p.catalogue)).toNat ++ leBytes 64 p.anonce.toNat ++
  (List.range 2592).map Config.identityKey

/-- ATTESTATION_COMPLETE. -/
def execAttestationComplete (s : State) : Host.Outcome State Fault Refusal :=
  let p := s.plat
  if p.astat = 1 then
    .next (s.setPlat { p with astat := 2, report := reportBody p ++ signature (reportBody p) })
  else .next s

/-! ### Retirement (R426) -/

/-- A write of CATCMD. -/
def askRetire (s : State) (kind unit extra : Nat) : State :=
  platAsk s 0x10 (wordOf (kind * 2 ^ 60 + extra % 16 * 2 ^ 16 + unit % 2 ^ 16))

/-- RETIRE_ACORE_SITE. -/
def execRetireAcoreSite (site : Nat) (s : State) : Host.Outcome State Fault Refusal :=
  .next (askRetire s 1 site 0)
/-- RETIRE_GCORE_SITE. -/
def execRetireGcoreSite (site : Nat) (s : State) : Host.Outcome State Fault Refusal :=
  .next (askRetire s 2 site 0)
/-- RETIRE_SPARE: shelf and spare from bit 16 on (log 28). -/
def execRetireSpare (site : Nat) (shelf : BitVec 3) (spare : Bool) (s : State) :
    Host.Outcome State Fault Refusal :=
  .next (askRetire s 3 site (2 * shelf.toNat + (if spare then 1 else 0)))
/-- RETIRE_CHANNEL. -/
def execRetireChannel (k : Nat) (s : State) : Host.Outcome State Fault Refusal :=
  .next (askRetire s 4 k 0)
/-- RETIRE_LANE: lane j of port p is number 16p + j (log 28). -/
def execRetireLane (port lane : Nat) (s : State) : Host.Outcome State Fault Refusal :=
  .next (askRetire s 5 (16 * port + lane) 0)

/-- The catalogue with the unit of a CATCMD retired. -/
def Catalogue.retire (c : Catalogue) (v : Word) : Catalogue :=
  let n := bitsN v.toNat 0 16
  let c := c.rewrite
  match bitsN v.toNat 60 4 with
  | 1 => { c with aSites := c.aSites ||| BitVec.ofNat 272 (2 ^ n) }
  | 2 => { c with gSites := c.gSites ||| BitVec.ofNat 32 (2 ^ n) }
  | 3 => { c with spares := spSet 0 c.spares n (spGet 0 c.spares n ||| BitVec.ofNat 16 (2 ^ bitsN v.toNat 16 4)) }
  | 4 => { c with channels := c.channels ||| BitVec.ofNat 512 (2 ^ n) }
  | 5 =>
    let x := spGet 0 c.lanes (n / 16)
    { c with lanes := spSet 0 c.lanes (n / 16) (x ||| BitVec.ofNat 16 (2 ^ (n % 16))) }
  | _ => c

/-- CATALOGUE_RECORD_COMPLETE. -/
def execCatalogueRecordComplete (s : State) : Host.Outcome State Fault Refusal :=
  let p := s.plat
  match p.catBusy with
  | none => .next s
  | some v => .next (s.setPlat { p with catBusy := none, catDone := true, catalogue := p.catalogue.retire v })

/-! ### Links (R427, R428) -/

/-- A saturating count of 32 bits. -/
def satInc32 (v : BitVec 32) : BitVec 32 := if v = 0xFFFFFFFF then v else v + 1

/-- FLIT_CRC_FAIL: the flit is replayed, and the finding is logged (R409, R411). DESIGN CHOICE (log 59): 12 names the
host link, which has no counts. -/
def execFlitCrcFail (k : BitVec 4) (s : State) : Host.Outcome State Fault Refusal :=
  let p := s.plat
  let q := lget Reset.port p.ports k.toNat
  if decide (k.toNat < 12) && q.ready && decide (q.inRow < 8) then
    let q := { q with crc := satInc32 q.crc, replays := satInc32 q.replays, inRow := q.inRow + 1 }
    .next (logError (s.setPlat { p with ports := lset p.ports k.toNat q }) 1 false 0 0 0 0)
  else if k.toNat = 12 && p.hostUp then .next (logError s 1 false 0 0 0 0)
  else .next s

/-- Requests of this chip that no port of their route can carry any more fail (R31, R428). -/
def failUnrouted (s : State) : State :=
  let lines := s.coh.misses.map Prod.fst ++ (s.coh.recalls.filter fun r => r.2.isNone).map Prod.fst
  let cut := lines.filter fun l =>
    !hostTier (256 * l) && !isHome s.plat l && !routeUp s.plat (homeChip (256 * l))
  if cut.isEmpty then s else settle (cut.foldl (fun s l => lineLost s l 0x38) s)

/-- What this chip has asked by a port that is not ready any more is sent again over the ports that its route has
left; `before` is the platform as it stood while the port was ready (R428; log 59). -/
def resendHeld (before : Platform) (n : Nat) (s : State) : State :=
  let byPort (line : Nat) : Bool :=
    !hostTier (256 * line) && !isHome before line && portTo before (homeChip (256 * line)) line == some n
  let again (line : Nat) (m : Nat → Nat → Msg) (s : State) : State :=
    match portTo s.plat (homeChip (256 * line)) line with
    | some k => if byPort line then s.send (m (homeChip (256 * line)) k) else s
    | none => s
  let s := s.coh.misses.foldl (fun s m => again m.1 (fun home k => .request home m.1 m.2 k) s) s
  (s.coh.recalls.filter fun r => r.2.isNone).foldl (fun s r => again r.1 (fun home k => .recallRequest home r.1 k) s) s

/-- PORT_RETRAIN: after eight replays in succession the port trains on its good lanes, or leaves READY: what it held
goes over the other ports of its routes, and fails where there is none. -/
def execPortRetrain (k : BitVec 4) (good : BitVec 16) (s : State) : Host.Outcome State Fault Refusal :=
  let p := s.plat
  let n := k.toNat
  let q := lget Reset.port p.ports n
  if decide (n < 12) && q.ready && decide (8 ≤ q.inRow) then
    let lanes := (enabledLanes p n).filter fun j => good.getLsbD j
    let q := q.train lanes (descWidth p.desc n)
    let t := s.setPlat { p with ports := lset p.ports n q }
    .next (failUnrouted (if q.ready then t else resendHeld p n t))
  else .next s

end Sys2Proof.Machine
end

