-- ==== Sys2Proof/Machine/Stream.lean ====
section
/-! DEFINITION. The Q slot: the stochastic stream unit (R312 to R327) and what its instructions cost (R415). -/

namespace Sys2Proof.Machine

/-! ### Streams -/

/-- The lanes of a stream register, cut to its length. -/
def qlanes (v : Core) (q : Nat) : List Nat :=
  let n := (tagRead v.regs q).length
  (List.range 128).map fun l => bitsN (streamRead v.regs q l).toNat 0 n

/-- The result that writes a stream register and its tag (R312). -/
def streamVal (q : Nat) (lanes : List Nat) (t : StreamTag) : UVal :=
  .stream q (lanes.map (BitVec.ofNat 512)) t

/-- The number of ones of a lane. -/
def ones (n x : Nat) : Nat := popN x n

/-- The trap value of the correlation and length faults (R320). -/
def corrTval (a b s : Option StreamTag) : Word :=
  let m (t : Option StreamTag) : Nat := (t.map fun x => x.mask.toNat).getD 0
  let p (t : Option StreamTag) : Nat := (t.map fun x => if x.pris then 1 else 0).getD 0
  let l (t : Option StreamTag) : Nat := (t.map fun x => x.len.toNat).getD 0
  wordOf (l s * 2 ^ 56 + l b * 2 ^ 54 + l a * 2 ^ 52 + p s * 2 ^ 50 + p b * 2 ^ 49 + p a * 2 ^ 48 +
    m s * 2 ^ 32 + m b * 2 ^ 16 + m a)

/-- The threshold bits of a fraction against words (R323). -/
def threshold (ws : List Nat) (x : Nat) : Nat :=
  packN 1 ws.length fun t => if lget 0 ws t < x then 1 else 0

/-- The words of every lane that a threshold reads. -/
def laneSeeds (g : GenClass) (n : Nat) : Nat → List Nat :=
  if g.ramp then
    let w := seedWords g 0 n
    fun _ => w
  else fun l => seedWords g l n

/-- A mask that names one single class. -/
def oneClass (m : BitVec 16) : Bool := popN m.toNat 16 == 1

/-- What a Q-slot instruction brings to its plan: its length, its cost per 64 bits, its stream and vector
operands, its faults, its results. -/
structure QWork where
  len : Nat
  pj : Nat
  qs : List Nat := []
  qd : List Nat := []
  srcs : List VOp := []
  dsts : List VOp := []
  more : List HUnit := []
  writes : List HUnit := []
  faults : List (Bool × Nat × Word) := []
  vals : List UVal := []

/-- The plan of a Q-slot instruction (R319, R415): latency 2 + L ÷ 64; a vector destination must belong to
the Q slot (owner code 3). -/
def planQ (v : Core) (i : Instr) (k : QWork) : Plan :=
  { rd := k.qs.map (fun q => ⟨.stream, q⟩) ++ planeUnits (physOf v.csr k.srcs) ++ k.more
    wr := k.qd.map (fun q => ⟨.stream, q⟩) ++ planeUnits (physOf v.csr k.dsts) ++ k.writes
    lat := 2 + k.len / 64
    pj := k.pj
    faults := vopFaults v i 3 k.srcs k.dsts ++ faultsOf k.faults
    eff := fun t => t.post .q (2 + k.len / 64) k.vals }

/-! ### Length, clearing, moves (R321) -/

def execQlen (o : FQR) (s : State) : Host.Outcome State Fault Refusal :=
  let v := s.view
  let a := tagRead v.regs o.qa.toNat
  let t : StreamTag := { len := o.len, pris := false, mask := a.mask }
  let t := { t with pris := a.pris && decide (t.length ≤ a.length) }
  runPlan (.qlen o) s (planQ v (.qlen o)
    { len := t.length, pj := 16 * t.length / 64, qs := [o.qa.toNat], qd := [o.qd.toNat],
      vals := [streamVal o.qd.toNat ((qlanes v o.qa.toNat).map fun x => bitsN x 0 t.length) t] })

def execQclr (o : FQR) (s : State) : Host.Outcome State Fault Refusal :=
  let t : StreamTag := { len := o.len, pris := false, mask := 0 }
  runPlan (.qclr o) s (planQ s.view (.qclr o)
    { len := t.length, pj := 16 * t.length / 64, qd := [o.qd.toNat],
      vals := [streamVal o.qd.toNat (List.replicate 128 0) t] })

def execQmov (o : FQR) (s : State) : Host.Outcome State Fault Refusal :=
  let v := s.view
  let a := tagRead v.regs o.qa.toNat
  runPlan (.qmov o) s (planQ v (.qmov o)
    { len := a.length, pj := 16 * a.length / 64, qs := [o.qa.toNat], qd := [o.qd.toNat],
      vals := [streamVal o.qd.toNat (qlanes v o.qa.toNat) a] })

/-! ### Seeding (R318, R322) -/

/-- A QSEED of one class: 3 exposed cycles, 64 pJ. -/
def planQseed (s : State) (i : Instr) (o : FQS) (g : Nat → GenClass) (bad : Nat → Bool) : Plan :=
  let v := s.view
  let x := valZ v false o.sa
  let p := planQ v i
    { len := 64, pj := 64, writes := [⟨.gen, o.cls.toNat⟩], more := spanUnits v false o.sa,
      faults := [(spanBad v false o.sa, 0x10, encode i), (bad x, 0x63, wordOf x)] }
  { p with eff := fun t => t.post .q 3 [.gen o.cls.toNat (g x)] }

def execQseedLfsr (o : FQS) (s : State) : Host.Outcome State Fault Refusal :=
  runPlan (.qseedLfsr o) s (planQseed s (.qseedLfsr o) o
    (fun x => { ramp := false, d := 0, seed := lfsrSeeds x, run := lfsrSeeds x }) fun _ => false)

/-- QSEED.ramp keeps SEED, which ramp mode does not use. -/
def execQseedRamp (o : FQS) (s : State) : Host.Outcome State Fault Refusal :=
  runPlan (.qseedRamp o) s (planQseed s (.qseedRamp o) o
    (fun x => { ramp := true, d := BitVec.ofNat 4 x, seed := (genRead s.view.regs o.cls.toNat).seed,
                run := 0 }) fun x => decide (9 < x))

/-! ### Generating and regenerating (R323, R324) -/

def execQgen (o : FQV) (s : State) : Host.Outcome State Fault Refusal :=
  let v := s.view
  let q := o.q.toNat
  let c := o.cls.toNat
  let a := vop v.csr false o.vs
  let t := tagRead v.regs q
  let n := t.length
  let ws := laneSeeds (genRead v.regs c) n
  let xs := vread v a
  let lanes := (List.range 128).map fun l => threshold (ws l) (min (elemN (4 * a.w) xs l) 65536)
  runPlan (.qgen o) s (planQ v (.qgen o)
    { len := n, pj := 96 * n / 64, qs := [q], qd := [q], srcs := [a], more := [⟨.gen, c⟩],
      vals := [streamVal q lanes { len := t.len, pris := true, mask := BitVec.ofNat 16 (2 ^ c) }] })

def execQregen (o : FQR) (s : State) : Host.Outcome State Fault Refusal :=
  let v := s.view
  let c := o.cls.toNat
  let la := (tagRead v.regs o.qa.toNat).length
  let t : StreamTag := { len := o.len, pris := true, mask := BitVec.ofNat 16 (2 ^ c) }
  let ws := laneSeeds (genRead v.regs c) t.length
  let xs := qlanes v o.qa.toNat
  let lanes := (List.range 128).map fun l =>
    threshold (ws l) (ones la (lget 0 xs l) * (65536 / la))
  runPlan (.qregen o) s (planQ v (.qregen o)
    { len := max la t.length, pj := 128 * max la t.length / 64, qs := [o.qa.toNat], qd := [o.qd.toNat],
      more := [⟨.gen, c⟩], vals := [streamVal o.qd.toNat lanes t] })

/-! ### Combining streams (R317, R325) -/

/-- The plan of a gate on two streams. -/
def planGate (s : State) (i : Instr) (o : FQR) (gate : Nat → Nat → Nat) (code : Nat)
    (bad : StreamTag → StreamTag → Bool) (tag : StreamTag → StreamTag → StreamTag) : Plan :=
  let v := s.view
  let a := tagRead v.regs o.qa.toNat
  let b := tagRead v.regs o.qb.toNat
  let xs := qlanes v o.qa.toNat
  let ys := qlanes v o.qb.toNat
  let tv := corrTval (some a) (some b) none
  planQ v i
    { len := a.length, pj := 32 * a.length / 64, qs := [o.qa.toNat, o.qb.toNat], qd := [o.qd.toNat],
      faults := [(bad a b, code, tv), (a.len != b.len, 0x62, tv)],
      vals := [streamVal o.qd.toNat (List.zipWith gate xs ys) (tag a b)] }

/-- Both pristine of one single class (R317). -/
def sameClass (a b : StreamTag) : Bool := a.pris && b.pris && a.mask == b.mask && oneClass a.mask

def execQmul (o : FQR) (s : State) : Host.Outcome State Fault Refusal :=
  runPlan (.qmul o) s (planGate s (.qmul o) o (· &&& ·) 0x60 (fun a b => (a.mask &&& b.mask) != 0)
    fun a b => { len := a.len, pris := false, mask := a.mask ||| b.mask })
def execQmin (o : FQR) (s : State) : Host.Outcome State Fault Refusal :=
  runPlan (.qmin o) s (planGate s (.qmin o) o (· &&& ·) 0x61 (fun a b => !sameClass a b) fun a _ => a)
def execQmax (o : FQR) (s : State) : Host.Outcome State Fault Refusal :=
  runPlan (.qmax o) s (planGate s (.qmax o) o (· ||| ·) 0x61 (fun a b => !sameClass a b) fun a _ => a)
def execQabsd (o : FQR) (s : State) : Host.Outcome State Fault Refusal :=
  runPlan (.qabsd o) s (planGate s (.qabsd o) o (· ^^^ ·) 0x61 (fun a b => !sameClass a b)
    fun a _ => { a with pris := false })

def execQnot (o : FQR) (s : State) : Host.Outcome State Fault Refusal :=
  let v := s.view
  let a := tagRead v.regs o.qa.toNat
  let n := a.length
  runPlan (.qnot o) s (planQ v (.qnot o)
    { len := n, pj := 32 * n / 64, qs := [o.qa.toNat], qd := [o.qd.toNat],
      vals := [streamVal o.qd.toNat ((qlanes v o.qa.toNat).map fun x => 2 ^ n - 1 - x)
        { a with pris := false }] })

def execQmuxa (o : FQR) (s : State) : Host.Outcome State Fault Refusal :=
  let v := s.view
  let a := tagRead v.regs o.qa.toNat
  let b := tagRead v.regs o.qb.toNat
  let c := tagRead v.regs o.qs.toNat
  let n := a.length
  let xs := qlanes v o.qa.toNat
  let ys := qlanes v o.qb.toNat
  let zs := qlanes v o.qs.toNat
  let tv := corrTval (some a) (some b) (some c)
  let lane (l : Nat) : Nat :=
    let z := lget 0 zs l
    (lget 0 xs l &&& z) ||| (lget 0 ys l &&& (2 ^ n - 1 - z % 2 ^ n))
  runPlan (.qmuxa o) s (planQ v (.qmuxa o)
    { len := n, pj := 32 * n / 64, qs := [o.qa.toNat, o.qb.toNat, o.qs.toNat], qd := [o.qd.toNat],
      faults := [((c.mask &&& (a.mask ||| b.mask)) != 0, 0x60, tv),
                 (a.len != b.len || a.len != c.len, 0x62, tv)],
      vals := [streamVal o.qd.toNat ((List.range 128).map lane)
        { len := a.len, pris := false, mask := a.mask ||| b.mask ||| c.mask }] })

/-! ### Back to binary (R326, R327) -/

def execQcnt (o : FQV) (s : State) : Host.Outcome State Fault Refusal :=
  let v := s.view
  let q := o.q.toNat
  let d := vop v.csr false o.vs
  let n := (tagRead v.regs q).length
  let xs := qlanes v q
  let x := packN (4 * d.w) 128 fun l =>
    min (ones n (lget 0 xs l) * (65536 / n)) (2 ^ (4 * d.w) - 1)
  runPlan (.qcnt o) s (planQ v (.qcnt o)
    { len := n, pj := 48 * n / 64, qs := [q], dsts := [d],
      vals := vwrite v.csr d x (2 ^ (4 * d.w * 128) - 1) })

def execQcmp (o : FQP) (s : State) : Host.Outcome State Fault Refusal :=
  let v := s.view
  let a := tagRead v.regs o.qa.toNat
  let b := tagRead v.regs o.qb.toNat
  let n := a.length
  let xs := qlanes v o.qa.toNat
  let ys := qlanes v o.qb.toNat
  let p := pmPhys v o.pd
  let x := packN 1 128 fun l => if ones n (lget 0 ys l) ≤ ones n (lget 0 xs l) then 1 else 0
  runPlan (.qcmp o) s (planQ v (.qcmp o)
    { len := n, pj := 48 * n / 64, qs := [o.qa.toNat, o.qb.toNat], writes := predUnits p,
      faults := [(a.len != b.len, 0x62, corrTval (some a) (some b) none)],
      vals := [.pred p (BitVec.ofNat 1024 x) predOnes] })

end Sys2Proof.Machine
end

