-- ==== Sys2Proof/Machine/VectorInt.lean ====
section
/-! DEFINITION. Vector integer arithmetic, logic and shifts (R239 to R241). -/

namespace Sys2Proof.Machine

/-- What an integer element operation knows: signedness, the width it computes at, the width its result
keeps (4w of VD in lane view), and the width of the shifted field (4w of VA in lane view) (R239, R240). -/
structure VICtx where
  sgn : Bool
  b : Nat
  dw : Nat
  m : Nat

/-- An element as an integer by the signedness of the type. -/
def VICtx.val (k : VICtx) (x : Nat) : Int := if k.sgn then toSigned k.b x else (x : Int)

/-- An integer as the element it wraps to. -/
def VICtx.wrap (k : VICtx) (x : Int) : Nat := wrapI k.b x

/-- An integer clamped to the range of the destination (R161, R239). -/
def VICtx.sat (k : VICtx) (x : Int) : Nat :=
  if k.sgn then wrapI k.b (clampI (-(2 ^ (k.dw - 1) : Int)) (2 ^ (k.dw - 1) - 1) x)
  else wrapI k.b (clampI 0 (2 ^ k.dw - 1) x)

/-- An element operation on the first source, the second source and the old destination. -/
abbrev VIOp := VICtx → Nat → Nat → Nat → Nat

/-- The work of an integer instruction of format V.R: `one` for one source, `raw` for the shifts and counts,
whose sources are read by R240 and not by R161, `old` where the destination is a source. -/
def vintWork (v : Core) (o : FVR) (one raw old : Bool) (f : VIOp) : VWork :=
  let d := vop v.csr o.d o.vd
  let a := vop v.csr o.d o.va
  let bb := vop v.csr o.d o.vb
  let srcs := if one then [a] else [a, bb]
  let sh := vshape o.ty (d :: srcs)
  let sgn := o.ty.isSigned && !raw
  let xs := vget v sh sgn a
  let ys := if one then 0 else vget v sh sgn bb
  let zs := if old then vget v sh sgn d else 0
  let k : VICtx := ⟨o.ty.isSigned, sh.b, if sh.reg then sh.b else 4 * d.w,
                    if sh.reg then sh.b else 4 * a.w⟩
  let p := pmBits v o.pm
  { sl := o.sl, lat := 2, srcs := if old then srcs ++ [d] else srcs, dsts := [d], preds := [pmPhys v o.pm],
    vals := vput v.csr sh d
      (vmap sh fun i => f k (elemN sh.b xs i) (elemN sh.b ys i) (elemN sh.b zs i)) p }

def planVInt (s : State) (i : Instr) (o : FVR) (f : VIOp) : Plan :=
  planVec s.view i (vintWork s.view o false false false f)
def planVInt1 (s : State) (i : Instr) (o : FVR) (raw : Bool) (f : VICtx → Nat → Nat) : Plan :=
  planVec s.view i (vintWork s.view o true raw false fun k a _ _ => f k a)
def planVShift (s : State) (i : Instr) (o : FVR) (f : Nat → Nat → Nat → Int) : Plan :=
  planVec s.view i (vintWork s.view o false true false fun k a c _ => k.wrap (f k.m a c))

/-! ### Shifts (R240) -/

def vshlE (m a c : Nat) : Int := if m ≤ c then 0 else ((a * 2 ^ c % 2 ^ m : Nat) : Int)
def vshrE (m a c : Nat) : Int := if m ≤ c then 0 else ((a / 2 ^ c : Nat) : Int)
def vsraE (m a c : Nat) : Int :=
  let x := toSigned m a
  if m ≤ c then (if x < 0 then -1 else 0) else x / 2 ^ c

def execVadd (o : FVR) (s : State) : Host.Outcome State Fault Refusal :=
  runPlan (.vadd o) s (planVInt s (.vadd o) o fun k a b _ => k.wrap (k.val a + k.val b))
def execVsub (o : FVR) (s : State) : Host.Outcome State Fault Refusal :=
  runPlan (.vsub o) s (planVInt s (.vsub o) o fun k a b _ => k.wrap (k.val a - k.val b))
def execVmul (o : FVR) (s : State) : Host.Outcome State Fault Refusal :=
  runPlan (.vmul o) s (planVInt s (.vmul o) o fun k a b _ => k.wrap (k.val a * k.val b))
def execVmulh (o : FVR) (s : State) : Host.Outcome State Fault Refusal :=
  runPlan (.vmulh o) s (planVInt s (.vmulh o) o fun k a b _ => k.wrap (k.val a * k.val b / 2 ^ k.dw))
def execVmad (o : FVR) (s : State) : Host.Outcome State Fault Refusal :=
  runPlan (.vmad o) s (planVec s.view (.vmad o) (vintWork s.view o false false true fun k a b d =>
    k.wrap (k.val a * k.val b + k.val d)))
def execVmin (o : FVR) (s : State) : Host.Outcome State Fault Refusal :=
  runPlan (.vmin o) s (planVInt s (.vmin o) o fun k a b _ => if k.val b < k.val a then b else a)
def execVmax (o : FVR) (s : State) : Host.Outcome State Fault Refusal :=
  runPlan (.vmax o) s (planVInt s (.vmax o) o fun k a b _ => if k.val a < k.val b then b else a)
def execVabs (o : FVR) (s : State) : Host.Outcome State Fault Refusal :=
  runPlan (.vabs o) s (planVInt1 s (.vabs o) o false fun k a => k.wrap (k.val a).natAbs)
def execVneg (o : FVR) (s : State) : Host.Outcome State Fault Refusal :=
  runPlan (.vneg o) s (planVInt1 s (.vneg o) o false fun k a => k.wrap (-(k.val a)))
def execVand (o : FVR) (s : State) : Host.Outcome State Fault Refusal :=
  runPlan (.vand o) s (planVInt s (.vand o) o fun _ a b _ => a &&& b)
def execVor (o : FVR) (s : State) : Host.Outcome State Fault Refusal :=
  runPlan (.vor o) s (planVInt s (.vor o) o fun _ a b _ => a ||| b)
def execVxor (o : FVR) (s : State) : Host.Outcome State Fault Refusal :=
  runPlan (.vxor o) s (planVInt s (.vxor o) o fun _ a b _ => a ^^^ b)
def execVandn (o : FVR) (s : State) : Host.Outcome State Fault Refusal :=
  runPlan (.vandn o) s (planVInt s (.vandn o) o fun k a b _ => a &&& (2 ^ k.b - 1 - b))
def execVshl (o : FVR) (s : State) : Host.Outcome State Fault Refusal :=
  runPlan (.vshl o) s (planVShift s (.vshl o) o vshlE)
def execVshr (o : FVR) (s : State) : Host.Outcome State Fault Refusal :=
  runPlan (.vshr o) s (planVShift s (.vshr o) o vshrE)
def execVsra (o : FVR) (s : State) : Host.Outcome State Fault Refusal :=
  runPlan (.vsra o) s (planVShift s (.vsra o) o vsraE)
def execVpopc (o : FVR) (s : State) : Host.Outcome State Fault Refusal :=
  runPlan (.vpopc o) s (planVInt1 s (.vpopc o) o true fun k a => popN a k.m)
def execVclz (o : FVR) (s : State) : Host.Outcome State Fault Refusal :=
  runPlan (.vclz o) s (planVInt1 s (.vclz o) o true fun k a => clzN a k.m)
def execVadds (o : FVR) (s : State) : Host.Outcome State Fault Refusal :=
  runPlan (.vadds o) s (planVInt s (.vadds o) o fun k a b _ => k.sat (k.val a + k.val b))
def execVsubs (o : FVR) (s : State) : Host.Outcome State Fault Refusal :=
  runPlan (.vsubs o) s (planVInt s (.vsubs o) o fun k a b _ => k.sat (k.val a - k.val b))

/-! ### Immediate shifts (R241) -/

/-- A shift of every element by the low six bits of the immediate. -/
def planVShiftImm (s : State) (i : Instr) (o : FVI) (f : Nat → Nat → Nat → Int) : Plan :=
  let v := s.view
  let d := vop v.csr o.d o.vd
  let a := vop v.csr o.d o.va
  let sh := vshape o.ty [d, a]
  let xs := vget v sh false a
  let m := if sh.reg then sh.b else 4 * a.w
  let c := (o.long.extractLsb' 0 6).toNat
  planVec v i
    { sl := o.sl, lat := 2, srcs := [a], dsts := [d],
      vals := vput v.csr sh d (vmap sh fun j => wrapI sh.b (f m (elemN sh.b xs j) c)) predOnes }

def execVshlImm (o : FVI) (s : State) : Host.Outcome State Fault Refusal :=
  runPlan (.vshlImm o) s (planVShiftImm s (.vshlImm o) o vshlE)
def execVshrImm (o : FVI) (s : State) : Host.Outcome State Fault Refusal :=
  runPlan (.vshrImm o) s (planVShiftImm s (.vshrImm o) o vshrE)
def execVsraImm (o : FVI) (s : State) : Host.Outcome State Fault Refusal :=
  runPlan (.vsraImm o) s (planVShiftImm s (.vsraImm o) o vsraE)

end Sys2Proof.Machine
end

