-- ==== Sys2Proof/Machine/VectorMem.lean ====
section
/-! DEFINITION. The vector slots' accesses to the core's own scratchpad: VLD, VST, VLDX, VSTX, VLDS
(R258 to R262). -/

namespace Sys2Proof.Machine

/-- The check of one element's bytes: a code and the lowest failing address (R258). -/
def padCheck (s : State) (p : Word) (n : Nat) : Option (Nat × Word) :=
  let a := p.toNat
  let off := a % 2 ^ 60
  match a / 2 ^ 60 with
  | 0x0 => some (if off < 2 ^ 58 then 0x31 else 0x30, p)
  | 0xC =>
    if 2 ^ 20 ≤ off then some (0x30, p)
    else if 2 ^ 20 < off + n then some (0x32, p)
    else (tileFault s.core ownTile (a - off) off n).head?
  | 0xD => some (if s.core.kind = .a && off < 2 ^ 17 then 0x31 else 0x30, p)
  | 0xE => some (if (chipArea s off).isSome then 0x31 else 0x30, p)
  | 0xF => some (if s.core.mode == .sys && sysTest s off 1 == some 0x30 then 0x30 else 0x31, p)
  | _ => some (0x30, p)

/-- The fault of a list of elements: the lowest code, at the lowest-indexed element that earns it (R258). -/
def padFaults (s : State) (l : List (Word × Nat)) : List (Nat × Word) :=
  (lowestFault (l.filterMap fun e => padCheck s e.1 e.2)).toList

/-- The scratchpad tiles that elements touch, as units that an access waits on (R94). -/
def padUnits (l : List (Word × Nat)) : List HUnit :=
  ((l.flatMap fun e => tilesOf (e.1.toNat % 2 ^ 60) e.2).filter fun t => decide (t < 64)).eraseDups.map
    fun t => ⟨.tile, t⟩

/-- The scratchpad's bytes at a pointer, as a number. -/
def padNat (c : Core) (p : Word) (n : Nat) : Nat := leNat (areaBytes c .pad (p.toNat % 2 ^ 60) n)

/-- The elements as ranges of the scratchpad. -/
def padRanges (l : List (Word × Nat)) : List (Nat × Nat) := l.map fun e => (e.1.toNat % 2 ^ 60, e.2)

/-- The first element that meets a word which cannot be corrected. -/
def padEcc (c : Core) (l : List (Word × Nat)) : Option Word :=
  (l.find? fun e => (eccBad c (e.1.toNat % 2 ^ 60) e.2).isSome).map Prod.fst

/-- The effect of a load: its words are checked; where one cannot be corrected no plane is written, and 0x70 is
delivered when the result would have landed (R387, R406, R409). -/
def padLoad (k : VWork) (l : List (Word × Nat)) (eff : State → State) (s : State) : State :=
  let t := eccChecks s s.core.region.toNat (padRanges l)
  match padEcc s.core l with
  | none => eff t
  | some a => t.post k.sl.slot k.lat [] 0 (some (0x70, a))

/-- A scratchpad access by a vector slot: the operands' plan, the elements it tests, and its effect. -/
def planPad (s : State) (i : Instr) (k : VWork) (l : List (Word × Nat)) (bad : Bool)
    (store : Option (State → State)) : Plan :=
  let p := planVec s.view i { k with faults := k.faults ++ [(bad, 0x04, encode i)] }
  let ok := !bad && !k.srcs.any VOp.bad && !k.dsts.any VOp.bad && !k.scal.any SOp.bad
  { p with
    rd := p.rd ++ (if ok then padUnits l else [])
    faults := p.faults ++ (if ok then padFaults s l else [])
    eff := match store with
      | some f => f
      | none => padLoad k l p.eff }

/-- The memory image of a vector span (R165): plane q in bytes 64q to 64q + 63. -/
def imageOf (w v : Nat) : Nat := packN 512 w fun q => (planeOf w v q).toNat

/-- The packed array whose memory image is given. -/
def ofImage (w img : Nat) : Nat :=
  lanesOf ((List.range w).map fun q => BitVec.ofNat 512 (elemN 512 img q))

/-- The mask of a span's bits that a predicate governs, in the packed array (R236). -/
def govMask (sh : VShape) (w : Nat) (p : Pred) : Nat :=
  if sh.reg then elemMask sh.b sh.n p else elemMask (4 * w) 128 p

/-- The address of a VLD or VST (R259). -/
def vmAddr (v : Core) (o : FVM) : Word :=
  BitVec.ofNat 64 (valZ v o.d o.base) + o.off.signExtend 64

/-- VLD (R259). -/
def execVld (o : FVM) (s : State) : Host.Outcome State Fault Refusal :=
  let v := s.view
  let d := vop v.csr o.d o.data
  let a := vmAddr v o
  let sh := vshape o.ty [d]
  let x := ofImage d.w (padNat s.core a (64 * d.w))
  runPlan (.vld o) s (planPad s (.vld o)
    { sl := o.sl, lat := 8, srcs := [], dsts := [d], preds := [pmPhys v o.pm],
      scal := [sop v.csr o.d o.base], vals := vwrite v.csr d x (govMask sh d.w (pmBits v o.pm)) }
    [(a, 64 * d.w)] false none)

/-- VST (R259). -/
def execVst (o : FVM) (s : State) : Host.Outcome State Fault Refusal :=
  let v := s.view
  let d := vop v.csr o.d o.data
  let a := vmAddr v o
  let sh := vshape o.ty [d]
  let bytes := leBytes (64 * d.w) (imageOf d.w (vread v d))
  let mask := leBytes (64 * d.w) (imageOf d.w (govMask sh d.w (pmBits v o.pm)))
  runPlan (.vst o) s (planPad s (.vst o)
    { sl := o.sl, lat := 0, srcs := [d], dsts := [], preds := [pmPhys v o.pm],
      scal := [sop v.csr o.d o.base] }
    [(a, 64 * d.w)] false
    (some (storeAtEnd { place := .pad (a.toNat % 2 ^ 60) } bytes mask)))

/-- The index of a lane: the lane's value, read unsigned (R261). -/
def laneIndex (v : Core) (o : VOp) (l : Nat) : Nat := elemN (4 * o.w) (vread v o) l

/-- The governed lanes. -/
def govLanes (p : Pred) (n : Nat) : List Nat := (List.range n).filter fun i => p.getLsbD i

/-- The address of lane l of a gather or scatter (R261). -/
def vgAddr (v : Core) (o : FVG) (l : Nat) : Word :=
  BitVec.ofNat 64 (valZ v o.d o.base + laneIndex v (vop v.csr o.d o.vidx) l)

/-- VLDX (R261): in either view the w/2 bytes fill lane l. -/
def execVldx (o : FVG) (s : State) : Host.Outcome State Fault Refusal :=
  let v := s.view
  let d := vop v.csr o.d o.data
  let n := d.w / 2
  let p := pmBits v o.pm
  let x := packN (4 * d.w) 128 fun l => if p.getLsbD l then padNat s.core (vgAddr v o l) n else 0
  runPlan (.vldx o) s (planPad s (.vldx o)
    { sl := o.sl, lat := 8, srcs := [vop v.csr o.d o.vidx], dsts := [d], preds := [pmPhys v o.pm],
      scal := [sop v.csr o.d o.base], vals := vwrite v.csr d x (elemMask (4 * d.w) 128 p) }
    ((govLanes p 128).map fun l => (vgAddr v o l, n)) (d.w % 2 != 0) none)

/-- VSTX (R261): lanes in ascending order, the higher lane kept. -/
def execVstx (o : FVG) (s : State) : Host.Outcome State Fault Refusal :=
  let v := s.view
  let d := vop v.csr o.d o.data
  let n := d.w / 2
  let p := pmBits v o.pm
  let x := vread v d
  let put (t : State) (l : Nat) : State :=
    storeAtEnd { place := .pad ((vgAddr v o l).toNat % 2 ^ 60) } (leBytes n (elemN (4 * d.w) x l))
      (List.replicate n 0xFF) t
  runPlan (.vstx o) s (planPad s (.vstx o)
    { sl := o.sl, lat := 0, srcs := [d, vop v.csr o.d o.vidx], dsts := [], preds := [pmPhys v o.pm],
      scal := [sop v.csr o.d o.base] }
    ((govLanes p 128).map fun l => (vgAddr v o l, n)) (d.w % 2 != 0)
    (some fun t => (govLanes p 128).foldl put t))

/-- The nibble address of element i of a 4-bit VLDS (R260). -/
def nibAddr (base : Nat) (stride : Int) (i : Nat) : Nat := wrapI 65 (2 * base + i * stride)

/-- The byte address of element i of a VLDS (R260). -/
def vsAddr (sh : VShape) (base : Nat) (stride : Int) (i : Nat) : Word :=
  if sh.reg && sh.b == 4 then BitVec.ofNat 64 (nibAddr base stride i / 2)
  else BitVec.ofInt 64 (base + i * stride)

/-- VLDS (R260). -/
def execVlds (o : FVS) (s : State) : Host.Outcome State Fault Refusal :=
  let v := s.view
  let d := vop v.csr o.d o.data
  let sh := vshape o.ty [d]
  let base := valZ v o.d o.base
  let stride := valS v o.d o.stride
  let p := pmBits v o.pm
  let n := if sh.reg then (if sh.b = 4 then 1 else sh.b / 8) else d.w / 2
  let elem (i : Nat) : Nat :=
    let x := padNat s.core (vsAddr sh base stride i) n
    if sh.reg && sh.b == 4 then bitsN x (4 * (nibAddr base stride i % 2)) 4 else x
  let b := if sh.reg then sh.b else 4 * d.w
  let x := packN b sh.n fun i => if p.getLsbD i then elem i else 0
  runPlan (.vlds o) s (planPad s (.vlds o)
    { sl := o.sl, lat := 8, srcs := [], dsts := [d], preds := [pmPhys v o.pm],
      scal := [sop v.csr o.d o.base, sop v.csr o.d o.stride],
      vals := vwrite v.csr d x (elemMask b sh.n p) }
    ((govLanes p sh.n).map fun i => (vsAddr sh base stride i, n)) (!sh.reg && d.w % 2 != 0) none)

end Sys2Proof.Machine
end

