-- ==== Sys2Proof/Machine/Dispatch.lean ====
section
/-! DEFINITION. The dispatch: one arm per constructor of Instr, each one direct call of its meaning. -/

namespace Sys2Proof.Machine

def exec (i : Instr) (s : State) : Host.Outcome State Fault Refusal :=
  match i with
  | .emptyBundle join stall => Sys2Proof.Machine.execEmptyBundle join stall s
  | .br o => Sys2Proof.Machine.execBr o s
  | .brz o => Sys2Proof.Machine.execBrz o s
  | .brnz o => Sys2Proof.Machine.execBrnz o s
  | .jmp o => Sys2Proof.Machine.execJmp o s
  | .jmpi o => Sys2Proof.Machine.execJmpi o s
  | .call o => Sys2Proof.Machine.execCall o s
  | .calli o => Sys2Proof.Machine.execCalli o s
  | .ret sa => Sys2Proof.Machine.execRet sa s
  | .cloop disp => Sys2Proof.Machine.execCloop disp s
  | .waitt mask => Sys2Proof.Machine.execWaitt mask s
  | .waita mask dst => Sys2Proof.Machine.execWaita mask dst s
  | .barg g => Sys2Proof.Machine.execBarg g s
  | .trig g => Sys2Proof.Machine.execTrig g s
  | .trigNode => Sys2Proof.Machine.execTrigNode s
  | .exit => Sys2Proof.Machine.execExit s
  | .fence order scope => Sys2Proof.Machine.execFence order scope s
  | .trap imm => Sys2Proof.Machine.execTrap imm s
  | .tret => Sys2Proof.Machine.execTret s
  | .bkpt imm => Sys2Proof.Machine.execBkpt imm s
  | .rfcl mask => Sys2Proof.Machine.execRfcl mask s
  | .lend owner c => Sys2Proof.Machine.execLend owner c s
  | .add o => Sys2Proof.Machine.execAdd o s
  | .sub o => Sys2Proof.Machine.execSub o s
  | .addi o => Sys2Proof.Machine.execAddi o s
  | .mul o => Sys2Proof.Machine.execMul o s
  | .mulh o => Sys2Proof.Machine.execMulh o s
  | .mulhn o => Sys2Proof.Machine.execMulhn o s
  | .div o => Sys2Proof.Machine.execDiv o s
  | .divn o => Sys2Proof.Machine.execDivn o s
  | .rem o => Sys2Proof.Machine.execRem o s
  | .remn o => Sys2Proof.Machine.execRemn o s
  | .and o => Sys2Proof.Machine.execAnd o s
  | .or o => Sys2Proof.Machine.execOr o s
  | .xor o => Sys2Proof.Machine.execXor o s
  | .andn o => Sys2Proof.Machine.execAndn o s
  | .shl o => Sys2Proof.Machine.execShl o s
  | .shr o => Sys2Proof.Machine.execShr o s
  | .sra o => Sys2Proof.Machine.execSra o s
  | .rotl o => Sys2Proof.Machine.execRotl o s
  | .clz o => Sys2Proof.Machine.execClz o s
  | .ctz o => Sys2Proof.Machine.execCtz o s
  | .popc o => Sys2Proof.Machine.execPopc o s
  | .min o => Sys2Proof.Machine.execMin o s
  | .max o => Sys2Proof.Machine.execMax o s
  | .minn o => Sys2Proof.Machine.execMinn o s
  | .maxn o => Sys2Proof.Machine.execMaxn o s
  | .cmp o => Sys2Proof.Machine.execCmp o s
  | .sel o => Sys2Proof.Machine.execSel o s
  | .li o => Sys2Proof.Machine.execLi o s
  | .movs o => Sys2Proof.Machine.execMovs o s
  | .exts o => Sys2Proof.Machine.execExts o s
  | .inss o => Sys2Proof.Machine.execInss o s
  | .lea o => Sys2Proof.Machine.execLea o s
  | .ld o => Sys2Proof.Machine.execLd o s
  | .st o => Sys2Proof.Machine.execSt o s
  | .ldg o => Sys2Proof.Machine.execLdg o s
  | .stg o => Sys2Proof.Machine.execStg o s
  | .amo o => Sys2Proof.Machine.execAmo o s
  | .cas o => Sys2Proof.Machine.execCas o s
  | .csrr o => Sys2Proof.Machine.execCsrr o s
  | .csrw o => Sys2Proof.Machine.execCsrw o s
  | .csrs o => Sys2Proof.Machine.execCsrs o s
  | .csrc o => Sys2Proof.Machine.execCsrc o s
  | .engw o => Sys2Proof.Machine.execEngw o s
  | .engr o => Sys2Proof.Machine.execEngr o s
  | .hchk o => Sys2Proof.Machine.execHchk o s
  | .vadd o => Sys2Proof.Machine.execVadd o s
  | .vsub o => Sys2Proof.Machine.execVsub o s
  | .vmul o => Sys2Proof.Machine.execVmul o s
  | .vmulh o => Sys2Proof.Machine.execVmulh o s
  | .vmad o => Sys2Proof.Machine.execVmad o s
  | .vmin o => Sys2Proof.Machine.execVmin o s
  | .vmax o => Sys2Proof.Machine.execVmax o s
  | .vabs o => Sys2Proof.Machine.execVabs o s
  | .vneg o => Sys2Proof.Machine.execVneg o s
  | .vand o => Sys2Proof.Machine.execVand o s
  | .vor o => Sys2Proof.Machine.execVor o s
  | .vxor o => Sys2Proof.Machine.execVxor o s
  | .vandn o => Sys2Proof.Machine.execVandn o s
  | .vshl o => Sys2Proof.Machine.execVshl o s
  | .vshr o => Sys2Proof.Machine.execVshr o s
  | .vsra o => Sys2Proof.Machine.execVsra o s
  | .vpopc o => Sys2Proof.Machine.execVpopc o s
  | .vclz o => Sys2Proof.Machine.execVclz o s
  | .vadds o => Sys2Proof.Machine.execVadds o s
  | .vsubs o => Sys2Proof.Machine.execVsubs o s
  | .vshlImm o => Sys2Proof.Machine.execVshlImm o s
  | .vshrImm o => Sys2Proof.Machine.execVshrImm o s
  | .vsraImm o => Sys2Proof.Machine.execVsraImm o s
  | .vfadd o => Sys2Proof.Machine.execVfadd o s
  | .vfsub o => Sys2Proof.Machine.execVfsub o s
  | .vfmul o => Sys2Proof.Machine.execVfmul o s
  | .vfma o => Sys2Proof.Machine.execVfma o s
  | .vfms o => Sys2Proof.Machine.execVfms o s
  | .vfmin o => Sys2Proof.Machine.execVfmin o s
  | .vfmax o => Sys2Proof.Machine.execVfmax o s
  | .vfabs o => Sys2Proof.Machine.execVfabs o s
  | .vfneg o => Sys2Proof.Machine.execVfneg o s
  | .vcmp o => Sys2Proof.Machine.execVcmp o s
  | .vfcmp o => Sys2Proof.Machine.execVfcmp o s
  | .vsel o => Sys2Proof.Machine.execVsel o s
  | .vclass o => Sys2Proof.Machine.execVclass o s
  | .vcvt o => Sys2Proof.Machine.execVcvt o s
  | .vwiden o => Sys2Proof.Machine.execVwiden o s
  | .vnarrow o => Sys2Proof.Machine.execVnarrow o s
  | .vmxq o => Sys2Proof.Machine.execVmxq o s
  | .vmxd o => Sys2Proof.Machine.execVmxd o s
  | .vrsum o => Sys2Proof.Machine.execVrsum o s
  | .vrfsum o => Sys2Proof.Machine.execVrfsum o s
  | .vrmax o => Sys2Proof.Machine.execVrmax o s
  | .vrmin o => Sys2Proof.Machine.execVrmin o s
  | .vperm o => Sys2Proof.Machine.execVperm o s
  | .vslide o => Sys2Proof.Machine.execVslide o s
  | .vbcast o => Sys2Proof.Machine.execVbcast o s
  | .vextr o => Sys2Proof.Machine.execVextr o s
  | .vins o => Sys2Proof.Machine.execVins o s
  | .vzip o => Sys2Proof.Machine.execVzip o s
  | .vunzip o => Sys2Proof.Machine.execVunzip o s
  | .vcxs o => Sys2Proof.Machine.execVcxs o s
  | .vexp2 o => Sys2Proof.Machine.execVexp2 o s
  | .vlog2 o => Sys2Proof.Machine.execVlog2 o s
  | .vrcp o => Sys2Proof.Machine.execVrcp o s
  | .vrsqrt o => Sys2Proof.Machine.execVrsqrt o s
  | .vsqrt o => Sys2Proof.Machine.execVsqrt o s
  | .vtanh o => Sys2Proof.Machine.execVtanh o s
  | .vsigm o => Sys2Proof.Machine.execVsigm o s
  | .vsinp o => Sys2Proof.Machine.execVsinp o s
  | .vcosp o => Sys2Proof.Machine.execVcosp o s
  | .pand o => Sys2Proof.Machine.execPand o s
  | .por o => Sys2Proof.Machine.execPor o s
  | .pxor o => Sys2Proof.Machine.execPxor o s
  | .pnot o => Sys2Proof.Machine.execPnot o s
  | .pcnt o => Sys2Proof.Machine.execPcnt o s
  | .pfirst o => Sys2Proof.Machine.execPfirst o s
  | .vld o => Sys2Proof.Machine.execVld o s
  | .vst o => Sys2Proof.Machine.execVst o s
  | .vldx o => Sys2Proof.Machine.execVldx o s
  | .vstx o => Sys2Proof.Machine.execVstx o s
  | .vlds o => Sys2Proof.Machine.execVlds o s
  | .vmov o => Sys2Proof.Machine.execVmov o s
  | .vli o => Sys2Proof.Machine.execVli o s
  | .vchk o => Sys2Proof.Machine.execVchk o s
  | .viota o => Sys2Proof.Machine.execViota o s
  | .mmode o => Sys2Proof.Machine.execMmode o s
  | .mpageRd o => Sys2Proof.Machine.execMpageRd o s
  | .mpageClr o => Sys2Proof.Machine.execMpageClr o s
  | .mload o => Sys2Proof.Machine.execMload o s
  | .mlatch o => Sys2Proof.Machine.execMlatch o s
  | .mdot o => Sys2Proof.Machine.execMdot o s
  | .mcoll o => Sys2Proof.Machine.execMcoll o s
  | .mchain o => Sys2Proof.Machine.execMchain o s
  | .moutl o => Sys2Proof.Machine.execMoutl o s
  | .macz o => Sys2Proof.Machine.execMacz o s
  | .macrd o => Sys2Proof.Machine.execMacrd o s
  | .macwr o => Sys2Proof.Machine.execMacwr o s
  | .mread o => Sys2Proof.Machine.execMread o s
  | .mwrite o => Sys2Proof.Machine.execMwrite o s
  | .mrmw o => Sys2Proof.Machine.execMrmw o s
  | .mmask o => Sys2Proof.Machine.execMmask o s
  | .mmaskClr o => Sys2Proof.Machine.execMmaskClr o s
  | .mwideOn o => Sys2Proof.Machine.execMwideOn o s
  | .mwideOff o => Sys2Proof.Machine.execMwideOff o s
  | .mrange o => Sys2Proof.Machine.execMrange o s
  | .lwake o => Sys2Proof.Machine.execLwake o s
  | .lsleep o => Sys2Proof.Machine.execLsleep o s
  | .mscrub o => Sys2Proof.Machine.execMscrub o s
  | .cpy o => Sys2Proof.Machine.execCpy o s
  | .cgo o => Sys2Proof.Machine.execCgo o s
  | .cgoClr o => Sys2Proof.Machine.execCgoClr o s
  | .cwin o => Sys2Proof.Machine.execCwin o s
  | .cadv o => Sys2Proof.Machine.execCadv o s
  | .cadvEnd o => Sys2Proof.Machine.execCadvEnd o s
  | .town o => Sys2Proof.Machine.execTown o s
  | .ttake o => Sys2Proof.Machine.execTtake o s
  | .tstate o => Sys2Proof.Machine.execTstate o s
  | .tstateClaim o => Sys2Proof.Machine.execTstateClaim o s
  | .tstateRelease o => Sys2Proof.Machine.execTstateRelease o s
  | .tidld o => Sys2Proof.Machine.execTidld o s
  | .tidrd o => Sys2Proof.Machine.execTidrd o s
  | .tidinv o => Sys2Proof.Machine.execTidinv o s
  | .binit o => Sys2Proof.Machine.execBinit o s
  | .barv o => Sys2Proof.Machine.execBarv o s
  | .bexp o => Sys2Proof.Machine.execBexp o s
  | .bwatch o => Sys2Proof.Machine.execBwatch o s
  | .bwatchOff o => Sys2Proof.Machine.execBwatchOff o s
  | .cred o => Sys2Proof.Machine.execCred o s
  | .cbcst o => Sys2Proof.Machine.execCbcst o s
  | .cpref o => Sys2Proof.Machine.execCpref o s
  | .cflush o => Sys2Proof.Machine.execCflush o s
  | .cinv o => Sys2Proof.Machine.execCinv o s
  | .cmig o => Sys2Proof.Machine.execCmig o s
  | .gload o => Sys2Proof.Machine.execGload o s
  | .gloadFree o => Sys2Proof.Machine.execGloadFree o s
  | .glaunch o => Sys2Proof.Machine.execGlaunch o s
  | .qlen o => Sys2Proof.Machine.execQlen o s
  | .qseedLfsr o => Sys2Proof.Machine.execQseedLfsr o s
  | .qseedRamp o => Sys2Proof.Machine.execQseedRamp o s
  | .qgen o => Sys2Proof.Machine.execQgen o s
  | .qregen o => Sys2Proof.Machine.execQregen o s
  | .qmul o => Sys2Proof.Machine.execQmul o s
  | .qmin o => Sys2Proof.Machine.execQmin o s
  | .qmax o => Sys2Proof.Machine.execQmax o s
  | .qabsd o => Sys2Proof.Machine.execQabsd o s
  | .qnot o => Sys2Proof.Machine.execQnot o s
  | .qmuxa o => Sys2Proof.Machine.execQmuxa o s
  | .qcnt o => Sys2Proof.Machine.execQcnt o s
  | .qcmp o => Sys2Proof.Machine.execQcmp o s
  | .qmov o => Sys2Proof.Machine.execQmov o s
  | .qclr o => Sys2Proof.Machine.execQclr o s
  | .exposedResultLand => Sys2Proof.Machine.execExposedResultLand s
  | .trackedAccessComplete k => Sys2Proof.Machine.execTrackedAccessComplete k s
  | .walkComplete k => Sys2Proof.Machine.execWalkComplete k s
  | .fltretry => Sys2Proof.Machine.execFltretry s
  | .tlbiVa va => Sys2Proof.Machine.execTlbiVa va s
  | .tlbiAsid => Sys2Proof.Machine.execTlbiAsid s
  | .tlbiAsidGlobal => Sys2Proof.Machine.execTlbiAsidGlobal s
  | .tlbiAll => Sys2Proof.Machine.execTlbiAll s
  | .rds req line => Sys2Proof.Machine.execRds req line s
  | .rdx req line => Sys2Proof.Machine.execRdx req line s
  | .wbd req line dirty data => Sys2Proof.Machine.execWbd req line dirty data s
  | .waitingRequestResolve line => Sys2Proof.Machine.execWaitingRequestResolve line s
  | .fwds req line => Sys2Proof.Machine.execFwds req line s
  | .fwdx req line => Sys2Proof.Machine.execFwdx req line s
  | .inv req line => Sys2Proof.Machine.execInv req line s
  | .rcl req line => Sys2Proof.Machine.execRcl req line s
  | .snoopAnswer sender line ans data => Sys2Proof.Machine.execSnoopAnswer sender line ans data s
  | .completion line grant data => Sys2Proof.Machine.execCompletion line grant data s
  | .coherenceTimeout line => Sys2Proof.Machine.execCoherenceTimeout line s
  | .memrd pa excl => Sys2Proof.Machine.execMemrd pa excl s
  | .memwr pa enable data keeps => Sys2Proof.Machine.execMemwr pa enable data keeps s
  | .hostSnoop pa kind => Sys2Proof.Machine.execHostSnoop pa kind s
  | .hostCacheGrant pa grant data => Sys2Proof.Machine.execHostCacheGrant pa grant data s
  | .copySector ch => Sys2Proof.Machine.execCopySector ch s
  | .channelOpComplete ch => Sys2Proof.Machine.execChannelOpComplete ch s
  | .ringFillComplete ch => Sys2Proof.Machine.execRingFillComplete ch s
  | .collectiveStart g => Sys2Proof.Machine.execCollectiveStart g s
  | .tidldFill slot => Sys2Proof.Machine.execTidldFill slot s
  | .queuePacketServe q => Sys2Proof.Machine.execQueuePacketServe q s
  | .queueTableWrite q hi v => Sys2Proof.Machine.execQueueTableWrite q hi v s
  | .barrierWaitEnd => Sys2Proof.Machine.execBarrierWaitEnd s
  | .fenceComplete => Sys2Proof.Machine.execFenceComplete s
  | .bargEpisodeComplete => Sys2Proof.Machine.execBargEpisodeComplete s
  | .waittComplete => Sys2Proof.Machine.execWaittComplete s
  | .mloadComplete k => Sys2Proof.Machine.execMloadComplete k s
  | .mdotComplete k => Sys2Proof.Machine.execMdotComplete k s
  | .mcollComplete k => Sys2Proof.Machine.execMcollComplete k s
  | .outlierListComplete k => Sys2Proof.Machine.execOutlierListComplete k s
  | .clusterWakeComplete c => Sys2Proof.Machine.execClusterWakeComplete c s
  | .scrubTick => Sys2Proof.Machine.execScrubTick s
  | .parityRefetchComplete => Sys2Proof.Machine.execParityRefetchComplete s
  | .segmentWakeComplete seg => Sys2Proof.Machine.execSegmentWakeComplete seg s
  | .canaryMeasure region drift => Sys2Proof.Machine.execCanaryMeasure region drift s
  | .temperatureSwing temp => Sys2Proof.Machine.execTemperatureSwing temp s
  | .busRetest => Sys2Proof.Machine.execBusRetest s
  | .busRepair failing => Sys2Proof.Machine.execBusRepair failing s
  | .remapWrite core n v => Sys2Proof.Machine.execRemapWrite core n v s
  | .kilnRefill => Sys2Proof.Machine.execKilnRefill s
  | .nodeDispatch kind => Sys2Proof.Machine.execNodeDispatch kind s
  | .positionBind kind => Sys2Proof.Machine.execPositionBind kind s
  | .priorityAging slot => Sys2Proof.Machine.execPriorityAging slot s
  | .watchdogExpiry => Sys2Proof.Machine.execWatchdogExpiry s
  | .sequencerLaunch => Sys2Proof.Machine.execSequencerLaunch s
  | .hcmdLoad pa => Sys2Proof.Machine.execHcmdLoad pa s
  | .hcmdLaunch h bucket => Sys2Proof.Machine.execHcmdLaunch h bucket s
  | .hcmdFree h => Sys2Proof.Machine.execHcmdFree h s
  | .preempt slot => Sys2Proof.Machine.execPreempt slot s
  | .positionSave => Sys2Proof.Machine.execPositionSave s
  | .singleStep => Sys2Proof.Machine.execSingleStep s
  | .debugHaltRequest core => Sys2Proof.Machine.execDebugHaltRequest core s
  | .debugHalt => Sys2Proof.Machine.execDebugHalt s
  | .debugResume core => Sys2Proof.Machine.execDebugResume core s
  | .powerGood => Sys2Proof.Machine.execPowerGood s
  | .firmwareVerify => Sys2Proof.Machine.execFirmwareVerify s
  | .hostLinkTrain shape => Sys2Proof.Machine.execHostLinkTrain shape s
  | .configurationChoice => Sys2Proof.Machine.execConfigurationChoice s
  | .l2PoolInit => Sys2Proof.Machine.execL2PoolInit s
  | .gcoreBringup => Sys2Proof.Machine.execGcoreBringup s
  | .acoreGroupBringup g => Sys2Proof.Machine.execAcoreGroupBringup g s
  | .shelfBringup test => Sys2Proof.Machine.execShelfBringup test s
  | .hbmStackBringup k => Sys2Proof.Machine.execHbmStackBringup k s
  | .portTrain p pass => Sys2Proof.Machine.execPortTrain p pass s
  | .recoveryMailboxImage image => Sys2Proof.Machine.execRecoveryMailboxImage image s
  | .measExtend index => Sys2Proof.Machine.execMeasExtend index s
  | .attestationRequest => Sys2Proof.Machine.execAttestationRequest s
  | .attestationComplete => Sys2Proof.Machine.execAttestationComplete s
  | .retireAcoreSite site => Sys2Proof.Machine.execRetireAcoreSite site s
  | .retireGcoreSite site => Sys2Proof.Machine.execRetireGcoreSite site s
  | .retireSpare site shelf spare => Sys2Proof.Machine.execRetireSpare site shelf spare s
  | .retireChannel k => Sys2Proof.Machine.execRetireChannel k s
  | .retireLane port lane => Sys2Proof.Machine.execRetireLane port lane s
  | .flitCrcFail p => Sys2Proof.Machine.execFlitCrcFail p s
  | .portRetrain p good => Sys2Proof.Machine.execPortRetrain p good s
  | .registerWrite off v => Sys2Proof.Machine.execRegisterWrite off v s
  | .trackedMSlotOperationComplete k => Sys2Proof.Machine.execTrackedMSlotOperationComplete k s
  | .graphLoadComplete k => Sys2Proof.Machine.execGraphLoadComplete k s
  | .tlbInvalidationComplete => Sys2Proof.Machine.execTlbInvalidationComplete s
  | .csrWriteLands k => Sys2Proof.Machine.execCsrWriteLands k s
  | .barrierUpdatePerformed k => Sys2Proof.Machine.execBarrierUpdatePerformed k s
  | .catalogueRecordComplete => Sys2Proof.Machine.execCatalogueRecordComplete s
  | .measurementExtensionComplete => Sys2Proof.Machine.execMeasurementExtensionComplete s

end Sys2Proof.Machine
end

