-- ==== Sys2Proof/Machine/Issue.lean ====
section
/-! DEFINITION. The issue of a group: what holds it, the bundle it faults at, its effects in order, gangs, and
what stands before a group (R11, R72 to R75, R361, R367, R385 to R388, R393, R395, R398). -/

namespace Sys2Proof.Machine

/-! ### The place of an instruction in its group -/

/-- The state in which a group's instructions are asked. -/
def openGroup (s : State) (g : Group) : State :=
  let c := s.core
  let x := c.ctx
  let pc := (g.bundles.map Bundle.pcb).headD c.pc
  let x : Ctx :=
    { x with grp := x.grp + 1, bundle := 0, before := c.copy, graphs := s.pool.graphs, first := c.copy, pcb := pc,
             groupPc := pc, fall := g.fall, next := g.next, stall := (g.bundles.getLast?.map fun b => b.header.stall).getD 0,
             effBefore := false, earlierB := false }
  s.setCore { c with ctx := x }

/-- The state in which the instructions of bundle j are asked. -/
def atBundle (s : State) (j : Nat) (b : Bundle) : State :=
  let c := s.core
  let x := c.ctx
  s.setCore { c with ctx := { x with bundle := j, before := c.copy, graphs := s.pool.graphs, pcb := b.pcb,
                                     effBefore := j != 0 } }

/-- What an instruction does in a state. -/
inductive Did where
  | issued (s : State)
  | ended (s : State)
  | stalled (s : State) (why : Why)
  | trapped (cause : Nat) (tval : Word) (pj : Nat)
  | deferred (s : State)
  | stop (o : Host.Outcome State Fault Refusal)

def did (i : Instr) (s : State) : Did :=
  match exec i s with
  | .next t =>
    match t.core.report with
    | .issued => .issued t
    | .ended => .ended t
    | .stalled w => .stalled t w
    | .trapped c v pj => .trapped c v pj
    | .deferred .. => .deferred t
  | o => .stop o

/-! ### The faults of a bundle (R11, R98) -/

/-- A fault with its slot. -/
abbrev SlotFault := Nat × Word × Option Nat

/-- Of two shortfalls the one that the trap value reports (R98). -/
def largerShort (a b : SlotFault) : SlotFault :=
  let short (f : SlotFault) : Nat × Nat × Nat :=
    let v := f.2.1.toNat
    (bitsN v 16 16, bitsN v 60 4, bitsN v 0 12)
  let x := short a
  let y := short b
  if x.1 < y.1 then b else if y.1 < x.1 then a
  else if y.2.1 < x.2.1 || (y.2.1 == x.2.1 && decide (y.2.2 < x.2.2)) then b else a

/-- The place of a slot among those of its bundle; the bundle itself comes first. -/
def slotKey : Option Nat → Nat
  | none => 0
  | some k => k + 1

/-- Of two faults of one bundle the one that is reported: the lower code (R11), and for a latency shortfall the
larger (R98). DESIGN CHOICE (log 8): between equal codes the lower slot. -/
def firstFault (f g : SlotFault) : SlotFault :=
  if g.1 < f.1 then g else if f.1 < g.1 then f
  else if f.1 = 7 then largerShort f g
  else if slotKey g.2.2 < slotKey f.2.2 then g else f

/-- The fault that a bundle reports. -/
def bundleFault : List SlotFault → Option SlotFault
  | [] => none
  | f :: fs =>
    match bundleFault fs with
    | none => some f
    | some g => some (firstFault f g)

/-- What stands in the way of a bundle. -/
inductive Gate where
  | clear
  | fault (f : SlotFault)
  | hold (i : Instr) (why : Why)
  | stop (o : Host.Outcome State Fault Refusal)

/-- The reports of a bundle's instructions, each asked in the state in which the bundle begins. -/
def asks (s : State) (b : Bundle) : List (Instr × Did) := b.insts.map fun i => (i, did i s)

def stops (l : List (Instr × Did)) : Option (Host.Outcome State Fault Refusal) :=
  firstSome (fun q => match q.2 with
    | .stop o => some o
    | _ => none) l

def holdsOf (l : List (Instr × Did)) : List (Instr × Why) :=
  l.filterMap fun q => match q.2 with
    | .stalled _ w => some (q.1, w)
    | _ => none

def faultsIn (l : List (Instr × Did)) : List SlotFault :=
  l.filterMap fun q => match q.2 with
    | .trapped c v _ => some (c, v, (slotOf q.1).map Slot.num)
    | _ => none

/-- An instruction whose wait is for a read made at issue, which can still end in a fault: TIDLD's record, and the check
of a barrier update (R131, R154). -/
def readsLate (i : Instr) : Bool :=
  match i with
  | .tidld _ => true
  | .barv _ => true
  | .bexp _ => true
  | .binit _ => true
  | _ => false

/-- The lowest code that such a read can end in: that of metadata which cannot be read (R197). -/
def lateCode : Nat := 0x36

/-- A bundle waits on busy units first; its lowest fault comes next, unless a lower one can still come: one of 0x30 or
above while a walk is open (R57), one of 0x36 or above while a read at issue is waited for (R11); then the other
waits. -/
def gate (s : State) (b : Bundle) : Gate :=
  if b.closed then (match bundleFault b.faults with
    | some f => .fault f
    | none => .clear)
  else
    let l := asks s b
    let hs := holdsOf l
    match stops l with
    | some o => .stop o
    | none =>
      match hs.find? fun h => h.2 == .busy with
      | some h => .hold h.1 h.2
      | none =>
        let walk := hs.find? fun h => h.2 == .walk
        let late := hs.find? fun h => readsLate h.1
        match bundleFault (b.faults ++ faultsIn l), walk, late with
        | some f, some h, _ => if f.1 < 0x30 then .fault f else .hold h.1 h.2
        | some f, none, some h => if f.1 < lateCode then .fault f else .hold h.1 h.2
        | some f, none, none => .fault f
        | none, some h, _ => .hold h.1 h.2
        | none, none, _ =>
          match hs with
          | h :: _ => .hold h.1 h.2
          | [] => .clear

/-! ### The bundles in order -/

/-- What the issue of a group comes to: done; ended by an instruction itself; held, the group as it was before;
faulted at bundle j with the effects of the bundles before it; or stopped. -/
inductive Issue where
  | done (s : State)
  | ended (s : State)
  | held (i : Option Instr) (j : Nat) (why : Why)
  | fault (s : State) (j : Nat) (b : Bundle) (f : SlotFault)
  | stop (o : Host.Outcome State Fault Refusal)

/-- An instruction of the B slot: it takes its place after every other instruction of its group. -/
def isB (i : Instr) : Bool := slotOf i == some .b

/-- The generator states from which the instructions of a group draw, by slot (R216). -/
abbrev Draws := List (Nat × Sparse GenClass)

/-- The state in which an instruction of a group draws. -/
def Draws.at (d : Draws) (i : Instr) (s : State) : State :=
  match d.find? fun q => q.1 == slotNum i with
  | none => s
  | some q => s.setRegs { s.core.regs with gens := q.2 }

/-- The generator states after a group. -/
def Draws.after (d : Draws) (s : State) : State :=
  match d.find? fun q => q.1 == 8 with
  | none => s
  | some q => s.setRegs { s.core.regs with gens := q.2 }

/-- The instructions of bundles in the slots that draw, with their bundles. -/
def drawers (bs : List Bundle) : List (Nat × Bundle × Instr) :=
  bs.zipIdx.flatMap fun q => (q.1.insts.filter fun i => [2, 3, 4, 7].contains (slotNum i)).map fun i => (q.2, q.1, i)

/-- What the slots of a group draw from, where its bundles hold them in another order than VA, VB, M, Q (R216):
the states before each slot, and under number 8 the state after the last. -/
def drawsOf (s : State) (bs : List Bundle) : Draws :=
  let ds := drawers bs
  let slots := ds.map fun d => slotNum d.2.2
  if (slots.zip (slots.drop 1)).all fun p => decide (p.1 < p.2) then []
  else
    let order := [2, 3, 4, 7].filterMap fun k => ds.find? fun d => slotNum d.2.2 == k
    let r := order.foldl (fun (r : Draws × Sparse GenClass) d =>
      let t := atBundle s d.1 d.2.1
      let next := match did d.2.2 (t.setRegs { t.core.regs with gens := r.2 }) with
        | .issued u => u.core.regs.gens
        | _ => r.2
      (r.1 ++ [(slotNum d.2.2, r.2)], next)) ([], s.core.regs.gens)
    r.1 ++ [(8, r.2)]

/-- The effects of a bundle's instructions, in slot order; `start` is the state before the bundle. -/
def runInsts (d : Draws) (start : State) (j : Nat) (b : Bundle) : List Instr → State → Issue
  | [], s => .done s
  | i :: is, s =>
    match did i (d.at i s) with
    | .issued t => runInsts d start j b is t
    | .ended t => .ended t
    | .stalled _ w => .held (some i) j w
    | .trapped c v _ => .fault start j b (c, v, (slotOf i).map Slot.num)
    | .deferred _ => .held (some i) j .busy
    | .stop o => .stop o

/-- The bundles of a group from the j-th on. -/
def runBundles (d : Draws) : Nat → List Bundle → State → Issue
  | _, [], s => .done (d.after s)
  | j, b :: bs, s =>
    let t := atBundle s j b
    match gate t b with
    | .stop o => .stop o
    | .hold i w => .held (some i) j w
    | .fault f => .fault s j b f
    | .clear =>
      match runInsts d s j b (b.insts.filter fun i => !isB i) t with
      | .done u => runBundles d (j + 1) bs u
      | r => r

/-- The bundles of a group in order. Where one faults, those before it draw as a group of their own (R75, R216). -/
def runAll (bs : List Bundle) (s : State) : Issue :=
  let d := drawsOf s bs
  match runBundles d 0 bs s with
  | .fault t j b f =>
    if d.isEmpty then .fault t j b f
    else match runBundles (drawsOf s (bs.take j)) 0 (bs.take j) s with
      | .done u => .fault u j b f
      | _ => .fault t j b f
  | r => r

/-- The B-slot instruction of a group with its bundle. -/
def bSlot (g : Group) : Option (Nat × Bundle × Instr) :=
  firstSome (fun q : Bundle × Nat => (q.1.insts.find? isB).map fun i => (q.2, q.1, i)) g.bundles.zipIdx

/-- A bundle before the j-th holds a B-slot instruction (R75). -/
def bBefore (g : Group) (j : Nat) : Bool := (g.bundles.take j).any fun b => b.insts.any isB

/-- The program counter stands after the group, where branches leave it or change it. -/
def fallThrough (s : State) (g : Group) : State := s.setCore { s.core with pc := g.fall }

/-- The bundles, then the B slot, then the end of the group. -/
def runGroup (g : Group) (s : State) : Issue :=
  match runAll g.bundles s with
  | .done t =>
    let t := fallThrough t g
    match bSlot g with
    | none => .done (t.setCore t.core.endGroup)
    | some (j, b, i) =>
      match runInsts [] s j b [i] (atBundle t j b) with
      | .done u => .done (u.setCore u.core.endGroup)
      | r => r
  | r => r

/-! ### Energy (R283, R414) -/

/-- What an instruction would be charged, in pJ: what it takes from an allowance that pays for anything; of one that
faults, its cost (R414). -/
def chargeOf (s : State) (i : Instr) : Nat :=
  let full := 2 ^ 32
  match did i (s.setCore { s.core with kilnPj := 0, kilnUnits := full }) with
  | .issued t => (full - t.core.kilnUnits) * 1000 + t.core.kilnPj
  | .trapped _ _ pj => pj
  | _ => 0

/-- What the M and Q slots of a group would be charged together. -/
def groupCharge (s : State) (g : Group) : Nat :=
  (g.bundles.zipIdx.map fun q =>
    ((q.1.insts.filter fun i => [4, 7].contains (slotNum i)).map (chargeOf (atBundle s q.2 q.1))).foldl (· + ·) 0).foldl
      (· + ·) 0

/-! ### Faults (R75, R386) -/

/-- The trap of a bundle: the bundles before it have taken effect in its cycle, unless one of them holds a
B-slot instruction; `s0` is the state before the group and `s` the state before the bundle. -/
def groupTrap (g : Group) (s0 s : State) (j : Nat) (b : Bundle) (f : SlotFault) : State :=
  let undo := bBefore g j
  let kept := j != 0 && !undo
  let base : State :=
    if !kept then s0
    else match s.core.mode with
      | .node => s.setCore s.core.finishGroup
      | .sys =>
        let c := s.core
        let x := c.ctx
        s.setCore { c with ctx := { x with stall := 0 } }.endGroup
  trapOrHalt (base.trapFinding f.1 f.2.1)
    { cause := f.1, tval := f.2.1, slot := if slotless f.1 then none else f.2.2, defer := false,
      tpc := if undo then s0.core.ctx.groupPc else b.pcb, topc := b.pcb,
      resumeXt := if kept then base.core.nodeXt + 1 else base.core.nodeXt }

/-! ### Gangs (R361) -/

/-- The other members of a gang that runs on the current core's node. -/
def gangOthers (s : State) : List Nat :=
  match s.core.binding with
  | none => []
  | some b =>
    if !b.gang then []
    else ((s.pool.node b.nodeSlot).live.map Prod.snd).filter fun i => i != s.core.region.toNat

/-- The cycle of its gang in which a core acts next: the lead by its clock, a member when its copy of the lead's
oldest group is due. -/
def Core.nextDue (c : Core) : Option Nat :=
  if c.follows then c.gangPath.head?.map GangStep.due else c.binding.map Binding.clock

/-- A core that keeps the cycles of its gang standing as long as it is not done with its own: not one at a BARG or
an EXIT, which wait for the others, nor one that leaves its position (log 47). -/
def Core.holdsGang (c : Core) : Bool :=
  !c.leaving && match c.wait with
    | .barg _ => false
    | .exit => false
    | _ => true

/-- Another member has still to act in an earlier cycle of the gang: a stall of one stops all of them for as long,
and the skews stay exact. -/
def gangAhead (s : State) : Bool :=
  match s.core.nextDue with
  | none => false
  | some d => (gangOthers s).any fun i => (s.coreAt i).any fun m =>
      m.holdsGang && m.nextDue.any fun e => decide (e < d)

/-- Another member of the gang is in a trap, or has not begun. -/
def gangStops (s : State) : Bool :=
  (gangOthers s).any fun i => (s.coreAt i).any fun m => m.mode == .sys || m.startPending

/-- A gang issues nothing while another of its members is in a trap, or has not begun; its members stop where they
are, a member also where the lead has not gone, and each waits for those that are to act before it. -/
def gangHeld (s : State) : Bool :=
  let c := s.core
  c.mode == .node && (gangStops s || (c.follows && c.gangPath.isEmpty) || gangAhead s)

/-- The members get a group of the lead: member v's copy is due v × SKEW cycles after the lead's. `s` is the state
in which the lead issues it. A group at whose BARG the lead waits again is theirs already. -/
def leadPath (s : State) (g : Group) (again : Bool) (t : State) : State :=
  match s.core.binding with
  | none => t
  | some b =>
    let skew := dSkew (s.pool.node b.nodeSlot).desc
    (gangOthers s).foldl (fun t i =>
      match t.coreAt i with
      | none => t
      | some c =>
        let e := g.toStep (b.clock + (c.binding.map Binding.v).getD 0 * skew)
        let there := again && c.gangPath.getLast?.any fun x =>
          x.bundles.head?.map Prod.fst == e.bundles.head?.map Prod.fst
        if c.follows && !there then t.setCoreAt i { c with gangPath := c.gangPath ++ [e] } else t) t

/-- The lead's clock goes on past a group of its own. -/
def leadClock (n : Nat) (t : State) : State :=
  t.setCore { t.core with binding := t.core.binding.map fun b => if b.gang then { b with clock := b.clock + n } else b }

/-- The group's stall count. -/
def Group.stall (g : Group) : Nat := (g.bundles.getLast?.map fun b => b.header.stall).getD 0

/-- The gang's bookkeeping after n bundles of a group took effect on the current core: in node mode the lead shows
the way, and a member has gone it. `all` says that the group is over, and `s` is the state in which it issued. -/
def gangAfter (s : State) (g : Group) (n : Nat) (all : Bool) (t : State) : State :=
  let before := s.core
  if before.mode != .node || !before.binding.any Binding.gang then t
  else if before.follows then
    match before.gangPath with
    | [] => t
    | e :: es =>
      if all then t.setCore { t.core with gangPath := es }
      else if n = 0 then t
      else t.setCore { t.core with gangPath := { e with bundles := e.bundles.drop n } :: es }
  else if n = 0 then t
  else
    let passed := match before.wait with
      | .passed (some _) => true
      | _ => false
    leadClock (if all then g.stall + 1 else 1) (if passed then t else leadPath s (if all then g else g.cut n) false t)

/-! ### A group -/

/-- What a turn of a core comes to: it moved; it is held, with what the hold starts; it has nothing to issue; or
the machine stops. -/
inductive Turn where
  | moved (s : State)
  | held (s : State) (why : Why)
  | none
  | stop (o : Host.Outcome State Fault Refusal)

/-- The delivery of an earlier fault by an instruction of the group (R387): looked for in every bundle, before
any other fault of the group. -/
def deferredIn (s : State) (g : Group) : Option State :=
  firstSome (fun q : Bundle × Nat =>
    if q.1.closed then none
    else firstSome (fun i => match did i (atBundle s q.2 q.1) with
      | .deferred t => some t
      | _ => none) q.1.insts) g.bundles.zipIdx

/-- The delivery of the fault of a due result, which every group takes (R222, R308). -/
def deliverDue (s : State) : Option State :=
  (dueFault s.core).map fun r =>
    let s' := s.setCore (s.core.dropResult r)
    (trapDeferred s' r.slot r.deliver.1 r.deliver.2 r.topc).report
      (.deferred r.deliver.1 r.deliver.2 r.topc r.slot)

/-- A single step follows a group that was completed in node mode (R395). -/
def stepAfter (before : Core) (s : State) : State :=
  if before.mode == .node && s.core.csr.dbgctl.getLsbD 0 then
    match execSingleStep s with
    | .next t => t
    | _ => s
  else s

/-- What a held group starts. A lead that begins to wait at a BARG gives its group to the members, whose own BARGs
it waits for (R361, R364). -/
def heldTurn (s0 : State) (g : Group) (i : Option Instr) (j : Nat) (why : Why) : Turn :=
  if why = .energy then .held (s0.report (.stalled .energy)) .energy
  else match i, g.bundles[j]? with
    | some i, some b =>
      (match did i (atBundle s0 j b) with
       | .stalled t w =>
         (match t.core.wait, s0.core.wait with
          | .barg _, .none =>
            .held (if s0.core.mode = .node && !s0.core.follows then leadPath s0 g true t else t) w
          | _, _ => .held t w)
       | _ => .held (s0.report (.stalled why)) why)
    | _, _ => .held (s0.report (.stalled why)) why

/-- The issue of a group by the current core. The results that are due have landed in it (R95). A trap withdraws the
count of a BARG that the group had waited at. -/
def issueGroup (s : State) (g : Group) : Turn :=
  let s0 := openGroup s g
  match deliverDue (dropWait s0) with
  | some t => .moved t
  | none =>
    match deferredIn (dropWait s0) g with
    | some t => .moved t
    | none =>
      let s1 := s0.setCore s0.core.view
      match runGroup g s1 with
      | .stop o => .stop o
      | .held i j w => heldTurn s0 g i j w
      | r =>
        if !kilnPays s1.core (groupCharge s1 g) then heldTurn s0 g none 0 .energy
        else match r with
          | .stop o => .stop o
          | .held i j w => heldTurn s0 g i j w
          | .fault t j b f =>
            let n := if bBefore g j then 0 else j
            .moved (gangAfter s g n false (groupTrap g (dropWait s0) (dropWait t) j b f))
          | .ended t => .moved (gangAfter s g g.bundles.length true t)
          | .done t => .moved (stepAfter s.core (gangAfter s g g.bundles.length true t))

/-- A fetch fault is reported against the bundle at its address, with no slot (R45, R390). -/
def fetchTrap (s : State) (pc : Word) (cause : Nat) (tval : Word) : State :=
  trapOrHalt (dropWait s) { cause := cause, tval := tval, slot := none, defer := false, tpc := pc, topc := pc,
                            resumeXt := s.core.nodeXt }

/-- Fetch and issue: a member of a gang executes the lead's groups. -/
def fetchIssue (s : State) : Turn :=
  match s.core.mode, s.core.gangPath with
  | .node, e :: _ => issueGroup s (e.group s.core.kind)
  | _, _ =>
    match fetchGroup s s.core.pc with
    | .wait t => .held t .walk
    | .fault t pc c v =>
      (match deliverDue (openGroup t ⟨[], pc, pc⟩) with
       | some u => .moved u
       | none => .moved (fetchTrap t pc c v))
    | .ok t g => issueGroup t g

/-- Something waits for the end of a hold: the hold goes on, or the group boundary is there (R283, R367, R400). -/
def holdOver (s : State) : Turn :=
  if !s.core.shelf.repairRegions.isEmpty then .none
  else match fetchIssue s with
    | .held t w => if t.core.inHold then .held t w else .moved (s.report .issued)
    | _ => .moved (s.report .issued)

/-- A wait that holds every later group, or stalls the one that is next. -/
def BWait.blocks : BWait → Bool
  | .none => false
  | .passed _ => false
  | .found _ => false
  | _ => true

/-- A turn of the current core: what stands before a group, then the group. DESIGN CHOICE (log 93): an expiry of the
watchdog is raised before a deferred fault that the same group would deliver. -/
def coreTurn (s : State) : Turn :=
  let c := s.core
  let leaves := c.mode == .node && mustLeave s c && !c.follows
  let expired := c.mode == .node && c.binding.any fun b => b.expired
  if c.run != .running || c.leaving then .none
  else if c.dbg.hreq then
    if c.inHold then holdOver s
    else (match execDebugHalt s with
      | .next t => .moved t
      | _ => .none)
  else if c.wait.blocks then .none
  else if c.stall != 0 then (if leaves then .none else .moved (s.setCore c.stallCycle))
  else if expired || leaves then
    if c.inHold then holdOver s
    else if expired && !gangStops s then .moved (expiryTrap s)
    else .none
  else if !c.shelf.repairRegions.isEmpty || gangHeld s then .none
  else fetchIssue s

end Sys2Proof.Machine
end

