-- ==== Sys2Proof/Machine/Schedule.lean ====
section
/-! DEFINITION. What happens when: time, the events that can end what is in flight, and the order in which the
cores and the chip have their turns (log 4; R12, R94, R365, R367, R397, R408, R414, R417). -/

namespace Sys2Proof.Machine

/-! ### Time (R367, R414) -/

/-- A refill is due at a core cycle. -/
def refillDue (p : Platform) (cycle : Nat) : Bool :=
  match p.upAt with
  | none => false
  | some t => (cycle - t) % 4096 == 0

def afterOk (s : State) (o : Host.Outcome State Fault Refusal) : State :=
  match o with
  | .next t => t
  | _ => s

/-- A running core is charged a cycle of its watchdog, whatever it does in it; with the last one it expires. -/
def chargeWdog (s : State) : State :=
  if s.core.run != .running || s.core.binding.isNone then s
  else afterOk s (execWatchdogExpiry (s.setCore (s.core.charge 1)))

/-- A vertical bus with anything in flight is not idle in this cycle (R285). -/
def markBus (s : State) : State :=
  if s.core.kind == .a && !busQuiet s then s.busUse s.core.region.toNat else s

/-- What a cycle does to every core. -/
def eachCore (f : State → State) (s : State) : State :=
  (s.others.map Prod.fst).foldl (fun s i => (f (s.focus i)).focus s.core.region.toNat) (f s)

/-- One core cycle passes. -/
def tick (s : State) : State :=
  let s := { s with cycle := s.cycle + 1 }
  let s := if refillDue s.plat s.cycle then afterOk s (execKilnRefill s) else s
  eachCore (fun s => markBus (chargeWdog s)) s

/-! ### Events of a core -/

/-- A step of the device, asked in a state. -/
abbrev Event := State → Host.Outcome State Fault Refusal

/-- The event that completes the k-th tracked operation. -/
def opEvent (k : Nat) (t : Tracked) : Event :=
  match t.op with
  | .load .. => execTrackedAccessComplete k
  | .store .. => execTrackedAccessComplete k
  | .atom .. => execTrackedAccessComplete k
  | .span .. => if t.slot = 4 then execTrackedMSlotOperationComplete k else execTrackedAccessComplete k
  | .csrWrite .. => execCsrWriteLands k
  | .engWrite .. => execCsrWriteLands k
  | .tidFill n .. => execTidldFill (BitVec.ofNat 6 n)
  | .barv .. => execBarrierUpdatePerformed k
  | .bexp .. => execBarrierUpdatePerformed k
  | .binit .. => execBarrierUpdatePerformed k
  | .reload .. => execMloadComplete k
  | .dot .. => execMdotComplete k
  | .coll .. => execMcollComplete k
  | .outl .. => execOutlierListComplete k
  | .graphLoad .. => execGraphLoadComplete k
  | .flip .. => execTrackedAccessComplete k
  | .trig .. => execTrackedAccessComplete k
  | _ => execTrackedMSlotOperationComplete k

/-- The event that ends the current core's wait; EXIT's wait has none. -/
def waitEvent (c : Core) : List Event :=
  match c.wait with
  | .none => []
  | .waita .. => [execBarrierWaitEnd]
  | .fence .. => [execFenceComplete]
  | .fenced .. => [execFenceComplete]
  | .barg _ => [execBargEpisodeComplete]
  | .waitt _ => [execWaittComplete]
  | .passed _ => []
  | .found _ => []
  | .exit => []

/-- The events of a channel. -/
def chanEvents (ch : Chan) : List Event := [execRingFillComplete ch, execChannelOpComplete ch, execCopySector ch]

/-- The events of the current core: its tracked operations oldest first, the stores that it publishes, its channels,
its wait, the end of its position, its wakes, refetches and the retest of its bus. -/
def coreEvents (s : State) : List Event :=
  let c := s.core
  (c.tracked.zipIdx.map fun q => opEvent q.2 q.1) ++ [execTrackedAccessComplete c.tracked.length] ++
  chanEvents .a ++ chanEvents .b ++ waitEvent c ++ [execPositionSave, execParityRefetchComplete, execBusRetest] ++
  (List.range 8).map (fun k => execSegmentWakeComplete (BitVec.ofNat 3 k)) ++
  (List.range 5).map fun k => execClusterWakeComplete (BitVec.ofNat 3 k)

/-! ### Events of the chip -/

/-- The host command in progress. -/
def hcmdEvent (p : Pool) : List Event :=
  match p.hcmd with
  | .none => []
  | .load pa => [execHcmdLoad pa]
  | .launch h b => [execHcmdLaunch h b]
  | .free h => [execHcmdFree h]

/-- The steps of bring-up that no agent outside the chip decides, in the order of the schedule; a shelf whose test
finds failing positions is an event of the agenda. -/
def bringUpEvents (s : State) : List Event :=
  (if s.plat.good then [] else [execPowerGood]) ++
  [execFirmwareVerify, execConfigurationChoice, execL2PoolInit, execGcoreBringup] ++
  (List.range 17).map (fun g => execAcoreGroupBringup (BitVec.ofNat 5 g)) ++
  (List.range 8).map (fun k => execShelfBringup ⟨BitVec.ofNat 3 k, []⟩) ++
  (List.range 16).map fun k => execHbmStackBringup (BitVec.ofNat 4 k)

/-- The events of the chip. -/
def chipEvents (s : State) : List Event :=
  (List.range s.xlat.walks.length).map (fun k => execWalkComplete k) ++
  s.coh.waiting.map (fun w => execWaitingRequestResolve w.line) ++
  [execTlbInvalidationComplete, execMeasurementExtensionComplete, execAttestationComplete,
    execCatalogueRecordComplete, fun s => .next (settle s), fun s => .next (heldWrite s)] ++
  s.pool.staged.map (fun e => execCollectiveStart (BitVec.ofNat 8 e.1)) ++
  hcmdEvent s.pool ++ [execSequencerLaunch] ++
  s.queues.map (fun q => execQueuePacketServe (BitVec.ofNat 6 q.1)) ++ bringUpEvents s

/-- What the pool does of itself, which no core's issue keeps waiting: slots that are free, aging, then its
decisions. -/
def poolEvents (s : State) : List Event :=
  (fun s => .next (s.setPool s.pool.sweep)) ::
  ((s.pool.nodes.filter fun q => q.2.st == .ready && decide (4096 ≤ q.2.sinceReady)).map fun q =>
    execPriorityAging (BitVec.ofNat 12 q.1)) ++
  [execNodeDispatch .a, execNodeDispatch .g, execPositionBind .a, execPositionBind .g]

/-- The state after the first event of a list that changes anything. -/
def firstEvent (s : State) : List Event → Option State
  | [] => none
  | e :: es =>
    match e s with
    | .next t => if t = s then firstEvent s es else some t
    | _ => firstEvent s es

/-! ### What no event of the table names -/

/-- EXIT's wait: a failure recorded meanwhile, or the fault of a result of EXIT's own group, is delivered; else with
everything done the virtual core ends (R197, R222, R365). -/
def exitTurn (s : State) : Option State :=
  let c := s.core
  if c.wait != .exit || c.run != .running then none
  else
    let here : State := s.setCore { c with wait := .none, ctx := { c.ctx with groupPc := c.waitPcb } }
    match c.failures, deliverDue here with
    | f :: _, _ =>
      some (trapDeferred (here.setCore { here.core with failures := [] }) f.slot f.cause f.tval f.topc)
    | [], some t => some t
    | [], none =>
      if c.exited then some (exitDone s)
      else
        let t := if c.tracked.isEmpty && c.uo.isEmpty then endRing (endRing s .a) .b else s
        if t = s then none else some t

/-- What a machine check leaves to be done (R408). -/
def stoppedTurn (s : State) : Option State :=
  let c := s.core
  if c.run == .stopped && (c.dbg.mcNew || c.binding.isSome || !c.copy.idle) then
    let t := stopCleanup s
    if t = s then none else some t
  else none

/-- The wait of a FENCE that has issued completes its group where it ends in node mode: a single step follows it
(R395). -/
def stepAfterWait (before : Core) (s : State) : State :=
  if before.wait.issued && s.core.wait == .none && !s.core.leaving && s.core.mode == .node then stepAfter before s else s

/-! ### Turns -/

/-- The report and the place in the group are no progress. -/
def sameBut (s t : State) : Bool :=
  decide (t.setCore { t.core with report := s.core.report, ctx := s.core.ctx } = s)

/-- What the current core comes to when it cannot issue. -/
def eventTurn (s : State) : Option State :=
  (stoppedTurn s).orElse fun _ => (exitTurn s).orElse fun _ =>
    (firstEvent s (coreEvents s)).map (stepAfterWait s.core)

/-- The events that are not kept waiting by the core's own issue: the fills of TID slots that are free. -/
def promptEvents (c : Core) : List Event :=
  c.tracked.filterMap fun t => match t.op with
    | .tidFill n .. => some (execTidldFill (BitVec.ofNat 6 n))
    | _ => none

/-- A turn of the current core: it issues a group, or something of it comes to its end. -/
def ownTurn (s : State) : Except (Host.Outcome State Fault Refusal) (Option State) :=
  match firstEvent s (promptEvents s.core) with
  | some t => .ok (some t)
  | none =>
    match coreTurn s with
    | .stop o => .error o
    | .moved t => .ok (some t)
    | .none => .ok (eventTurn s)
    | .held t why =>
      -- a hold that begins is known from here on; an energy hold is counted (R283, R416)
      if t.core.report = s.core.report then (if sameBut s t then .ok (eventTurn s) else .ok (some t))
      else .ok (some (if why = .energy then countHold t else t))

/-- The cores that can have a turn: those that run or have something left, from a region on. -/
def turnOrder (s : State) : List Nat :=
  let own := s.core.region.toNat
  let live (c : Core) : Bool := c.run != .idle || c.binding.isSome || !c.tracked.isEmpty || !c.uo.isEmpty || !c.copy.idle
  let is := (s.others.filter fun q => live q.2).map Prod.fst
  own :: (is.filter fun i => decide (own < i)) ++ is.filter fun i => decide (i < own)

/-- The next core that runs has the next turn. -/
def passOn (s : State) : State :=
  let own := s.core.region.toNat
  let is := (s.others.filter fun q => q.2.run == .running).map Prod.fst
  match (is.filter fun i => decide (own < i)) ++ is with
  | i :: _ => s.focus i
  | [] => s

/-- The first core of a list whose turn changes anything. -/
def firstTurn (s : State) : List Nat → Except (Host.Outcome State Fault Refusal) (Option State)
  | [] => .ok none
  | i :: is =>
    match ownTurn (s.focus i) with
    | .error o => .error o
    | .ok (some t) => .ok (some t)
    | .ok none => firstTurn s is

/-- The chip and what is in flight have their turn before the core in one cycle of eight, so that a core that
never waits holds nothing up. -/
def chipFirst (s : State) : Bool := s.cycle % 8 == 0

/-- A list begun at another place. -/
def rotated (l : List Nat) (k : Nat) : List Nat := l.drop (k % l.length) ++ l.take (k % l.length)

/-- What is in flight on the first core of a list that has anything to end. -/
def firstEnd (s : State) : List Nat → Option State
  | [] => none
  | i :: is => (eventTurn (s.focus i)).orElse fun _ => firstEnd s is

/-- The events of the chip and of every core, without an issue; another core comes first each time. -/
def background (s : State) : Option State :=
  (firstEvent s (chipEvents s)).orElse fun _ => firstEnd s (rotated (turnOrder s) (s.cycle / 8))

/-- Where nothing can happen, every access that waited for a lost line has heard of it: one that comes later asks
anew (R31). -/
def hearLost (s : State) : State := if s.coh.failed.isEmpty then s else s.setCoh { s.coh with failed := [] }

/-- A cycle in which a core issues, or something in flight comes to its end, or which only passes. -/
def turn (s : State) : Host.Outcome State Fault Refusal :=
  match (firstEvent s (poolEvents s)).orElse fun _ => if chipFirst s then background s else none with
  | some t => .next (passOn t)
  | none =>
    match firstTurn s (turnOrder s) with
    | .error o => o
    | .ok (some t) => .next (passOn t)
    | .ok none =>
      match firstEvent s (chipEvents s) with
      | some t => .next t
      | none => .next (hearLost s)

/-- A step of the device, as opposed to an encoded instruction. -/
def isEvent (i : Instr) : Bool :=
  (slotOf i).isNone && match i with
    | .emptyBundle .. => false
    | _ => true

end Sys2Proof.Machine
end

