-- ==== Sys2Proof/Machine/Step.lean ====
section
/-! DEFINITION. One step of the machine: the first event of the agenda, or a core cycle (log 4). -/

namespace Sys2Proof.Machine

/-- One step. An entry of the agenda that is no step of the device is dropped. -/
def step (s : State) : Host.Outcome State Fault Refusal :=
  match s.agenda with
  | e :: es => if isEvent e then exec e { s with agenda := es } else .next { s with agenda := es }
  | [] => turn (tick s)

/-- The machine with one instruction placed where the next step fetches (log 2). -/
def State.withFetchWord (s : State) (nbits w : Nat) : State :=
  { s with agenda := [], core := placeBundle s.core (tableBundle nbits w) }

end Sys2Proof.Machine
end

