-- ==== Sys2Proof/WellFormed.lean ====
section
/-! DEFINITION. Well-formed instructions: those that an assigned encoding stands for (R87). -/

namespace Sys2Proof

/-- An encoded instruction is well-formed when its TYPE, FN, COND and LEN values form a combination its
entry lists and every field that must be zero is zero (R87). The header-only bundle always is. The steps
of the device are not encodings; their arguments are data, and every value is a legal request. -/
def wellFormed (i : Instr) : Bool := (fieldFault i).isNone

/-- An instruction that a slot word can stand for. -/
def isEncoded (i : Instr) : Bool := (slotOf i).isSome

end Sys2Proof
end

