-- ==== Sys2Proof/Safety.lean ====
section
/-! DEFINITION. What counts as a sound state, and the conditions under which an instruction's own effect takes
place, in the terms that claims use. -/

namespace Sys2Proof.Machine

/-- The invariant that every step keeps: physical memory has its canonical form. -/
def State.Inv (s : State) : Prop := Memory.wf s.mem = true

/-- Nothing of an earlier group stands in the way of the group that issues: no earlier operation is still
tracked (R95), no fault waits to be delivered (R197, R222, R308), no register fails its check (R409), and the checking
scoreboard is off or has nothing to compare with (R98). -/
def clear (s : State) : Bool :=
  (dueFault s.core).isNone && s.core.failures.isEmpty && s.core.inner.isEmpty &&
  (s.core.tracked.all fun t => t.grp == s.core.ctx.grp) &&
  (!s.core.csr.cctl.getLsbD 0 ||
    s.core.inflight.all fun r => r.grp == s.core.ctx.grp || decide (r.land ≤ s.core.xt))

/-- Every scalar span of a list lies in the file, after the shadow offset of a D form (R78, R175). -/
def scalarOk (s : State) (d : Bool) (l : List SSpan) : Bool := l.all fun sp => !spanBad s.view d sp

/-- The state after an instruction of a slot that puts exposed results in flight, to land `lat` exposed cycles
from now (R95, R97), and does nothing else. -/
def posted (s : State) (sl : Slot) (lat : Nat) (vals : List UVal) : State :=
  (s.post sl lat vals).report .issued

/-- The state after an S-slot instruction whose result is the low bits of a value in a scalar span (R158). -/
def scalarResult (s : State) (d : Bool) (dst : SSpan) (lat v : Nat) : State :=
  posted s .s lat [.slices (sop s.view.csr d dst).start dst.w v]

/-- Every check of an access holds at issue, no page has still to be walked and no segment to wake (R57, R194,
R284). -/
def accessOk (s : State) (k : AccKind) (a : Word) (n : Nat) : Bool :=
  (access s k a n).faults.isEmpty && !(access s k a n).walks && (access s k a n).wait.isNone

/-- The words of a local access, or of elements of the scratchpad, that can be corrected are, and every finding is
logged (R409, R411). -/
def checkedPad (s : State) (l : List (Word × Nat)) : State :=
  eccChecks s s.core.region.toNat (padRanges l)

/-- The same for n elements of an accumulator tile from element e on. -/
def checkedAcc (s : State) (t e n : Nat) : State :=
  eccChecks s s.core.region.toNat (accRanges s.core.mat t e n)

/-- Every one of those elements can be read. -/
def accSound (s : State) (t e n : Nat) : Bool :=
  (accRanges s.core.mat t e n).all fun r => (eccBad s.core r.1 r.2).isNone

/-- A read that meets a word which cannot be corrected: it has no effect, and 0x70 with the address is delivered
when its result would have landed (R387, R406, R409). -/
def spoiled (s : State) (sl : Slot) (lat : Nat) (a : Word) : State :=
  (s.post sl lat [] 0 (some (0x70, a))).report .issued

/-- The core with nothing tracked of earlier groups has no store left to publish either: a release need not wait
(R125, R131, R336). -/
def published (s : State) : Bool := s.core.uo.isEmpty

/-- No access of the group's own earlier bundles is tracked. -/
def noOwnAccess (s : State) : Bool := s.core.tracked.all fun q => !q.op.accesses

/-- The state in which EXIT ends the virtual core: its group has ended, its stall count has passed, and every result
has landed (R365). -/
def exitState (s : State) : State :=
  (s.setCore s.core.endGroup.expire.landAll).publish

/-- The state after a B-slot instruction that has issued and leaves the program counter at an address. -/
def goesTo (s : State) (p : Word) : State := (s.setCore { s.core with pc := p }).report .issued

/-- The state after a B-slot wait has issued: it holds every later group. -/
def waitsFor (s : State) (w : BWait) : State :=
  (s.setCore { s.core with wait := w, waitPcb := s.core.ctx.pcb }).report .issued

/-- The operands of a vector-slot instruction are in order: every span lies in the file and on one side of the
rotating region, every cluster met is awake, and the destinations lie in clusters of the owner (R78, R167,
R172, R173). -/
def operandsOk (s : State) (owner : Nat) (srcs dsts : List VOp) : Bool :=
  let v := s.view
  (srcs ++ dsts).all (fun o => !o.bad) &&
  ((srcs ++ dsts).flatMap (VOp.phys v.csr)).all (fun p => clusterAwake v.regs v.mode v.xt (clusterOf p)) &&
  (dsts.flatMap (VOp.phys v.csr)).all fun p => (lget 0 v.regs.owners (clusterOf p)).toNat == owner

/-- The same for a slot VA or VB. -/
def vectorOk (s : State) (sl : VSlot) (srcs dsts : List VOp) : Bool := operandsOk s (slOwner sl) srcs dsts

/-- A floating-point side is in register view, or in lane view as f32 spans of width 8 (R162). -/
def floatOk (ty : ETy) (ops : List VOp) : Bool :=
  ops.all VOp.reg || (ty == .f32 && ops.all fun o => o.w == 8)

/-- The state after a vector-slot instruction: its random words are drawn at issue, and one exposed result is
in flight (R216, R236). -/
def vectorResult (s : State) (sl : VSlot) (lat : Nat) (dr : Draw) (vals : List UVal)
    (flags : BitVec 5) : State :=
  ((dr.apply s).post sl.slot lat vals flags).report .issued

/-- No random word drawn. -/
def noDraw : Draw := ⟨[], none⟩

/-- The state once the core has paid for an instruction (R290). -/
def charged (s : State) (pj : Nat) : State := s.setCore (kilnCharge s.core pj)

/-- Macros that an instruction can reach through a view: every one stands in that view and its segment is awake
(R267, R279, R284). -/
def macrosReady (s : State) (compute : Bool) (macs : List Nat) : Bool :=
  macs.all fun m => s.core.mat.modes.getLsbD m == compute && segNow s.core.shelf s.cycle (m / 32) == .awake

/-- The state after an M-slot instruction that pays and starts a tracked operation. -/
def startsM (s : State) (pj : Nat) (op : TOp) : State := ((charged s pj).track .m op).report .issued

/-- The state after a copy-slot instruction that starts a tracked operation. -/
def startsC (s : State) (ch : Chan) (op : TOp) : State :=
  (s.track (if ch = .a then .ca else .cb) op).report .issued

/-- A staging finds its channel ready: no error stands, nothing is pending, every check of the kind and of the
barrier holds, and nothing has to be waited for (R116, R119, R120, R124). -/
def stagingOk (s : State) (ch : Chan) (ebar : Word) (st : Stage) : Bool :=
  st.faults.isEmpty && st.stall.isNone && !(s.core.copy.chan ch).err && (s.core.copy.chan ch).pending.isNone &&
  (ebar == 0 || accessOk s .barrier ebar 16)

/-- A barrier operand that an update can be made of now: the pointer passes, the barrier can be read, and the
update's own checks hold (R124, R131, R132). -/
def barrierOk (s : State) (p : Word) (f : BarFn) : Bool :=
  accessOk s .barrier p 16 &&
  match barRead (s.core.selfAgent 0) s (barPointer s.core p).toNat with
  | .done _ b => (f b).isOk
  | _ => false

/-- The L2 holds every line of a list of runs, for reading or for writing, and no request for one of them has
failed (R26, R31). -/
def linesHeld (s : State) (excl : Bool) (runs : List (Nat × Nat)) : Bool :=
  (linesOf runs).all fun l => heldFor (l2Get s.coh l).st excl && s.coh.failed.all fun f => f.1 != l

/-- No two runs of a list share a byte. -/
def runsApart : List (Nat × Nat) → Bool
  | [] => true
  | r :: rs => (rs.all fun q => decide (r.1 + r.2 ≤ q.1) || decide (q.1 + q.2 ≤ r.1)) && runsApart rs

/-- A byte lies outside every run of a list. -/
def outside (runs : List (Nat × Nat)) (pa : Nat) : Bool :=
  runs.all fun r => decide (pa < r.1) || decide (r.1 + r.2 ≤ pa)

/-- A line of this chip's memory whose metadata says that nobody holds it: it can be resolved now, no request waits
for it, no error stands, and no store of the device itself waits (R20, R24, R32, R419). -/
def unheld (s : State) (line : Nat) : Bool :=
  homeLine s line && lineFree s line && (s.coh.waiting.all fun w => w.line != line) && s.coh.metaErr.isEmpty &&
  (s.coh.dataErr.all fun q => q.1 / 4 != line) && s.coh.puts.isEmpty &&
  !s.coh.migEn && (Meta.ofWord (spGet 0 s.coh.meta_ line)).st == 0 && spWf 0 s.coh.meta_

/-- A tracked operation of the M slot that is next on its half or buffer, with no refetch in its way (R268, R283,
R297). -/
def columnNext (s : State) (k : Nat) (t : Tracked) : Prop :=
  s.core.tracked[k]? = some t ∧ t.slot = 4 ∧ columnFree s.core k t.op = true ∧ underRefetch s.core t.op = false

/-! ### Frames -/

/-- A branch, call, return or loop close of the B slot (R203 to R205). -/
def isBranch : Instr → Bool
  | .br _ | .brz _ | .brnz _ | .jmp _ | .jmpi _ | .call _ | .calli _ | .ret _ | .cloop _ => true
  | _ => false

/-- The instructions that write no register file but by a result in flight or a tracked operation: those of the
S, vector, M and Q slots, and the branches. -/
def leavesFiles (i : Instr) : Bool :=
  match slotOf i with
  | some .b => isBranch i
  | some .ca => false
  | some .cb => false
  | some _ => true
  | none => false

/-- Those of them whose whole effect is results in flight, and for a branch the program counter: no memory
access but a vector load, no write of a CSR or an engine register, nothing of the M slot. -/
def postsOnly (i : Instr) : Bool :=
  leavesFiles i && slotOf i != some .m &&
  match i with
  | .ld _ | .ldg _ | .st _ | .stg _ | .amo _ | .cas _ | .csrw _ | .csrs _ | .csrc _ | .engw _ | .vst _
  | .vstx _ => false
  | _ => true

/-- The rounding mode of an instruction, with the generator class that SR draws from (R79, R179, R216, R242, R256).
The special functions of f32, and MACWR where it converts nothing, do not round. -/
def drawMode (i : Instr) (s : State) : RMode :=
  let c := s.view.csr
  let exact : RMode := ⟨.rne, none⟩
  let special (o : FVU) : RMode := if o.ty = .f32 then exact else fieldMode c .computes o.rm o.cls
  match i with
  | .vcvt o | .vnarrow o | .vmxq o | .vmxd o => fieldMode c .converts o.rm o.cls
  | .mchain o | .macrd o => fieldMode c .converts o.rm o.cls
  | .macwr o =>
    if o.ty = .i32 ∧ s.core.mat.anchor o.atile.toNat = none then fieldMode c .converts o.rm o.cls else exact
  | .vexp2 o | .vlog2 o | .vrcp o | .vrsqrt o | .vsqrt o | .vtanh o | .vsigm o | .vsinp o | .vcosp o => special o
  | .vfadd _ | .vfsub _ | .vfmul _ | .vfma _ | .vfms _ | .vfmin _ | .vfmax _ | .vfabs _ | .vfneg _ =>
    dynMode c .computes
  | _ => exact

/-! ### Turns -/

/-- The current core fetches and issues when it has its turn: it runs, and nothing stands before its next group
(R69, R283, R361, R367, R394, R398 to R400). -/
def fetches (s : State) : Bool :=
  let c := s.core
  c.run == .running && !c.leaving && !c.dbg.hreq && !c.wait.blocks && c.stall == 0 &&
  !(c.mode == .node && (c.binding.any Binding.expired || (mustLeave s c && !c.follows) || !c.gangPath.isEmpty)) &&
  c.shelf.repairRegions.isEmpty && !gangHeld s

/-- Neither the pool nor a prompt event of the core has anything to do in this cycle, and the core comes before
the chip. -/
def coresTurn (s : State) : Bool :=
  (firstEvent s (poolEvents s)).isNone && !chipFirst s && (firstEvent s (promptEvents s.core)).isNone

/-- A bundle of one instruction that earns no fault by itself. -/
def Bundle.holds (b : Bundle) (i : Instr) : Prop := b.insts = [i] ∧ b.faults = [] ∧ b.closed = false

end Sys2Proof.Machine
end

