-- ==== Sys2Proof/Certificates/Slice0/Obligations.lean ====
section
/-! DEFINITION. The statements for the provers. -/

open Sys2Proof Sys2Proof.Machine

/-! ### The S slot -/

/-- R181, R182. With nothing of an earlier group in the way and every span in the file, each two-source integer
operation issues, and its result r is put in flight with the latency of R182, narrowed by it: `a` and `b` are
the sources sign-extended, `x` and `y` zero-extended, `n` is the width of the destination in bits. -/
def Obligations.ScalarIntegerResults : Prop :=
  ∀ (o : FSR) (s : State), clear s = true → scalarOk s o.d [o.dst, o.src1, o.src2] = true →
    let n := 4 * o.dst.w
    let a := valS s.view o.d o.src1
    let b := valS s.view o.d o.src2
    let x := valZ s.view o.d o.src1
    let y := valZ s.view o.d o.src2
    let res (lat : Nat) (r : Int) := scalarResult s o.d o.dst lat (r % 2 ^ n).toNat
    let narrow (wrapped signed unsigned : Int) := res 1
      (if o.fn = 1 then max (-2 ^ (n - 1)) (min signed (2 ^ (n - 1) - 1))
       else if o.fn = 2 then max 0 (min unsigned (2 ^ n - 1)) else wrapped)
    (wellFormed (.add o) = true → exec (.add o) s = .next (narrow (a + b) (a + b) (x + y))) ∧
    (wellFormed (.sub o) = true → exec (.sub o) s = .next (narrow (a - b) (a - b) (x - y))) ∧
    (wellFormed (.mul o) = true → exec (.mul o) s = .next (res 3 (a * b))) ∧
    (wellFormed (.mulh o) = true → exec (.mulh o) s = .next (res 3 ((a * b) >>> 64))) ∧
    (wellFormed (.mulhn o) = true → exec (.mulhn o) s = .next (res 3 ((x * y) >>> 64 : Nat))) ∧
    (wellFormed (.and o) = true → exec (.and o) s = .next (res 1 (x &&& y : Nat))) ∧
    (wellFormed (.or o) = true → exec (.or o) s = .next (res 1 (x ||| y : Nat))) ∧
    (wellFormed (.xor o) = true → exec (.xor o) s = .next (res 1 (x ^^^ y : Nat))) ∧
    (wellFormed (.andn o) = true →
      exec (.andn o) s = .next (res 1 (wordOf x &&& ~~~wordOf y).toNat)) ∧
    (wellFormed (.min o) = true → exec (.min o) s = .next (res 1 (min a b))) ∧
    (wellFormed (.max o) = true → exec (.max o) s = .next (res 1 (max a b))) ∧
    (wellFormed (.minn o) = true → exec (.minn o) s = .next (res 1 (min x y : Nat))) ∧
    (wellFormed (.maxn o) = true → exec (.maxn o) s = .next (res 1 (max x y : Nat)))

/-- R184. The shifts and counts act on the field of n bits that SRC1 is: with k the low six bits of SRC2, a shift
gives what the n-bit shift gives, and a count the number of bits it names. -/
def Obligations.ScalarShiftCountResults : Prop :=
  ∀ (o : FSR) (s : State), clear s = true → scalarOk s o.d [o.dst, o.src1, o.src2] = true →
    let n := 4 * o.src1.w
    let x := valZ s.view o.d o.src1
    let f : BitVec n := BitVec.ofNat n x
    let k := valZ s.view o.d o.src2 % 64
    let res (r : Int) := scalarResult s o.d o.dst 1 (r % 2 ^ (4 * o.dst.w)).toNat
    (wellFormed (.shl o) = true → exec (.shl o) s = .next (res (f <<< k).toNat)) ∧
    (wellFormed (.shr o) = true → exec (.shr o) s = .next (res (f >>> k).toNat)) ∧
    (wellFormed (.sra o) = true → exec (.sra o) s = .next (res (f.sshiftRight k).toInt)) ∧
    (wellFormed (.rotl o) = true → exec (.rotl o) s = .next (res (f.rotateLeft k).toNat)) ∧
    (wellFormed (.popc o) = true →
      exec (.popc o) s = .next (res ((List.range n).countP fun i => x.testBit i : Nat))) ∧
    (wellFormed (.clz o) = true → ∃ r : Nat, exec (.clz o) s = .next (res r) ∧ r ≤ n ∧
      (∀ i, n - r ≤ i → i < n → x.testBit i = false) ∧ (r < n → x.testBit (n - 1 - r) = true)) ∧
    (wellFormed (.ctz o) = true → ∃ r : Nat, exec (.ctz o) s = .next (res r) ∧ r ≤ n ∧
      (∀ i, i < r → x.testBit i = false) ∧ (r < n → x.testBit r = true))

/-- R183. Division at issue. A divisor other than zero gives the quotient rounded towards zero and a remainder
with a = q × b + rem and the sign of the dividend; a zero divisor gives q = −1 (all ones in DIVN) and rem = a
under CCTL.DZTRAP = 0, and traps with 0x20 and no other effect under DZTRAP = 1. -/
def Obligations.ScalarDivision : Prop :=
  ∀ (o : FSR) (s : State), clear s = true → scalarOk s o.d [o.dst, o.src1, o.src2] = true →
    let a := valS s.view o.d o.src1
    let b := valS s.view o.d o.src2
    let x : Int := valZ s.view o.d o.src1
    let y : Int := valZ s.view o.d o.src2
    let dz := s.view.csr.cctl.getLsbD 2
    let res (r : Int) : Host.Outcome State Fault Refusal :=
      .next (scalarResult s o.d o.dst 18 (r % 2 ^ (4 * o.dst.w)).toNat)
    let traps (i : Instr) : Host.Outcome State Fault Refusal :=
      .next ((trapHere s (some .s) 0x20 (encode i)).report (.trapped 0x20 (encode i) 0))
    (b ≠ 0 ∨ dz = false → ∃ q r : Int,
      (wellFormed (.div o) = true → exec (.div o) s = res q) ∧
      (wellFormed (.rem o) = true → exec (.rem o) s = res r) ∧
      (b = 0 → q = -1 ∧ r = a) ∧
      (b ≠ 0 → a = q * b + r ∧ |r| < |b| ∧ (0 ≤ a → 0 ≤ r) ∧ (a ≤ 0 → r ≤ 0))) ∧
    (y ≠ 0 ∨ dz = false → ∃ q r : Int,
      (wellFormed (.divn o) = true → exec (.divn o) s = res q) ∧
      (wellFormed (.remn o) = true → exec (.remn o) s = res r) ∧
      (y = 0 → q = 2 ^ 64 - 1 ∧ r = x) ∧
      (y ≠ 0 → x = q * y + r ∧ 0 ≤ r ∧ r < y)) ∧
    (b = 0 ∧ dz = true →
      (wellFormed (.div o) = true → exec (.div o) s = traps (.div o)) ∧
      (wellFormed (.rem o) = true → exec (.rem o) s = traps (.rem o))) ∧
    (y = 0 ∧ dz = true →
      (wellFormed (.divn o) = true → exec (.divn o) s = traps (.divn o)) ∧
      (wellFormed (.remn o) = true → exec (.remn o) s = traps (.remn o)))

/-- R185. CMP puts a whole predicate in flight, to land one exposed cycle from now, all ones where its condition holds
and all zeros where not; p0 takes none. Its word: DST bits 19:14 name the predicate and bits 26:20 are zero, FN is the
condition, and an FN above 6 is unassigned. -/
def Obligations.ScalarCompare : Prop :=
  (∀ (o : FSCmp) (s : State), clear s = true → scalarOk s false [o.src1, o.src2] = true →
    wellFormed (.cmp o) = true →
    let a := valS s.view false o.src1
    let b := valS s.view false o.src2
    let x := valZ s.view false o.src1
    let y := valZ s.view false o.src2
    let p := rotPred s.view.csr.prb o.pd.toNat
    let gives (v : Pred) := exec (.cmp o) s = .next (posted s .s 1 [.pred p v (BitVec.allOnes 1024)])
    let writes (c : Prop) := (c → gives (BitVec.allOnes 1024)) ∧ (¬c → gives 0)
    (o.fn = 0 → writes (a = b)) ∧ (o.fn = 1 → writes (a ≠ b)) ∧ (o.fn = 2 → writes (a < b)) ∧
    (o.fn = 3 → writes (a ≥ b)) ∧ (o.fn = 4 → writes (x < y)) ∧ (o.fn = 5 → writes (x ≥ y)) ∧
    (o.fn = 6 → writes (x &&& y ≠ 0))) ∧
  (∀ (c : Core) (v m : Pred), landVal c (.pred (rotPred c.csr.prb 0) v m) = c) ∧
  (∀ (k : CoreKind) (w : Word), w.extractLsb' 0 9 = 0x024#9 →
    let fn := w.extractLsb' 10 4
    let r := decodeSlot k .s w none
    (7 ≤ fn.toNat → r = .error 0x03) ∧
    (fn.toNat ≤ 6 → (w.getLsbD 9 = true ∨ w.extractLsb' 20 7 ≠ 0) → r = .error 0x04) ∧
    (fn.toNat ≤ 6 → w.getLsbD 9 = false → w.extractLsb' 20 7 = 0 → w.extractLsb' 53 11 = 0 →
      r = .ok (.cmp ⟨sspanAt w 40, sspanAt w 27, w.extractLsb' 14 6, fn⟩)))

/-- R186 to R191. Select, immediates, moves, bit fields and LEA: each issues with a latency of one exposed
cycle, and its value, a multiple of 2^(4w) apart, is put in flight for its destination. `sel` is bit 0 of the
predicate of SEL; `lo` and `h` are the lowest and the highest bit of the field of EXTS and INSS; the values of
INSS are given bit by bit. -/
def Obligations.ScalarMoveResults : Prop :=
  ∀ s : State, clear s = true →
    let v := s.view
    (∀ o : FSSel, wellFormed (.sel o) = true → scalarOk s o.d [o.dst, o.src1, o.src2] = true →
      exec (.sel o) s = .next (scalarResult s o.d o.dst 1
        ((if (predRead v.regs (rotPred v.csr.prb o.ps.toNat)).getLsbD 0 then valS v o.d o.src1
          else valS v o.d o.src2) % 2 ^ (4 * o.dst.w)).toNat)) ∧
    (∀ o : FSL, wellFormed (.li o) = true → scalarOk s o.d [o.dst] = true →
      exec (.li o) s = .next (scalarResult s o.d o.dst 1 (o.long.toInt % 2 ^ (4 * o.dst.w)).toNat)) ∧
    (∀ o : FSI, wellFormed (.addi o) = true → scalarOk s o.d [o.dst, o.src1] = true →
      exec (.addi o) s = .next (scalarResult s o.d o.dst 1
        ((valS v o.d o.src1 + o.long.toInt) % 2 ^ (4 * o.dst.w)).toNat)) ∧
    (∀ o : FSR, wellFormed (.movs o) = true → scalarOk s o.d [o.dst, o.src1] = true →
      exec (.movs o) s = .next (scalarResult s o.d o.dst 1
        ((if o.fn = 1 then valS v o.d o.src1 else (valZ v o.d o.src1 : Int)) %
          2 ^ (4 * o.dst.w)).toNat)) ∧
    (∀ o : FSI, wellFormed (.exts o) = true → scalarOk s o.d [o.dst, o.src1] = true →
      let lo := o.long.toNat % 64
      let h := min (lo + o.long.toNat / 64 % 64) 63
      let f : BitVec (h + 1 - lo) := BitVec.ofNat _ (valZ v o.d o.src1 >>> lo)
      exec (.exts o) s = .next (scalarResult s o.d o.dst 1
        ((if o.fn = 1 then f.toInt else (f.toNat : Int)) % 2 ^ (4 * o.dst.w)).toNat)) ∧
    (∀ o : FSI, wellFormed (.inss o) = true → scalarOk s o.d [o.dst, o.src1] = true →
      let lo := o.long.toNat % 64
      let h := min (lo + o.long.toNat / 64 % 64) 63
      ∃ r : Nat, exec (.inss o) s = .next (scalarResult s o.d o.dst 1 (r % 2 ^ (4 * o.dst.w))) ∧
        ∀ k, r.testBit k = if lo ≤ k ∧ k ≤ h then (valZ v o.d o.src1).testBit (k - lo)
          else (valZ v o.d o.dst).testBit k) ∧
    (∀ o : FSI, wellFormed (.lea o) = true → scalarOk s o.d [o.dst, o.src1] = true →
      let p := valZ v o.d o.src1
      let off := ((p % 2 ^ 60 : Nat) + o.long.toInt * 2 ^ o.fn.toNat) % 2 ^ 60
      exec (.lea o) s = .next (scalarResult s o.d o.dst 1
        ((((p / 2 ^ 60 : Nat) : Int) * 2 ^ 60 + off) % 2 ^ (4 * o.dst.w)).toNat))

/-- R192, R193, R196, R387. Loads. With the address in reach (every check of R194 passed), a load of n bytes from the
scratchpad or the accumulators puts in flight, to land six exposed cycles later, the value its bytes hold at
issue, and from any other window starts a tracked access of those bytes for its destination. A local word that
cannot be corrected leaves no result, and 0x70 with the address is delivered in place of the landing. LD moves the
image of its span, LDG.b<k> k bytes extended by zero or by sign. -/
def Obligations.ScalarLoads : Prop :=
  ∀ (o : FSM) (s : State), clear s = true → scalarOk s o.d [o.base, o.data] = true →
    let d := sop s.view.csr o.d o.data
    let a : Word := BitVec.ofNat 64 (valZ s.view o.d o.base) + o.long
    let loads (i : Instr) (n : Nat) (ext : LoadExt) : Prop :=
      wellFormed i = true → accessOk s .read a n = true →
      let x := access s .read a n
      (x.place.isLocal = true → localEcc s.core x n = false →
        exec i s = .next (posted (localCheck x n s) .s 6
          [.slices d.start d.w (ext.value (localBytes s.core x n) d.w)])) ∧
      (x.place.isLocal = true → localEcc s.core x n = true →
        exec i s = .next (spoiled (localCheck x n s) .s 6 a)) ∧
      (x.place.isLocal = false →
        exec i s = .next ((s.track .s (.load a x.runs n o.evict.toNat d.start d.w ext) (x.ordOf o.ord) x.so
          x.uo).report .issued))
    loads (.ld o) ((o.data.w + 1) / 2) .image ∧
    (o.fn.getLsbD 2 = false → loads (.ldg o) (2 ^ (o.fn.toNat % 4)) .zero) ∧
    (o.fn.getLsbD 2 = true → loads (.ldg o) (2 ^ (o.fn.toNat % 4)) .sign)

/-- R165, R192, R193. Stores. With the address in reach, a store to the scratchpad or the accumulators queues its
bytes for the end of its group, and one to any other window starts a tracked access. ST stores the image of its
span, STG.b<k> the low 8k bits of the sign-extended value. -/
def Obligations.ScalarStores : Prop :=
  ∀ (o : FSM) (s : State), clear s = true → scalarOk s o.d [o.base, o.data] = true →
    let a : Word := BitVec.ofNat 64 (valZ s.view o.d o.base) + o.long
    let stores (i : Instr) (bytes : List Byte) : Prop :=
      wellFormed i = true → accessOk s .write a bytes.length = true →
      let x := access s .write a bytes.length
      storeFaults s x a bytes = [] →
      (∀ off, x.place = .pad off → exec i s = .next ((s.setCore { s.core with
        ends := s.core.ends ++ [.bytes off bytes (List.replicate bytes.length 0xFF)] }).report .issued)) ∧
      (∀ off, x.place = .acc off → exec i s = .next ((s.setCore { s.core with
        ends := s.core.ends ++ [.accBytes off bytes (List.replicate bytes.length 0xFF)] }).report .issued)) ∧
      (x.place.isLocal = false →
        exec i s = .next ((s.track .s (.store a x.runs o.evict.toNat bytes) (x.ordOf o.ord) x.so x.uo).report
          .issued))
    stores (.st o) (leBytes ((o.data.w + 1) / 2) (valZ s.view o.d o.data)) ∧
    stores (.stg o) (leBytes (2 ^ (o.fn.toNat % 4)) (valS s.view o.d o.data % 2 ^ 64).toNat)

/-- R198 to R200. Atomics. With the address in reach, AMO and CAS start a tracked access that holds the operand,
its low 8n bits for an access of n bytes, and for CAS the expected value: the low 8n bits of the value of DST. -/
def Obligations.ScalarAtomics : Prop :=
  ∀ (o : FSA) (s : State), clear s = true → scalarOk s false [o.base, o.src, o.dst] = true →
    let n := o.src.w / 2
    let a : Word := BitVec.ofNat 64 (valZ s.view false o.base)
    let x := access s .atomic a n
    let v := valZ s.view false o.src % 2 ^ (8 * n)
    let starts (op : AtomOp) : Host.Outcome State Fault Refusal :=
      .next ((s.track .s (.atom a x.runs o.evict.toNat op v n o.dst.start.toNat o.dst.w) o.ord x.so).report
        .issued)
    accessOk s .atomic a n = true →
    (wellFormed (.amo o) = true → ∀ op, [(0, AtomOp.swap), (1, .add), (2, .and), (3, .or), (4, .xor),
        (5, .min), (6, .max), (7, .minn), (8, .maxn)].lookup o.fn.toNat = some op →
      exec (.amo o) s = starts op) ∧
    (wellFormed (.cas o) = true →
      exec (.cas o) s = starts (.cas (valS s.view false o.dst % 2 ^ (8 * n)).toNat))

/-- R155, R177, R201, R202, R394. CSRR puts the value of an assigned register in flight; CSRW, CSRS and CSRC start a
tracked write of a register that is assigned and not read-only; the numbers 0x100 to 0x1FF ask for system mode. ENGR
reads a shadow or active engine register as it stood before its group, and ENGW starts a write of a shadow one. HCHK
delivers the state of a slot, its generation, and whether the handle is current. The model's choices: log 35, log 40. -/
def Obligations.ScalarRegisterAccess : Prop :=
  ∀ s : State, clear s = true →
    let allowed (n : Nat) : Prop := 0x100 ≤ n → n ≤ 0x1FF → s.core.mode = .sys
    (∀ (o : FSC) (x : Word), wellFormed (.csrr o) = true → scalarOk s o.d [o.dst] = true →
      allowed o.csr.toNat → s.view.csrRead o.csr.toNat = some x →
      exec (.csrr o) s = .next (scalarResult s o.d o.dst 1 (x.toNat % 2 ^ (4 * o.dst.w)))) ∧
    (∀ o : FSC, scalarOk s false [o.src] = true → allowed o.csr.toNat →
      (s.view.csrRead o.csr.toNat).isSome = true → csrReadOnly o.csr.toNat = false →
      let v : Word := BitVec.ofNat 64 (valZ s.view false o.src)
      let writes (i : Instr) (f : Nat) : Prop := wellFormed i = true →
        exec i s = .next ((s.track .s (.csrWrite o.csr.toNat f v)).report .issued)
      writes (.csrw o) 0 ∧ writes (.csrs o) 1 ∧ writes (.csrc o) 2) ∧
    (∀ o : FSC, wellFormed (.engr o) = true → scalarOk s o.d [o.dst] = true → o.csr.toNat < 64 →
      let n := o.csr.toNat
      let c := s.core.ctx.first.chan (if n.testBit 4 then .b else .a)
      let x := if n.testBit 5 then c.shadow.get (n % 16) else c.activeReg (n % 16)
      exec (.engr o) s = .next (scalarResult s o.d o.dst 1 (x.toNat % 2 ^ (4 * o.dst.w)))) ∧
    (∀ o : FSC, wellFormed (.engw o) = true → scalarOk s false [o.src] = true → o.csr.toNat < 64 →
      o.csr.toNat.testBit 5 = true →
      let n := o.csr.toNat
      exec (.engw o) s = .next ((s.track .s (.engWrite (if n.testBit 4 then .b else .a) (n % 16)
        (BitVec.ofNat 64 (valZ s.view false o.src)))).report .issued)) ∧
    (∀ o : FSR, wellFormed (.hchk o) = true → scalarOk s o.d [o.dst, o.src1] = true →
      (o.fn = 2 → s.core.mode = .sys) →
      let h := valZ s.view o.d o.src1 % 65536
      let q := handleState s o.fn.toNat h
      exec (.hchk o) s = .next (scalarResult s o.d o.dst 1
        (((if q.1 = 1 ∧ h / 64 = q.2 then 1 else 0) + q.1 * 2 + q.2 * 65536) % 2 ^ (4 * o.dst.w))))

/-! ### The B slot -/

/-- R203, R204. Branches. A taken branch leaves the program counter at its target with bits 1:0 clear, one not
taken at the address after its group; CALL and CALLI also put the address after the group in flight for x1, one
exposed cycle from now, and CALLI reads its own SA before that. -/
def Obligations.Branches : Prop :=
  ∀ s : State, clear s = true →
    let pcb := s.core.ctx.pcb
    let fall := s.core.ctx.fall
    let at4 (p : Word) : Word := p &&& ~~~3#64
    let long {n : Nat} (disp : BitVec n) (x : Option Word) : Word := x.getD (pcb + 4 * disp.signExtend 64)
    let linked : State := s.post .b 1 [.slices 16 16 fall.toNat]
    let value (sa : SSpan) : Word := BitVec.ofNat 64 (valZ s.view false sa)
    (∀ o : FBC, wellFormed (.br o) = true →
      exec (.br o) s = .next (goesTo s
        (if xor ((predRead s.view.regs (rotPred s.view.csr.prb o.pred.toNat)).getLsbD 0) o.neg
         then at4 (long o.disp o.x) else fall))) ∧
    (∀ o : FBZ, scalarOk s false [o.sa] = true →
      exec (.brz o) s = .next (goesTo s
        (if valZ s.view false o.sa = 0 then at4 (pcb + 4 * o.disp.signExtend 64) else fall))) ∧
    (∀ o : FBZ, scalarOk s false [o.sa] = true →
      exec (.brnz o) s = .next (goesTo s
        (if valZ s.view false o.sa ≠ 0 then at4 (pcb + 4 * o.disp.signExtend 64) else fall))) ∧
    (∀ o : FBJ, wellFormed (.jmp o) = true → exec (.jmp o) s = .next (goesTo s (at4 (long o.disp o.x)))) ∧
    (∀ o : FBJ, wellFormed (.call o) = true →
      exec (.call o) s = .next (goesTo linked (at4 (long o.disp o.x)))) ∧
    (∀ o : FBR, scalarOk s false [o.sa] = true →
      exec (.jmpi o) s = .next (goesTo s (at4 (value o.sa + 4 * o.imm.signExtend 64)))) ∧
    (∀ o : FBR, scalarOk s false [o.sa] = true →
      exec (.calli o) s = .next (goesTo linked (at4 (value o.sa + 4 * o.imm.signExtend 64)))) ∧
    (∀ sa : SSpan, scalarOk s false [sa] = true → exec (.ret sa) s = .next (goesTo s (at4 (value sa))))

/-- R205. CLOOP. With no stage live it changes nothing and does not branch. Otherwise it counts down, shifts the
mask of live stages, feeds a new iteration in while any remain, turns both bases back by one, writes every stage
predicate from the mask under the new base, all one exposed cycle from now, and branches while a stage is
live. -/
def Obligations.LoopClose : Prop :=
  ∀ (disp : BitVec 19) (s : State), clear s = true →
    let c := s.view.csr
    let count := c.lpCount.toNat
    let depth := c.lpDepth.toNat
    let live := (c.lplive.toNat * 2 + if count ≠ 0 then 1 else 0) % 2 ^ (depth + 1)
    let vrb := (c.vrb.toNat + 255) % 256
    let prb := (c.prb.toNat + 31) % 32
    let target := (s.core.ctx.pcb + 4 * disp.signExtend 64) &&& ~~~3#64
    (c.lplive = 0 → exec (.cloop disp) s = .next (goesTo s s.core.ctx.fall)) ∧
    (c.lplive ≠ 0 →
      exec (.cloop disp) s = .next (goesTo (s.post .b 1
        ([.csr 6 (wordOf (count - 1)) 0xFFFFFFFF, .csr 7 (wordOf live) 0xFFFFFFFF,
          .csr 4 (wordOf vrb) 0xFF, .csr 5 (wordOf prb) 0x1F] ++
         (List.range (depth + 1)).map fun k => UVal.pred (32 + (k + prb) % 32)
           (if live.testBit k then BitVec.allOnes 1024 else 0) (BitVec.allOnes 1024)))
        (if live ≠ 0 then target else s.core.ctx.fall)))

/-- R133, R134, R338, R363, R364, R366. WAITA, FENCE, WAITT with a class in its mask and BARG stall the issue of their
own group: each begins its wait, BARG having counted the member's episode, and once the wait has passed the group
issues. WAITA then writes the number of the entry it found, which waits for its next phase, and the next search begins
behind it; a search without an entry writes 8. A FENCE with nothing to wait for goes on at once, and for what its own
group has begun it holds the groups after it. WAITT with no class goes on at once. The model's choices: log 44, log
94. -/
def Obligations.WaitsIssue : Prop :=
  ∀ s : State, clear s = true →
    (∀ (mask : BitVec 8) (dst : SSpan), scalarOk s false [dst] = true →
      (∀ k : Nat, s.core.wait = .found k → ∃ t, exec (.waita mask dst) s = .next t ∧ t.core.wait = .none ∧
        t.core.report = .issued ∧
        t.core.regs.scalar = scalarWrite s.core.regs.scalar dst.start.toNat dst.w (k % 2 ^ (4 * dst.w)) ∧
        (k < 8 → t.core.copy.next = BitVec.ofNat 3 (k + 1) ∧ t.core.copy.watchAt k =
          { s.core.copy.watchAt k with phase := (s.core.copy.watchAt k).phase + 1 }) ∧
        (8 ≤ k → t.core.copy = s.core.copy)) ∧
      ((∀ k : Nat, s.core.wait ≠ .found k) →
        exec (.waita mask dst) s = .next ((s.setWait (.waita mask) s.core.ctx.groupPc).report
          (.stalled .barrierWait)))) ∧
    (∀ order scope,
      (fenceOpen s.core order = false →
        exec (.fence order scope) s = .next ((s.setWait .none s.core.waitPcb).report .issued)) ∧
      (fenceOpen s.core order = true → s.core.wait = .passed none →
        exec (.fence order scope) s = .next (waitsFor s (.fenced order scope))) ∧
      (fenceOpen s.core order = true → s.core.wait ≠ .passed none →
        exec (.fence order scope) s = .next ((s.setWait (.fence order scope) s.core.ctx.groupPc).report
          (.stalled .drainWait)))) ∧
    (∀ mask : BitVec 5, mask ≠ 0 →
      (s.core.wait = .passed none →
        exec (.waitt mask) s = .next ((s.setWait .none s.core.waitPcb).report .issued)) ∧
      (s.core.wait ≠ .passed none →
        exec (.waitt mask) s = .next ((s.setWait (.waitt mask) s.core.ctx.groupPc).report
          (.stalled .drainWait)))) ∧
    exec (.waitt 0) s = .next (s.report .issued) ∧
    (∀ (g : BitVec 8) (b : Binding), s.core.binding = some b → nodeRes (s.pool.node b.nodeSlot) = true →
      s.member g.toNat = true → published s = true →
      (s.core.wait = .passed (some g) →
        exec (.barg g) s = .next ((s.setWait .none s.core.waitPcb).report .issued)) ∧
      (s.core.wait ≠ .passed (some g) →
        ∃ t, exec (.barg g) s = .next t ∧ t.core.wait = .barg g ∧ t.core.waitPcb = s.core.ctx.groupPc ∧
          t.core.report = .stalled .barrierWait ∧
          bargsOf (t.pool.group g.toNat) b.v = bargsOf (s.pool.group g.toNat) b.v + 1))

/-- R352, R353, R362, R364. TRIG by a member counts it once: the first time the entry's TPEND goes down by one, and a
repeat changes nothing of the pool. TRIG.node counts the virtual core once towards the trigger of its node. Behind an
access of an earlier bundle of its own group a trigger, which is a release, is counted once that is performed. The
model's choices: log 40. -/
def Obligations.Triggers : Prop :=
  ∀ (s : State) (b : Binding), clear s = true → s.core.binding = some b → published s = true →
    (noOwnAccess s = true →
      (∀ g : BitVec 8, s.member g.toNat = true →
        let e := s.pool.group g.toNat
        ∃ t, exec (.trig g) s = .next t ∧ t.core = { s.core with report := .issued } ∧
          b.v ∈ (t.pool.group g.toNat).triggered ∧
          (b.v ∈ e.triggered → t.pool = s.pool) ∧
          (b.v ∉ e.triggered → (t.pool.group g.toNat).tpend = e.tpend - 1)) ∧
      (∃ t, exec .trigNode s = .next t ∧ t.core = { s.core with report := .issued } ∧
        b.v ∈ (t.pool.node b.nodeSlot).triggered ∧
        (b.v ∈ (s.pool.node b.nodeSlot).triggered → t.pool = s.pool))) ∧
    (noOwnAccess s = false →
      (∀ g : BitVec 8, s.member g.toNat = true →
        exec (.trig g) s = .next ((s.track .b (.trig (some g))).publish.report .issued)) ∧
      exec .trigNode s = .next ((s.track .b (.trig none)).publish.report .issued))

/-- R365, R352, R358, R362. EXIT with nothing left in flight ends the virtual core at once. Every group it is a member
of counts it as triggered and as exited, its node counts its trigger and its exit; then the next virtual core of the
position starts on the core, or the core is released, and the last virtual core completes the node, which satisfies
its edges of TIE 0. A core that runs for no node is idle afterwards. With an access of its own group still to be
performed it ends once that is done. -/
def Obligations.ExitEnds : Prop :=
  ∀ s : State, clear s = true → s.core.inflight = [] → s.core.copy.idle = true → published s = true →
    let r := exitState s
    (s.core.tracked ≠ [] → exec .exit s = .next ((hold .exit r).report .ended)) ∧
    (s.core.tracked = [] →
      (s.core.binding = none → ∃ u, exec .exit s = .next u ∧ u.core.run = .idle ∧ u.core.mode = .node ∧
        u.core.report = .ended ∧ u.mem = s.mem ∧ u.pool = s.pool) ∧
      (∀ b : Binding, s.core.binding = some b →
        let k := b.nodeSlot
        let n := s.pool.node k
        let gs := s.pool.groupsOf n.graph n.index b.v
        let i := s.core.region.toNat
        n.st ≠ .free →
        ∃ p : Pool,
          (∀ g ∈ gs, b.v ∈ (p.group g).triggered ∧ b.v ∈ (p.group g).exited ∧
            (p.group g).tpend = (if b.v ∈ (s.pool.group g).triggered then (s.pool.group g).tpend
              else (s.pool.group g).tpend - 1)) ∧
          b.v ∈ (p.node k).triggered ∧ (p.node k).exited = n.exited + 1 ∧
          let t := gs.foldl failStaged (r.setPool p)
          let dead := (p.node k).st = .abandoned
          let more := b.v + 1 < b.width ∧ (b.v + 1) * b.positions / b.width = b.pos
          let next : Binding := { b with v := b.v + 1, cycles := 0, expired := false, fired := false }
          (more → ¬dead →
            exec .exit s = .next ((startVcore (t.setCore { t.core with
              binding := some next, run := .idle, mode := .node, wait := .none }) i).report .ended)) ∧
          (¬more ∨ dead →
            (n.exited + 1 = b.width → ¬dead →
              exec .exit s = .next ((releaseCore (t.setPool
                ((t.pool.setNode k { t.pool.node k with st := .done }).satisfy n.graph
                  fun e => e.tie == 0 && e.src == n.index)) i).report .ended)) ∧
            (n.exited + 1 ≠ b.width ∨ dead →
              exec .exit s = .next ((releaseCore t i).report .ended)))))

/-- R388, R390, R393. TRAP: its whole group takes effect first, and then a trap with cause 0x78, the immediate as
its value, the B slot, and the next group as the place of return. BKPT: a precise trap with cause 0x79. -/
def Obligations.SoftwareTraps : Prop :=
  ∀ (imm : BitVec 13) (s : State), clear s = true →
    (let c := s.core.endGroup.expire
     c.csr.tact = false →
     ∃ t, exec (.trap imm) s = .next t ∧ t.core.mode = .sys ∧ t.core.pc = c.csr.tvec &&& ~~~3#64 ∧
       t.core.csr.tact = true ∧ t.core.csr.pm = decide (c.mode = .sys) ∧
       t.core.csr.tcause = wordOf (c.vcore.toNat * 2 ^ 32 + 2 ^ 11 + 0x78) ∧
       t.core.csr.tval = imm.setWidth 64 ∧ t.core.csr.tpc = c.ctx.next &&& ~~~3#64 ∧
       t.core.csr.topc = c.ctx.pcb ∧ t.core.report = .ended) ∧
    exec (.bkpt imm) s = .next ((trapHere s (some .b) 0x79 (imm.setWidth 64)).report
      (.trapped 0x79 (imm.setWidth 64) 0))

/-- R391, R393, R394, R408. TRET in system mode, with no result of an earlier group due to deliver a fault: the group
ends and the handler's results land; the control registers are then as they stood but that the frame is no longer
live, the mode is the one saved in PM and fetch goes on at TPC. A bank whose check fails is a machine check when its
results are wanted, on the return to node mode. In node mode TRET traps with 0x08. The model's choices: log 31. -/
def Obligations.TrapReturn : Prop :=
  ∀ s : State, clear s = true →
    (s.core.mode = .sys →
      (∀ r ∈ s.core.inflight, r.grp ≠ s.core.ctx.grp → r.fault = none ∧ r.excepts s.core = false) →
      let r := s.core.endGroup.expire.landAll.csr
      ∃ t, exec .tret s = .next t ∧ t.core.csr = { r with tact := false } ∧
        t.core.pc = r.tpc &&& ~~~3#64 ∧
        (r.pm = true → t.core.mode = .sys ∧ t.core.run = s.core.run ∧ t.core.report = .ended) ∧
        (r.pm = false → s.core.bankBad = true → t.core.run = .stopped ∧ t.core.dbg.mcSyn = 5) ∧
        (r.pm = false → s.core.bankBad = false → t.core.mode = .node ∧ t.core.run = s.core.run ∧
          t.core.report = .ended)) ∧
    (s.core.mode = .node →
      exec .tret s = .next ((trapHere s (some .b) 0x08 (encode .tret)).report
        (.trapped 0x08 (encode .tret) 0)))

/-- R69, R74, R170, R171, R174. The header-only bundle idles its group for its stall count. RFCL puts clusters 1 to 4
to sleep, contents gone, or starts their wake, ready 24 exposed cycles from now. LEND hands a cluster over at the end
of the group, when nothing is pending to it, held results included (R391). The model's choices: log 45, log 72. -/
def Obligations.ClustersAndIdling : Prop :=
  ∀ s : State, clear s = true →
    (∀ join stall, exec (.emptyBundle join stall) s = .next ((s.setCore { s.core with
      ctx := { s.core.ctx with stall := max s.core.ctx.stall stall.toNat } }).report .issued)) ∧
    (∀ mask : BitVec 5, wellFormed (.rfcl mask) = true → s.core.regs.clusters.length = 5 →
      ∃ t, exec (.rfcl mask) s = .next t ∧ t.core.mode = s.core.mode ∧
        ∀ k, 1 ≤ k → k ≤ 4 →
          let was := lget .awake s.core.regs.clusters k
          let is := lget .awake t.core.regs.clusters k
          (mask.getLsbD k = false → is = .asleep ∧
            (clusterAwake s.core.regs s.core.mode s.core.xt k = true →
              ∀ p, p / 512 = k → planeRead t.core.regs p = 0)) ∧
          (mask.getLsbD k = true → is = if was = .asleep then .waking s.core.mode (s.core.xt + 24) else was)) ∧
    (∀ (owner : BitVec 2) (k : BitVec 3), wellFormed (.lend owner k) = true →
      (owner = 2 → s.core.kind = .a) →
      (∀ r ∈ s.view.inflight, r.grp ≠ s.core.ctx.grp → inCluster k.toNat r.units = false) →
      (∀ r ∈ s.core.bank, inCluster k.toNat r.units = false) →
      exec (.lend owner k) s = .next ((s.setCore { s.core with
        ends := s.core.ends ++ [.owner k.toNat owner] }).report .issued))

/-! ### The vector slots -/

/-- R236, R239. The integer operations of two or three operands. X, Y and Z are the elements of VA, VB and the
old VD as integers of the type, n the bits of an element, `range` the bits that a saturated result keeps. Each
puts its wrapped results in flight for the governed elements, to land two exposed cycles later. -/
def Obligations.VectorIntegerResults : Prop :=
  ∀ (o : FVR) (s : State), clear s = true →
    let v := s.view
    let d := vop v.csr o.d o.vd
    let a := vop v.csr o.d o.va
    let b := vop v.csr o.d o.vb
    let sh := vshape o.ty [d, a, b]
    let sgn := o.ty.isSigned
    let x (p : VOp) (j : Nat) : Nat := elemN sh.b (vget v sh sgn p) j
    let X (p : VOp) (j : Nat) : Int := if sgn then toSigned sh.b (x p j) else x p j
    let range := if sh.reg then sh.b else 4 * d.w
    let sat (r : Int) : Int := if sgn then max (-2 ^ (range - 1)) (min r (2 ^ (range - 1) - 1))
      else max 0 (min r (2 ^ range - 1))
    let writes (i : Instr) (f : Nat → Int) : Prop := wellFormed i = true →
      exec i s = .next (vectorResult s o.sl 2 noDraw
        (vput v.csr sh d (vmap sh fun j => (f j % 2 ^ sh.b).toNat) (pmBits v o.pm)) 0)
    vectorOk s o.sl [a, b] [d] = true →
      writes (.vadd o) (fun j => X a j + X b j) ∧
      writes (.vsub o) (fun j => X a j - X b j) ∧
      writes (.vmul o) (fun j => X a j * X b j) ∧
      writes (.vmulh o) (fun j => (X a j * X b j) >>> range) ∧
      writes (.vmad o) (fun j => X a j * X b j + X d j) ∧
      writes (.vmin o) (fun j => min (X a j) (X b j)) ∧
      writes (.vmax o) (fun j => max (X a j) (X b j)) ∧
      writes (.vand o) (fun j => (x a j &&& x b j : Nat)) ∧
      writes (.vor o) (fun j => (x a j ||| x b j : Nat)) ∧
      writes (.vxor o) (fun j => (x a j ^^^ x b j : Nat)) ∧
      writes (.vandn o) (fun j => (BitVec.ofNat sh.b (x a j) &&& ~~~BitVec.ofNat sh.b (x b j)).toNat) ∧
      writes (.vadds o) (fun j => sat (X a j + X b j)) ∧
      writes (.vsubs o) (fun j => sat (X a j - X b j))

/-- R239 to R241. The one-source integer operations, and the shifts by an element or by the low six bits of an
immediate: a shift acts on the field of m bits that an element of VA is, and gives what the m-bit shift gives. -/
def Obligations.VectorShiftCountResults : Prop :=
  ∀ s : State, clear s = true →
    let v := s.view
    (∀ o : FVR,
      let d := vop v.csr o.d o.vd
      let a := vop v.csr o.d o.va
      let b := vop v.csr o.d o.vb
      let sh := vshape o.ty [d, a, b]
      let m := if sh.reg then sh.b else 4 * a.w
      let field (j : Nat) : BitVec m := BitVec.ofNat m (elemN sh.b (vget v sh false a) j)
      let k (j : Nat) : Nat := elemN sh.b (vget v sh false b) j
      let writes (i : Instr) (f : Nat → Int) : Prop := wellFormed i = true →
        exec i s = .next (vectorResult s o.sl 2 noDraw
          (vput v.csr sh d (vmap sh fun j => (f j % 2 ^ sh.b).toNat) (pmBits v o.pm)) 0)
      vectorOk s o.sl [a, b] [d] = true →
        writes (.vshl o) (fun j => (field j <<< k j).toNat) ∧
        writes (.vshr o) (fun j => (field j >>> k j).toNat) ∧
        writes (.vsra o) (fun j => ((field j).sshiftRight (k j)).toInt)) ∧
    (∀ o : FVR,
      let d := vop v.csr o.d o.vd
      let a := vop v.csr o.d o.va
      let sh := vshape o.ty [d, a]
      let m := if sh.reg then sh.b else 4 * a.w
      let x (sgn : Bool) (j : Nat) : Nat := elemN sh.b (vget v sh sgn a) j
      let X (j : Nat) : Int := if o.ty.isSigned then toSigned sh.b (x o.ty.isSigned j) else x o.ty.isSigned j
      let writes (i : Instr) (f : Nat → Int) : Prop := wellFormed i = true →
        exec i s = .next (vectorResult s o.sl 2 noDraw
          (vput v.csr sh d (vmap sh fun j => (f j % 2 ^ sh.b).toNat) (pmBits v o.pm)) 0)
      vectorOk s o.sl [a] [d] = true →
        writes (.vabs o) (fun j => |X j|) ∧
        writes (.vneg o) (fun j => -X j) ∧
        writes (.vpopc o) (fun j => ((List.range m).countP fun k => (x false j).testBit k : Nat)) ∧
        (wellFormed (.vclz o) = true → ∃ r : Nat → Nat,
          exec (.vclz o) s = .next (vectorResult s o.sl 2 noDraw
            (vput v.csr sh d (vmap sh r) (pmBits v o.pm)) 0) ∧
          ∀ j, r j ≤ m ∧ (∀ k, m - r j ≤ k → k < m → (x false j).testBit k = false) ∧
            (r j < m → (x false j).testBit (m - 1 - r j) = true))) ∧
    (∀ o : FVI,
      let d := vop v.csr o.d o.vd
      let a := vop v.csr o.d o.va
      let sh := vshape o.ty [d, a]
      let m := if sh.reg then sh.b else 4 * a.w
      let field (j : Nat) : BitVec m := BitVec.ofNat m (elemN sh.b (vget v sh false a) j)
      let k := o.long.toNat % 64
      let writes (i : Instr) (f : Nat → Int) : Prop := wellFormed i = true →
        exec i s = .next (vectorResult s o.sl 2 noDraw
          (vput v.csr sh d (vmap sh fun j => (f j % 2 ^ sh.b).toNat) predOnes) 0)
      vectorOk s o.sl [a] [d] = true →
        writes (.vshlImm o) (fun j => (field j <<< k).toNat) ∧
        writes (.vshrImm o) (fun j => (field j >>> k).toNat) ∧
        writes (.vsraImm o) (fun j => ((field j).sshiftRight k).toInt))

/-- R162, R221, R242. Floating-point arithmetic: each element of the result, with its flags, is the one operation of
R242 on the elements of VA, VB and the old VD, rounded in the dynamic mode with the random word drawn for it; governed
flags are ORed together; VFABS and VFNEG change the sign bit alone. Under SR each of the nine draws a word for every
element. The model's choices: log 29. -/
def Obligations.VectorFloatResults : Prop :=
  ∀ (o : FVR) (s : State), clear s = true →
    let v := s.view
    let d := vop v.csr o.d o.vd
    let a := vop v.csr o.d o.va
    let b := vop v.csr o.d o.vb
    let t := fmtOf o.ty
    let p := pmBits v o.pm
    let writes (i : Instr) (ops : List VOp) (lat : Nat) (dr : Draw) (f : VShape → Nat → Nat × Nat) : Prop :=
      let sh := vshape o.ty ops
      wellFormed i = true → floatOk o.ty ops = true →
      exec i s = .next (vectorResult s o.sl lat dr
        (vput v.csr sh d (vmap sh fun j => (f sh j).1) p) (govFlags p sh.n fun j => (f sh j).2))
    let el (sh : VShape) (q : VOp) (j : Nat) : Nat := elemN sh.b (vread v q) j
    let m := dynMode v.csr .computes
    let dr := draw v m ((vshape o.ty [d, a, b]).n / 128) 128
    let w (j : Nat) : Nat := lget 0 dr.words j
    (vectorOk s o.sl [a, b] [d] = true →
      writes (.vfadd o) [d, a, b] 4 dr (fun sh j => addF t m.rm (w j) (el sh a j) (el sh b j)) ∧
      writes (.vfsub o) [d, a, b] 4 dr (fun sh j => subF t m.rm (w j) (el sh a j) (el sh b j)) ∧
      writes (.vfmul o) [d, a, b] 4 dr (fun sh j => mulF t m.rm (w j) (el sh a j) (el sh b j)) ∧
      writes (.vfma o) [d, a, b] 5 dr
        (fun sh j => fmaF t m.rm (w j) (el sh a j) (el sh b j) (el sh d j)) ∧
      writes (.vfms o) [d, a, b] 5 dr
        (fun sh j => fmsF t m.rm (w j) (el sh a j) (el sh b j) (el sh d j)) ∧
      writes (.vfmin o) [d, a, b] 4 dr (fun sh j => minMaxF t false (el sh a j) (el sh b j)) ∧
      writes (.vfmax o) [d, a, b] 4 dr (fun sh j => minMaxF t true (el sh a j) (el sh b j))) ∧
    (vectorOk s o.sl [a] [d] = true →
      let dr1 := draw v m ((vshape o.ty [d, a]).n / 128) 128
      writes (.vfabs o) [d, a] 2 dr1 (fun sh j => (el sh a j % 2 ^ (t.eb + t.fb), 0)) ∧
      writes (.vfneg o) [d, a] 2 dr1 (fun sh j => (el sh a j ^^^ 2 ^ (t.eb + t.fb), 0)))

/-- R243 to R245. VCMP and VFCMP put a predicate in flight whose governed bits hold the condition and whose bits
from the element count on are zero; VSEL writes every element from the source its predicate bit selects; VCLASS
writes the class of each governed element. -/
def Obligations.VectorCompareResults : Prop :=
  ∀ s : State, clear s = true →
    let v := s.view
    (∀ o : FVC,
      let a := vop v.csr o.d o.va
      let b := vop v.csr o.d o.vb
      let sh := vshape o.ty [a, b]
      let p := pmBits v o.pm
      let pd := rotPred v.csr.prb o.pd.toNat
      let writes (i : Instr) (lat : Nat) (fl : BitVec 5) (holds : Nat → Prop) : Prop :=
        ∃ x m : Pred, exec i s = .next (vectorResult s o.sl lat noDraw [.pred pd x m] fl) ∧
          ∀ j < 1024, (m.getLsbD j = true ↔ sh.n ≤ j ∨ p.getLsbD j = true) ∧
            (x.getLsbD j = true ↔ j < sh.n ∧ holds j)
      let e (sgn : Bool) (q : VOp) (j : Nat) : Nat := elemN sh.b (vget v sh sgn q) j
      let x := e o.ty.isSigned a
      let y := e o.ty.isSigned b
      let X (j : Nat) : Int := if o.ty.isSigned then toSigned sh.b (x j) else x j
      let Y (j : Nat) : Int := if o.ty.isSigned then toSigned sh.b (y j) else y j
      let c := o.cond.toNat
      vectorOk s o.sl [a, b] [] = true →
        (wellFormed (.vcmp o) = true →
          writes (.vcmp o) 2 0 (fun j =>
            (c = 0 ∧ X j = Y j) ∨ (c = 1 ∧ X j ≠ Y j) ∨ (c = 2 ∧ X j < Y j) ∨ (c = 3 ∧ X j ≤ Y j) ∨
            (c = 4 ∧ X j > Y j) ∨ (c = 5 ∧ X j ≥ Y j) ∨ (c = 6 ∧ x j &&& y j ≠ 0))) ∧
        (wellFormed (.vfcmp o) = true → floatOk o.ty [a, b] = true →
          let t := fmtOf o.ty
          let u (j : Nat) : Nat := elemN sh.b (vread v a) j
          let w (j : Nat) : Nat := elemN sh.b (vread v b) j
          let un (j : Nat) : Bool := unorderedF t (u j) (w j)
          let lt (j : Nat) : Bool := ltF t (u j) (w j)
          let gt (j : Nat) : Bool := ltF t (w j) (u j)
          writes (.vfcmp o) 4
            (govFlags p sh.n fun j => sigFlag [unpackF t (u j), unpackF t (w j)])
            (fun j => (c = 0 ∧ ¬un j ∧ ¬lt j ∧ ¬gt j) ∨ (c = 1 ∧ (un j ∨ lt j ∨ gt j)) ∨ (c = 2 ∧ lt j) ∨
              (c = 3 ∧ ¬un j ∧ ¬gt j) ∨ (c = 4 ∧ gt j) ∨ (c = 5 ∧ ¬un j ∧ ¬lt j) ∨ (c = 6 ∧ un j) ∨
              (c = 7 ∧ ¬un j)))) ∧
    (∀ o : FVR, wellFormed (.vsel o) = true →
      let d := vop v.csr o.d o.vd
      let a := vop v.csr o.d o.va
      let b := vop v.csr o.d o.vb
      let sh := vshape o.ty [d, a, b]
      vectorOk s o.sl [a, b] [d] = true →
      exec (.vsel o) s = .next (vectorResult s o.sl 2 noDraw
        (vput v.csr sh d (vmap sh fun j =>
          elemN sh.b (vget v sh false (if (pmBits v o.pm).getLsbD j then a else b)) j) predOnes) 0)) ∧
    (∀ o : FVU, wellFormed (.vclass o) = true →
      let d := vop v.csr o.d o.vd
      let a := vop v.csr o.d o.va
      let sh := vshape o.ty [d, a]
      vectorOk s o.sl [a] [d] = true → floatOk o.ty [d, a] = true →
      exec (.vclass o) s = .next (vectorResult s o.sl 2 noDraw
        (vput v.csr sh d (vmap sh fun j => classF (fmtOf o.ty) (elemN sh.b (vread v a) j))
          (pmBits v o.pm)) 0))

/-- R213, R246 to R248. Conversions: every governed element is converted by itself, in the mode and with the
random word of the instruction. VWIDEN and VNARROW move between one register and a group of registers in
register view, and lane by lane for integers in lane view. -/
def Obligations.VectorConversionResults : Prop :=
  ∀ (o : FVU) (s : State), clear s = true →
    let v := s.view
    let d := vop v.csr o.d o.vd
    let a := vop v.csr o.d o.va
    let p := pmBits v o.pm
    let m := fieldMode v.csr .converts o.rm o.cls
    let reg := d.reg && a.reg
    (wellFormed (.vcvt o) = true → vectorOk s o.sl [a] [d] = true →
      (reg = true ∨ (o.ty = .f32 ∧ d.w = 8) ∨ (o.ty2 = .f32 ∧ a.w = 8)) →
      let sh := vshape o.ty [d, a]
      let xs := if o.ty2.isFlt then vread v a else vget v sh o.ty2.isSigned a
      let dr := draw v m (sh.n / 128) 128
      let f (j : Nat) := cvtElem o.ty o.ty2 sh.b (if sh.reg then sh.b else 4 * d.w) m.rm (lget 0 dr.words j)
        o.ns (elemN sh.b xs j)
      exec (.vcvt o) s = .next (vectorResult s o.sl 3 dr (vput v.csr sh d (vmap sh fun j => (f j).1) p)
        (govFlags p sh.n fun j => (f j).2))) ∧
    (wellFormed (.vwiden o) = true →
      let g := o.ty.bits / o.ty2.bits
      let sb := o.ty2.bits
      let f (b j : Nat) (xs : Nat) := widenElem o.ty o.ty2 b (elemN b xs j)
      (reg = true → d.groupBad g = false → vectorOk s o.sl [a] (groupRegs d g) = true →
        exec (.vwiden o) s = .next (vectorResult s o.sl 3 noDraw
          (groupPut v.csr d g o.ty.bits p fun j => (f sb j (vread v a)).1)
          (govFlags p (4096 / sb) fun j => (f sb j (vread v a)).2))) ∧
      (reg = false → o.ty.isFlt = false → o.ty2.isFlt = false → vectorOk s o.sl [a] [d] = true →
        let sh : VShape := ⟨false, 32, 128⟩
        let xs := vget v sh o.ty2.isSigned a
        exec (.vwiden o) s = .next (vectorResult s o.sl 3 noDraw
          (vput v.csr sh d (vmap sh fun j => (f 32 j xs).1) p) (govFlags p 128 fun j => (f 32 j xs).2)))) ∧
    (wellFormed (.vnarrow o) = true →
      let g := o.ty2.bits / o.ty.bits
      (reg = true → a.groupBad g = false → vectorOk s o.sl (groupRegs a g) [d] = true →
        let n := 4096 / o.ty.bits
        let dr := draw v m (n / 128) 128
        let sh : VShape := ⟨true, o.ty.bits, n⟩
        let f (j : Nat) := narrowElem o.ty o.ty2 o.ty2.bits o.ty.bits m.rm (lget 0 dr.words j) o.ns
          (groupElem g o.ty2.bits ((groupRegs a g).map (vread v)) j)
        exec (.vnarrow o) s = .next (vectorResult s o.sl 3 dr
          (vput v.csr sh d (vmap sh fun j => (f j).1) p) (govFlags p n fun j => (f j).2))) ∧
      (reg = false → o.ty.isFlt = false → o.ty2.isFlt = false → vectorOk s o.sl [a] [d] = true →
        let dr := draw v m 1 128
        let sh : VShape := ⟨false, 32, 128⟩
        let f (j : Nat) := narrowElem o.ty o.ty2 (4 * a.w) (4 * d.w) m.rm 0 o.ns
          (elemN (4 * a.w) (vread v a) j)
        exec (.vnarrow o) s = .next (vectorResult s o.sl 3 dr
          (vput v.csr sh d (vmap sh fun j => (f j).1) p) (govFlags p 128 fun j => (f j).2))))

/-- R211, R249, R250. VMXQ quantises blocks of 32 elements of a group of registers into a register of elements
and a register of block scales; VMXD restores the governed elements from such a pair. -/
def Obligations.VectorBlockScaleResults : Prop :=
  ∀ (o : FVU) (s : State), clear s = true →
    let v := s.view
    let d := vop v.csr o.d o.vd
    let a := vop v.csr o.d o.va
    let m := fieldMode v.csr .converts o.rm o.cls
    d.reg = true → a.reg = true →
    (wellFormed (.vmxq o) = true →
      let n := 4096 / o.ty.bits
      let g := o.ty2.bits / o.ty.bits
      a.groupBad g = false → d.groupBad 2 = false →
      vectorOk s o.sl (groupRegs a g) (groupRegs d 2) = true →
      let dr := draw v m (n / 128) 128
      let src (i : Nat) : FVal :=
        unpackF (fmtOf o.ty2) (groupElem g o.ty2.bits ((groupRegs a g).map (vread v)) i)
      let block (k : Nat) := mxQuant (o.ty == .mxf4) m.rm
        ((List.range 32).map fun j => lget 0 dr.words (32 * k + j)) ((List.range 32).map fun j => src (32 * k + j))
      exec (.vmxq o) s = .next (vectorResult s o.sl 3 dr
        (vwrite v.csr (d.regOf 0)
          (packN o.ty.bits n fun i => lget 0 (block (i / 32)).2.1 (i % 32)) (2 ^ 4096 - 1) ++
         vwrite v.csr (d.regOf 1)
          (packN 32 128 fun l => if l < n / 32 then (block l).1 else 0) (2 ^ 4096 - 1))
        (flagsOr ((List.range (n / 32)).map fun k => (block k).2.2)))) ∧
    (wellFormed (.vmxd o) = true →
      let n := 4096 / o.ty2.bits
      let g := o.ty.bits / o.ty2.bits
      a.groupBad 2 = false → d.groupBad g = false →
      vectorOk s o.sl (groupRegs a 2) (groupRegs d g) = true →
      let dr := draw v m (n / 128) 128
      let f (i : Nat) := mxDequant (fmtOf o.ty) (o.ty2 == .mxf4) m.rm (lget 0 dr.words i)
        (elemN 32 (vread v (a.regOf 1)) (i / 32) % 256) (elemN o.ty2.bits (vread v (a.regOf 0)) i)
      exec (.vmxd o) s = .next (vectorResult s o.sl 3 dr
        (groupPut v.csr d g o.ty.bits (pmBits v o.pm) fun i => (f i).1)
        (govFlags (pmBits v o.pm) n fun i => (f i).2)))

/-- R223, R251. Reductions: one 32-bit result in lane 0 of VD, whose other lanes keep their values, from the
pairwise tree over the governed elements. VRSUM wraps; VRFSUM adds in the accumulation type; VRMAX and VRMIN choose, and with
no governed element give the identity of the choice. -/
def Obligations.VectorReductionResults : Prop :=
  ∀ (o : FVU) (s : State), clear s = true →
    let v := s.view
    let d := vop v.csr o.d o.vd
    let a := vop v.csr o.d o.va
    let sh := vshape o.ty [d, a]
    let sgn := o.ty.isSigned
    let p := pmBits v o.pm
    let reduces (i : Instr) (flt : Bool) (read f : Nat → Nat × Nat) (g : Nat → Nat → Nat × Nat)
        (done : Option Nat → Nat × Nat) : Prop :=
      wellFormed i = true → vectorOk s o.sl [a] [d] = true → (flt = true → floatOk o.ty [d, a] = true) →
      let root := treeRoot g (Nat.log2 sh.n)
        ((List.range sh.n).map fun j => if p.getLsbD j then some (f j).1 else none)
      let r := done root.1
      exec i s = .next (vectorResult s o.sl 6 noDraw
        (vwrite v.csr d (r.1 % 2 ^ (4 * d.w)) (2 ^ (4 * d.w) - 1))
        (flagsOr [(govFlags p sh.n fun j => (read j).2).toNat, root.2, r.2]))
    let x (j : Nat) : Nat := elemN sh.b (vget v sh sgn a) j
    let X (j : Nat) : Int := if sgn then toSigned sh.b (x j) else x j
    let e (j : Nat) : Nat := elemN sh.b (vread v a) j
    let wide (j : Nat) : Nat × Nat := ((X j % 2 ^ 32).toNat, 0)
    let val (n : Nat) : Int := if sgn then toSigned 32 n else n
    reduces (.vrsum o) false wide wide (fun m n => ((m + n) % 2 ^ 32, 0)) (fun r => (r.getD 0, 0)) ∧
    (let t := fmtOf o.ty2
     let h (j : Nat) := if o.ty2 = o.ty then (e j, 0) else cvtFF t (fmtOf o.ty) .rne 0 false (e j)
     reduces (.vrfsum o) true h h (addF t (vrfsumRm v.csr o) 0) (fun r => match r with
       | none => (0, 0)
       | some y => cvtFF fmtF32 t .rne 0 false y)) ∧
    (o.ty.isFlt = true →
      let h (j : Nat) : Nat × Nat := (e j, 0)
      let fin (wantMax : Bool) (r : Option Nat) : Nat × Nat := match r with
        | none => (packInf fmtF32 wantMax, 0)
        | some y => cvtFF fmtF32 (fmtOf o.ty) .rne 0 false y
      reduces (.vrmax o) true h h (minMaxF (fmtOf o.ty) true) (fin true) ∧
      reduces (.vrmin o) true h h (minMaxF (fmtOf o.ty) false) (fin false)) ∧
    (o.ty.isFlt = false →
      let least : Int := if sgn then -2 ^ (sh.b - 1) else 0
      let most : Int := if sgn then 2 ^ (sh.b - 1) - 1 else 2 ^ sh.b - 1
      reduces (.vrmax o) false wide wide (fun m n => (if val m < val n then n else m, 0))
        (fun r => (r.getD (least % 2 ^ 32).toNat, 0)) ∧
      reduces (.vrmin o) false wide wide (fun m n => (if val n < val m then n else m, 0))
        (fun r => (r.getD (most % 2 ^ 32).toNat, 0)))

/-- R256. The special functions: each element is the function of its name on the element of VA, rounded in the
instruction's mode; an f32 result ignores the mode and draws nothing. -/
def Obligations.VectorSpecialResults : Prop :=
  ∀ (o : FVU) (s : State), clear s = true →
    let v := s.view
    let d := vop v.csr o.d o.vd
    let a := vop v.csr o.d o.va
    let sh := vshape o.ty [d, a]
    let p := pmBits v o.pm
    let m : RMode := if o.ty = .f32 then ⟨.rne, none⟩ else fieldMode v.csr .computes o.rm o.cls
    let dr := draw v m (sh.n / 128) 128
    let writes (i : Instr) (fn : SpFn) : Prop := wellFormed i = true →
      let f (j : Nat) := spElem fn o.ty m.rm (lget 0 dr.words j) (elemN sh.b (vread v a) j)
      exec i s = .next (vectorResult s o.sl 10 dr (vput v.csr sh d (vmap sh fun j => (f j).1) p)
        (govFlags p sh.n fun j => (f j).2))
    vectorOk s o.sl [a] [d] = true → floatOk o.ty [d, a] = true →
      writes (.vexp2 o) .exp2 ∧ writes (.vlog2 o) .log2 ∧ writes (.vrcp o) .rcp ∧
      writes (.vrsqrt o) .rsqrt ∧ writes (.vsqrt o) .sqrt ∧ writes (.vtanh o) .tanh ∧
      writes (.vsigm o) .sigm ∧ writes (.vsinp o) .sinp ∧ writes (.vcosp o) .cosp

/-- R252 to R255. Permutes: VPERM takes elements by the low bits of an index vector; VSLIDE shifts in zeros;
VBCAST, VEXTR and VINS move one element; VZIP and VUNZIP interleave and separate two registers; VCXS exchanges
the key and the payload of the pairs that stand in the wrong order. -/
def Obligations.VectorPermuteResults : Prop :=
  ∀ s : State, clear s = true →
    let v := s.view
    (∀ o : FVR, wellFormed (.vperm o) = true →
      let d := vop v.csr o.d o.vd
      let a := vop v.csr o.d o.va
      let b := vop v.csr o.d o.vb
      let sh := vshape o.ty [d, a, b]
      let e (q : VOp) (j : Nat) : Nat := elemN sh.b (vget v sh false q) j
      vectorOk s o.sl [a, b] [d] = true →
      exec (.vperm o) s = .next (vectorResult s o.sl 3 noDraw
        (vput v.csr sh d (vmap sh fun j => e a (e b j % sh.n)) (pmBits v o.pm)) 0)) ∧
    (∀ o : FVI,
      let d := vop v.csr o.d o.vd
      let a := vop v.csr o.d o.va
      let sh := vshape o.ty [d, a]
      let e (j : Nat) : Nat := elemN sh.b (vget v sh false a) j
      let index := (o.x.map BitVec.toNat).getD o.imm.toNat % sh.n
      let writes (i : Instr) (p : Pred) (f : Nat → Nat) : Prop := wellFormed i = true →
        exec i s = .next (vectorResult s o.sl 3 noDraw (vput v.csr sh d (vmap sh f) p) 0)
      vectorOk s o.sl [a] [d] = true →
        writes (.vslide o) predOnes (fun j =>
          let k := (j : Int) + o.long.toInt
          if 0 ≤ k ∧ k < sh.n then e k.toNat else 0) ∧
        writes (.vbcast o) predOnes (fun _ => e index) ∧
        writes (.vextr o) 1 (fun _ => e index) ∧
        writes (.vins o) (BitVec.ofNat 1024 (2 ^ index)) (fun _ => e 0)) ∧
    (∀ o : FVR,
      let d := vop v.csr o.d o.vd
      let a := vop v.csr o.d o.va
      let b := vop v.csr o.d o.vb
      let w := o.ty.bits
      let n := 4096 / w
      let x (k : Nat) : Nat := elemN w (vread v a) k
      let y (k : Nat) : Nat := elemN w (vread v b) k
      let writes (i : Instr) (z : Nat → Nat) : Prop := wellFormed i = true →
        exec i s = .next (vectorResult s o.sl 3 noDraw
          (vwrite v.csr (d.regOf 0) (packN w n fun j => z j) (elemMask w n (pmBits v o.pm)) ++
           vwrite v.csr (d.regOf 1) (packN w n fun j => z (n + j)) (elemMask w n (pmBits v o.pm))) 0)
      d.reg = true → a.reg = true → b.reg = true → d.groupBad 2 = false →
      vectorOk s o.sl [a, b] [d.regOf 0, d.regOf 1] = true →
        writes (.vzip o) (fun k => if k % 2 = 0 then x (k / 2) else y (k / 2)) ∧
        writes (.vunzip o) (fun k =>
          let c := if k < n then 2 * k else 2 * (k - n) + 1
          if c < n then x c else y (c - n))) ∧
    (∀ o : FVX, wellFormed (.vcxs o) = true →
      let key := vop v.csr o.d o.key
      let pay := vop v.csr o.d o.pay
      let sh := vshape o.ty [key, pay]
      let kb := if sh.reg then sh.b else 4 * key.w
      let pb := if sh.reg then sh.b else 4 * pay.w
      let k (j : Nat) : Nat := elemN kb (vread v key) j
      let rank (j : Nat) : Int :=
        if o.ty.isFlt then keyMap kb (k j) else if o.ty.isSigned then toSigned kb (k j) else k j
      let J := o.j.toNat
      let K := o.k.toNat
      let wrong (j : Nat) : Prop := if j.testBit K = o.dir then rank (j + 2 ^ J) < rank j
        else rank j < rank (j + 2 ^ J)
      J < K → K ≤ Nat.log2 sh.n → (o.ty.isFlt = true → sh.reg = true ∨ (o.ty = .f32 ∧ key.w = 8)) →
      vectorOk s o.sl [key, pay] [key, pay] = true →
      ∃ src : Nat → Nat,
        exec (.vcxs o) s = .next (vectorResult s o.sl 3 noDraw
          (vwrite v.csr key (packN kb sh.n fun j => k (src j)) (2 ^ (kb * sh.n) - 1) ++
           vwrite v.csr pay (packN pb sh.n fun j => elemN pb (vread v pay) (src j))
             (2 ^ (pb * sh.n) - 1)) 0) ∧
        ∀ j, j.testBit J = false →
          (wrong j → src j = j + 2 ^ J ∧ src (j + 2 ^ J) = j) ∧
          (¬wrong j → src j = j ∧ src (j + 2 ^ J) = j + 2 ^ J))

/-- R176, R263 to R265. VMOV, VLI and VIOTA write their elements; VCHK has no result: it issues when its spans
hold the same planes, and traps with 0x14 at the first difference, lowest plane first, when they do not. The model's
choices: log 96. -/
def Obligations.VectorMoveResults : Prop :=
  ∀ s : State, clear s = true →
    let v := s.view
    (∀ o : FVU, wellFormed (.vmov o) = true →
      let d := vop v.csr o.d o.vd
      let a := vop v.csr o.d o.va
      let sh := vshape o.ty [d, a]
      vectorOk s o.sl [a] [d] = true →
      exec (.vmov o) s = .next (vectorResult s o.sl 2 noDraw
        (vput v.csr sh d (vget v sh o.ty.isSigned a) (pmBits v o.pm)) 0)) ∧
    (∀ o : FVI, wellFormed (.vli o) = true →
      let d := vop v.csr o.d o.vd
      let sh := vshape o.ty [d]
      vectorOk s o.sl [] [d] = true →
      exec (.vli o) s = .next (vectorResult s o.sl 2 noDraw
        (vput v.csr sh d (vmap sh fun _ => o.long.toNat) predOnes) 0)) ∧
    (∀ o : FVU, wellFormed (.viota o) = true →
      let d := vop v.csr o.d o.vd
      let sh := vshape o.ty [d]
      vectorOk s o.sl [] [d] = true →
      exec (.viota o) s = .next (vectorResult s o.sl 2 noDraw
        (vput v.csr sh d (vmap sh fun j => (List.range j).countP fun k => (pmBits v o.pm).getLsbD k)
          predOnes) 0)) ∧
    (∀ o : FVR, wellFormed (.vchk o) = true →
      let a := vop v.csr o.d o.va
      let b := vop v.csr o.d o.vb
      let nib (p : VOp) (k : Nat) : Nat :=
        bitsN (planeRead v.regs (rotPlane v.csr.vrb (p.start + k / 128))).toNat (4 * (k % 128)) 4
      vectorOk s o.sl [a, b] [] = true →
      ((∀ k < 128 * a.w, nib a k = nib b k) → exec (.vchk o) s = .next (s.report .issued)) ∧
      (∀ k < 128 * a.w, nib a k ≠ nib b k → (∀ j < k, nib a j = nib b j) →
        exec (.vchk o) s = .next ((trapHere s (some o.sl.slot) 0x14 (wordOf k)).report
          (.trapped 0x14 (wordOf k) 0))))

/-- R257. The predicate operations work on all 1,024 bits; PCNT counts the bits below the element count that
both predicates have, and PFIRST gives the lowest, or the element count. -/
def Obligations.PredicateResults : Prop :=
  ∀ (o : FVP) (s : State), clear s = true →
    let v := s.view
    let p (n : BitVec 6) : Nat := rotPred v.csr.prb n.toNat
    let a := predRead v.regs (p o.pa)
    let b := predRead v.regs (p o.pb)
    let writes (i : Instr) (x : Pred) : Prop := wellFormed i = true →
      exec i s = .next (posted s o.sl.slot 2 [.pred (p o.pd) x (BitVec.allOnes 1024)])
    let n := 4096 / o.ty.bits
    let dst := sop v.csr o.d o.sd
    let num (r : Nat) : State := posted s o.sl.slot 2 [.slices dst.start dst.w (r % 2 ^ (4 * dst.w))]
    writes (.pand o) (a &&& b) ∧ writes (.por o) (a ||| b) ∧ writes (.pxor o) (a ^^^ b) ∧
    writes (.pnot o) (~~~a) ∧
    (wellFormed (.pcnt o) = true → scalarOk s o.d [o.sd] = true →
      exec (.pcnt o) s = .next (num ((List.range n).countP fun j => (a &&& b).getLsbD j))) ∧
    (wellFormed (.pfirst o) = true → scalarOk s o.d [o.sd] = true →
      ∃ r, exec (.pfirst o) s = .next (num r) ∧ r ≤ n ∧ (∀ j < r, (a &&& b).getLsbD j = false) ∧
        (r < n → (a &&& b).getLsbD r = true))

/-- R258 to R261. The vector slots' accesses to the core's scratchpad, every element in a core-owned tile of
window 0xC. VLD, VLDX and VLDS put the bytes as they stand at issue in flight for eight exposed cycles, and where an
element meets a word that cannot be corrected deliver 0x70 with its address in place of the result (R406); VST
and VSTX queue theirs for the end of the group, a higher lane after a lower one. -/
def Obligations.VectorMemoryResults : Prop :=
  ∀ s : State, clear s = true →
    let v := s.view
    let reach (l : List (Word × Nat)) : Prop := ∀ e ∈ l, padCheck s e.1 e.2 = none
    let off (a : Word) : Nat := a.toNat % 2 ^ 60
    let loads (i : Instr) (sl : VSlot) (l : List (Word × Nat)) (vals : List UVal) : Prop :=
      (padEcc s.core l = none → exec i s = .next (vectorResult (checkedPad s l) sl 8 noDraw vals 0)) ∧
      (∀ a, padEcc s.core l = some a → exec i s = .next (spoiled (checkedPad s l) sl.slot 8 a))
    (∀ o : FVM,
      let d := vop v.csr o.d o.data
      let a : Word := BitVec.ofNat 64 (valZ v o.d o.base) + o.off.signExtend 64
      let sh := vshape o.ty [d]
      let m := govMask sh d.w (pmBits v o.pm)
      scalarOk s o.d [o.base] = true → reach [(a, 64 * d.w)] →
        (wellFormed (.vld o) = true → vectorOk s o.sl [] [d] = true →
          loads (.vld o) o.sl [(a, 64 * d.w)] (vwrite v.csr d (ofImage d.w (padNat s.core a (64 * d.w))) m)) ∧
        (wellFormed (.vst o) = true → vectorOk s o.sl [d] [] = true →
          exec (.vst o) s = .next ((s.setCore { s.core with ends := s.core.ends ++
            [.bytes (off a) (leBytes (64 * d.w) (imageOf d.w (vread v d)))
              (leBytes (64 * d.w) (imageOf d.w m))] }).report .issued))) ∧
    (∀ o : FVG,
      let d := vop v.csr o.d o.data
      let x := vop v.csr o.d o.vidx
      let n := d.w / 2
      let p := pmBits v o.pm
      let lanes := (List.range 128).filter fun l => p.getLsbD l
      let a (l : Nat) : Word := BitVec.ofNat 64 (valZ v o.d o.base + elemN (4 * x.w) (vread v x) l)
      scalarOk s o.d [o.base] = true → d.w % 2 = 0 → reach (lanes.map fun l => (a l, n)) →
        (wellFormed (.vldx o) = true → vectorOk s o.sl [x] [d] = true →
          loads (.vldx o) o.sl (lanes.map fun l => (a l, n))
            (vwrite v.csr d (packN (4 * d.w) 128 fun l => if p.getLsbD l then padNat s.core (a l) n else 0)
              (elemMask (4 * d.w) 128 p))) ∧
        (wellFormed (.vstx o) = true → vectorOk s o.sl [d, x] [] = true →
          let puts := lanes.map fun l => GroupEnd.bytes (off (a l))
            (leBytes n (elemN (4 * d.w) (vread v d) l)) (List.replicate n 0xFF)
          exec (.vstx o) s =
            .next ((s.setCore { s.core with ends := s.core.ends ++ puts }).report .issued))) ∧
    (∀ o : FVS, wellFormed (.vlds o) = true →
      let d := vop v.csr o.d o.data
      let sh := vshape o.ty [d]
      let p := pmBits v o.pm
      let nibbles := sh.reg && sh.b == 4
      let n := if nibbles then 1 else if sh.reg then sh.b / 8 else d.w / 2
      let at' (j : Nat) : Int := (valZ v o.d o.base : Int) + j * valS v o.d o.stride
      let nib (j : Nat) : Nat := ((2 * (valZ v o.d o.base : Int) + j * valS v o.d o.stride) % 2 ^ 65).toNat
      let a (j : Nat) : Word := if nibbles then BitVec.ofNat 64 (nib j / 2) else BitVec.ofInt 64 (at' j)
      let elem (j : Nat) : Nat := if nibbles then padNat s.core (a j) 1 / 2 ^ (4 * (nib j % 2)) % 16
        else padNat s.core (a j) n
      let b := if sh.reg then sh.b else 4 * d.w
      scalarOk s o.d [o.base, o.stride] = true → (sh.reg = true ∨ d.w % 2 = 0) →
      let l := ((List.range sh.n).filter fun j => p.getLsbD j).map fun j => (a j, n)
      reach l → vectorOk s o.sl [] [d] = true →
      loads (.vlds o) o.sl l
        (vwrite v.csr d (packN b sh.n fun j => if p.getLsbD j then elem j else 0) (elemMask b sh.n p)))

/-! ### The Q slot -/

/-- R312 to R327, R415. The stream instructions. Each pays 16 to 128 pJ for every 64 bits of length and puts its
stream, class, span or predicate in flight for 2 + L ÷ 64 exposed cycles (a seed for 3). The correlation rules
of R317 to R320 are hypotheses: QMUL wants disjoint masks, QMIN, QMAX and QABSD pristine sources of one single
class, QMUXA a select disjoint from both, and all equal lengths. -/
def Obligations.StreamResults : Prop :=
  ∀ s : State, clear s = true →
    let v := s.view
    let tag (q : BitVec 3) : StreamTag := tagRead v.regs q.toNat
    let len (q : BitVec 3) : Nat := (tag q).length
    let lane (q : BitVec 3) (l : Nat) : Nat := (streamRead v.regs q.toNat l).toNat % 2 ^ len q
    let count (n x : Nat) : Nat := (List.range n).countP fun k => x.testBit k
    let done (pj : Nat) (n : Nat) (vals : List UVal) : State := posted (charged s pj) .q (2 + n / 64) vals
    let stream (q : BitVec 3) (t : StreamTag) (f : Nat → Nat) : UVal :=
      .stream q.toNat ((List.range 128).map fun l => BitVec.ofNat 512 (f l)) t
    let issues (i : Instr) (cost n : Nat) (vals : List UVal) : Prop :=
      wellFormed i = true → kilnPays s.core (cost * n / 64) = true →
      exec i s = .next (done (cost * n / 64) n vals)
    let single (m : BitVec 16) : Prop := ∃ c < 16, m = BitVec.ofNat 16 (2 ^ c)
    (∀ o : FQR,
      let L := 64 * 2 ^ o.len.toNat
      let A := len o.qa
      let a := tag o.qa
      let b := tag o.qb
      let z := tag o.qs
      issues (.qlen o) 16 L [stream o.qd ⟨o.len, a.pris && decide (L ≤ A), a.mask⟩ fun l =>
        lane o.qa l % 2 ^ L] ∧
      issues (.qclr o) 16 L [stream o.qd ⟨o.len, false, 0⟩ fun _ => 0] ∧
      issues (.qmov o) 16 A [stream o.qd a (lane o.qa)] ∧
      issues (.qnot o) 32 A [stream o.qd { a with pris := false } fun l => 2 ^ A - 1 - lane o.qa l] ∧
      (a.len = b.len →
        (a.mask &&& b.mask = 0 → issues (.qmul o) 32 A
          [stream o.qd ⟨a.len, false, a.mask ||| b.mask⟩ fun l => lane o.qa l &&& lane o.qb l]) ∧
        (a.pris = true → b.pris = true → a.mask = b.mask → single a.mask →
          issues (.qmin o) 32 A [stream o.qd a fun l => lane o.qa l &&& lane o.qb l] ∧
          issues (.qmax o) 32 A [stream o.qd a fun l => lane o.qa l ||| lane o.qb l] ∧
          issues (.qabsd o) 32 A
            [stream o.qd { a with pris := false } fun l => lane o.qa l ^^^ lane o.qb l]) ∧
        (a.len = z.len → z.mask &&& (a.mask ||| b.mask) = 0 →
          issues (.qmuxa o) 32 A [stream o.qd ⟨a.len, false, a.mask ||| b.mask ||| z.mask⟩ fun l =>
            (lane o.qa l &&& lane o.qs l) ||| (lane o.qb l &&& (2 ^ A - 1 - lane o.qs l))])) ∧
      issues (.qregen o) 128 (max A L) [stream o.qd ⟨o.len, true, BitVec.ofNat 16 (2 ^ o.cls.toNat)⟩ fun l =>
        threshold (laneSeeds (genRead v.regs o.cls.toNat) L l)
          (count A (lane o.qa l) * (65536 / A))]) ∧
    (∀ o : FQV,
      let d := vop v.csr false o.vs
      let n := len o.q
      (operandsOk s 3 [d] [] = true →
        issues (.qgen o) 96 n [stream o.q ⟨(tag o.q).len, true, BitVec.ofNat 16 (2 ^ o.cls.toNat)⟩ fun l =>
          threshold (laneSeeds (genRead v.regs o.cls.toNat) n l)
            (min (elemN (4 * d.w) (vread v d) l) 65536)]) ∧
      (operandsOk s 3 [] [d] = true → issues (.qcnt o) 48 n (vwrite v.csr d
        (packN (4 * d.w) 128 fun l => min (count n (lane o.q l) * (65536 / n)) (2 ^ (4 * d.w) - 1))
        (2 ^ (4 * d.w * 128) - 1)))) ∧
    (∀ o : FQP, (tag o.qa).len = (tag o.qb).len →
      ∃ x : Pred, issues (.qcmp o) 48 (len o.qa)
          [.pred (rotPred v.csr.prb o.pd.toNat) x (BitVec.allOnes 1024)] ∧
        ∀ l, x.getLsbD l = true ↔ l < 128 ∧ count (len o.qb) (lane o.qb l) ≤ count (len o.qa) (lane o.qa l)) ∧
    (∀ o : FQS, scalarOk s false [o.sa] = true → kilnPays s.core 64 = true →
      let x := valZ v false o.sa
      let seeds (i : Instr) (g : GenClass) : Prop := wellFormed i = true →
        exec i s = .next (posted (charged s 64) .q 3 [.gen o.cls.toNat g])
      seeds (.qseedLfsr o) ⟨false, 0, lfsrSeeds x, lfsrSeeds x⟩ ∧
      (x ≤ 9 → seeds (.qseedRamp o)
        ⟨true, BitVec.ofNat 4 x, (genRead v.regs o.cls.toNat).seed, 0⟩))

/-! ### The M slot -/

/-- R290 to R294, R299 to R301, R304, R309, R311. The tracked instructions of the M slot that name a page, a
macro or accumulator tiles. Under the conditions of its entry each pays its energy and starts the tracked
operation that its name stands for; a list of MOUTL that cannot be corrected leaves no effect, and 0x70 is delivered.
The model's choices: log 53. -/
def Obligations.MatrixTrackedStart : Prop :=
  ∀ s : State, clear s = true →
    let pays (pj : Nat) : Prop := kilnPays s.core pj = true
    let page (o : FMC) : Nat :=
      pageId s.core.shelf o.mac.toNat (o.raw.toNat.testBit 2) (o.raw.toNat % 4)
    (∀ o : FMC,
      (wellFormed (.mpageRd o) = true → scalarOk s false [o.sa] = true → pays 8 →
        exec (.mpageRd o) s = .next (startsM s 8 (.pageRd (page o) (o.fn != 0) o.sa.start.toNat o.sa.w))) ∧
      (wellFormed (.mpageClr o) = true → macrosReady s true [o.mac.toNat] = true → pays 512 →
        exec (.mpageClr o) s = .next (startsM s 512 (.pageClr o.mac.toNat (page o)))) ∧
      (wellFormed (.mscrub o) = true → macrosReady s true [o.mac.toNat] = true → pays 1024 →
        exec (.mscrub o) s = .next (startsM s 1024 (.scrub o.mac.toNat (page o)))) ∧
      (wellFormed (.mwideOn o) = true → o.ct.toNat % 2 = 0 → -320 ≤ o.long.toInt → o.long.toInt ≤ 320 →
        pays 32 → exec (.mwideOn o) s = .next (startsM s 32 (.wideOn o.ct.toNat o.long.toInt))) ∧
      (wellFormed (.mwideOff o) = true → o.ct.toNat % 2 = 0 → pays 32 →
        exec (.mwideOff o) s = .next (startsM s 32 (.wideOff o.ct.toNat))) ∧
      (let n := o.raw.toNat % 32 + 1
       let last := o.ct.toNat + n - 1
       wellFormed (.macz o) = true → last ≤ 31 → s.core.mat.nameable o.ct.toNat = true →
        (last % 2 = 0 → s.core.mat.inWide last = false) → pays (16 * n) →
        exec (.macz o) s = .next (startsM s (16 * n) (.accZero o.ct.toNat n))) ∧
      (wellFormed (.mrange o) = true → scalarOk s false [o.sa] = true → pays 8 →
        let x := rangeMask s.core.mat o.fn.toNat
        let m := (charged s 8).core.mat
        exec (.mrange o) s = .next ((((charged s 8).setMat
          { m with alarms := if o.fn = 1 then 0 else m.alarms }).track .m
          (.span o.sa.start.toNat o.sa.w (x % 2 ^ (4 * o.sa.w)))).report .issued))) ∧
    (∀ o : FML, wellFormed (.mload o) = true → scalarOk s false [o.src] = true →
      let n := if o.ty = .n8 then 1024 else 16384
      let a : Word := BitVec.ofNat 64 (valZ s.view false o.src)
      let pj := if o.ty = .n8 then 128 else 2048
      a.toNat < 2 ^ 60 → a.toNat % 64 = 0 → (a.toNat + n - 1) / 2 ^ 21 = a.toNat / 2 ^ 21 →
      accessOk s .read a n = true →
      (∀ p ∈ pagesOf a.toNat n, nearLeaf s.xlat s.core.walker s.core.csr.tasid p.1 = true) →
      macrosReady s true [o.mac.toNat] = true → pays pj →
      let x := access s .read a n
      exec (.mload o) s = .next (((charged s pj).track .m (.reload o.mac.toNat
        (pageId s.core.shelf o.mac.toNat o.half o.page.toNat) o.ty a x.runs o.evict.toNat) .relaxed x.so
        x.uo).report .issued)) ∧
    (∀ o : FMA,
      let m := o.mac.toNat
      let n := o.mcnt.toNat + 1
      m + n ≤ 256 →
      (let l := s.core.mat.latch o.latch.toNat
       wellFormed (.mdot o) = true → macrosReady s true (rangeFrom m n) = true → pays (180 * l.planes * n) →
        exec (.mdot o) s = .next (startsM s (180 * l.planes * n) (.dot m o.page.toNat n o.half l))) ∧
      (let t := o.atile.toNat
       let u := tileSpan s.core.mat t
       let pj := (if o.ty = .mxf4 then 64 else 40) * n
       wellFormed (.mcoll o) = true →
        (∀ k, m ≤ k → k < m + n → bufferFormat s.core k = o.ty) →
        (∀ j < n * (if o.ty = .mxf4 then 2 else 1), t + u * j ≤ 31 ∧ s.core.mat.nameable (t + u * j) = true ∧
          s.core.mat.inWide (t + u * j) = (s.core.mat.anchor t).isSome) →
        pays pj →
        exec (.mcoll o) s = .next (startsM s pj
          (.coll t u ((if o.half then 8 else 0) + o.latch.toNat) m n o.ty)))) ∧
    (∀ o : FMV, wellFormed (.moutl o) = true → scalarOk s false [o.sa] = true →
      let a : Word := BitVec.ofNat 64 (valZ s.view false o.sa)
      let list (n : Nat) : Nat := leNat (localBytes s.core (access s .read a n) n)
      let n := list 8 % 512
      let len := 8 * (1 + n)
      let entries := (List.range n).map fun k => wordOf (elemN 64 (list len) (k + 1))
      let t := o.atile.toNat
      let checked := localCheck (access s .read a len) len (charged s (32 + 12 * n))
      a.toNat / 2 ^ 60 = 0xC → a.toNat % 8 = 0 → accessOk s .read a 8 = true → accessOk s .read a len = true →
      list 8 / 512 = 0 → n ≤ 256 → s.core.mat.nameable t = true → pays (32 + 12 * n) →
      (localEcc s.core (access s .read a len) len = false → (∀ w ∈ entries, w.toNat < 2 ^ 42) →
        exec (.moutl o) s = .next ((checked.track .m (.outl t (tileSpan s.core.mat t) entries)).report .issued)) ∧
      (localEcc s.core (access s .read a len) len = true →
        exec (.moutl o) s = .next (spoiled checked .m 6 a)))

/-- R301, R302, R307, R308. MACRD reads 4,096 bits of an accumulator tile into a register, rounded and masked as
its entry says; MACWR writes them; MRMW starts an addition of planes to rows of the storage view. An element that
MACRD reads and that cannot be corrected leaves no effect, and 0x70 with its address is delivered. The model's
choices: log 53. -/
def Obligations.MatrixAccumulatorAccess : Prop :=
  ∀ s : State, clear s = true →
    let v := s.view
    (∀ o : FMV, scalarOk s false [o.sa] = true → kilnPays s.core 64 = true →
      let mt := s.core.mat
      let t := o.atile.toNat
      let sel := valZ v false o.sa
      let rs := sel % 16
      let n := 4096 / o.ty.bits
      let reg := vop v.csr false o.vs
      64 * rs + n ≤ 1024 → mt.nameable t = true →
      (wellFormed (.macrd o) = true → (o.latch.getLsbD 0 = true → mt.maskValid = true) →
        operandsOk s 2 [] [reg] = true →
        let m := fieldMode v.csr .converts o.rm o.cls
        let dr := draw v m (n / 128) 128
        let hidden (e : Nat) : Bool := o.latch.getLsbD 0 &&
          masked mt.mask.toNat (bitsN sel 8 6) (bitsN sel 32 32) (e / 64) (e % 64)
        let least : Nat := if o.ty = .e4m3 then 0xFE else packInf (fmtOf o.ty) true
        let f (k : Nat) : Nat × Nat :=
          if hidden (64 * rs + k) then (least, 0)
          else if o.ty.isInt then
            let r := cvtVI (-2 ^ (o.ty.bits - 1)) (2 ^ (o.ty.bits - 1) - 1) m.rm (lget 0 dr.words k)
              (mt.accValue t (64 * rs + k))
            (wrapI o.ty.bits r.1, r.2)
          else cvtV (fmtOf o.ty) m.rm (lget 0 dr.words k) o.ns (mt.accValue t (64 * rs + k))
        let q := checkedAcc (charged s 64) t (64 * rs) n
        (accSound s t (64 * rs) n = true →
          exec (.macrd o) s = .next (((dr.apply q).track .m
            (.planes (vwrite v.csr reg (packN o.ty.bits n fun k => (f k).1) (2 ^ 4096 - 1))
              (flagsOr ((List.range n).map fun k => (f k).2)))).report .issued)) ∧
        (accSound s t (64 * rs) n = false →
          ∃ r ∈ accRanges mt t (64 * rs) n, (eccBad s.core r.1 r.2).isSome = true ∧
            exec (.macrd o) s = .next (spoiled q .m 6 (wordOf (0xD * 2 ^ 60 + (r.1 - 2 ^ 20)))))) ∧
      (wellFormed (.macwr o) = true → operandsOk s 2 [reg] [] = true →
        let m : RMode := if o.ty = .i32 ∧ mt.anchor t = none then fieldMode v.csr .converts o.rm o.cls
          else ⟨.rne, none⟩
        let dr := draw v m (n / 128) 128
        ∃ code : Nat, Rm.ofCode code = m.rm ∧
          exec (.macwr o) s = .next (((dr.apply (charged s 64)).track .m
            (.accWrite t (tileSpan mt t) rs o.ty code dr.words (vread v reg))).report .issued))) ∧
    (∀ o : FMS, wellFormed (.mrmw o) = true →
      let m := o.mac.toNat
      let reg := vop v.csr false o.vs
      macrosReady s false [m] = true → o.row.toNat + reg.w ≤ 256 → operandsOk s 2 [] [reg] = true →
      (∀ q ∈ s.core.mat.refetch, q / 8 ≠ pageId s.core.shelf m o.half o.page.toNat / 8) →
      kilnPays s.core (48 * reg.w) = true →
      exec (.mrmw o) s = .next (startsM s (48 * reg.w) (.rmw m
        (pageId s.core.shelf m o.half o.page.toNat) o.row.toNat reg.w o.ty (reg.phys v.csr)
        (packN 512 reg.w fun q => (planeRead v.regs (lget 0 (reg.phys v.csr) q)).toNat))))

/-- R72, R284, R285, R291, R292, R295, R298, R303, R305, R307 to R310. The M-slot instructions that act as they issue:
the modes of macros, which change at the end of the group; a latch from registers or from an accumulator tile, whose
flags reach FPSTAT at the end of the group; rows of the storage view, with the corrections a read makes, for a write
the reads of the page's record that came before it, and with the vertical bus in use for the latency; the tree mask;
and the segments, of which none wakes before a store that puts a spare of it in force. What cannot be corrected leaves
no effect, and 0x70 is delivered. The model's choices: log 53. -/
def Obligations.MatrixImmediateResults : Prop :=
  ∀ s : State, clear s = true →
    let v := s.view
    let pays (pj : Nat) : Prop := kilnPays s.core pj = true
    (∀ o : FMC, wellFormed (.mmode o) = true →
      let m := o.mac.toNat
      let n := o.ct.toNat + 1
      m + n ≤ 256 → (∀ k ∈ rangeFrom m n, segNow s.core.shelf s.cycle (k / 32) = .awake) →
      inFlightBefore s (rangeFrom m n).contains = false → pays (8 * n) →
      let c := (charged s (8 * n)).core
      ∃ v m', exec (.mmode o) s = .next ((s.setCore { c with ends := c.ends ++ [.modes v m'] }).report .issued) ∧
        ∀ d : Core, ∀ k < 256, (GroupEnd.apply d (.modes v m')).mat.modes.getLsbD k =
          if m ≤ k ∧ k < m + n then o.fn != 0 else d.mat.modes.getLsbD k) ∧
    (∀ o : FMV, scalarOk s false [o.sa] = true →
      let k := valZ v false o.sa
      let latched (t : State) (l : Latch) : State := t.putLatch o.latch.toNat l
      let int4 (c : Nat) : Nat := (mxf4Int c % 256).toNat
      let reg := vop v.csr false o.vs
      (wellFormed (.mlatch o) = true → reg.groupBad 2 = false →
        operandsOk s 2 [reg.regOf 0, reg.regOf 1] [] = true → k ≤ (if o.ty = .mxf4 then 3 else 1) → pays 64 →
        let es := vread v (reg.regOf 0)
        exec (.mlatch o) s = .next ((latched (charged s 64)
          { act := BitVec.ofNat 2048 (packN 8 256 fun r => if o.ty = .mxf4 then int4 (elemN 4 es (256 * k + r))
              else elemN 8 es (256 * k + r))
            scales := BitVec.ofNat 64 (packN 8 8 fun b => elemN 32 (vread v (reg.regOf 1)) (8 * k + b) % 256)
            fmt := o.ty }).report .issued)) ∧
      (wellFormed (.mchain o) = true → k ≤ 3 → s.core.mat.nameable o.atile.toNat = true → pays 160 →
        let q := checkedAcc (charged s 160) o.atile.toNat (256 * k) 256
        let m := fieldMode v.csr .converts o.rm o.cls
        let per := if o.ty = .mxf4 then 8 else 4
        let dr := draw v m per (256 / per)
        let block (b : Nat) := mxQuant (o.ty = .mxf4) m.rm ((List.range 32).map fun j =>
            lget 0 dr.words (32 * b + j))
          ((List.range 32).map fun j => s.core.mat.accValue o.atile.toNat (256 * k + 32 * b + j))
        let code (r : Nat) : Nat := lget 0 (block (r / 32)).2.1 (r % 32)
        let t := latched (dr.apply q)
          { act := BitVec.ofNat 2048 (packN 8 256 fun r => if o.ty = .mxf4 then int4 (code r) else code r)
            scales := BitVec.ofNat 64 (packN 8 8 fun b => (block b).1)
            fmt := o.ty }
        (accSound s o.atile.toNat (256 * k) 256 = true →
          exec (.mchain o) s = .next ((t.setCore { t.core with ends := t.core.ends ++ [.flags
            (BitVec.ofNat 5 (((List.range 8).map fun b => (block b).2.2).foldl (· ||| ·) 0))] }).report .issued)) ∧
        (accSound s o.atile.toNat (256 * k) 256 = false →
          ∃ r ∈ accRanges s.core.mat o.atile.toNat (256 * k) 256, (eccBad s.core r.1 r.2).isSome = true ∧
            exec (.mchain o) s = .next (spoiled q .m 6 (wordOf (0xD * 2 ^ 60 + (r.1 - 2 ^ 20))))))) ∧
    (∀ o : FMS,
      let m := o.mac.toNat
      let pid := pageId s.core.shelf m o.half o.page.toNat
      let reg := vop v.csr false o.vs
      let row := o.row.toNat
      let ps := reg.phys v.csr
      let lat := 12 + 2 * (m / 32)
      let t := (charged s (24 * reg.w)).busUseTo s.core.region.toNat (s.cycle + lat)
      macrosReady s false [m] = true → row + reg.w ≤ 256 → pays (24 * reg.w) →
      (∀ q ∈ s.core.mat.refetch, q / 8 ≠ pid / 8) →
      (wellFormed (.mread o) = true → operandsOk s 2 [] [reg] = true →
        let off := (rowOp s o).off
        (∀ w ∈ viewWords off (64 * reg.w), let x := viewAt s.core.shelf w
          s.core.mat.errAt x.pid x.row (x.k / 8) = none ∨
            s.core.mat.errAt x.pid x.row (x.k / 8) = some .correctable) →
        exec (.mread o) s = .next (posted
          (viewRepair t s.core.region.toNat 1 true off (64 * reg.w)) .m lat
          (ps.zipIdx.map fun q => .plane q.1 (s.core.mat.row pid (row + q.2)) (BitVec.allOnes 512)))) ∧
      (wellFormed (.mwrite o) = true → operandsOk s 2 [reg] [] = true →
        let bytes := ps.flatMap fun q => leBytes 64 (planeRead v.regs q).toNat
        let c := t.core
        exec (.mwrite o) s = .next ((s.setCore { c with
          tracked := c.tracked.map (readFirst c pid)
          mat := (bytes.zipIdx.foldl (fun mt b => mt.setByte pid (row + b.2 / 64) (b.2 % 64) b.1)
            c.mat).healRows pid row ps.length }).report .issued))) ∧
    (∀ o : FMC,
      (wellFormed (.mmask o) = true → scalarOk s false [o.sa] = true →
        let a : Word := BitVec.ofNat 64 (valZ v false o.sa)
        let block := leNat (localBytes s.core (access s .read a 896) 896)
        let t := localCheck (access s .read a 896) 896 (charged s 96)
        a.toNat / 2 ^ 60 = 0xC → a.toNat % 64 = 0 → accessOk s .read a 896 = true → pays 96 →
        (localEcc s.core (access s .read a 896) 896 = false → mskFault block = none →
          exec (.mmask o) s = .next ((t.setMat { t.core.mat with
            maskValid := true, mask := BitVec.ofNat 7168 block }).report .issued)) ∧
        (localEcc s.core (access s .read a 896) 896 = true →
          exec (.mmask o) s = .next (spoiled t .m 6 a))) ∧
      (wellFormed (.mmaskClr o) = true → pays 96 →
        exec (.mmaskClr o) s = .next (((charged s 96).setMat
          { (charged s 96).core.mat with maskValid := false }).report .issued)) ∧
      (let segs := (List.range 8).filter fun k => o.raw.getLsbD k
       (let pj := 40000 * (segs.filter fun k => segNow s.core.shelf s.cycle k == .asleep).length
        wellFormed (.lwake o) = true → pays pj → s.core.shelf.segs.length = 8 →
        (∀ k ∈ segs, remapDue s s.core.region.toNat k = false) →
        ∃ t, exec (.lwake o) s = .next t ∧ t.core.mat = s.core.mat ∧
          ∀ k < 8, segNow t.core.shelf t.cycle k =
            if k ∈ segs ∧ segNow s.core.shelf s.cycle k = .asleep then .waking (s.cycle + 2000)
            else segNow s.core.shelf s.cycle k) ∧
       (let pj := 400 * (segs.filter fun k => segNow s.core.shelf s.cycle k != .asleep).length
        wellFormed (.lsleep o) = true → pays pj → s.core.shelf.segs.length = 8 →
        (∀ k ∈ segs, segNow s.core.shelf s.cycle k = .awake ∨ segNow s.core.shelf s.cycle k = .asleep) →
        inFlightBefore s (fun m => segs.contains (m / 32)) = false →
        ∃ t, exec (.lsleep o) s = .next t ∧ t.core.mat = s.core.mat ∧
          ∀ k < 8, segNow t.core.shelf t.cycle k =
            if k ∈ segs then .asleep else segNow s.core.shelf s.cycle k)))

/-! ### The copy slots -/

/-- R116, R119, R126 to R129, R135, R142, R143. Staging. Each instruction that stages a channel operation forms the
shadow set from its operands, and takes its tiles and its record. The operation owes the units of its kind to the
barrier of EBAR, has paid none, and starts on an idle channel, whose status then begins anew, or waits as the pending
one; the conditions are those of its kind, at an idle pending set and a channel without an error. The model's choices:
log 37, log 80. -/
def Obligations.CopyStaging : Prop :=
  ∀ (o : FC) (s : State), clear s = true →
    let v := s.view
    let dst : Word := BitVec.ofNat 64 (valZ v false o.sa)
    let src : Word := BitVec.ofNat 64 (valZ v false o.sb)
    let ctl : Nat := match o.x with
      | some x => x.toNat
      | none => valZ v false o.sc
    let sc := if o.x.isSome then [] else [o.sc]
    let sh := (s.core.copy.chan o.ch).shadow
    let set (kind : Nat) : EngRegs := { sh with
      edst := dst, esrc := src, ectl := ectlSet sh.ectl kind o.scope.code.toNat o.evict.toNat }
    let count (r : EngRegs) : EngRegs := { r with ectl := wordOf (setBitsN r.ectl.toNat 16 6 (ctl + 63)) }
    let stages (i : Instr) (spans : List SSpan) (r : EngRegs) (st : Stage) : Prop :=
      wellFormed i = true → scalarOk s false spans = true → stagingOk s o.ch r.ebar st = true →
      let t := stageEffect o.ch r st s
      let was := s.core.copy.chan o.ch
      let x := t.core.copy.chan o.ch
      exec i s = .next (t.report .issued) ∧ x.shadow = r ∧
      (∃ op : ChanOp,
        (if was.op = none ∧ was.paused = false then
           x.op = some op ∧ x.pending = none ∧ x.active = op.regs ∧ x.done = 0 ∧ x.cause = 0 ∧ x.efaddr = 0
         else x.pending = some op ∧ x.op.isSome = was.op.isSome ∧ x.done = was.done) ∧
        op.tiles = st.tiles ∧ op.record = st.record ∧ op.tid = st.tid ∧ op.owed = st.owed ∧ op.credit = 0 ∧
        op.pos = 0 ∧ op.image = [] ∧ op.srcErr = none ∧ op.grp = s.core.ctx.grp ∧ op.sys = decide (s.core.mode = .sys) ∧
        op.barrier = (if r.ebar = 0 then none else some (barPointer s.core r.ebar).toNat) ∧
        (r.kind ≠ 3 → op.fills = [] ∧
          op.regs = { r with ebar := if r.ebar = 0 then 0 else barPointer s.core r.ebar }) ∧
        (r.kind = 3 → op.ringN = st.ringN ∧ op.fills = (List.range st.ringN).map fun j =>
          (st.tiles.headD 0 + j, ringOrigin st.record r.kdim (origins r) j))) ∧
      ∀ q ∈ st.tiles, (t.core.copy.tile q).st = (if r.kind = 2 then .draining else .filling) ∧
        (t.core.copy.tile q).owner.toNat = o.ch.num + 1
    (o.fn = 0 → stages (.cpy o) ([o.sa, o.sb] ++ sc) { set 0 with elen := BitVec.ofNat 22 ctl }
      { faults := rangeTest s dst ctl ++ rangeTest s src ctl ++
          slotFault (decide (2 ^ 22 ≤ ctl)) 0x41 (.cpy o)
        owed := pieces 32 dst.toNat ctl }) ∧
    (o.fn = 1 → stages (.cpy o) ([o.sa, o.sb] ++ sc) (count (set 1))
      (stageWindow s (.cpy o) o.ch (count (set 1)) dst src ctl)) ∧
    (o.fn = 2 → stages (.cpy o) ([o.sa, o.sb] ++ sc) (count (set 2))
      (stageWindow s (.cpy o) o.ch (count (set 2)) src dst ctl)) ∧
    stages (.cwin o) ([o.sa, o.sb] ++ sc) (count (set 3)) (stageRing s (.cwin o) o.ch (count (set 3)) ctl) ∧
    (sh.kind ≠ 3 → sh.scope ≤ 4 →
      stages (.cgo o) [] sh (stageKind s (.cgo o) o.ch sh (sh.tcnt + 1) sh.elen.toNat)) ∧
    (let coll (kind : Nat) : EngRegs := { set kind with
       elen := BitVec.ofNat 22 (bitsN ctl 8 22), aux := BitVec.ofNat 12 (ctl % 256 + o.fn.toNat * 256) }
     stages (.cred o) ([o.sa, o.sb] ++ sc) (coll 4) (stageColl s (.cred o) (coll 4) 4 (bitsN ctl 8 22)) ∧
     stages (.cbcst o) ([o.sa, o.sb] ++ sc) (coll 5) (stageColl s (.cbcst o) (coll 5) 5 (bitsN ctl 8 22))) ∧
    (let len := valZ v false o.sb
     let lines (kind : Nat) (aux : BitVec 12) : EngRegs := { set kind with
       esrc := sh.esrc, elen := BitVec.ofNat 22 len, aux := aux }
     stages (.cpref o) [o.sa, o.sb] (lines 7 (BitVec.ofNat 12 (o.fn.toNat * 256)))
       (stageKind s (.cpref o) o.ch (lines 7 (BitVec.ofNat 12 (o.fn.toNat * 256))) 1 len) ∧
     stages (.cflush o) [o.sa, o.sb] (lines 8 sh.aux) (stageKind s (.cflush o) o.ch (lines 8 sh.aux) 1 len) ∧
     stages (.cinv o) [o.sa, o.sb] (lines 9 sh.aux) (stageKind s (.cinv o) o.ch (lines 9 sh.aux) 1 len)) ∧
    (let mig : EngRegs := { set 6 with elen := BitVec.ofNat 22 ctl }
     stages (.cmig o) ([o.sa, o.sb] ++ sc) mig (stageKind s (.cmig o) o.ch mig 1 ctl))

/-- R118, R128, R129. Steering. CGO.clr ends the running and the pending operation of a channel, each in turn: its
tiles return to the core, a released one empty; what it captured is let go; and its barrier, in one update, takes ERR,
the units still owed and the arrival; the channel is then idle with its status clear. CADV on a ring opens its next g
tiles for filling when each is the channel's to fill; CADV.end ends a ring whose fills are done. The model's choices:
log 38, log 40, log 102. -/
def Obligations.CopySteering : Prop :=
  ∀ (o : FC) (s : State), clear s = true →
    (wellFormed (.cgoClr o) = true → clearProbe s o.ch = none →
      let ops := (s.chan o.ch).op.toList ++ (s.chan o.ch).pending.toList
      ∃ t, exec (.cgoClr o) s = .next t ∧ t = (clearChan (ops.foldl (clearOp o.ch) s) o.ch).report .issued ∧
        let x := t.core.copy.chan o.ch
        x.op = none ∧ x.pending = none ∧ x.done = 0 ∧ x.cause = 0 ∧ x.err = false ∧ x.efaddr = 0) ∧
    (∀ (u : State) (op : ChanOp),
      let v := returnTiles u o.ch op
      let w := dropRecall (v.setCore { v.core with copy := v.core.copy.release op }) op
      let credit (bs : List Byte) : List Byte := leBytes 16 (barFail op.owed op.regs.arrive (leNat bs))
      (spWf tileDefault u.core.copy.tiles = true → ∀ q ∈ op.tiles, let x := u.core.copy.tile q
        (x.st = .filling ∨ x.st = .draining) → x.owner.toNat = o.ch.num + 1 →
        (v.core.copy.tile q).st = (if x.released then .empty else .ready) ∧ (v.core.copy.tile q).owner = 0) ∧
      (op.barrier = none → clearOp o.ch u op = w) ∧
      (∀ p y old, op.barrier = some p →
        engUpdate (w.core.channelAgent o.ch op.sys 0) w .barrier p 16 credit = .done y old →
        clearOp o.ch u op = y)) ∧
    (∀ (k b : Nat) (arr : Bool), let e := barFail k arr b
      barErr e = true ∧ barSect e = if k ≤ barSect b then barSect b - k else barSect b) ∧
    (∀ r, wellFormed (.cadv o) = true → scalarOk s false [o.sa] = true → ringOf (s.chan o.ch) = some r →
      let g := valZ s.view false o.sa
      let head := r.regs.elen.toNat % 64
      let tile (j : Nat) : Tile := s.core.ctx.before.tile (r.tiles.headD 0 + (head + j) % r.ringN)
      let k := r.regs.kdim
      1 ≤ g → g ≤ r.ringN →
      (∀ j < g, (tile j).st = .ready ∧ (tile j).owner = 0 ∧
        lget 0 (origins r.regs) k + j * recWin r.record k < recDim r.record k) →
      ringEdgeHit r.record k (origins r.regs) g = false →
      exec (.cadv o) s = .next ((advance o.ch g s).report .issued)) ∧
    (∀ r, wellFormed (.cadvEnd o) = true → ringOf (s.chan o.ch) = some r → r.fills = [] → r.credit = 0 →
      exec (.cadvEnd o) s = .next ((s.setChan o.ch ((s.chan o.ch).setOp { r with ready := true })).report
        .issued))

/-- R121 to R125, R130, R336. The tile instructions on a live tile that no transfer holds: TOWN, with nothing to
publish, hands a core-owned tile on, at once or, behind accesses of its own group, once those are performed; TTAKE
takes one back, TSTATE reads an entry, claims an empty tile, or releases one, whose generation then rises. The model's
choices: log 40. -/
def Obligations.TileInstructions : Prop :=
  ∀ (o : FC) (s : State), clear s = true →
    let c := s.core.copy
    let b := s.core.ctx.before
    let live (h : Nat) : Prop := b.tileLive h = true ∧ (b.tile (handleSlot h)).st ≠ .filling ∧
      (b.tile (handleSlot h)).st ≠ .draining
    let mine (h : Nat) : Prop := (b.tile (handleSlot h)).st = .ready → (b.tile (handleSlot h)).owner = 0
    let sets (t : Nat) (x : Tile) : Host.Outcome State Fault Refusal := .next ((s.setTile t x).report .issued)
    let a := valZ s.view false o.sa
    let t := handleSlot a
    (wellFormed (.town o) = true → scalarOk s false [o.sa] = true → live a → mine a → published s = true →
      let own : BitVec 2 := BitVec.ofNat 2 o.fn.toNat
      (noOwnAccess s = true → exec (.town o) s = sets t { c.tile t with owner := own }) ∧
      (noOwnAccess s = false →
        exec (.town o) s = .next ((s.track (chanSlot o.ch) (.flip t own)).publish.report .issued))) ∧
    (wellFormed (.ttake o) = true → scalarOk s false [o.sa] = true → live a → foreignAccess s t = false →
      exec (.ttake o) s = sets t { c.tile t with owner := 0 }) ∧
    (let u := valZ s.view false o.sb % 64
     let value (x : Nat) : TOp := .span o.sa.start.toNat o.sa.w (x % 2 ^ (4 * o.sa.w))
     scalarOk s false [o.sa, o.sb] = true →
     (wellFormed (.tstate o) = true →
       exec (.tstate o) s = .next (startsC s o.ch (value (tileWord c u)))) ∧
     (wellFormed (.tstateClaim o) = true →
       ((c.tile u).st = .empty →
         let s' := s.setTile u { c.tile u with st := .ready, owner := 0 }
         exec (.tstateClaim o) s = .next (startsC s' o.ch (value (tileWord s'.core.copy u)))) ∧
       ((c.tile u).st ≠ .empty →
         exec (.tstateClaim o) s = .next (startsC s o.ch (value (tileWord c u + 2 ^ 63)))))) ∧
    (let h := valZ s.view false o.sb
     let x := c.tile (handleSlot h)
     wellFormed (.tstateRelease o) = true → scalarOk s false [o.sb] = true → o.sa = ⟨0, 15⟩ → live h → mine h →
     x.st = .ready →
     exec (.tstateRelease o) s = sets (handleSlot h) { x with st := .empty, gen := x.gen + 1 })

/-- R153, R154. TIDLD reads and checks a record at issue, ends the slot's old record, and starts the fill of the slot;
TIDRD reads a doubleword of a record or the state of a slot; TIDINV ends a record. A slot named by its index has its
record checked as one named by handle has. The model's choices: log 35. -/
def Obligations.RecordInstructions : Prop :=
  ∀ (o : FC) (s : State), clear s = true →
    let v := s.view
    let ctl : Nat := match o.x with
      | some x => x.toNat
      | none => valZ v false o.sc
    let sc := if o.x.isSome then [] else [o.sc]
    (∀ r : BitVec 768, wellFormed (.tidld o) = true → scalarOk s false ([o.sa, o.sb] ++ sc) = true →
      let a : Word := BitVec.ofNat 64 (valZ v false o.sb)
      published s = true → ctl ≤ 63 → a.toNat % 8 = 0 →
      (a.toNat / 2 ^ 60 = 0 ∨ a.toNat / 2 ^ 60 = 0xC ∨ a.toNat / 2 ^ 60 = 0xE) →
      accessOk s .read a 96 = true → readRecord s o.evict.toNat a = .got r → recFault r = none →
      let t := if s.core.tracked.any (fillsSlot ctl) then s
        else s.setCore { s.core with copy := s.core.copy.killTid ctl }
      exec (.tidld o) s = .next (startsC t o.ch (.tidFill ctl o.sa.start.toNat o.sa.w r))) ∧
    (let h := valZ v false o.sb
     let value (x : Nat) : TOp := .span o.sa.start.toNat o.sa.w (x % 2 ^ (4 * o.sa.w))
     wellFormed (.tidrd o) = true →
     (o.fn = 0 → scalarOk s false ([o.sa, o.sb] ++ sc) = true → (stageTid s h).1 = [] → ctl ≤ 11 →
       exec (.tidrd o) s = .next (startsC s o.ch (value (recWord (stageTid s h).2 ctl)))) ∧
     (o.fn = 1 → scalarOk s false [o.sa, o.sb] = true → slotBad s (.tidrd o) h = [] →
       exec (.tidrd o) s = .next (startsC s o.ch (value (tidWord s.core.copy h))))) ∧
    (let h := valZ v false o.sa
     wellFormed (.tidinv o) = true → scalarOk s false [o.sa] = true →
     (o.fn = 0 → (stageTid s h).1 = []) → (o.fn = 1 → slotBad s (.tidinv o) h = []) →
     exec (.tidinv o) s = .next ((s.setCore { s.core with
       copy := s.core.copy.killTid (handleSlot h) }).report .issued))

/-- R124, R131 to R133, R329, R335, R336. The barrier instructions check the update that they ask for at issue and
start it as a tracked operation, a release that publishes the stores before it and is strongly ordered where its
address is; BWATCH arms an entry of the watch table and
BWATCH.off clears its VALID bit. The model's choices: log 34. -/
def Obligations.BarrierInstructions : Prop :=
  ∀ (o : FC) (s : State), clear s = true → scalarOk s false [o.sa, o.sb, o.sc] = true →
    let p : Word := BitVec.ofNat 64 (valZ s.view false o.sa)
    let starts (op : TOp) : Host.Outcome State Fault Refusal :=
      .next ((s.track (chanSlot o.ch) op .relaxed (access s .barrier p 16).so).publish.report .issued)
    let q := (barPointer s.core p).toNat
    let u := valZ s.view false o.sb
    let watch (e : Watch) : Host.Outcome State Fault Refusal := .next ((s.setCore { s.core with
      copy := s.core.copy.setWatch (o.fn.toNat % 8) e }).report .issued)
    (wellFormed (.binit o) = true → published s = true → barrierOk s p .ok = true → u ≤ 0xFFFFF →
      exec (.binit o) s = starts (.binit q u o.scope)) ∧
    (wellFormed (.bexp o) = true → published s = true → barrierOk s p (barExpect u) = true →
      exec (.bexp o) s = starts (.bexp q u)) ∧
    (wellFormed (.barv o) = true → published s = true → barrierOk s p (barVisit u) = true →
      exec (.barv o) s = starts (.barv q u o.sc.start.toNat o.sc.w)) ∧
    (wellFormed (.bwatch o) = true → accessOk s .barrier p 16 = true → u ≤ 15 →
      exec (.bwatch o) s = watch { bar := barPointer s.core p, phase := BitVec.ofNat 4 u, valid := true }) ∧
    (wellFormed (.bwatchOff o) = true →
      exec (.bwatchOff o) s = watch { s.core.copy.watchAt (o.fn.toNat % 8) with valid := false })

/-- R63, R64, R349 to R351. The graph instructions in system mode: GLOAD starts the load of an image; GLOAD.free of a
handle that was current before its bundle drains the slot, whose generation rises; GLAUNCH of a graph whose last launch
has retired launches it. In node mode each traps with 0x08 when its spans are in order. The model's choices: log 95. -/
def Obligations.GraphInstructions : Prop :=
  ∀ (o : FC) (s : State), clear s = true → scalarOk s false [o.sa, o.sb] = true →
    let h := valZ s.view false o.sa
    let c := s.core
    let bucket := if o.fn = 1 then some (valZ s.view false o.sb % 64) else none
    (s.core.mode = .sys →
      (wellFormed (.gload o) = true → exec (.gload o) s = .next ((s.track (chanSlot o.ch)
        (.graphLoad (BitVec.ofNat 64 (valZ s.view false o.sb)) o.evict.toNat o.sa.start.toNat o.sa.w c.csr.tbase
          c.csr.tasid true) .relaxed true).publish.report .issued)) ∧
      (wellFormed (.gloadFree o) = true → graphNamed s h = true →
        let k := handleSlot h
        let g := s.pool.graph k
        ((g.st = .loaded ∨ g.st = .running) → exec (.gloadFree o) s =
          .next ((s.setPool (s.pool.setGraph k { g with gen := g.gen + 1, st := .draining })).report .issued)) ∧
        (g.st ≠ .loaded → g.st ≠ .running → exec (.gloadFree o) s = .next (s.report .issued))) ∧
      (wellFormed (.glaunch o) = true → graphNamed s h = true → (s.pool.graph (handleSlot h)).st ≠ .running →
        published s = true → launchFault s.pool (handleSlot h) = none →
        exec (.glaunch o) s =
          .next ((s.setPool (launchGraph s.pool (handleSlot h) bucket)).report .issued))) ∧
    (s.core.mode = .node →
      let traps (i : Instr) : Prop := wellFormed i = true →
        exec i s = .next ((trapHere s (slotOf i) 0x08 (encode i)).report (.trapped 0x08 (encode i) 0))
      traps (.gload o) ∧ traps (.gloadFree o) ∧ traps (.glaunch o))

/-! ### Steps of the device -/

/-- R95, R96, R157, R158, R169, R170, R318. The first due result of the list in flight lands and leaves it, whatever is
not due before it. A span that lands reads back, and no slice outside it and no slice of x0 changes; a predicate lands whole, p0 never;
a plane of a cluster that is awake takes its masked bits, one of a cluster asleep keeps nothing. -/
def Obligations.ResultsLand : Prop :=
  (∀ (s : State) (r : Result) (ps rs : List Result), s.core.inflight = ps ++ r :: rs →
    (∀ q ∈ ps, q.due s.core.xt = false) → r.due s.core.xt = true → r.excepts s.core = false →
    ∃ t, exec .exposedResultLand s = .next t ∧ t.core.inflight = ps ++ rs.map (Result.reseed r.seeds) ∧
      t.core.regs = (landResult s.core r).regs ∧ t.core.csr = (landResult s.core r).csr ∧
      t.core.tracked = s.core.tracked ∧ t.core.pad = s.core.pad ∧ t.mem = s.mem) ∧
  (∀ (c : Core) (st w v : Nat),
    let f := (landVal c (.slices st w v)).regs.scalar
    (16 ≤ st → st + w ≤ 512 → scalarRead f ⟨st, w⟩ = v % 2 ^ (4 * w)) ∧
    (∀ x y, x + y ≤ 512 → (∀ n, x ≤ n → n < x + y → n < 16 ∨ n < st ∨ st + w ≤ n) →
      scalarRead f ⟨x, y⟩ = scalarRead c.regs.scalar ⟨x, y⟩)) ∧
  (∀ (c : Core) (p : Nat) (v : Pred), spWf 0 c.regs.preds = true →
    let r := (landVal c (.pred p v (BitVec.allOnes 1024))).regs
    (p ≠ 0 → predRead r p = v) ∧ predRead r 0 = BitVec.allOnes 1024 ∧
    ∀ q, q ≠ p → predRead r q = predRead c.regs q) ∧
  (∀ (c : Core) (p : Nat) (v m : Plane), spWf 0 c.regs.planes = true →
    let r := (landVal c (.plane p v m)).regs
    planeRead r p = (if clusterAwake c.regs c.mode c.xt (p / 512) then
      (planeRead c.regs p &&& ~~~m) ||| (v &&& m) else planeRead c.regs p) ∧
    ∀ q, q ≠ p → planeRead r q = planeRead c.regs q)

/-- R44, R46 to R48, R155, R180, R195 to R202, R331, R332, R335 to R337, R409. The k-th tracked operation, when nothing
issued before it, and no unpublished store, holds it back. A load of memory whose lines the L2 holds delivers the bytes
there under the core's own unpublished stores; a store puts its bytes where its runs say and nowhere else, or, to an
unordered page, stays with the core until a release publishes it; an atomic does both at once. Through window 0xE they
read and write the bytes of the area that the offset names, with its checks, and through window 0xF the registers
there; an atomic in window 0xC acts on the core's own scratchpad. A failing access is recorded; a flip and a trigger
take place behind every earlier access, once the stores before them are published. The write of a CSR or of a shadow
engine register lands. The model's choices: log 6, log 9, log 40. -/
def Obligations.TrackedAccesses : Prop :=
  ∀ s : State,
    let c := s.core
    let gone (u : State) (t : Tracked) : Prop := u.core.tracked = c.tracked.erase t ∧ u.mem = s.mem
    let good (runs : List (Nat × Nat)) : Prop := ∀ l ∈ linesOf runs, l2Bad s.coh l = 0
    let stored (u : State) (runs : List (Nat × Nat)) (bytes : List Byte) : Prop :=
      u.mem = s.mem ∧ u.core.regs = c.regs ∧ runBytes u runs = bytes ∧
        ∀ pa, outside runs pa = true → chipByte u pa = chipByte s pa
    let storable (a : Word) (runs : List (Nat × Nat)) (evict : Nat) (bytes : List Byte) : Prop :=
      a.toNat / 2 ^ 60 = 0 ∧ evict ≠ 7 ∧ linesHeld s true runs = true ∧ runsApart runs = true ∧
        (runs.map Prod.snd).sum = bytes.length
    let chipOff (a : Word) : Nat := (if a.toNat / 2 ^ 60 = 0xC then c.region.toNat * 2 ^ 26 else 0) + a.toNat % 2 ^ 60
    let onChip (a : Word) (n i : Nat) (ar : Area) (o : Nat) : Prop :=
      chipArea s (chipOff a) = some (i, ar, o) ∧ refetchMet s i ar o n = false
    let readable (d : Core) (ar : Area) (o n : Nat) : Prop :=
      (∀ w, ar.checked o = some w → eccBad d w n = none) ∧ ar.bad d o n = false
    (∀ (k : Nat) (t : Tracked), c.tracked[k]? = some t →
      let rest : Core := { c with tracked := c.tracked.erase t }
      let ends (u : State) (f : Core → Core) : Prop :=
        exec (.trackedAccessComplete k) s = .next (u.setCore (f (u.core.untrack t)))
      ((∀ e ∈ c.tracked.take k, mustFollow c.region.toNat t e = false) → waitsUo c t = false →
        (∀ st w v, t.op = .span st w v → t.slot ≠ 4 →
          exec (.trackedAccessComplete k) s = .next (s.setCore (rest.putSpan st w v))) ∧
        (∀ a runs n evict st w ext, t.op = .load a runs n evict st w ext →
          (a.toNat / 2 ^ 60 = 0 → evict ≠ 7 → good runs → linesHeld s false runs = true →
            ∃ u, exec (.trackedAccessComplete k) s = .next u ∧ gone u t ∧ u.coh.l2 = s.coh.l2 ∧
              u.coh.meta_ = s.coh.meta_ ∧
              u.core.regs = (rest.putSpan st w (ext.value (c.overlay runs (runBytes s runs)) w)).regs) ∧
          (∀ i ar o d, a.toNat / 2 ^ 60 = 0xE → runs = [] → onChip a n i ar o → s.coreAt i = some d →
            readable d ar o n → ∃ u, exec (.trackedAccessComplete k) s = .next u ∧ gone u t ∧
              u.core.regs = (rest.putSpan st w (ext.value (areaBytes d ar o n) w)).regs) ∧
          (a.toNat / 2 ^ 60 = 0xF → runs = [] →
            ends s fun x => x.putSpan st w (ext.value (sysBytes s (a.toNat % 2 ^ 60) n) w)) ∧
          (∀ u cause, perform (l1Check s runs) a runs n evict (fun _ => none) true false = .fail u cause →
            exec (.trackedAccessComplete k) s = .next (u.setCore (u.core.recordFailure t cause a [])))) ∧
        (∀ a runs evict bytes, t.op = .store a runs evict bytes →
          (t.uo = true →
            exec (.trackedAccessComplete k) s = .next (s.setCore { rest with uo := c.uo ++ [t] })) ∧
          (t.uo = false → storable a runs evict bytes →
            ∃ u, exec (.trackedAccessComplete k) s = .next u ∧ gone u t ∧ stored u runs bytes) ∧
          (∀ i ar o d, t.uo = false → a.toNat / 2 ^ 60 = 0xE → onChip a bytes.length i ar o →
            let v := if ar = .macros then viewRepair (s.busUse i) i 1 false o bytes.length else s
            v.coreAt i = some d → ends (v.setCoreAt i (areaWrite d ar o bytes)) id) ∧
          (t.uo = false → a.toNat / 2 ^ 60 = 0xF → sysWaits s (a.toNat % 2 ^ 60) bytes = false →
            ends (sysStore s (a.toNat % 2 ^ 60) bytes) id)) ∧
        (∀ a pa n evict op v st w, t.op = .atom a [(pa, n)] evict op v n st w → a.toNat / 2 ^ 60 = 0 →
          evict ≠ 7 → good [(pa, n)] → linesHeld s true [(pa, n)] = true →
          let old := runBytes s [(pa, n)]
          let new := match op with
            | .cas e => if leNat old = e then leBytes n v else old
            | op => leBytes n (op.new n (leNat old) v)
          ∃ u, exec (.trackedAccessComplete k) s = .next u ∧ gone u t ∧
            u.core.regs = (rest.putSpan st w (op.ext.value old w)).regs ∧
            runBytes u [(pa, n)] = new ∧ ∀ b, outside [(pa, n)] b = true → chipByte u b = chipByte s b) ∧
        (∀ a runs n evict op v st w, t.op = .atom a runs evict op v n st w →
          (a.toNat / 2 ^ 60 = 0xC ∨ a.toNat / 2 ^ 60 = 0xE) →
          ∀ i o d, onChip a n i .pad o → s.coreAt i = some d → readable d .pad o n →
          let old := areaBytes d .pad o n
          let u := eccCheck s i o n
          ∀ e, u.coreAt i = some e →
            ends (match op.writes n v old with
              | none => u
              | some new => u.setCoreAt i (areaWrite e .pad o new)) fun x => x.putSpan st w (op.ext.value old w)) ∧
        ((∀ e ∈ c.tracked.take k, e.op.accesses = false) →
          ∀ u, publishStores (fun q => decide (q.grp ≤ t.grp)) s = (u, true) →
          (∀ tile own, t.op = .flip tile own →
            exec (.trackedAccessComplete k) s = .next (flipTile (u.setCore (u.core.untrack t)) tile own)) ∧
          (∀ g, t.op = .trig g →
            exec (.trackedAccessComplete k) s = .next ((u.setCore (u.core.untrack t)).trigger g)))) ∧
      ((∀ e ∈ c.tracked.take k, meets (c.opUnits e.op) (c.opUnits t.op) = false) →
        (∀ n f v, t.op = .csrWrite n f v →
          let old := (c.csrRead n).getD 0
          exec (.csrWriteLands k) s = .next (s.setCore (Core.heal { rest with
            csr := c.csr.write n (if f = 0 then v else if f = 1 then old ||| v else old &&& ~~~v) } [⟨.csr, n⟩]))) ∧
        (∀ ch r v, t.op = .engWrite ch r v →
          exec (.csrWriteLands k) s = .next (s.setCore (Core.heal { rest with
            copy := c.copy.setChan ch { c.copy.chan ch with shadow := (c.copy.chan ch).shadow.set r v } }
            [⟨.eng, 16 * ch.num + r⟩]))))) ∧
    (∀ (k : Nat) (t : Tracked) (ts : List Tracked) a runs evict bytes, c.tracked.length ≤ k → c.uo = t :: ts →
      t.op = .store a runs evict bytes → c.leaving = false → (∀ q ∈ c.tracked, waitsUo c q = false) →
      (∀ q ∈ c.tracked, q.op.isMem = true → c.publish < q.grp) → t.grp ≤ c.publish →
      (∀ q ∈ ts, c.publish < q.grp) → storable a runs evict bytes →
      ∃ u, exec (.trackedAccessComplete k) s = .next u ∧ u.core.uo = ts ∧ stored u runs bytes) ∧
    (∀ (d : Core) (o : Nat) (bs : List Byte) (b : Nat), spWf 0 d.pad = true →
      areaByte (areaWrite d .pad o bs) .pad b =
        if o ≤ b ∧ b < o + bs.length then bs.getD (b - o) 0 else areaByte d .pad b)

/-- R51, R52, R56 to R61, R420. A walk that ends gives a translation, which is the one that its requesters then meet, or a
recorded fault for each of them; with FWAIT a translation fault waits, with its event in the ring once that is
written; FLTRETRY starts the waiting walks again. Each form of TLBIOP asks for its invalidation, and the oldest one
removes exactly the entries that it names, from the L2 TLB and from every L1 TLB, and the failures it outdates. A part
that waits for a recovery image takes none of these requests. The model's choices: log 7, log 98. -/
def Obligations.TranslationEvents : Prop :=
  ∀ s : State,
    let x := s.xlat
    (∀ k w, x.walks[k]? = some w → w.waits = false → k < 384 →
      (∀ u t, walkFrom w.asid w.va 4 w.root s = .done u t →
        ∃ v, exec (.walkComplete k) s = .next v ∧ v.xlat.walks = u.xlat.walks.eraseIdx k ∧
          v.xlat.tlb = (t :: u.xlat.tlb).take 16384 ∧ v.xlat.fails = u.xlat.fails ∧
          ∀ g ∈ w.who :: w.also, ∀ va, t.hits w.asid va = true → lookup v.xlat g w.asid va = .hit t) ∧
      (∀ u cause, walkFrom w.asid w.va 4 w.root s = .fault u cause →
        let failed : List WalkFail := (w.who :: w.also).map fun g => ⟨g, w.asid, w.va / 2 ^ 14 * 2 ^ 14, cause⟩
        (cause ≠ 0x30 ∨ u.xlat.fwait = false →
          exec (.walkComplete k) s = .next (u.setXlat { u.xlat with
            walks := u.xlat.walks.eraseIdx k, fails := u.xlat.fails ++ failed })) ∧
        (let held : Walk := { w with waits := true }
         let slot := u.xlat.fltring.toNat + 16 * (u.xlat.flthead.toNat % 256)
         let put : Put := ⟨slot, faultEvent w, .fault held⟩
         let v := (u.setXlat { u.xlat with walks := lset u.xlat.walks k held }).setCoh { u.coh with puts := [put] }
         cause = 0x30 → u.xlat.fwait = true → u.coh.puts = [] →
         (u.xlat.flthead - u.xlat.flttail).toNat ≠ 256 →
         ∀ y bs, cohWrite v [(slot, 16)] 0 (faultEvent w) = .done y bs →
          ∃ t, exec (.walkComplete k) s = .next t ∧ t.xlat.flthead = u.xlat.flthead + 1 ∧
            t.xlat.walks = lset u.xlat.walks k held ∧ t.xlat.fails = u.xlat.fails ∧
            Msg.msix u.xlat.vec ∈ t.outbox))) ∧
    (let asks (i : Instr) (t : State) : Prop := exec i s = .next (if s.plat.recovery then s else t)
     let inval (i : Instr) (v : TlbInval) : Prop := asks i (s.setXlat { x with invals := x.invals ++ [⟨none, v⟩] })
     asks .fltretry (s.setXlat { x with walks := x.walks.map fun w => { w with waits := false } }) ∧
     (∀ va : Word, inval (.tlbiVa va) (.va x.tlbiasid (va.toNat % 2 ^ 58 / 2 ^ 14 * 2 ^ 14))) ∧
     inval .tlbiAsid (.asid x.tlbiasid) ∧ inval .tlbiAsidGlobal (.asidGlobal x.tlbiasid) ∧ inval .tlbiAll .all) ∧
    (∀ i is, x.invals = i :: is → spWf [] x.tlb1 = true →
      let named (e : TlbEntry) : Prop := match i.what with
        | .va a va => (e.asid = a ∨ e.leaf.getLsbD 6 = true) ∧ e.va ≤ va ∧ va < e.va + 2 ^ e.log
        | .asid a => e.asid = a ∧ e.leaf.getLsbD 6 = false
        | .asidGlobal a => e.asid = a ∨ e.leaf.getLsbD 6 = true
        | .all => True
      ∃ t, exec .tlbInvalidationComplete s = .next t ∧ t.xlat.invals = is ∧ t.xlat.walks = x.walks ∧
        (∀ e, e ∈ t.xlat.tlb ↔ e ∈ x.tlb ∧ ¬named e) ∧
        (∀ g e, e ∈ spGet [] t.xlat.tlb1 g ↔ e ∈ spGet [] x.tlb1 g ∧ ¬named e) ∧
        ∀ f ∈ t.xlat.fails, f ∈ x.fails ∧ match i.what with
          | .va a va => f.asid ≠ a ∨ f.va ≠ va / 2 ^ 14 * 2 ^ 14
          | .asid a => f.asid ≠ a
          | .asidGlobal a => f.asid ≠ a
          | .all => False)

/-- R23 to R25, R27, R28, R37, R38. Requests at the home. A line that nobody holds is granted at once, with the data
of memory: E for RdS, M for RdX, one sector for MEMRD; MEMWR writes the enabled bytes of its sector and leaves I. A
request for a line that is busy, or for which another waits, waits behind the others, and the oldest of them is taken
when the line can be resolved. The write-back of the recorded owner writes its dirty sectors, and so does any one to a
line that is being rebuilt; any other writes nothing; both are acknowledged. The model's choices: log 58, log 59,
log 86, log 87. -/
def Obligations.HomeRequests : Prop :=
  ∀ s : State, s.Inv →
    let own := s.plat.ownid
    let word (m : Meta) : BitVec 32 := m.word
    let metaOf (t : State) (line : Nat) : BitVec 32 := spGet 0 t.coh.meta_ line
    let sends (t : State) (m : Msg) : Prop := t.outbox = s.outbox ++ [m]
    (∀ line, unheld s line = true →
      let data : LineData := ⟨memLine s.mem line, 0⟩
      (∀ req : BitVec 8, req ≠ own →
        (∃ t, exec (.rds req line) s = .next t ∧ t.mem = s.mem ∧
          sends t (.complete req.toNat line .e (some data)) ∧
          metaOf t line = word ⟨req.toNat, 2, req.toNat, 0⟩) ∧
        (∃ t, exec (.rdx req line) s = .next t ∧ t.mem = s.mem ∧
          sends t (.complete req.toNat line .m (some data)) ∧
          metaOf t line = word ⟨req.toNat, 3, req.toNat, 0⟩)) ∧
      (∃ t, exec (.rds own line) s = .next t ∧ t.mem = s.mem ∧
        l2Get t.coh line = ⟨.e, 0, memLine s.mem line, 0⟩) ∧
      (∃ t, exec (.rdx own line) s = .next t ∧ t.mem = s.mem ∧
        l2Get t.coh line = ⟨.m, 0, memLine s.mem line, 0⟩) ∧
      (∀ pa excl, pa / 256 = line → ∃ t, exec (.memrd pa excl) s = .next t ∧ t.mem = s.mem ∧
        sends t (.hostData pa (BitVec.ofNat 512 (leNat (memRead s.mem (pa / 64 * 64) 64))))) ∧
      (∀ pa (en : BitVec 64) data keeps, pa / 256 = line →
        ∃ t, exec (.memwr pa en data keeps) s = .next t ∧ sends t (.hostDone pa) ∧
          metaOf t line = word ⟨255, 0, 0, 0⟩ ∧
          (∀ k < 64, memByte t.mem (pa / 64 * 64 + k) =
            if en.getLsbD k then data.extractLsb' (8 * k) 8 else memByte s.mem (pa / 64 * 64 + k)) ∧
          ∀ b, b < pa / 64 * 64 ∨ pa / 64 * 64 + 64 ≤ b → memByte t.mem b = memByte s.mem b)) ∧
    (∀ line, homeLine s line = true → s.coh.puts = [] →
      lineFree s line = false ∨ (∃ w ∈ s.coh.waiting, w.line = line) →
      let waits (i : Instr) (q : HomeReq) (u : State) : Prop :=
        exec i s = .next (u.setCoh { s.coh with waiting := s.coh.waiting ++ [⟨line, q⟩] })
      (∀ req : BitVec 8, let u := goodFlit s req.toNat line
        waits (.rds req line) (.rds req) u ∧ waits (.rdx req line) (.rdx req) u) ∧
      (∀ pa excl, pa / 256 = line → waits (.memrd pa excl) (.memrd pa excl) s) ∧
      (∀ pa en data keeps, pa / 256 = line → waits (.memwr pa en data keeps) (.memwr pa en data keeps) s)) ∧
    (∀ line w, lineFree s line = true → (s.coh.waiting.find? fun w => w.line == line) = some w →
      exec (.waitingRequestResolve line) s = .next (settle (homeServe
        (s.setCoh { s.coh with waiting := s.coh.waiting.erase w }) line w.what))) ∧
    (∀ (req : BitVec 8) line (dirty : BitVec 4) (data : BitVec 2048), homeLine s line = true → s.coh.puts = [] →
      let m := Meta.ofWord (metaOf s line)
      let busy := s.coh.resol.find? fun x => x.line == line
      let takes := (m.owner = req.toNat ∧ (m.st = 2 ∨ m.st = 3 ∨ m.st = 4)) ∨
        ∃ x, busy = some x ∧ x.rebuild = true
      (busy = none → metaBroken s.coh line = false) →
      ∃ t, exec (.wbd req line dirty data) s = .next t ∧
        (req ≠ own → sends t (.complete req.toNat line .i none)) ∧
        (req = own → t.outbox = s.outbox ∧ t.coh.writebacks = s.coh.writebacks.erase line) ∧
        (¬takes → t.mem = s.mem) ∧
        (takes →
          (∀ k < 256, memByte t.mem (256 * line + k) =
            if dirty.getLsbD (k / 64) then data.extractLsb' (8 * k) 8 else memByte s.mem (256 * line + k)) ∧
          (∀ b, b < 256 * line ∨ 256 * line + 256 ≤ b → memByte t.mem b = memByte s.mem b) ∧
          (busy.isSome = true → ∀ y ∈ t.coh.resol, y.line = line → y.absorbed = true) ∧
          (busy = none → spWf 0 s.coh.meta_ = true →
            metaOf t line = word (if m.st = 4 then ⟨m.atag, 1, 0, m.hint⟩ else ⟨m.atag, 0, 0, 0⟩))))

/-- R23, R25 to R27, R31, R32, R36, R38, R143. The L2 answers a snoop of another home by its table; an answer joins
its resolution, which the last one completes; a grant fills the L2, dirty where memory does not hold the data; a line
that CMIG had recalled comes home; silence abandons, with the cause of the party that is silent, and a home's word
ends the access that waits; and the host's snoops and grants act on the sectors of a host-tier line, be it filled or
not, and a sector whose check fails does not go back as good. The model's choices: log 59, log 66, log 70, log 71,
log 85, log 86, log 88, log 89. -/
def Obligations.SnoopsAndAnswers : Prop :=
  ∀ s : State, spWf l2None s.coh.l2 = true →
    let arrives (line : Nat) : State :=
      if hostTier (256 * line) || isHome s.plat line then s else goodFlit s (homeChip (256 * line)) line
    (∀ (req : BitVec 8) (line : Nat), hostTier (256 * line) = false → isHome s.plat line = false →
      let x := l2Get s.coh line
      let dirty := x.st = .m ∨ x.st = .o
      let answers (i : Instr) (dest : Nat) (st : LineSt) (ans : SnoopAns) (gives : Prop) : Prop :=
        ∃ t, exec i s = .next t ∧ (l2Get t.coh line).st = st ∧ t.mem = s.mem ∧
          (gives → t.outbox = s.outbox ++ [.data dest line ⟨x.data, l2Bad s.coh line⟩, .answer line ans]) ∧
          (¬gives → t.outbox = s.outbox ++ [.answer line ans])
      (dirty → answers (.fwds req line) req.toNat .o .dirty True ∧
        answers (.fwdx req line) req.toNat .i .dirty True ∧
        answers (.rcl req line) (homeChip (256 * line)) .i .dirty True) ∧
      (x.st = .e → answers (.fwds req line) 0 .s .clean False ∧ answers (.fwdx req line) 0 .i .clean False) ∧
      (x.st = .s ∨ x.st = .i → answers (.fwds req line) 0 x.st .notHeld False ∧
        answers (.fwdx req line) 0 x.st .notHeld False) ∧
      (¬dirty → answers (.rcl req line) 0 .i .ack False) ∧
      (x.st ≠ .m → x.st ≠ .e → answers (.inv req line) 0 .i .ack False)) ∧
    (∀ (sender : Party) line ans data x,
      (s.coh.resol.find? fun x => x.line == line && x.awaiting.contains sender) = some x →
      x.rebuild = false →
      let u := goodFlitOf s sender line
      let y := homeAnswer x sender ans (some data)
      (y.awaiting = [] → exec (.snoopAnswer sender line ans data) s = .next (settle (homeFinish u y))) ∧
      (y.awaiting ≠ [] → exec (.snoopAnswer sender line ans data) s = .next (u.setCoh { s.coh with
        resol := s.coh.resol.map fun z => if z.line = line then y else z }))) ∧
    (s.coh.puts = [] → ∀ line,
      (∀ data, line ∈ s.coh.writebacks → (∀ f ∈ s.coh.fills, f.line = line → f.again = 0) →
        exec (.completion line .i data) s =
          .next ((arrives line).setCoh { s.coh with writebacks := s.coh.writebacks.erase line })) ∧
      (∀ data f m, s.coh.writebacks = [line] → (s.coh.fills.find? fun f => f.line == line) = some f →
        (s.coh.misses.find? fun m => m.1 == line) = some m →
        ∃ t, exec (.completion line .i data) s = .next t ∧ t.coh.writebacks = [] ∧
          ∀ k < 4, f.again.getLsbD k = true → Msg.hostRequest (256 * line + 64 * k) m.2 ∈ t.outbox) ∧
      (∀ d data, data = .home d ∨ data = .owner d → line ∉ s.coh.writebacks → (line, none) ∈ s.coh.recalls →
        ∃ t, exec (.completion line .i data) s = .next t ∧ (line, some d) ∈ t.coh.recalls) ∧
      (∀ grant, grant ≠ .i → hostTier (256 * line) = false → (∃ m ∈ s.coh.misses, m.1 = line) →
        let held := l2Get s.coh line
        let fills (data : Supply) (x : L2Line) : Prop :=
          ∃ t, exec (.completion line grant data) s = .next t ∧ l2Get t.coh line = x ∧
            ∀ m ∈ t.coh.misses, m.1 ≠ line
        (∀ d, fills (.home d) ⟨grant, 0, d.bits, d.bad⟩ ∧
          fills (.owner d) ⟨grant, if grant = .m then 15 else 0, d.bits, d.bad⟩) ∧
        (held.st = .o → grant = .m → fills .nothing { held with st := .m })) ∧
      ((∃ m ∈ s.coh.misses, m.1 = line) →
        ((∀ x ∈ s.coh.resol, x.line = line → x.awaiting = []) →
          ∃ t, exec (.coherenceTimeout (.here line)) s = .next t ∧ (∀ m ∈ t.coh.misses, m.1 ≠ line) ∧
            t.coh.failed = s.coh.failed ++ [(line, if hostTier (256 * line) then 0x37 else 0x38)]) ∧
        (∀ cause : BitVec 7, hostTier (256 * line) = false → isHome s.plat line = false →
          cause.toNat ∈ [0x36, 0x37, 0x38, 0x70] →
          ∃ t, exec (.coherenceTimeout (.told line cause)) s = .next t ∧ (∀ m ∈ t.coh.misses, m.1 ≠ line) ∧
            t.coh.failed = s.coh.failed ++ [(line, cause.toNat)]))) ∧
    (∀ line x, (s.coh.resol.find? fun x => x.line == line && !x.awaiting.isEmpty) = some x →
      exec (.coherenceTimeout (.here line)) s = .next (settle (abandonResol (bumpErr s 48) x
        (if x.rebuild then 0x36 else if hostSilent x then 0x37 else 0x38)))) ∧
    (∀ pa kind, hostTier pa = true →
      let line := pa / 256
      let k := pa / 64 % 4
      let at_ := pa / 64 * 64
      let gives (t : State) (j : Nat) (bad : Bool) (m : Msg) : Prop :=
        (if bad then Msg.hostError (256 * line + 64 * j) else m) ∈ t.outbox
      ((∀ f ∈ s.coh.fills, f.line ≠ line) →
        let x := l2Get s.coh line
        let bad := l2Bad s.coh line
        let sector (j : Nat) : BitVec 512 := x.data.extractLsb' (512 * j) 512
        ∃ t, exec (.hostSnoop pa kind) s = .next t ∧ t.mem = s.mem ∧
          (l2Get t.coh line).st = (if kind = .fwdS ∧ x.st ≠ .i then .s else .i) ∧
          (x.dirty.getLsbD k = true →
            gives t k (bad.getLsbD k) (.hostData at_ (sector k)) ∧ Msg.hostAnswer at_ .dirty ∈ t.outbox) ∧
          (x.dirty.getLsbD k = false → Msg.hostAnswer at_
            (if x.st ≠ .i then .clean else if kind = .inv ∨ kind = .rcl then .ack else .notHeld) ∈ t.outbox) ∧
          ∀ j < 4, j ≠ k → x.dirty.getLsbD j = true →
            gives t j (bad.getLsbD j) (.hostEvict (256 * line + 64 * j) (sector j))) ∧
      (∀ f, (s.coh.fills.find? fun f => f.line == line) = some f → f.got.getLsbD k = true →
        let sector (j : Nat) : BitVec 512 := f.data.extractLsb' (512 * j) 512
        ∃ t, exec (.hostSnoop pa kind) s = .next t ∧ t.mem = s.mem ∧
          (f.dirty.getLsbD k = true → Msg.hostData at_ (sector k) ∈ t.outbox) ∧
          Msg.hostAnswer at_ (if f.dirty.getLsbD k then .dirty else .clean) ∈ t.outbox ∧
          (kind = .fwdS → ∃ g ∈ t.coh.fills, g.line = line ∧ g.got = f.got ∧ g.st ≠ .m ∧ g.st ≠ .e ∧
            g.dirty = f.dirty &&& ~~~BitVec.ofNat 4 (2 ^ k)) ∧
          (kind ≠ .fwdS → (l2Get t.coh line).st = .i ∧ (∀ g ∈ t.coh.fills, g.line = line → g.got = 0) ∧
            ∀ j < 4, j ≠ k → f.dirty.getLsbD j = true →
              Msg.hostEvict (256 * line + 64 * j) (sector j) ∈ t.outbox))) ∧
    (∀ pa grant data, hostTier pa = true → grant ≠ .o → s.coh.puts = [] →
      (∃ m ∈ s.coh.misses, m.1 = pa / 256) →
      let line := pa / 256
      let k := pa / 64 % 4
      let f := (s.coh.fills.find? fun f => f.line == line).getD ⟨line, 0, .m, 0, 0, 0⟩
      let bit := BitVec.ofNat 4 (2 ^ k)
      let got := f.got ||| bit
      let dirty := if grant = .m then f.dirty ||| bit else f.dirty
      let st := if LineSt.code f.st < LineSt.code grant then f.st else grant
      let bytes := BitVec.ofNat 2048 (setBitsN f.data.toNat (512 * k) 512 data.toNat)
      ∃ t, exec (.hostCacheGrant pa grant data) s = .next t ∧
        (grant = .i → t.coh.failed = s.coh.failed ++ [(line, 0x37)] ∧ ∀ m ∈ t.coh.misses, m.1 ≠ line) ∧
        (grant ≠ .i →
          (got = 15 → st = .m → l2Get t.coh line = ⟨.m, dirty, bytes, 0⟩) ∧
          (got = 15 → st ≠ .m → st ≠ .i → l2Get t.coh line = ⟨st, 0, bytes, 0⟩ ∧
            ∀ j < 4, dirty.getLsbD j = true →
              Msg.hostEvict (256 * line + 64 * j) (bytes.extractLsb' (512 * j) 512) ∈ t.outbox) ∧
          (got ≠ 15 → t.coh.fills = (s.coh.fills.filter fun f => f.line != line) ++
            [⟨f.line, got, st, bytes, dirty, f.again⟩])))

/-- R115 to R117, R119, R120, R127, R129, R135 to R137, R153. The channels. A copy moves its next sector and owes a
credit for it unless it is the last; a credit that is due is paid; a finished operation returns its tiles, its units
and its channel, which starts what is pending unless the core is being taken away; a ring fill that is done leaves the
ring; and a TIDLD fills its slot once the slot is free. A collective whose members have all staged reads its sources
sector by sector; then it leaves the staged list, and every member's channel has the combination of the sources in
ascending order, or the root's bytes, which it writes to its destination sector by sector. The model's choices: log
39, log 67, log 77, log 78. -/
def Obligations.CopyEvents : Prop :=
  (∀ (s : State) (ch : Chan) (o : ChanOp), (s.chan ch).op = some o → o.failing = none →
    let g := { opAgent s ch o with evict := 0 }
    let done := (s.chan ch).done
    let left (u : State) : State := if o.regs.evict = 7 then dropTouched g u o.touched else u
    (o.mayRun s.core = true →
      (o.credit = 0 → o.moving = true → o.regs.kind ≠ 7 →
        (∀ u n, moveSector g s o = .done u n →
          let v := left u
          exec (.copySector ch) s = .next (v.setChan ch ((v.chan ch).setOp (o.moved n false)))) ∧
        (∀ u c a, moveSector g s o = .fail u c a → exec (.copySector ch) s = .next (errorEnd u ch o c a)) ∧
        (o.regs.kind = 0 → ∀ u bs w,
          let q := piece 64 o.regs.edst.toNat o.regs.elen.toNat o.pos
          engRead g s (o.regs.esrc.toNat + (q.1 - o.regs.edst.toNat)) q.2 = .done u bs →
          engWrite g u q.1 bs = .done w () →
          let v := left w
          exec (.copySector ch) s = .next (v.setChan ch ((v.chan ch).setOp { o with
            pos := o.pos + 1, credit := if o.pos + 1 < o.total then pieces 32 q.1 q.2 else 0 }))) ∧
        (o.isColl = true →
          let q := piece 64 o.regs.edst.toNat o.image.length o.pos
          let bs := (o.image.drop (q.1 - o.regs.edst.toNat)).take q.2
          (∀ u, engWrite g s q.1 bs = .done u () →
            let v := left u
            exec (.copySector ch) s = .next (v.setChan ch ((v.chan ch).setOp { o with
              pos := o.pos + 1, credit := if o.pos + 1 < o.total then pieces 32 q.1 q.2 else 0 }))) ∧
          (let off := q.1 % 2 ^ 60
           q.1 / 2 ^ 60 = 0xC → off + q.2 ≤ 2 ^ 20 →
           chipArea s (s.core.region.toNat * 2 ^ 26 + off) = some (s.core.region.toNat, .pad, off) →
           (∀ k ∈ tilesOf off q.2, (s.core.copy.tile k).owner.toNat = ch.num + 1) → spWf 0 s.core.pad = true →
           ∃ t, exec (.copySector ch) s = .next t ∧ areaBytes t.core .pad off q.2 = bs))) ∧
      (0 < o.credit → o.barrier = none →
        ∃ t, exec (.copySector ch) s = .next t ∧
          (t.chan ch).op = some { o with credit := 0, owed := o.owed - o.credit } ∧
          (t.chan ch).done = done + BitVec.ofNat 32 o.credit) ∧
      (o.finished s.coh = true →
        exec (.channelOpComplete ch) s = .next (completeOp s ch o) ∧
        (o.barrier = none → (s.chan ch).pending = none →
          ∃ t, exec (.channelOpComplete ch) s = .next t ∧ (t.chan ch).op = none ∧
            (t.chan ch).err = (s.chan ch).err ∧ (t.chan ch).done = done + BitVec.ofNat 32 o.owed ∧
            ∀ k ∈ o.tiles, let x := s.core.copy.tile k
              x.st = .filling ∨ x.st = .draining → x.owner.toNat = ch.num + 1 → x.released = false →
              (t.core.copy.tile k).st = .ready ∧ (t.core.copy.tile k).owner = 0) ∧
        (∀ p, o.barrier = none → (s.chan ch).pending = some p → (s.chan ch).err = false →
          (s.chan ch).paused = false →
          ∃ t, exec (.channelOpComplete ch) s = .next t ∧
            (s.core.leaving = false → (t.chan ch).op = some p ∧ (t.chan ch).pending = none ∧
              (t.chan ch).active = p.regs ∧ (t.chan ch).done = 0) ∧
            (s.core.leaving = true → (t.chan ch).op = none ∧ (t.chan ch).pending = some p)))) ∧
    (∀ f fs, o.fills = f :: fs → o.credit = 0 → o.total ≤ o.filled → o.barrier = none →
      let u := windowUnits o.record
      ∃ t, exec (.ringFillComplete ch) s = .next t ∧ (t.chan ch).done = done + BitVec.ofNat 32 u ∧
        (t.chan ch).op = some { o with fills := fs, filled := 0, credit := 0, owed := o.owed - u })) ∧
  (∀ (s : State) (g : BitVec 8) m0 ms, collMembers s g.toNat = some (m0 :: ms) →
    let all := m0 :: ms
    let kind := m0.op.regs.kind
    let fn := m0.op.regs.aux.toNat / 256
    let count := m0.op.regs.elen.toNat
    let n := count * collSize kind fn
    let event := exec (.collectiveStart g) s
    (∀ pre m post q, all = pre ++ m :: post → (∀ x ∈ pre, x.wants n = none) → m.wants n = some q →
      (∀ u bs, engRead (m.agent s) s q.1 q.2 = .done u bs → m.op.regs.evict ≠ 7 →
        event = .next (m.put u { m.op with image := m.op.image ++ bs })) ∧
      (∀ u c a, engRead (m.agent s) s q.1 q.2 = .fail u c a →
        event = .next (m.put u { m.op with srcErr := some (c, a) }))) ∧
    ((∀ m ∈ all, m.wants n = none) → (all.map CollMember.region).Nodup →
      let given (m : CollMember) : Nat := if m.reads then leNat m.op.image else 0
      let x := if kind = 5 then given m0 else reduceAll fn count (all.map given)
      ∃ t, event = .next t ∧ t.mem = s.mem ∧ t.coh = s.coh ∧
        t.pool = { s.pool with staged := s.pool.staged.filter fun e =>
          !(e.1 == g.toNat && all.any fun m => m.region == e.2.1 && m.ch.num == e.2.2) } ∧
        ∀ m ∈ all, ∀ c, s.coreAt m.region = some c → ∃ d, t.coreAt m.region = some d ∧ d.pad = c.pad ∧
          let e := if m.same then m.op.srcErr else some (0x4A, 0)
          (e = none → (d.copy.chan m.ch).op = some { m.op with ready := true, image := leBytes n x }) ∧
          (∀ f, e = some f → (d.copy.chan m.ch).op = some { m.op with failing := some f }))) ∧
  (∀ fn count x0 rest i, i < count → let b := 8 * collSize 4 fn
    elemN b (reduceAll fn count (x0 :: rest)) i =
      rest.foldl (fun acc x => combine fn acc (elemN b x i)) (elemN b x0 i) % 2 ^ b) ∧
  (∀ (s : State) (slot : BitVec 6) t k st w r, s.core.tracked.find? (fillsSlot slot.toNat) = some t →
    t.op = .tidFill k st w r →
    let c := s.core
    let x := c.copy.tid slot.toNat
    x.st = .free → (c.tracked.erase t).any (fillsSlot slot.toNat) = false →
    let filled : TidSlot := { x with record := r, st := .live, mapped := false }
    exec (.tidldFill slot) s = .next (s.setCore (Core.putSpan { c with
      tracked := c.tracked.erase t, copy := c.copy.setTid slot.toNat filled }
      st w (x.gen.toNat * 64 + slot.toNat))))

/-- R5, R64, R138 to R141, R281, R282, R369, R418, R420. The registers that the outside writes, and the queues. A
registration takes its fields, EN only with a size in range, and a write that would serve the queue is held while its
slot drains; a REMAP entry that is not refused takes its fields; a doubleword goes to its register, but a hole takes
nothing, nor does any register while the firmware is recovered. An engine that finds nothing waits; one that finds a
malformed or failing packet stops its queue; one that finds a good packet advances RIDX and captures it with its
registration, then performs it sector by sector, and settles its barrier at its end. The model's choices: log 49, log
55, log 90. -/
def Obligations.QueuesAndRegisters : Prop :=
  ∀ s : State,
    (s.plat.recovery = true → ∀ (n : BitVec 6) hi (v : Word) (i : BitVec 10) (e : BitVec 4) (off : BitVec 28),
      exec (.queueTableWrite n hi v) s = .next s ∧ exec (.remapWrite i e v) s = .next s ∧
      exec (.registerWrite off v) s = .next s) ∧
    (s.plat.recovery = false →
      let held (x : Nat × Word) : State := { s with plat := { s.plat with held := s.plat.held ++ [x] } }
      (∀ (n : BitVec 6) (v : Word), spWf queueDefault s.queues = true →
        let q := spGet queueDefault s.queues n.toNat
        let at_ := 0x800000 + 64 * n.toNat
        let after (t : State) : Queue := spGet queueDefault t.queues n.toNat
        let draining : Prop := q.en = false ∧ q.packet.isSome = true
        let behind : Prop := ∃ h ∈ s.plat.held, h.1 / 64 = at_ / 64
        (behind → exec (.queueTableWrite n false v) s = .next (held (at_, v))) ∧
        (¬behind → ∃ t, exec (.queueTableWrite n false v) s = .next t ∧
          after t = { q with base := v &&& 0x3FFFFFFFFFFFFFF }) ∧
        (behind ∨ draining ∧ v.getLsbD 31 = true →
          exec (.queueTableWrite n true v) s = .next (held (at_ + 8, v))) ∧
        (¬(behind ∨ draining ∧ v.getLsbD 31 = true) → ∃ t, exec (.queueTableWrite n true v) s = .next t ∧
          let size := v.extractLsb' 20 5
          let en := v.getLsbD 31 && decide (4 ≤ size.toNat) && decide (size.toNat ≤ 16)
          after t = { q with
            en := en, log2n := size, engine := v.extractLsb' 16 4, asid := v.extractLsb' 0 16,
            gen := if q.en && !en then q.gen + 1 else q.gen })) ∧
      (∀ (i : BitVec 10) (n : BitVec 4) (v : Word) c, s.coreAt i.toNat = some c →
        let x := v &&& 0x873F
        (remapBad s i.toNat c c.shelf.remap n.toNat x = false →
          ∃ t d, exec (.remapWrite i n v) s = .next t ∧ t.coreAt i.toNat = some d ∧
            d.shelf = { c.shelf with remap := lset c.shelf.remap n.toNat x } ∧ d.regs = c.regs ∧ d.csr = c.csr) ∧
        (remapBad s i.toNat c c.shelf.remap n.toNat x = true → exec (.remapWrite i n v) s = .next s)) ∧
      (∀ (off : BitVec 28) (v : Word),
        let o := off.toNat / 8 * 8
        let ones := BitVec.allOnes 64
        let waits : Prop := queueWaits s o v ones = true ∨ ∃ h ∈ s.plat.held, h.1 / 64 = o / 64
        (sysTest s o 8 = none → ¬waits → exec (.registerWrite off v) s = .next (sysWrite s o v ones none)) ∧
        (sysTest s o 8 = none → waits → exec (.registerWrite off v) s = .next (held (o, v))) ∧
        (sysTest s o 8 ≠ none → exec (.registerWrite off v) s = .next s))) ∧
    (∀ n : BitVec 6,
      let k := n.toNat
      let q := spGet queueDefault s.queues k
      let runs := exec (.queuePacketServe n) s
      let served (t : State) : State := { t with served := lset t.served q.engine.toNat k }
      let hasPacket (t : State) (p : Option Packet) : State :=
        { t with queues := spSet queueDefault t.queues k { spGet queueDefault t.queues k with packet := p } }
      (q.packet = none → q.en = true → otherFirst s k q = false →
        let a := bulkAgent s q.asid 0
        let stops (u : State) (r cause : Nat) : Prop := ∀ h, lineHeld a u (q.start + 128) 16 = (h, true) →
          runs = .next (served (stopQueue h k q.start q.asid.toNat r q.slots cause))
        (∀ u, lookQueue s q = .idle u → runs = .next u) ∧
        (∀ u r, lookQueue s q = .malformed u r → stops u r 0x46) ∧
        (∀ u r c, lookQueue s q = .fail u r c → stops u r c) ∧
        (∀ u r b, lookQueue s q = .packet u r b → pkBad b = true → stops u r 0x46) ∧
        (∀ u r b w, lookQueue s q = .packet u r b → pkBad b = false →
          engWrite a u (q.start + 64) (leBytes 8 (r + 1)) = .done w () →
          let taken : Queue := { q with packet := some ⟨r, b, q.base, q.log2n, q.asid, 0, none⟩ }
          runs = .next { w with queues := spSet queueDefault w.queues k taken })) ∧
      (∀ p, q.packet = some p →
        let b := p.bytes
        let a := bulkAgent s p.asid 0
        let sector := piece 64 (pkWord b 2) (pkLen b) p.pos
        let start := p.base.toNat / 4096 * 4096
        (p.err = none → (p.pos ≠ 0 ∨ pkRange a s b = none) → p.pos < pkTotal b →
          (∀ u bs w, pkEvict b ≠ 7 → engWrite a u sector.1 bs = .done w () →
            (pkKind b = 1 ∧ u = s ∧ bs = List.replicate sector.2 (BitVec.ofNat 8 (pkWord b 1)) ∨
              pkKind b ≠ 1 ∧ engRead a s (pkWord b 1 + (sector.1 - pkWord b 2)) sector.2 = .done u bs) →
            runs = .next (hasPacket w (some { p with pos := p.pos + 1 }))) ∧
          (∀ u c x, movePacket a p s = .fail u c x → runs = .next (hasPacket u (some { p with err := some c })))) ∧
        (∀ c, p.err = none → p.pos = 0 → pkRange a s b = some c →
          runs = .next (hasPacket s (some { p with err := some c }))) ∧
        (∀ h w z, (p.err ≠ none ∨ (p.pos ≠ 0 ∨ pkRange a s b = none) ∧ pkTotal b ≤ p.pos) →
          lineHeld a s (start + 128) 16 = (h, true) →
          (pkWord b 4 = 0 ∧ w = h ∨ pkWord b 4 ≠ 0 ∧ ∃ x, barRead a h (pkWord b 4) = .done w x) →
          (settlePacket a b p.err w = (z, none) → runs = .next (served (hasPacket z none))) ∧
          (∀ c, settlePacket a b p.err w = (z, some c) →
            runs = .next (served (stopQueue z k start p.asid.toNat p.ridx (2 ^ p.log2n.toNat) c))))))

/-- R131 to R134, R171, R197, R336, R338, R349, R350, R363, R364, R366. The waits of the B slot and their ends: each
condition of an end is that of its rule. What has waited issues with its group; a failure that arose meanwhile ends
the wait, and the group delivers it. A FENCE that publishes stores goes on when they have entered the coherence order.
A tracked barrier operation makes its update, and a tracked load of a graph delivers its handle. The model's choices:
log 6, log 41, log 44, log 72. -/
def Obligations.WaitsEnd : Prop :=
  ∀ s : State,
    let c := s.core
    let after (u : State) (w : BWait) : State := u.setCore { u.core with wait := w }
    let before (t : Tracked) : Prop := t.grp ≠ c.ctx.grp ∨ t.bundle < c.ctx.bundle
    let awaited (order : FenceOrder) (t : Tracked) : Prop :=
      before t ∧ (if order = .acq then t.op.isRead else t.op.isAccess) = true
    (∀ order scope (w next : BWait), c.wait = w →
      (w = .fence order scope ∧ next = .passed none ∧ c.failures = [] ∨ w = .fenced order scope ∧ next = .none) →
      ((∃ t ∈ c.tracked, awaited order t) → exec .fenceComplete s = .next s) ∧
      ((∀ t ∈ c.tracked, ¬awaited order t) →
        (order = .acq ∨ (∀ t ∈ c.uo, ¬before t) → exec .fenceComplete s = .next (after s next)) ∧
        (order ≠ .acq → ∀ u,
          (publishStores c.before s = (u, false) → exec .fenceComplete s = .next u) ∧
          (publishStores c.before s = (u, true) → u.core.failures = [] →
            exec .fenceComplete s = .next (after u next))))) ∧
    (c.failures = [] →
      (∀ mask : BitVec 5, c.wait = .waitt mask →
        (∀ t ∈ c.tracked, t.grp ≠ c.ctx.grp → inClass mask t = false) →
        (mask.getLsbD 2 = true → chanOpen c .a = false) → (mask.getLsbD 3 = true → chanOpen c .b = false) →
        exec .waittComplete s = .next (after s (.passed none))) ∧
      (∀ g b, c.wait = .barg g → c.binding = some b →
        let e := s.pool.group g.toNat
        (∀ u < 1024, e.map.getLsbD u = true → u ∈ e.exited ∨ bargsOf e b.v ≤ bargsOf e u) →
        exec .bargEpisodeComplete s = .next (after s (.passed (some g)))) ∧
      (∀ mask, c.wait = .waita mask →
        let look := lookAt mask ((List.range 8).map fun j => (c.copy.next.toNat + j) % 8) false s
        ((∀ k < 8, mask.getLsbD k = false ∨ (c.copy.watchAt k).valid = false) →
          exec .barrierWaitEnd s = .next (after s (.found 8))) ∧
        (∀ u k, look = .hit u k → exec .barrierWaitEnd s = .next (after u (.found k))) ∧
        (∀ u, look = .none u true → exec .barrierWaitEnd s = .next u) ∧
        (∀ u cause bar, look = .fail u cause bar → ∃ t, exec .barrierWaitEnd s = .next t ∧ t.core.wait = .none ∧
          ∃ f ∈ t.core.failures, f.cause = cause ∧ f.tval = bar ∧ f.grp = u.core.ctx.grp ∧ f.topc = c.waitPcb))) ∧
    (c.failures ≠ [] →
      (∀ order scope, c.wait = .fence order scope → exec .fenceComplete s = .next (after s .none)) ∧
      (∀ mask, c.wait = .waita mask → exec .barrierWaitEnd s = .next (after s .none)) ∧
      (∀ mask, c.wait = .waitt mask → exec .waittComplete s = .next (after s .none)) ∧
      (∀ g b, c.wait = .barg g → c.binding = some b →
        ∃ t, exec .bargEpisodeComplete s = .next t ∧ t.core.wait = .none ∧
          bargsOf (t.pool.group g.toNat) b.v = bargsOf (s.pool.group g.toNat) b.v - 1)) ∧
    (∀ (k : BitVec 3) t, lget .awake c.regs.clusters k.toNat = .waking c.mode t → t ≤ c.xt →
      exec (.clusterWakeComplete k) s = .next (s.setCore { c with
        regs := { c.regs with clusters := lset c.regs.clusters k.toNat .awake } })) ∧
    (∀ k t p f u old, c.tracked[k]? = some t → t.op.barrierFn = some (p, f) →
      (∀ e ∈ c.tracked.take k, e.op.accesses = false) → (∀ e ∈ c.uo, t.grp < e.grp) →
      barUpdate (c.selfAgent 0) s p f = .done u old →
      let rest : Core := { u.core with tracked := u.core.tracked.erase t }
      exec (.barrierUpdatePerformed k) s = .next (u.setCore (match t.op with
        | .barv _ _ st w => rest.putSpan st w (old % 16)
        | _ => rest))) ∧
    (∀ k t img ev st w tb asid sys u h, c.tracked[k]? = some t → t.op = .graphLoad img ev st w tb asid sys →
      (∀ e ∈ c.tracked.take k, e.op.accesses = false) → (∀ e ∈ c.uo, t.grp < e.grp) → img.toNat / 2 ^ 60 = 0 →
      loadGraph s (imageByVa { c.selfAgent ev with asid := asid, root := tb.toNat, sys := sys } img.toNat) =
        .done u h →
      exec (.graphLoadComplete k) s =
        .next (u.setCore (Core.putSpan { u.core with tracked := u.core.tracked.erase t } st w h)))

/-- R224, R268, R274, R275, R291 to R293, R296 to R302, R304, R311. The tracked instructions of the M slot, each
when nothing of its half or buffer stands before it. MDOT leaves in every buffer of its run the products of its
latch and the page, summed over the rows of each block, and in no other; MCOLL and MOUTL add to the accumulators
in their order; MACZ reads zero; MRMW's planes take the old rows; a reload, once the accesses that it must follow
are done, fills its page or its scales. -/
def Obligations.MatrixCompletions : Prop :=
  ∀ (s : State) (k : Nat) (t : Tracked), columnNext s k t →
    let c := s.core
    let mt := c.mat
    let gone (u : State) : Prop := u.core.tracked = c.tracked.erase t ∧ u.core.pad = c.pad ∧ u.mem = s.mem
    let rest : Core := { c with tracked := c.tracked.erase t }
    (∀ m pid ty va runs ev u b', t.op = .reload m pid ty va runs ev →
      (∀ e ∈ c.tracked.take k, mustFollow c.region.toNat t e = false) → cohRead s runs ev = .done u b' →
      let pa := (runs.map Prod.fst).headD 0
      let b := u.core.overlay runs b'
      let x := if ty = .n8 then u.core.mat.loadScales pid pa b else u.core.mat.loadPage pid ty pa b
      exec (.mloadComplete k) s =
        .next (u.setCore { u.core with mat := x, tracked := u.core.tracked.erase t })) ∧
    (∀ m page n half l, t.op = .dot m page n half l → spWf blockDefault mt.bufs = true →
      ∃ u, exec (.mdotComplete k) s = .next u ∧ gone u ∧ u.core.regs = c.regs ∧ u.core.mat.acc = mt.acc ∧
        u.core.mat.rows = mt.rows ∧
        ∀ j o b, o < 102 → b < 8 →
          let pid := pageId c.shelf j half page
          let ty := (mt.pageRec pid).fmt
          let sa := elemN 8 l.scales.toNat b
          let sw := (mt.scale pid (128 * b + o)).toNat
          let x := spGet blockDefault u.core.mat.bufs ((102 * j + o) * 8 + b)
          (m ≤ j → j < m + n → o < outputsOf ty →
            x.p = ((List.range 32).map fun r => toSigned 8 (elemN 8 l.act.toNat (32 * b + r)) *
              weightAt ty (mt.row pid (32 * b + r)) o).sum ∧
            x.x = (sa : Int) + sw - 254 - fracOf l.fmt - fracOf ty ∧ x.nan = (sa == 255 || sw == 255)) ∧
          (j < m ∨ m + n ≤ j → x = spGet blockDefault mt.bufs ((102 * j + o) * 8 + b))) ∧
    (∀ t0 u row m n ty, t.op = .coll t0 u row m n ty →
      let step := u * (if ty = .mxf4 then 2 else 1)
      let r := (List.range n).foldl (fun (q : AccRes) j =>
        let x := (collectMacro q.mat (t0 + step * j) u row (m + j) ty).1
        ⟨x.mat, q.flags ||| x.flags, false⟩) ⟨mt, 0, false⟩
      ∃ v, exec (.mcollComplete k) s = .next v ∧ gone v ∧ v.core.regs = c.regs ∧ v.core.mat.acc = r.mat.acc ∧
        v.core.csr.fpstat = c.csr.fpstat ||| BitVec.ofNat 5 r.flags) ∧
    (∀ t0 u es, t.op = .outl t0 u es →
      let r := es.foldl (fun r x => outlierAdd r t0 x) ⟨mt, 0, false⟩
      ∃ v, exec (.outlierListComplete k) s = .next v ∧ gone v ∧ v.core.regs = c.regs ∧
        v.core.mat.acc = r.mat.acc ∧ v.core.csr.fpstat = c.csr.fpstat ||| BitVec.ofNat 5 r.flags) ∧
    (let event := exec (.trackedMSlotOperationComplete k) s
     (∀ pid w1 st w, t.op = .pageRd pid w1 st w →
       event = .next (s.setCore (rest.putSpan st w ((mt.pageRec pid).word (if w1 then 1 else 0))))) ∧
     (∀ st w v, t.op = .span st w v → event = .next (s.setCore (rest.putSpan st w v))) ∧
     (∀ m pid, t.op = .pageClr m pid → event = .next (s.setCore { rest with mat := mt.clearPage pid })) ∧
     (∀ t0 n, t.op = .accZero t0 n →
       ∃ u, event = .next u ∧ gone u ∧ ∀ j e, e < 1024 →
         u.core.mat.accWord j e = (if t0 ≤ j ∧ j < t0 + n then 0 else mt.accWord j e)) ∧
     (∀ t0 e, t.op = .wideOn t0 e → t0 % 2 = 0 → t0 < 32 → mt.wide.length = 16 →
       ∃ u, event = .next u ∧ gone u ∧ u.core.mat.anchor t0 = some e ∧
         ∀ j < 1024, u.core.mat.accWord t0 j = 0 ∧ u.core.mat.accWord (t0 + 1) j = 0) ∧
     (∀ t0, t.op = .wideOff t0 → ∃ u, event = .next u ∧ gone u ∧ u.core.mat.acc = (wideOff mt t0).mat.acc ∧
       u.core.csr.fpstat = c.csr.fpstat ||| BitVec.ofNat 5 (wideOff mt t0).flags) ∧
     (∀ t0 u rs ty rm ws v, t.op = .accWrite t0 u rs ty rm ws v →
       let r := accWriteAll mt t0 rs ty rm ws v
       ∃ q, event = .next q ∧ gone q ∧ q.core.mat.acc = r.mat.acc ∧
         q.core.csr.fpstat = c.csr.fpstat ||| BitVec.ofNat 5 r.flags) ∧
     (∀ vals fl, t.op = .planes vals fl →
       let d := vals.foldl landVal c
       ∃ u, event = .next u ∧ u.core.tracked = d.tracked.erase t ∧ u.core.regs = d.regs ∧
         u.core.csr.fpstat = d.csr.fpstat ||| fl) ∧
     (∀ m pid, t.op = .scrub m pid → segNow c.shelf s.cycle (m / 32) = .awake → mt.errs = [] →
       event = .next (s.setCore rest)) ∧
     (∀ m pid row w ty ps v, t.op = .rmw m pid row w ty ps v → mt.errs = [] → row + w ≤ 256 →
       spWf 0 mt.rows = true → ty = .i8 ∨ ty = .i16 ∨ ty = .i32 →
       ∃ u, event = .next u ∧ u.core.tracked = c.tracked.erase t ∧
         u.core.regs = ((List.range w).foldl (fun d q =>
           landVal d (.plane (lget 0 ps q) (mt.row pid (row + q)) (BitVec.allOnes 512))) c).regs ∧
         ∀ q, q < w → ∀ j, j < 512 / ty.bits →
           elemN ty.bits (u.core.mat.row pid (row + q)).toNat j =
             (elemN ty.bits (mt.row pid (row + q)).toNat j + elemN ty.bits (elemN 512 v q) j) % 2 ^ ty.bits))

/-- R279, R280, R284 to R286, R408, R413, R414, R416. What a core does by itself. The background scrub moves to the
next row, waiting one period for a busy half; a refetch restores the words of its page that nothing wrote, and one
that fails is logged and a machine check; a segment wakes when its time has come; the bus, after 1,024 idle cycles, is
retested, and repaired, a repair without spare lanes being a machine check; and a refill makes the written KALLOW and
KGRES hold and gives every enabled core its share. The model's choices: log 26, log 82, log 92, log 97. -/
def Obligations.ShelfAndKilnEvents : Prop :=
  ∀ s : State,
    let c := s.core
    let sh := c.shelf
    let shelf (x : Shelf) : State := s.setCore { c with shelf := x }
    (let p := sh.scrubPos % scrubPlaces
     let pos := p / 2048
     let next : State := shelf { sh with scrubPos := (p + 1) % scrubPlaces, scrubWait := false }
     let busy := c.tracked.any fun t => (t.op.column sh).contains (true, p / 256 / 4)
     sh.scrubEn = true → c.kind = .a → c.mat.errs = [] →
     (segNow sh s.cycle (pos / 34) ≠ .awake ∨ posRetired s pos = true → exec .scrubTick s = .next next) ∧
     (segNow sh s.cycle (pos / 34) = .awake → posRetired s pos = false →
       ((∃ q ∈ c.mat.refetch, q / 8 = pos) → exec .scrubTick s = .next s) ∧
       ((∀ q ∈ c.mat.refetch, q / 8 ≠ pos) →
         (busy = false ∨ sh.scrubWait = true → exec .scrubTick s = .next next) ∧
         (busy = true → sh.scrubWait = false →
           exec .scrubTick s = .next (shelf { sh with scrubWait := true }))))) ∧
    (∀ pid ps, c.mat.refetch = pid :: ps → spWf 0 c.mat.rows = true →
      let r := c.mat.pageRec pid
      let restored (m : Mat) (image : Nat → Plane) : Prop :=
        pid ∉ m.refetch ∧ ∀ row q, row < 256 → q < 8 →
          elemN 64 (m.row pid row).toNat q =
            elemN 64 (if c.mat.wordWritten pid row q then c.mat.row pid row else image row).toNat q
      (r.loaded = false → ∃ t, exec .parityRefetchComplete s = .next t ∧ restored t.core.mat fun _ => 0) ∧
      (∀ u b, r.loaded = true → cohRead s [(r.wsrc.toNat, 16384)] 0 = .done u b → u.core = c →
        ∃ t, exec .parityRefetchComplete s = .next t ∧ restored t.core.mat fun row => imageRow r.fmt b row) ∧
      (∀ u cause, r.loaded = true → cohRead s [(r.wsrc.toNat, 16384)] 0 = .fail u cause →
        let lost (m : Mat) : Mat := { m with
          errs := m.errs.map fun e => if e.1 / 2048 = pid && e.2 == .parity then (e.1, .uncorrectable) else e
          refetch := m.refetch.filter fun p => p != pid }
        let v := (u.setMat (lost u.core.mat)).matFinding true 3 cause (2048 * pid)
        (u.core.run ≠ .stopped → exec .parityRefetchComplete s =
          .next (machineCheck v 2 cause (r.wsrc.setWidth 64))) ∧
        (u.core.run = .stopped → exec .parityRefetchComplete s = .next v))) ∧
    (∀ (k : BitVec 3) t, lget .awake sh.segs k.toNat = .waking t →
      (t ≤ s.cycle → exec (.segmentWakeComplete k) s =
        .next (shelf { sh with segs := lset sh.segs k.toNat .awake })) ∧
      (s.cycle < t → exec (.segmentWakeComplete k) s = .next s)) ∧
    (∀ (r : BitVec 3) (d : BitVec 8),
      let t := if sh.canlim.toNat < d.toNat ∧ r.toNat ∉ sh.repairRegions then
        shelf { sh with repairRegions := sh.repairRegions ++ [r.toNat] } else s
      exec (.canaryMeasure r d) s = .next t) ∧
    (∀ x : Int,
      exec (.temperatureSwing x) s = .next (shelf { sh with
        temp := x
        retestPending := sh.retestPending || decide ((sh.tswing.toNat : Int) < (x - sh.testTemp).natAbs) })) ∧
    (sh.retestPending = true → busQuiet s = true → sh.busLast + 1024 ≤ s.cycle →
      exec .busRetest s = .next (shelf { sh with
        retestPending := false, retests := satInc sh.retests, testTemp := sh.temp })) ∧
    (∀ n r rs, sh.repairRegions = r :: rs → busQuiet s = true →
      let t := shelf { sh with
        repairRegions := rs, repairs := satInc sh.repairs, lanesUsed := min 64 (sh.lanesUsed + n) }
      (sh.lanesUsed + n ≤ 64 → exec (.busRepair n) s = .next t) ∧
      (64 < sh.lanesUsed + n → exec (.busRepair n) s = .next (machineCheck
        { t with plat := { s.plat with catalogue := s.plat.catalogue.rewrite } } 4 0 0))) ∧
    (s.plat.upAt.isSome = true →
      let allow := s.kiln.kallow.toNat
      let g := min allow s.kiln.kgres.toNat
      let share (k : CoreKind) : Nat := max 512 (match k with
        | .a => (allow - g) / s.plat.aSites.length
        | .g => g / s.plat.gSites.length)
      ∃ t, exec .kilnRefill s = .next t ∧ t.mem = s.mem ∧ t.plat = s.plat ∧
        t.kiln = { s.kiln with allow := s.kiln.kallow, gres := s.kiln.kgres } ∧
        ∀ i ∈ coresOf s.plat .a ++ coresOf s.plat .g, ∀ x, s.coreAt i = some x →
          t.coreAt i = some { x with kilnUnits := share x.kind, kilnHolds := 0 })

/-- R346, R351, R354 to R358, R367 to R369, R399, R400, R430. The pool, the watchdog, the host and the sequencer. The
head of an order starts where its energy and its cores are there, and is abandoned with 0x6C where its cost can never
be met; a started node is bound further; a node that waits ages. A command of the host has its answer in HRES. A
pre-emption is taken once, and a core leaves its position in two steps. The model's choices: log 19, log 46, log 48,
log 75, log 94, log 100. -/
def Obligations.PoolEvents : Prop :=
  ∀ s : State,
    let p := s.pool
    (∀ kind k, headOf p kind = some k → p.preempting ≠ some k → bindingNode s kind = none →
      let n := p.node k
      let need := dCost n.desc * (if dRes n.desc = true then dWidth n.desc else 1)
      let todo := if dRes n.desc = true then unbound s.plat n else (unbound s.plat n).take 1
      let free := freeCores s kind
      (s.kiln.allow.toNat < need → exec (.nodeDispatch kind) s = .next (s.setPool (p.abandon k 0x6C))) ∧
      (need ≤ s.kiln.allow.toNat → todo ≠ [] → todo.length ≤ free.length →
        affords s n.desc todo.length = true →
        let q := countDecision p kind k
        let start := s.setPool (q.setNode k { q.node k with st := .running })
        exec (.nodeDispatch kind) s = .next ((todo.zip free).foldl (fun u x => bindPosition u k x.1 x.2) start))) ∧
    (∀ kind k q qs i is, bindingNode s kind = some k → unbound s.plat (p.node k) = q :: qs →
      freeCores s kind = i :: is → affords s (p.node k).desc 1 = true →
      exec (.positionBind kind) s = .next (bindPosition s k q i)) ∧
    (∀ slot : BitVec 12, spWf nodeDefault p.nodes = true →
      let n := p.node slot.toNat
      n.st = .ready → 4096 ≤ n.sinceReady →
      ∃ t, exec (.priorityAging slot) s = .next t ∧ (t.pool.node slot.toNat).prio = min 7 (n.prio + 1) ∧
        ∀ k, k ≠ slot.toNat → t.pool.node k = p.node k) ∧
    (∀ b, s.core.binding = some b → wdogOf s s.core ≠ 0 → wdogOf s s.core ≤ b.cycles → s.core.run = .running →
      let u := if s.core.mode = .node then cancelWait s else s
      (b.fired = false → exec .watchdogExpiry s = .next (u.setCore { u.core with
        binding := some { b with expired := true, fired := true } })) ∧
      (b.fired = true → exec .watchdogExpiry s = .next s)) ∧
    (let launches (out : Host.Outcome State Fault Refusal) (u : State) (k : BitVec 6) (g : BitVec 16) : Prop :=
       let h := g.toNat
       let fault := launchFault u.pool (handleSlot h)
       (graphLive u.pool h = false → out = .next (seqHalt u)) ∧
       (graphLive u.pool h = true → launchOpen u.pool h = true →
         out = .next (u.setPool { u.pool with seqJob := some (k, g) })) ∧
       (graphLive u.pool h = true → launchOpen u.pool h = false →
         (fault ≠ none → out = .next (seqHalt u)) ∧
         (fault = none → out = .next (u.setPool
           (launchGraph { u.pool with seqJob := none } (handleSlot h) (some k.toNat)))))
     let event := exec .sequencerLaunch s
     (∀ k g, p.seqJob = some (k, g) → launches event s k g) ∧
     (p.seqJob = none → p.seqEn = true →
       (∀ u cause a, barRead (bulkAgent s p.seqAsid 0) s p.seqBar.toNat = .fail u cause a →
         event = .next (seqHalt u)) ∧
       (∀ u b, barRead (bulkAgent s p.seqAsid 0) s p.seqBar.toNat = .done u b → u.pool = p →
         let ph := BitVec.ofNat 4 (barPhase b)
         (p.seqSeen = false → event = .next (u.setPool { p with seqSeen := true, seqPhase := ph })) ∧
         (p.seqSeen = true → ph = p.seqPhase → event = .next u) ∧
         (p.seqSeen = true → ph ≠ p.seqPhase → chooseBucket p = none → event = .next (seqHalt u)) ∧
         (∀ k e, p.seqSeen = true → ph ≠ p.seqPhase → chooseBucket p = some (k, e) →
           launches event (u.setPool { p with seqPhase := p.seqPhase + 1 }) (BitVec.ofNat 6 k) e.graph)))) ∧
    (s.plat.recovery = true → ∀ (pa : Word) (h : BitVec 16) b, exec (.hcmdLoad pa) s = .next s ∧
      exec (.hcmdLaunch h b) s = .next s ∧ exec (.hcmdFree h) s = .next s) ∧
    (p.hcmd = .none → s.plat.poolUp = true → s.plat.recovery = false →
      let answer (t : State) (cause : BitVec 7) (h : BitVec 16) : Prop :=
        t.pool.hcmd = .none ∧ t.pool.hresCause = cause ∧ t.pool.hresHandle = h
      (∀ pa : Word,
        let s' := s.setPool { p with hcmd := .load pa }
        (∀ u h, loadGraph s' (imageByPa pa.toNat) = .done u h →
          ∃ t, exec (.hcmdLoad pa) s = .next t ∧ answer t 0 (BitVec.ofNat 16 h) ∧ t.pool.graphs = u.pool.graphs ∧
            t.pool.nodes = u.pool.nodes) ∧
        (∀ u cause a, loadGraph s' (imageByPa pa.toNat) = .fail u cause a →
          ∃ t, exec (.hcmdLoad pa) s = .next t ∧ answer t (BitVec.ofNat 7 cause) 0)) ∧
      (∀ (h : BitVec 16) b,
        let q := { p with hcmd := .launch h b }
        let k := handleSlot h.toNat
        (graphLive p h.toNat = false → ∃ t, exec (.hcmdLaunch h b) s = .next t ∧ answer t 0x40 h) ∧
        (graphLive p h.toNat = true → launchOpen p h.toNat = true →
          exec (.hcmdLaunch h b) s = .next (s.setPool q)) ∧
        (graphLive p h.toNat = true → launchOpen p h.toNat = false →
          (∀ f, launchFault p k = some f →
            ∃ t, exec (.hcmdLaunch h b) s = .next t ∧ answer t (BitVec.ofNat 7 f.1) h) ∧
          (launchFault p k = none →
            ∃ t, exec (.hcmdLaunch h b) s = .next t ∧ answer t 0 h ∧
              t.pool.nodes = (launchGraph q k (b.map BitVec.toNat)).nodes ∧
              t.pool.graphs = (launchGraph q k (b.map BitVec.toNat)).graphs))) ∧
      (∀ h : BitVec 16,
        (graphLive p h.toNat = false → ∃ t, exec (.hcmdFree h) s = .next t ∧ answer t 0x40 h) ∧
        (graphLive p h.toNat = true → spWf graphDefault p.graphs = true →
          ∃ t, exec (.hcmdFree h) s = .next t ∧ answer t 0 h ∧ graphLive t.pool h.toNat = false))) ∧
    (∀ slot : BitVec 12,
      let t := if s.plat.recovery = false ∧ p.preempting = none ∧ (p.node slot.toNat).live ≠ [] then
        s.setPool { p with preempting := some slot.toNat } else s
      exec (.preempt slot) s = .next t) ∧
    (∀ b, s.core.binding = some b → p.preempting = some b.nodeSlot → (p.node b.nodeSlot).st ≠ .abandoned →
      s.core.run = .running →
      (b.preempted = false → s.core.mode = .node → s.core.wait.issued = false → s.core.pathDone = true →
        s.core.inHold = false →
        (s.core.failures = [] →
          ∃ t, exec .positionSave s = .next t ∧ t.core.binding = some { b with preempted := true } ∧
            t.core.wait = .none ∧ t.core.inflight = [] ∧ t.core.bank = s.core.inflight ∧ t.core.mode = .node ∧
            t.core.pc = (if s.core.wait = .none then s.core.pc else s.core.waitPcb) ∧
            (∀ x ∈ t.core.regs.clusters, x = .awake ∨ x = .asleep) ∧
            t.xlat = leaveWalks s.xlat ⟨s.core.region.toNat, false⟩) ∧
        (∀ f fs, s.core.failures = f :: fs →
          let u := cancelWait (s.setCore { s.core with gangPath := [] })
          exec .positionSave s = .next (deliverHere (u.setCore { u.core with failures := [] }) f))) ∧
      (b.preempted = true → drained s s.core = true →
        exec .positionSave s = .next (settlePreempt (saveAndLeave s b))))

/-- R14, R17, R18, R282, R413, R417 to R420, R424, R425, R427. The firing schedule: each step, where the ones it waits
for are done, makes its unit ready at its cycle and leaves memory, but for the stack that comes up, which reads zero.
Power that comes again begins the next bring-up, with the catalogue and the firmware image as they are. The model's
choices: log 26, log 63, log 84. -/
def Obligations.BringUpEvents : Prop :=
  ∀ s : State,
    let p := s.plat
    let c := p.catalogue
    (p.good = false → exec .powerGood s = .next { s with cycle := 0, plat := { p with good := true } }) ∧
    (p.good = true → ∃ t, exec .powerGood s = .next t ∧ t.plat.good = true ∧ t.plat.fw = false ∧ t.cycle = 0 ∧
      t.plat.catalogue = c ∧ t.plat.image = p.image ∧ t.core = State.reset.core ∧ t.mem = State.reset.mem) ∧
    (p.good = true → p.fw = false → p.recovery = false →
      (Config.mldsaVerify p.image = true →
        ∃ t, exec .firmwareVerify s = .next t ∧ t.plat.fw = true ∧ t.mem = s.mem ∧
          t.plat.measured = lset p.measured 0
            (sha3 (leBytes 64 (lget 0 p.measured 0).toNat ++ leBytes 64 (sha3 p.image).toNat))) ∧
      (Config.mldsaVerify p.image = false →
        exec .firmwareVerify s = .next (s.setPlat { p with recovery := true }))) ∧
    (∀ image, p.recovery = true → p.hostUp = true →
      exec (.recoveryMailboxImage image) s = .next (s.setPlat { p with image := image, recovery := false })) ∧
    (∀ shape, p.good = true →
      ∃ t, exec (.hostLinkTrain shape) s = .next t ∧ t.plat.hostUp = true ∧ t.plat.hlink = shape ∧
        t.cycle = max s.cycle 8000000 ∧ t.mem = s.mem) ∧
    (p.fw = true → p.cat = false → p.cfgnum ≠ 0xFF →
      (c.descs.find? (descFits c) = none →
        ∃ t, exec .configurationChoice s = .next t ∧ t.plat.cfgnum = 0xFF ∧ t.plat.cat = false) ∧
      (∀ d, c.descs.find? (descFits c) = some d →
        ∃ t, exec .configurationChoice s = .next t ∧ t.plat.cat = true ∧ t.plat.desc = d ∧
          t.plat.cfgnum = BitVec.ofNat 8 d.toNat ∧ t.kiln.kallow = BitVec.ofNat 32 (bitsN d.toNat 128 32) ∧
          t.kiln.kgres = BitVec.ofNat 32 (bitsN d.toNat 160 32) ∧ t.kiln.allow = t.kiln.kallow ∧
          t.kiln.gres = t.kiln.kgres ∧
          (∀ k < 12, let l := lget [] t.plat.lanes k
            l.length = descWidth d k ∧ ∀ x ∈ l, x < 16 ∧ (spGet 0 c.lanes k).getLsbD x = false) ∧
          t.plat.aSites.length = bitsN d.toNat 8 10 ∧ (∀ x ∈ t.plat.aSites, c.aSites.getLsbD x = false) ∧
          t.plat.gSites.length = bitsN d.toNat 18 6 ∧ (∀ x ∈ t.plat.gSites, c.gSites.getLsbD x = false) ∧
          t.plat.channels.length = bitsN d.toNat 24 10 ∧ (∀ x ∈ t.plat.channels, c.channels.getLsbD x = false))) ∧
    (p.cat = true →
      (p.l2Up = false → ∃ t, exec .l2PoolInit s = .next t ∧ t.plat.l2Up = true ∧ t.plat.poolUp = true ∧
        t.cycle = max s.cycle 9000000 ∧ t.mem = s.mem) ∧
      (p.gcoreUp = false → ∃ t, exec .gcoreBringup s = .next t ∧ t.plat.gcoreUp = true ∧
        t.cycle = max s.cycle 10000000 ∧ t.mem = s.mem) ∧
      (∀ g : BitVec 5, g.toNat < 17 → p.groupsUp.getLsbD g.toNat = false →
        ∃ t, exec (.acoreGroupBringup g) s = .next t ∧ t.mem = s.mem ∧
          t.cycle = max s.cycle (11000000 + 65536 * g.toNat) ∧ ∀ j < 17,
            t.plat.groupsUp.getLsbD j = (p.groupsUp.getLsbD j || j == g.toNat)) ∧
      (∀ x : ShelfTest, let k := x.shelf
        (∀ q ∈ p.aSites, p.groupsUp.getLsbD (q / 16) = true) → p.shelvesUp.getLsbD k.toNat = false →
        ∃ t, exec (.shelfBringup x) s = .next t ∧ t.mem = s.mem ∧
          t.cycle = max s.cycle (13000000 + 2000 * k.toNat) ∧ (x.failing = [] → t.plat.catalogue = c) ∧
          (∀ i core, i < p.aSites.length → t.coreAt i = some core →
            core.shelf.retestPending = false ∧ core.shelf.testTemp = core.shelf.temp) ∧
          (∀ j < 8, t.plat.shelvesUp.getLsbD j = (p.shelvesUp.getLsbD j || j == k.toNat)) ∧
          (t.plat.shelvesUp = 255 → t.plat.acoreUp = true)) ∧
      (∀ k : BitVec 4, k.toNat ∈ stacksUsed p → p.hbmUp.getLsbD k.toNat = false →
        let here (line : Nat) : Bool := isHome p line && stackOf p line == k.toNat
        ∃ t, exec (.hbmStackBringup k) s = .next t ∧ t.cycle = max s.cycle (14000000 + 2 ^ 20 * k.toNat) ∧
          (∀ j < 16, t.plat.hbmUp.getLsbD j = (p.hbmUp.getLsbD j || j == k.toNat)) ∧
          ∀ pa, memByte t.mem pa = if here (pa / 256) then 0 else memByte s.mem pa) ∧
      (∀ (k : BitVec 4) (pass : BitVec 16), k.toNat < 12 → p.ports.length = 12 → descWidth p.desc k.toNat ≠ 0 →
        (lget Reset.port p.ports k.toNat).tried = false → spWf 0 c.lanes = true →
        let good := (enabledLanes p k.toNat).filter fun j => pass.getLsbD j
        let w := min good.length (descWidth p.desc k.toNat) / 4 * 4
        ∃ t, exec (.portTrain k pass) s = .next t ∧ t.mem = s.mem ∧
          t.cycle = max s.cycle (40000000 + 2 ^ 20 * k.toNat) ∧
          (let q := lget Reset.port t.plat.ports k.toNat
           q.ready = decide (w ≠ 0) ∧ q.width.toNat = w ∧
           ∀ j < 16, q.lanes.getLsbD j = (good.take w).contains j) ∧
          ∀ j ∈ enabledLanes p k.toNat, j < 16 → pass.getLsbD j = false →
            (spGet 0 t.plat.catalogue.lanes k.toNat).getLsbD j = true))

/-- R420 to R423, R426 to R428. Measurement, attestation, the catalogue and the links: a request is taken where none
stands, and its completion has the effect that its rule gives; a link fault is counted and replayed, and after eight
in a row the port trains on the lanes that are good, or leaves its routes, whose other ports carry what it held. The
model's choices: log 13, log 28, log 59, log 60. -/
def Obligations.CatalogueAndLinkEvents : Prop :=
  ∀ s : State,
    let p := s.plat
    let c := p.catalogue
    (∀ i : Word, exec (.measExtend i) s = .next
      (if p.recovery = false ∧ p.extending = none ∧ 2 ≤ i.toNat ∧ i.toNat ≤ 7 then
        s.setPlat { p with extending := some (BitVec.ofNat 3 i.toNat, p.mdig) } else s)) ∧
    (∀ i d, p.extending = some (i, d) → p.measured.length = 8 →
      ∃ t, exec .measurementExtensionComplete s = .next t ∧ t.plat.extending = none ∧
        ∀ j < 8, lget 0 t.plat.measured j = if j = i.toNat then
          sha3 (leBytes 64 (lget 0 p.measured j).toNat ++ leBytes 64 d.toNat) else lget 0 p.measured j) ∧
    exec .attestationRequest s =
      .next (if p.recovery = true then s else s.setPlat { p with astat := 1, report := [] }) ∧
    (p.astat = 1 → ∃ t, exec .attestationComplete s = .next t ∧ t.plat.astat = 2 ∧
      t.plat.report = reportBody p ++ signature (reportBody p)) ∧
    (p.catBusy = none → p.recovery = false →
      let asked (kind unit extra : Nat) : Host.Outcome State Fault Refusal :=
        .next (s.setPlat { p with
          catBusy := some (wordOf (kind * 2 ^ 60 + extra * 2 ^ 16 + unit)), catRefused := false, catDone := false })
      (∀ x, x < 272 → exec (.retireAcoreSite x) s = asked 1 x 0) ∧
      (∀ x, x < 32 → exec (.retireGcoreSite x) s = asked 2 x 0) ∧
      (∀ x (k : BitVec 3) (e : Bool), x < 272 →
        exec (.retireSpare x k e) s = asked 3 x (2 * k.toNat + e.toNat)) ∧
      (∀ x, x < 512 → exec (.retireChannel x) s = asked 4 x 0) ∧
      (∀ x j, x < 12 → j < 16 → p.ports ≠ [] → exec (.retireLane x j) s = asked 5 (16 * x + j) 0)) ∧
    (∀ v : Word, p.catBusy = some v → spWf 0 c.spares = true → spWf 0 c.lanes = true →
      let n := v.toNat % 2 ^ 16
      let kind := v.toNat / 2 ^ 60
      ∃ t, exec .catalogueRecordComplete s = .next t ∧ t.plat.catBusy = none ∧ t.plat.catDone = true ∧
        (let d := t.plat.catalogue
         d.seq = c.seq + 1 ∧
         (∀ j < 272, d.aSites.getLsbD j = (c.aSites.getLsbD j || (kind == 1 && j == n))) ∧
         (∀ j < 32, d.gSites.getLsbD j = (c.gSites.getLsbD j || (kind == 2 && j == n))) ∧
         (∀ j k, k < 16 → (spGet 0 d.spares j).getLsbD k =
           ((spGet 0 c.spares j).getLsbD k || (kind == 3 && j == n && k == v.toNat / 2 ^ 16 % 16))) ∧
         (∀ j < 512, d.channels.getLsbD j = (c.channels.getLsbD j || (kind == 4 && j == n))) ∧
         (∀ j k, k < 16 → (spGet 0 d.lanes j).getLsbD k =
           ((spGet 0 c.lanes j).getLsbD k || (kind == 5 && 16 * j + k == n))))) ∧
    (∀ k : BitVec 4, k.toNat < 12 →
      let q := lget Reset.port p.ports k.toNat
      (q.ready = true → q.inRow < 8 →
        let x := { q with crc := satInc32 q.crc, replays := satInc32 q.replays, inRow := q.inRow + 1 }
        exec (.flitCrcFail k) s =
          .next (logError (s.setPlat { p with ports := lset p.ports k.toNat x }) 1 false 0 0 0 0)) ∧
      (∀ good : BitVec 16, q.ready = true → 8 ≤ q.inRow →
        let lanes := (enabledLanes p k.toNat).filter fun j => good.getLsbD j
        let w := min lanes.length (descWidth p.desc k.toNat) / 4 * 4
        ∃ x : Port, x.ready = decide (w ≠ 0) ∧ x.width.toNat = w ∧ x.inRow = 0 ∧
          let t := s.setPlat { p with ports := lset p.ports k.toNat x }
          (w ≠ 0 → exec (.portRetrain k good) s = .next (failUnrouted t)) ∧
          (w = 0 → exec (.portRetrain k good) s = .next (failUnrouted (resendHeld p k.toNat t)) ∧
            ∀ line excl j, (line, excl) ∈ s.coh.misses → hostTier (256 * line) = false → isHome p line = false →
              portTo p (homeChip (256 * line)) line = some k.toNat →
              portTo t.plat (homeChip (256 * line)) line = some j →
              Msg.request (homeChip (256 * line)) line excl j ∈ (resendHeld p k.toNat t).outbox))) ∧
    (p.hostUp = true → exec (.flitCrcFail 12) s = .next (logError s 1 false 0 0 0 0))

/-- R386, R388, R390, R391, R395, R398, R408. Taking a trap, and the debugger. A trap saves the cause, the value, the
place and the mode, enters system mode at TVEC and holds the results in flight of node mode in the bank; it leaves
the register files, where cluster wakes go on in system time, and memory; with a frame live it is a machine check,
whose address is the value where that is one. A field fault of an instruction's word traps with the word. A single
step of a gang's lead or of another core traps with 0x7A, or halts under HOT; a halt, after every hold, and a resume
do what the debugger asks, but while the firmware is recovered. The model's choices: log 32, log 46, log 61, log 72,
log 92. -/
def Obligations.TrapEntryAndDebug : Prop :=
  (∀ (s : State) (x : TrapInfo), s.core.csr.tact = false →
    let c := s.core
    let t := takeTrap s x
    let d := t.core
    let q := c.csr
    d.csr = { q with
      tcause := tcauseWord c.vcore x.cause x.slot x.defer, tval := x.tval, tpc := x.tpc &&& ~~~3#64,
      topc := x.topc, pm := decide (c.mode = .sys), tact := true } ∧
    d.mode = .sys ∧ d.pc = q.tvec &&& ~~~3#64 ∧ d.run = c.run ∧ d.wait = .none ∧
    d.regs = { c.regs with clusters := d.regs.clusters } ∧
    (∀ k, lget .awake d.regs.clusters k = match lget .awake c.regs.clusters k with
      | .waking m n => if m = .sys then .waking m n else if n ≤ c.xt then .awake
          else .waking .sys (c.sysXt + (n - c.xt))
      | y => y) ∧
    t.xlat = { s.xlat with
      fails := s.xlat.fails.filter fun f => f.who.engine || f.who.region != c.region.toNat } ∧ d.mat = c.mat ∧
    d.pad = c.pad ∧ d.copy = c.copy ∧ d.tracked = c.tracked ∧ t.mem = s.mem ∧ t.pool = s.pool ∧
    (c.mode = .node → d.bank = c.inflight ∧ d.inflight = [] ∧ d.nodeXt = x.resumeXt) ∧
    (c.mode = .sys → d.bank = c.bank ∧ d.inflight = c.inflight)) ∧
  (∀ (v : BitVec 10) (k : Nat) (slot : Option Nat) (d : Bool), k < 128 → (∀ n ∈ slot, n < 8) →
    let w := tcauseWord v k slot d
    w.extractLsb' 0 7 = BitVec.ofNat 7 k ∧ w.getLsbD 7 = false ∧
    w.extractLsb' 8 3 = BitVec.ofNat 3 (slot.getD 0) ∧ w.getLsbD 11 = slot.isSome ∧
    w.extractLsb' 12 3 = 0 ∧ w.getLsbD 15 = d ∧ w.extractLsb' 16 16 = 0 ∧ w.extractLsb' 32 10 = v ∧
    w.extractLsb' 42 22 = 0) ∧
  (∀ (s : State) (x : TrapInfo), s.core.csr.tact = true →
    let t := takeTrap s x
    t.core.run = .stopped ∧ t.core.dbg.mcV = true ∧ t.core.dbg.mcSyn = 1 ∧
      t.core.dbg.mcCode = BitVec.ofNat 8 x.cause ∧ t.mem = s.mem ∧
      (x.cause ∈ [0x30, 0x31, 0x32, 0x33, 0x35, 0x36, 0x37, 0x38, 0x45, 0x48, 0x51, 0x52, 0x54, 0x55, 0x70] →
        t.core.dbg.mcaddr = x.tval) ∧
      (x.cause ∈ [0x01, 0x02, 0x03, 0x04, 0x06, 0x07, 0x40, 0x68, 0x78, 0x79, 0x7A] → t.core.dbg.mcaddr = 0)) ∧
  (∀ (i : Instr) (s : State) (k : Nat), fieldFault i = some k →
    ∃ pj, exec i s = .next ((trapHere s (slotOf i) k (encode i)).report (.trapped k (encode i) pj))) ∧
  (∀ s : State,
    let c := s.core
    (c.csr.dbgctl.getLsbD 0 = true → c.mode = .node → c.run = .running → c.wait = .none →
      (∀ b, c.binding = some b → b.gang = true → b.v ≠ 0 → exec .singleStep s = .next s) ∧
      ((∀ b, c.binding = some b → b.gang = false ∨ b.v = 0) →
        let e := c.expire
        (c.csr.dbgctl.getLsbD 1 = true →
          exec .singleStep s = .next (enterHalt (s.setCore e) 2 e.pc e.nodeXt)) ∧
        (c.csr.dbgctl.getLsbD 1 = false → exec .singleStep s = .next (takeTrap (s.setCore e)
          { cause := 0x7A, tval := 0, slot := none, defer := false, tpc := e.pc, topc := e.pc,
            resumeXt := e.nodeXt })))) ∧
    (∀ i : BitVec 10, s.plat.recovery = true →
      exec (.debugHaltRequest i) s = .next s ∧ exec (.debugResume i) s = .next s) ∧
    (∀ (i : BitVec 10) x, s.coreAt i.toNat = some x → s.plat.recovery = false →
      exec (.debugHaltRequest i) s = .next (s.setCoreAt i.toNat { x with dbg := { x.dbg with hreq := true } }) ∧
      ∃ y, exec (.debugResume i) s = .next (s.setCoreAt i.toNat y) ∧ y.dbg.hreq = false ∧ y.mode = x.mode ∧
        y.regs = x.regs ∧ y.mat = x.mat ∧ y.pad = x.pad ∧
        (x.run ≠ .halted → y.run = x.run ∧ y.pc = x.pc ∧ y.inflight = x.inflight) ∧
        (x.run = .halted → y.pc = x.dbg.dpc &&& ~~~3#64 ∧
          (x.mode = .sys → y.run = .running) ∧
          (x.mode = .node → x.bankBad = false →
            y.run = .running ∧ y.inflight = x.inflight ++ x.bank ∧ y.bank = []) ∧
          (x.mode = .node → x.bankBad = true → y.run = .stopped ∧ y.dbg.mcV = true ∧ y.dbg.mcSyn = 5))) ∧
    (c.dbg.hreq = true → c.run = .running → c.inHold = true → exec .debugHalt s = .next s) ∧
    (c.dbg.hreq = true → c.run = .running → c.inHold = false →
      ∃ t, exec .debugHalt s = .next t ∧ t.core.run = .halted ∧ t.core.dbg.reason = 0 ∧ t.core.dbg.dpc = c.pc ∧
        t.core.regs = c.regs ∧ t.core.mode = c.mode ∧ t.mem = s.mem ∧
        t.xlat = leaveWalks s.xlat ⟨c.region.toNat, false⟩ ∧
        t.outbox = s.outbox ++ [.msix c.dbg.dvec]))

/-! ### Frames -/

/-- R72, R95, R180, R196, R216. Whatever an instruction of the S, vector, M or Q slots or a branch answers, no byte
of memory, no byte of the scratchpad and no register changes as it issues, but the generator class of its own
rounding mode, which a stochastic rounding advances by whole words in the lanes it draws in, and no other class; and
where it traps, the wakes of clusters go on in system time (log 72). Where it is no memory access, no register
write and no M-slot instruction, and it issues, every status register stays, every result in flight stays, and at most
one is added. -/
def Obligations.RegisterFrames : Prop :=
  ∀ (i : Instr) (s t : State), leavesFiles i = true → exec i s = .next t →
    let c := s.core
    let d := t.core
    t.mem = s.mem ∧ t.coh = s.coh ∧ t.pool = s.pool ∧ t.kiln = s.kiln ∧ t.queues = s.queues ∧ d.pad = c.pad ∧
    d.regs = { c.regs with gens := d.regs.gens, clusters := d.regs.clusters } ∧
    (d.report = .issued → d.regs.clusters = c.regs.clusters) ∧
    (∀ j, (drawMode i s).cls ≠ some j → genRead d.regs j = genRead c.regs j) ∧
    (∀ j, (drawMode i s).cls = some j → spWf genDefault c.regs.gens = true →
      genRead d.regs j = genRead c.regs j ∨
        ∃ k n, genRead d.regs j = (drawLanes (genRead s.view.regs j) k n).2) ∧
    (isBranch i = true ∨ slotOf i = some .s ∨ slotOf i = some .q → d.regs.gens = c.regs.gens) ∧
    (postsOnly i = true → d.report = .issued →
      t.others = s.others ∧ t.xlat = s.xlat ∧ (c.ecc = [] → t.plat = s.plat) ∧
      d.csr = c.csr ∧ d.mode = c.mode ∧ d.mat = c.mat ∧ d.shelf = c.shelf ∧ d.copy = c.copy ∧
      d.tracked = c.tracked ∧ d.failures = c.failures ∧ d.ends = c.ends ∧ d.wait = c.wait ∧ d.bank = c.bank ∧
      (isBranch i = false → d.pc = c.pc) ∧ (∀ r ∈ c.inflight, r ∈ d.inflight) ∧
      d.inflight.length ≤ c.inflight.length + 1)

/-- R72, R192, R193, R259, R261, R262. A store to a window of the core puts its bytes at its address when its group
ends, and changes no other byte of the scratchpad or of the accumulators: ST and STG all their bytes, VST the bits of
its image that its predicate governs, VSTX the elements of the governed lanes, the highest lane's where two meet. -/
def Obligations.StoreFrames : Prop :=
  (∀ (i : Instr) (o : FSM) (s t : State) (n v : Nat) (ar : Area) (off : Nat),
    (i = .st o ∧ n = (o.data.w + 1) / 2 ∧ v = valZ s.view o.d o.data) ∨
      (i = .stg o ∧ n = 2 ^ (o.fn.toNat % 4) ∧ v = (valS s.view o.d o.data % 2 ^ 64).toNat) →
    exec i s = .next t → t.core.report = .issued → s.core.ends = [] → spWf 0 s.core.pad = true →
    spWf 0 s.core.mat.acc = true →
    let a : Word := BitVec.ofNat 64 (valZ s.view o.d o.base) + o.long
    let place := (access s .write a n).place
    (place = .pad off ∧ ar = .pad) ∨ (place = .acc off ∧ ar = .acc) →
    let c := t.core.finishGroup
    (∀ b, b < off ∨ off + n ≤ b → areaByte c ar b = areaByte s.core ar b) ∧
    (∀ j, j < n → areaByte c ar (off + j) = byteOf v j) ∧
    ∀ x b, x = .pad ∨ x = .acc → x ≠ ar → areaByte c x b = areaByte s.core x b) ∧
  (∀ (o : FVM) (s t : State), exec (.vst o) s = .next t → t.core.report = .issued → s.core.ends = [] →
    spWf 0 s.core.pad = true →
    let v := s.view
    let x := vop v.csr o.d o.data
    let off := (BitVec.ofNat 64 (valZ v o.d o.base) + o.off.signExtend 64).toNat % 2 ^ 60
    let image := imageOf x.w (vread v x)
    let governed := imageOf x.w (govMask (vshape o.ty [x]) x.w (pmBits v o.pm))
    let c := t.core.finishGroup
    c.mat.acc = s.core.mat.acc ∧
    (∀ b, b < off ∨ off + 64 * x.w ≤ b → spGet 0 c.pad b = spGet 0 s.core.pad b) ∧
    ∀ j k, j < 64 * x.w → k < 8 → (spGet 0 c.pad (off + j)).getLsbD k =
      if governed.testBit (8 * j + k) then image.testBit (8 * j + k)
      else (spGet 0 s.core.pad (off + j)).getLsbD k) ∧
  (∀ (o : FVG) (s t : State), exec (.vstx o) s = .next t → t.core.report = .issued → s.core.ends = [] →
    spWf 0 s.core.pad = true →
    let v := s.view
    let x := vop v.csr o.d o.data
    let n := x.w / 2
    let lanes := (List.range 128).filter fun l => (pmBits v o.pm).getLsbD l
    let off (l : Nat) : Nat := (BitVec.ofNat 64
      (valZ v o.d o.base + elemN (4 * (vop v.csr o.d o.vidx).w) (vread v (vop v.csr o.d o.vidx)) l)).toNat % 2 ^ 60
    let apart (b l : Nat) : Prop := b < off l ∨ off l + n ≤ b
    let c := t.core.finishGroup
    c.mat.acc = s.core.mat.acc ∧
    (∀ b, (∀ l ∈ lanes, apart b l) → spGet 0 c.pad b = spGet 0 s.core.pad b) ∧
    ∀ l ∈ lanes, ∀ j < n, (∀ l' ∈ lanes, l < l' → apart (off l + j) l') →
      spGet 0 c.pad (off l + j) = byteOf (elemN (4 * x.w) (vread v x) l) j)

/-! ### The whole machine -/

/-- Every step keeps the canonical form of memory. -/
def Obligations.StepKeepsMemory : Prop := ∀ s t : State, s.Inv → step s = .next t → t.Inv

/-- R41, R171, R174, R314, R397, R413, R417. The machine after reset: nothing is up, every core is idle in node mode with its
clusters awake and its generators seeded with 0, COHTO and KALLOW hold their values, and memory lists nothing and
has its canonical form. The registers that the spec gives no value read zero, the model's choice (log 10, log 11). -/
def Obligations.ResetState : Prop :=
  let s := State.reset
  s.Inv ∧ s.mem = [] ∧ readyWord s.plat = 0 ∧ s.coh.cohto = 0x00100000 ∧ s.kiln.kallow = 4505600 ∧
  ∀ (i : BitVec 10) (k : CoreKind),
    let c := Reset.core i k
    c.run = .idle ∧ c.mode = .node ∧ c.inflight = [] ∧ c.tracked = [] ∧ c.binding = none ∧
    (∀ n < 5, lget .asleep c.regs.clusters n = .awake) ∧
    (∀ n < 16, genRead c.regs n = { ramp := false, d := 0, seed := lfsrSeeds 0, run := lfsrSeeds 0 }) ∧
    (∀ n < 8, (tagRead c.regs n).length = 64) ∧
    c.regs.owners = (if k = .a then [0, 0, 1, 1, 2] else [0, 0, 1, 1, 1])

/-- R66 to R69, R76 to R93. Decoding undoes encoding: the word of a well-formed instruction, with the extension word
it took, decodes in its slot to the instruction, every operand at the value it had; and a header without slots is
the empty bundle with its JOIN and STALL. -/
def Obligations.EncodeDecode : Prop :=
  (∀ (kind : CoreKind) (sl : Slot) (i : Instr), slotOf i = some sl → wellFormed i = true →
    ¬(sl = .m ∧ kind = .g) → decodeSlot kind sl (encode i) (extOf i) = .ok i) ∧
  (∀ (kind : CoreKind) (p : Word) (join : Bool) (stall : BitVec 4),
    let h : Header := (encode (.emptyBundle join stall)).setWidth 32
    headerFault kind h = none ∧ (bundleOf kind p h []).insts = [.emptyBundle join stall] ∧
      h.join = join ∧ h.stall = stall.toNat)

/-- R81 to R90. The words that the spec writes out stand for the instructions it says: CMP.lt p3, x4, x5;
AMO.add.acq_rel.chip x8, [x3], x9; BR ?p3 and CLOOP with their displacements; RET; LI x5 with its long immediate;
VFADD.f32 v4, v5, v6; VCHK v2, v34. -/
def Obligations.SpecWords : Prop :=
  let x (n : Nat) : SSpan := ⟨BitVec.ofNat 9 (16 * n), 15⟩
  let v (n : Nat) : VSpan := ⟨BitVec.ofNat 12 (8 * n), 7⟩
  let is (sl : Slot) (w : Word) (e : Option Word) (i : Instr) : Prop := decodeSlot .a sl w e = .ok i
  is .s 0x00050F207800C824 none (.cmp ⟨x 5, x 4, 3, 2⟩) ∧
  is .s 0x01690F187A03C444 none (.amo ⟨0, .chip, .acqRel, x 9, x 3, x 8, 1⟩) ∧
  is .b 0xFFFE80C1 none (.br ⟨BitVec.ofInt 19 (-12), false, 3, none⟩) ∧
  is .b 0xFFFF0009 none (.cloop (BitVec.ofInt 19 (-8))) ∧
  is .b 0x000043C8 none (.ret (x 1)) ∧
  is .s 0x3456789A0143C030 (some 0x12) (.li ⟨0x3456789A, x 5, false, some 0x12⟩) ∧
  is .va 0x00187028E041F040 none (.vfadd ⟨.va, 0, v 6, v 5, v 4, .f32, false⟩) ∧
  is .va 0x00887010E0000142 none (.vchk ⟨.va, 0, v 34, v 2, ⟨0, 0⟩, .i4, false⟩)

/-- R45, R66 to R75, R204, R385 to R387. A step runs the instruction that stands at the program counter. The bytes
there give a bundle, and a header with one slot and no template the instruction that its word decodes to. Where the
core's allowance pays for it and no earlier fault is delivered first, a group of one such bundle issues as exec says,
in the state the group is opened in, with the results due by then landed: where it issues, the program counter first
moves past the group, the end of the group follows, then what a single step or a gang makes of it; where it ends its
group by itself, its answer stands; where it traps, the bundle's trap is taken. An event of the agenda is exec of it.
The model's choices: log 4, log 51. -/
def Obligations.StepRunsDecoded : Prop :=
  (∀ (s : State) (e : Instr) (es : List Instr), s.agenda = e :: es → isEvent e = true →
    step s = exec e { s with agenda := es }) ∧
  (∀ (s : State) (v : State) (g : Group) (b : Bundle) (i : Instr), s.agenda = [] →
    let u := tick s
    coresTurn u = true → fetches u = true → fetchGroup u u.core.pc = .ok v g → g.bundles = [b] → b.holds i →
    v.core = u.core →
    let s0 := openGroup v g
    let s1 := s0.setCore s0.core.view
    let t := atBundle s1 0 b
    let after := gangAfter v g 1 true
    dueFault s0.core = none →
    (∀ q, deferredIn (dropWait s0) g = some q → step s = .next (passOn q)) ∧
    (deferredIn (dropWait s0) g = none → kilnPays s1.core (groupCharge s1 g) = true →
      (∀ r, isB i = false → exec i t = .next r → r.core.report = .issued →
        let w := fallThrough r g
        step s = .next (passOn (stepAfter v.core (after (w.setCore w.core.endGroup))))) ∧
      (∀ q r, isB i = true → exec i t = .next q → q.core.report = .issued →
        exec i (atBundle (fallThrough t g) 0 b) = .next r → r.core.report = .issued →
        step s = .next (passOn (stepAfter v.core (after (r.setCore r.core.endGroup))))) ∧
      (∀ q r, isB i = true → exec i t = .next q → q.core.report = .ended →
        exec i (atBundle (fallThrough t g) 0 b) = .next r → r.core.report = .ended →
        step s = .next (passOn (after r))) ∧
      (∀ r k x pj, exec i t = .next r → r.core.report = .trapped k x pj →
        step s = .next (passOn
          (groupTrap g (dropWait s0) (dropWait s1) 0 b (k, x, (slotOf i).map Slot.num)))))) ∧
  (∀ (s a b d : State) (p : Word) (raw body next : List Byte),
    let h : Header := BitVec.ofNat 32 (leNat raw)
    let h' : Header := BitVec.ofNat 32 (leNat next)
    let size := BitVec.ofNat 64 h.size
    fetchBytes s p 4 = .ok a raw → h.isFiller = false → headerFault a.core.kind h = none → crosses p h = false →
    h.size ≠ 4 → fetchBytes a (p + 4) (h.size - 4) = .ok b body →
    fetchBytes b (p + size) 4 = .ok d next → h'.isFiller = false → h'.join = false →
    fetchGroup s p = .ok d ⟨[bundleOf a.core.kind p h body], p + size, p + size⟩) ∧
  (∀ (kind : CoreKind) (p : Word) (h : Header) (body : List Byte) (sl : Slot) (i : Instr),
    h.slots = [sl] → h.tmpl = 0 →
    decodeSlot kind sl (BitVec.ofNat 64 (leNat (body.take sl.bytes))) none = .ok i →
    (bundleOf kind p h body).holds i)
end

