-- ==== Sys2Proof/Laws/Memory.lean ====
section
/-! SUPPORT. Sparse tables and physical memory: what a read gives after a write, and that every operation keeps the
canonical form. -/

namespace Sys2Proof.Machine

/-! ### Sparse tables -/

theorem spWfFrom_mono {α : Type} [DecidableEq α] {d : α} {a b : Nat} {m : Sparse α} (h : spWfFrom d a m = true)
    (hab : b ≤ a) : spWfFrom d b m = true := by
  cases m with
  | nil => rfl
  | cons p m =>
    obtain ⟨k, v⟩ := p
    simp only [spWfFrom, Bool.and_eq_true, decide_eq_true_eq] at h ⊢
    exact ⟨⟨by omega, h.1.2⟩, h.2⟩

/-- A key below the bound of a canonical table reads as the default. -/
theorem spGet_below {α : Type} [DecidableEq α] {d : α} {lo n : Nat} {m : Sparse α} (h : spWfFrom d lo m = true)
    (hn : n < lo) : spGet d m n = d := by
  induction m generalizing lo with
  | nil => rfl
  | cons p m ih =>
    obtain ⟨k, v⟩ := p
    simp only [spWfFrom, Bool.and_eq_true, decide_eq_true_eq] at h
    have hk : ¬k = n := by omega
    simp only [spGet, hk, if_false]
    exact ih h.2 (by omega)

/-- A write of one key leaves every other key, in any table. -/
theorem spGet_spSet_ne {α : Type} [DecidableEq α] (d : α) (m : Sparse α) (n j : Nat) (v : α) (h : j ≠ n) :
    spGet d (spSet d m n v) j = spGet d m j := by
  induction m with
  | nil =>
    unfold spSet
    split <;> simp [spGet, Ne.symm h]
  | cons p m ih =>
    obtain ⟨k, w⟩ := p
    simp only [spSet]
    split
    · split <;> simp [spGet, Ne.symm h]
    · split
      · rename_i hk
        subst hk
        split <;> simp [spGet, Ne.symm h]
      · simp only [spGet, ih]

theorem spGet_spSet_self_from {α : Type} [DecidableEq α] {d : α} {lo : Nat} {m : Sparse α}
    (h : spWfFrom d lo m = true) (n : Nat) (v : α) : spGet d (spSet d m n v) n = v := by
  induction m generalizing lo with
  | nil =>
    unfold spSet
    split
    · rename_i e
      exact e.symm
    · simp [spGet]
  | cons p m ih =>
    obtain ⟨k, w⟩ := p
    have hw := h
    simp only [spWfFrom, Bool.and_eq_true, decide_eq_true_eq] at h
    simp only [spSet]
    split
    · rename_i hk
      split
      · rename_i e
        have hk' : ¬k = n := by omega
        simp only [spGet, hk', if_false, e]
        exact spGet_below h.2 (by omega)
      · simp [spGet]
    · split
      · rename_i hk
        subst hk
        split
        · rename_i e
          rw [e]
          exact spGet_below h.2 (by omega)
        · simp [spGet]
      · rename_i h1 h2
        have hk : ¬k = n := fun e => h2 e.symm
        simp only [spGet, hk, if_false]
        exact ih h.2

/-- A write of one key of a canonical table is read back. -/
theorem spGet_spSet_self {α : Type} [DecidableEq α] {d : α} {m : Sparse α} (h : spWf d m = true) (n : Nat) (v : α) :
    spGet d (spSet d m n v) n = v := spGet_spSet_self_from h n v

theorem spWfFrom_spSet {α : Type} [DecidableEq α] {d : α} {lo : Nat} {m : Sparse α} (h : spWfFrom d lo m = true)
    (n : Nat) (v : α) (hn : lo ≤ n) : spWfFrom d lo (spSet d m n v) = true := by
  induction m generalizing lo with
  | nil =>
    unfold spSet
    split
    · rfl
    · rename_i hv
      simp [spWfFrom, hn, hv]
  | cons p m ih =>
    obtain ⟨k, w⟩ := p
    have hw := h
    simp only [spWfFrom, Bool.and_eq_true, decide_eq_true_eq] at h
    simp only [spSet]
    split
    · rename_i hk
      split
      · exact hw
      · rename_i hv
        simp only [spWfFrom, Bool.and_eq_true, decide_eq_true_eq]
        exact ⟨⟨hn, hv⟩, ⟨by omega, h.1.2⟩, h.2⟩
    · split
      · rename_i hk
        subst hk
        split
        · exact spWfFrom_mono h.2 (by omega)
        · rename_i hv
          simp only [spWfFrom, Bool.and_eq_true, decide_eq_true_eq]
          exact ⟨⟨hn, hv⟩, h.2⟩
      · simp only [spWfFrom, Bool.and_eq_true, decide_eq_true_eq]
        exact ⟨h.1, ih h.2 (by omega)⟩

/-- A write keeps the canonical form. -/
theorem spWf_spSet {α : Type} [DecidableEq α] {d : α} {m : Sparse α} (h : spWf d m = true) (n : Nat) (v : α) :
    spWf d (spSet d m n v) = true := spWfFrom_spSet h n v (Nat.zero_le n)

theorem spWfFrom_filter {α : Type} [DecidableEq α] {d : α} {lo : Nat} {m : Sparse α} (h : spWfFrom d lo m = true)
    (f : Nat × α → Bool) : spWfFrom d lo (m.filter f) = true := by
  induction m generalizing lo with
  | nil => rfl
  | cons p m ih =>
    obtain ⟨k, w⟩ := p
    simp only [spWfFrom, Bool.and_eq_true, decide_eq_true_eq] at h
    rw [List.filter_cons]
    split
    · simp only [spWfFrom, Bool.and_eq_true, decide_eq_true_eq]
      exact ⟨h.1, ih h.2⟩
    · exact spWfFrom_mono (ih h.2) (by omega)

/-- Dropping entries keeps the canonical form. -/
theorem spWf_filter {α : Type} [DecidableEq α] {d : α} {m : Sparse α} (h : spWf d m = true) (f : Nat × α → Bool) :
    spWf d (m.filter f) = true := spWfFrom_filter h f

/-! ### Physical memory -/

/-- The empty memory has the canonical form. -/
theorem Memory.wf_nil : Memory.wf [] = true := rfl

/-- A write of bytes keeps the canonical form. -/
theorem Memory.wf_memWrite {m : List Host.Cell} (h : Memory.wf m = true) (pa : Nat) (bs : List Byte) :
    Memory.wf (memWrite m pa bs) = true := by
  induction bs generalizing m pa with
  | nil => exact h
  | cons b bs ih => exact ih (spWf_spSet h pa b) (pa + 1)

theorem Memory.wf_foldl {m : List Host.Cell} (h : Memory.wf m = true) {β : Type}
    (f : List Host.Cell → β → List Host.Cell) (hf : ∀ m b, Memory.wf m = true → Memory.wf (f m b) = true)
    (l : List β) : Memory.wf (l.foldl f m) = true := by
  induction l generalizing m with
  | nil => exact h
  | cons b l ih => exact ih (hf m b h)

/-- A write of the sectors of a line keeps the canonical form. -/
theorem Memory.wf_memSectors {m : List Host.Cell} (h : Memory.wf m = true) (line : Nat) (dirty : BitVec 4)
    (data : BitVec 2048) : Memory.wf (memSectors m line dirty data) = true := by
  refine Memory.wf_foldl h _ (fun m k hm => ?_) _
  split
  · exact Memory.wf_memWrite hm _ _
  · exact hm

/-- A write of the enabled bytes of a sector keeps the canonical form. -/
theorem Memory.wf_memEnabled {m : List Host.Cell} (h : Memory.wf m = true) (pa : Nat) (en : BitVec 64)
    (d : BitVec 512) : Memory.wf (memEnabled m pa en d) = true := by
  refine Memory.wf_foldl h _ (fun m k hm => ?_) _
  split
  · exact Memory.wf_memWrite hm _ _
  · exact hm

/-- A stack of memory set to zero keeps the canonical form. -/
theorem Memory.wf_filter {m : List Host.Cell} (h : Memory.wf m = true) (f : Host.Cell → Bool) :
    Memory.wf (m.filter f) = true := spWf_filter h f

/-- A write of bytes leaves every byte outside its range. -/
theorem memByte_memWrite_outside (m : List Host.Cell) (pa : Nat) (bs : List Byte) (a : Nat)
    (h : a < pa ∨ pa + bs.length ≤ a) : memByte (memWrite m pa bs) a = memByte m a := by
  induction bs generalizing m pa with
  | nil => rfl
  | cons b bs ih =>
    rw [List.length_cons] at h
    have e := ih (spSet memDefault m pa b) (pa + 1) (by omega)
    rw [memWrite, e]
    exact spGet_spSet_ne memDefault m pa a b (by omega)

/-- A write of bytes is read back byte by byte. -/
theorem memByte_memWrite_inside {m : List Host.Cell} (hm : Memory.wf m = true) (pa : Nat) (bs : List Byte) (j : Nat)
    (h : j < bs.length) : memByte (memWrite m pa bs) (pa + j) = bs[j] := by
  induction bs generalizing m pa j with
  | nil => exact absurd h (Nat.not_lt_zero j)
  | cons b bs ih =>
    rw [memWrite]
    cases j with
    | zero =>
      rw [memByte_memWrite_outside _ _ _ _ (by omega)]
      exact spGet_spSet_self hm pa b
    | succ j =>
      have e := ih (spWf_spSet hm pa b) (pa + 1) j (by rw [List.length_cons] at h; omega)
      rw [show pa + (j + 1) = pa + 1 + j by omega, e]
      rfl

/-- A read of bytes after a write of them gives the bytes. -/
theorem memRead_memWrite {m : List Host.Cell} (hm : Memory.wf m = true) (pa : Nat) (bs : List Byte) :
    memRead (memWrite m pa bs) pa bs.length = bs := by
  induction bs generalizing m pa with
  | nil => rfl
  | cons b bs ih =>
    rw [List.length_cons, memRead, memWrite, ih (spWf_spSet hm pa b) (pa + 1),
      memByte_memWrite_outside _ _ _ _ (by omega)]
    rw [show memByte (spSet memDefault m pa b) pa = b from spGet_spSet_self hm pa b]

end Sys2Proof.Machine
end

