-- ==== Sys2Proof/Laws/Device.lean ====
section
/-! SUPPORT. The shared operations of the device's steps where nothing is left for them to do, and the two outcomes of a
request of the outside. -/

namespace Sys2Proof.Machine

/-! ### Stores of the device, and of a core to unordered pages -/

theorem settle_nothing {s : State} (h : s.coh.puts = []) : settle s = s := by simp [settle, h, drainPuts]

theorem publishStores_nothing {s : State} {f : Tracked → Bool} (h : ∀ t ∈ s.core.uo, f t = false) :
    publishStores f s = (s, true) := by
  have hf : s.core.uo.filter f = [] := List.filter_eq_nil_iff.mpr fun t ht => by simp [h t ht]
  have hk : (s.core.uo.filter fun t => !f t) = s.core.uo := List.filter_eq_self.mpr fun t ht => by simp [h t ht]
  simp [publishStores, hf, holdStores, hk, State.setCore]

theorem releaseStep_nothing {s : State} {k : Nat} {t : Tracked}
    (ha : ∀ e ∈ s.core.tracked.take k, e.op.accesses = false) (hu : ∀ e ∈ s.core.uo, t.grp < e.grp) :
    releaseStep k t s = (s, true) := by
  have hn : ((s.core.tracked.take k).any fun q => q.op.accesses) = false := by
    simp only [List.any_eq_false]
    exact fun q hq => by simp [ha q hq]
  rw [releaseStep, hn]
  exact publishStores_nothing fun e he => by simpa using hu e he

/-! ### Requests that wait -/

theorem homeRequest_waits {s : State} {line : Nat}
    (h : lineFree s line = false ∨ ∃ w ∈ s.coh.waiting, w.line = line) (q : HomeReq) :
    homeRequest s line q = s.setCoh { s.coh with waiting := s.coh.waiting ++ [⟨line, q⟩] } := by
  rw [homeRequest, if_neg]
  rcases h with h | ⟨w, hw, e⟩
  · simp [h]
  · simp only [Bool.and_eq_true, List.all_eq_true, not_and]
    exact fun _ k => by simpa [e] using k w hw

theorem asked_recovery {s : State} (h : s.plat.recovery = true) (f : State → State) : s.asked f = s := by
  simp [State.asked, h]

theorem asked_up {s : State} (h : s.plat.recovery = false) (f : State → State) : s.asked f = f s := by
  simp [State.asked, h]

/-! ### Reading a line out of the L2 -/

/-- A line that no word of the L2 is wrong in is read as it stands, and nothing is logged. -/
theorem l2Read_sound {s : State} {line : Nat} (h : ∀ e ∈ s.coh.l2Err, e.1 / 32 ≠ line) (mask : BitVec 4) :
    l2Read s line mask = (s, l2Data s.coh line) := by
  have hf : (s.coh.l2Err.filter fun e => e.1 / 32 == line && mask.getLsbD (e.1 / 8 % 4)) = [] :=
    List.filter_eq_nil_iff.mpr fun e he => by simp [h e he]
  simp [l2Read, hf]

/-! ### The packet of a queue -/

theorem setPacket_get {s : State} (h : spWf queueDefault s.queues = true) (k : Nat) (p : Option Packet) :
    spGet queueDefault (setPacket s k p).queues k = { spGet queueDefault s.queues k with packet := p } :=
  spGet_spSet_self h k _

@[simp] theorem setPacket_core (s : State) (k : Nat) (p : Option Packet) : (setPacket s k p).core = s.core := rfl
@[simp] theorem setPacket_mem (s : State) (k : Nat) (p : Option Packet) : (setPacket s k p).mem = s.mem := rfl
@[simp] theorem setPacket_coh (s : State) (k : Nat) (p : Option Packet) : (setPacket s k p).coh = s.coh := rfl
@[simp] theorem setPacket_xlat (s : State) (k : Nat) (p : Option Packet) : (setPacket s k p).xlat = s.xlat := rfl
@[simp] theorem setPacket_plat (s : State) (k : Nat) (p : Option Packet) : (setPacket s k p).plat = s.plat := rfl
@[simp] theorem setPacket_served (s : State) (k : Nat) (p : Option Packet) : (setPacket s k p).served = s.served := rfl

end Sys2Proof.Machine
end

