-- ==== Sys2Proof/Laws/Ops.lean ====
section
/-! SUPPORT. What an instruction issued from its plan can do, said once: it issues with its effect when nothing
stands in its way. -/

namespace Sys2Proof.Machine

theorem clear_dueFault {s : State} (h : clear s = true) : dueFault s.core = none := by
  simp only [clear, Bool.and_eq_true, Option.isNone_iff_eq_none] at h
  exact h.1.1.1.1

theorem clear_failures {s : State} (h : clear s = true) : s.core.failures = [] := by
  simp only [clear, Bool.and_eq_true, List.isEmpty_iff] at h
  exact h.1.1.1.2

theorem clear_inner {s : State} (h : clear s = true) : s.core.inner = [] := by
  simp only [clear, Bool.and_eq_true, List.isEmpty_iff] at h
  exact h.1.1.2

theorem badUnit_clear {s : State} (h : clear s = true) (p : Plan) : badUnit s.core p = false := by
  simp [badUnit, meets, clear_inner h]

theorem clear_tracked {s : State} (h : clear s = true) :
    ∀ t ∈ s.core.tracked, t.grp = s.core.ctx.grp := by
  simp only [clear, Bool.and_eq_true, List.all_eq_true, beq_iff_eq] at h
  exact h.1.2

theorem busyUnits_clear {s : State} (h : clear s = true) : s.core.busyUnits = [] := by
  have e : (s.core.tracked.filter fun t => t.grp != s.core.ctx.grp) = [] := by
    rw [List.filter_eq_nil_iff]
    intro t ht
    simp [clear_tracked h t ht]
  simp [Core.busyUnits, e]

theorem csrPending_clear {s : State} (h : clear s = true) : s.core.csrPending = false := by
  unfold Core.csrPending
  rw [List.any_eq_false]
  intro t ht
  simp [clear_tracked h t ht]

theorem failureFor_clear {s : State} (h : clear s = true) (p : Plan) : failureFor s.core p = none := by
  simp [failureFor, clear_failures h]

theorem unitShort_clear {s : State} (h : clear s = true) (hl : s.core.csr.cctl.getLsbD 0 = true)
    (u : HUnit) (w : Option Nat) : unitShort s.core u w = 0 := by
  simp only [clear, Bool.and_eq_true, hl, Bool.not_true, Bool.false_or, List.all_eq_true,
    Bool.or_eq_true, beq_iff_eq, decide_eq_true_eq] at h
  have e : (s.core.inflight.filter fun r =>
      r.grp != s.core.ctx.grp && decide (s.core.xt < r.land) && r.units.contains u) = [] := by
    rw [List.filter_eq_nil_iff]
    intro r hr
    rcases h.2 r hr with g | g
    · simp [g]
    · simp [Nat.not_lt.mpr g]
  unfold unitShort
  rw [e]
  rfl

theorem lchk_clear {s : State} (h : clear s = true) (rd wr : List HUnit) (lat : Nat) :
    lchk s.core rd wr lat = [] := by
  unfold lchk
  split
  · rename_i hl
    have a : ((rd.map fun u => (unitShort s.core u none, u)) ++
        wr.map fun u => (unitShort s.core u (some lat), u)).filter (fun p => decide (0 < p.1)) = [] := by
      rw [List.filter_eq_nil_iff]
      intro p hp
      rw [List.mem_append, List.mem_map, List.mem_map] at hp
      rcases hp with ⟨u, _, rfl⟩ | ⟨u, _, rfl⟩ <;> simp [unitShort_clear h hl]
    simp only [a]
  · rfl

theorem meets_nil (l : List HUnit) : meets [] l = false := rfl

@[simp] theorem kilnCharge_zero (c : Core) : kilnCharge c 0 = c := rfl
@[simp] theorem kilnPays_zero (c : Core) : kilnPays c 0 = true := rfl

theorem dueNow_nil (p : Plan) : dueNow p [] = [] := by simp [dueNow]

/-- When nothing stands in the way, a well-formed instruction without a fault, a wait or a lack of energy
issues, and its effect takes place. -/
theorem runPlan_clear {i : Instr} {s : State} {p : Plan} (hc : clear s = true)
    (hw : wellFormed i = true) (hf : p.faults = []) (hs : p.stall = none) (hk : p.walk = false)
    (hj : kilnPays s.core p.pj = true) :
    runPlan i s p = .next ((p.eff (s.setCore (kilnCharge s.core p.pj))).report .issued) := by
  have hw' : fieldFault i = none := by simpa [wellFormed] using hw
  simp [runPlan, hw', clear_dueFault hc, failureFor_clear hc, badUnit_clear hc, csrPending_clear hc, busyUnits_clear hc,
    meets_nil, lchk_clear hc, hf, dueNow_nil, lowestFault, Plan.waits, hs, hk, hj]

/-- The same for an instruction that is not charged. -/
theorem runPlan_free {i : Instr} {s : State} {p : Plan} (hc : clear s = true)
    (hw : wellFormed i = true) (hf : p.faults = []) (hs : p.stall = none) (hk : p.walk = false)
    (hj : p.pj = 0) : runPlan i s p = .next ((p.eff s).report .issued) := by
  have h := runPlan_clear (i := i) (s := s) (p := p) hc hw hf hs hk (by rw [hj]; rfl)
  rw [h, hj]
  rfl

theorem faultsOf_nil : faultsOf [] = [] := rfl

theorem faultsOf_cons (b : Bool) (k : Nat) (v : Word) (l : List (Bool × Nat × Word)) (hb : b = false) :
    faultsOf ((b, k, v) :: l) = faultsOf l := by simp [faultsOf, hb]

/-- No test of a list holds: no fault. -/
theorem faultsOf_eq_nil (l : List (Bool × Nat × Word)) (h : ∀ x ∈ l, x.1 = false) : faultsOf l = [] := by
  simp only [faultsOf, List.map_eq_nil_iff, List.filter_eq_nil_iff]
  intro x hx
  simp [h x hx]

/-- Whatever an instruction issued from its plan answers, it answers a next state. -/
theorem runPlan_next (i : Instr) (s : State) (p : Plan) : ∃ t, runPlan i s p = .next t := by
  unfold runPlan
  dsimp only
  split
  · exact ⟨_, rfl⟩
  · split
    · exact ⟨_, rfl⟩
    · split
      · exact ⟨_, rfl⟩
      · split
        · exact ⟨_, rfl⟩
        · split
          · exact ⟨_, rfl⟩
          · split
            · exact ⟨_, rfl⟩
            · split
              · exact ⟨_, rfl⟩
              · split <;> exact ⟨_, rfl⟩

end Sys2Proof.Machine
end

