-- ==== Sys2Proof/Laws/Scalar.lean ====
section
/-! SUPPORT. The S slot: every instruction that writes one scalar span issues as its plan says. -/

namespace Sys2Proof.Machine

theorem scalarOk_cons {s : State} {d : Bool} {sp : SSpan} {l : List SSpan} :
    scalarOk s d (sp :: l) = true ↔ spanBad s.view d sp = false ∧ scalarOk s d l = true := by
  simp [scalarOk]

theorem scalarOk_any {s : State} {d : Bool} {l : List SSpan} (h : scalarOk s d l = true) :
    l.any (spanBad s.view d) = false := by
  simpa [scalarOk] using h

/-- An instruction that writes one value to a scalar span issues and puts the value in flight. -/
theorem runPlan_scalar {i : Instr} {s : State} {d : Bool} {dst : SSpan} {srcs : List SSpan} {lat : Nat}
    {more : List (Bool × Nat × Word)} {val : Nat} (hc : clear s = true) (hw : wellFormed i = true)
    (hok : scalarOk s d (dst :: srcs) = true) (hm : ∀ x ∈ more, x.1 = false) :
    runPlan i s (planScalar s i d dst srcs lat more val) = .next (scalarResult s d dst lat val) := by
  have hf : (planScalar s i d dst srcs lat more val).faults = [] := by
    show faultsOf _ = []
    refine faultsOf_eq_nil _ fun x hx => ?_
    rcases List.mem_cons.mp hx with rfl | hx
    · exact scalarOk_any hok
    · exact hm x hx
  rw [runPlan_free hc hw hf rfl rfl rfl]
  rfl

end Sys2Proof.Machine
end

