-- ==== Sys2Proof/Laws/Matrix.lean ====
section
/-! SUPPORT. The checks of the M slot, of the copy slots and of accesses, each when it has nothing to report. -/

namespace Sys2Proof.Machine

theorem accBusy_clear {s : State} (h : clear s = true) : accBusy s.core = false := by
  simp [accBusy, busyUnits_clear h]

theorem scalarOk_nil {s : State} {d : Bool} : scalarOk s d [] = true := rfl

theorem slotFault_false {i : Instr} {k : Nat} {b : Bool} (h : b = false) : slotFault b k i = [] := by
  simp [slotFault, h]

/-- A plan of the copy slots finds no fault of its own where every span lies in the file. -/
theorem planC_faults {s : State} {i : Instr} {spans : List SSpan} (h : scalarOk s false spans = true) :
    (planC s i spans).faults = [] := by
  show faultsOf _ = []
  exact faultsOf_eq_nil _ (by simpa using scalarOk_any h)

/-- Macros that are ready give no fault and no wait. -/
theorem macCheck_ready {s : State} {compute : Bool} {macs : List Nat} (h : macrosReady s compute macs = true) :
    (macCheck s.core s.cycle compute macs).faults = [] ∧ (macCheck s.core s.cycle compute macs).stall = none := by
  simp only [macrosReady, List.all_eq_true, Bool.and_eq_true, beq_iff_eq] at h
  have mode : macs.find? (fun m => s.core.mat.modes.getLsbD m != compute) = none := by
    rw [List.find?_eq_none]
    intro m hm
    simp [(h m hm).1]
  have asleep : macs.filter (fun m => segNow s.core.shelf s.cycle (m / 32) == .asleep) = [] := by
    rw [List.filter_eq_nil_iff]
    intro m hm
    simp [(h m hm).2]
  have pending : macs.any (fun m => segNow s.core.shelf s.cycle (m / 32) != .awake &&
      (s.core.csr.cctl.getLsbD 1 || segNow s.core.shelf s.cycle (m / 32) != .asleep)) = false := by
    rw [List.any_eq_false]
    intro m hm
    simp [(h m hm).2]
  constructor
  · simp only [macCheck, mode, asleep]
    simp
  · simp only [macCheck, pending]
    simp

/-- What `accessOk` says of an access. -/
theorem accessOk_iff {s : State} {k : AccKind} {a : Word} {n : Nat} :
    accessOk s k a n = true ↔
      (access s k a n).faults = [] ∧ (access s k a n).walks = false ∧ (access s k a n).wait = none := by
  simp [accessOk, and_assoc, List.isEmpty_iff]

/-- A run of macros that stays within the column. -/
theorem macRun_ok {m n : Nat} (h : m + n ≤ 256) : macRun m n = rangeFrom m n := by
  unfold macRun
  rw [List.filter_eq_self]
  intro k hk
  simp [rangeFrom] at hk ⊢
  omega

end Sys2Proof.Machine
end

