-- ==== Sys2Proof/Laws/PerInstr.lean ====
section
/-! SUPPORT. What holds of every instruction as syntax, one lemma a constructor: an instruction of a 32-bit slot has a
word of 32 bits, and a step of the device has no slot, no extension word and no field fault. -/

namespace Sys2Proof.Laws.Narrow

/-- The word of an instruction of slot B or Q lies in its low half (R66); what has no slot has no field that could be
ill-formed (R87). -/
def Statement (i : Instr) : Prop :=
  (slotOf i = some .b ∨ slotOf i = some .q → ((encode i).setWidth 32).setWidth 64 = encode i) ∧
  (slotOf i = none → fieldFault i = none ∧ extOf i = none)

theorem low_half (x : BitVec 32) : ((x.setWidth 64).setWidth 32).setWidth 64 = x.setWidth 64 := by simp

theorem wide {i : Instr} {sl : Slot} (h : slotOf i = some sl) (hb : sl ≠ .b) (hq : sl ≠ .q) : Statement i := by
  constructor
  · intro e
    rw [h] at e
    rcases e with e | e
    · exact absurd (Option.some.inj e) hb
    · exact absurd (Option.some.inj e) hq
  · intro e
    rw [h] at e
    exact absurd e (by simp)

theorem narrow {i : Instr} {sl : Slot} (h : slotOf i = some sl) (x : BitVec 32) (hx : encode i = x.setWidth 64) :
    Statement i := by
  constructor
  · intro _
    rw [hx]
    exact low_half x
  · intro e
    rw [h] at e
    exact absurd e (by simp)

theorem device {i : Instr} (h : slotOf i = none) (hf : fieldFault i = none) (hx : extOf i = none) : Statement i := by
  constructor
  · intro e
    rw [h] at e
    exact absurd e (by simp)
  · intro _
    exact ⟨hf, hx⟩

theorem vslot_wide (s : VSlot) : s.slot ≠ .b ∧ s.slot ≠ .q := by cases s <;> decide
theorem chan_wide (c : Chan) : c.slot ≠ .b ∧ c.slot ≠ .q := by cases c <;> decide

theorem emptyBundle (join : Bool) (stall : BitVec 4) : Statement (.emptyBundle join stall) := device rfl rfl rfl
theorem br (o : FBC) : Statement (.br o) := narrow rfl _ rfl
theorem brz (o : FBZ) : Statement (.brz o) := narrow rfl _ rfl
theorem brnz (o : FBZ) : Statement (.brnz o) := narrow rfl _ rfl
theorem jmp (o : FBJ) : Statement (.jmp o) := narrow rfl _ rfl
theorem jmpi (o : FBR) : Statement (.jmpi o) := narrow rfl _ rfl
theorem call (o : FBJ) : Statement (.call o) := narrow rfl _ rfl
theorem calli (o : FBR) : Statement (.calli o) := narrow rfl _ rfl
theorem ret (sa : SSpan) : Statement (.ret sa) := narrow rfl _ rfl
theorem cloop (disp : BitVec 19) : Statement (.cloop disp) := narrow rfl _ rfl
theorem waitt (mask : BitVec 5) : Statement (.waitt mask) := narrow rfl _ rfl
theorem waita (mask : BitVec 8) (dst : SSpan) : Statement (.waita mask dst) := narrow rfl _ rfl
theorem barg (g : BitVec 8) : Statement (.barg g) := narrow rfl _ rfl
theorem trig (g : BitVec 8) : Statement (.trig g) := narrow rfl _ rfl
theorem trigNode : Statement .trigNode := narrow rfl _ rfl
theorem exit : Statement .exit := narrow rfl _ rfl
theorem fence (order : FenceOrder) (scope : Scope) : Statement (.fence order scope) := narrow rfl _ rfl
theorem trap (imm : BitVec 13) : Statement (.trap imm) := narrow rfl _ rfl
theorem tret : Statement .tret := narrow rfl _ rfl
theorem bkpt (imm : BitVec 13) : Statement (.bkpt imm) := narrow rfl _ rfl
theorem rfcl (mask : BitVec 5) : Statement (.rfcl mask) := narrow rfl _ rfl
theorem lend (owner : BitVec 2) (c : BitVec 3) : Statement (.lend owner c) := narrow rfl _ rfl
theorem add (o : FSR) : Statement (.add o) := wide rfl (by decide) (by decide)
theorem sub (o : FSR) : Statement (.sub o) := wide rfl (by decide) (by decide)
theorem addi (o : FSI) : Statement (.addi o) := wide rfl (by decide) (by decide)
theorem mul (o : FSR) : Statement (.mul o) := wide rfl (by decide) (by decide)
theorem mulh (o : FSR) : Statement (.mulh o) := wide rfl (by decide) (by decide)
theorem mulhn (o : FSR) : Statement (.mulhn o) := wide rfl (by decide) (by decide)
theorem div (o : FSR) : Statement (.div o) := wide rfl (by decide) (by decide)
theorem divn (o : FSR) : Statement (.divn o) := wide rfl (by decide) (by decide)
theorem rem (o : FSR) : Statement (.rem o) := wide rfl (by decide) (by decide)
theorem remn (o : FSR) : Statement (.remn o) := wide rfl (by decide) (by decide)
theorem and (o : FSR) : Statement (.and o) := wide rfl (by decide) (by decide)
theorem or (o : FSR) : Statement (.or o) := wide rfl (by decide) (by decide)
theorem xor (o : FSR) : Statement (.xor o) := wide rfl (by decide) (by decide)
theorem andn (o : FSR) : Statement (.andn o) := wide rfl (by decide) (by decide)
theorem shl (o : FSR) : Statement (.shl o) := wide rfl (by decide) (by decide)
theorem shr (o : FSR) : Statement (.shr o) := wide rfl (by decide) (by decide)
theorem sra (o : FSR) : Statement (.sra o) := wide rfl (by decide) (by decide)
theorem rotl (o : FSR) : Statement (.rotl o) := wide rfl (by decide) (by decide)
theorem clz (o : FSR) : Statement (.clz o) := wide rfl (by decide) (by decide)
theorem ctz (o : FSR) : Statement (.ctz o) := wide rfl (by decide) (by decide)
theorem popc (o : FSR) : Statement (.popc o) := wide rfl (by decide) (by decide)
theorem min (o : FSR) : Statement (.min o) := wide rfl (by decide) (by decide)
theorem max (o : FSR) : Statement (.max o) := wide rfl (by decide) (by decide)
theorem minn (o : FSR) : Statement (.minn o) := wide rfl (by decide) (by decide)
theorem maxn (o : FSR) : Statement (.maxn o) := wide rfl (by decide) (by decide)
theorem cmp (o : FSCmp) : Statement (.cmp o) := wide rfl (by decide) (by decide)
theorem sel (o : FSSel) : Statement (.sel o) := wide rfl (by decide) (by decide)
theorem li (o : FSL) : Statement (.li o) := wide rfl (by decide) (by decide)
theorem movs (o : FSR) : Statement (.movs o) := wide rfl (by decide) (by decide)
theorem exts (o : FSI) : Statement (.exts o) := wide rfl (by decide) (by decide)
theorem inss (o : FSI) : Statement (.inss o) := wide rfl (by decide) (by decide)
theorem lea (o : FSI) : Statement (.lea o) := wide rfl (by decide) (by decide)
theorem ld (o : FSM) : Statement (.ld o) := wide rfl (by decide) (by decide)
theorem st (o : FSM) : Statement (.st o) := wide rfl (by decide) (by decide)
theorem ldg (o : FSM) : Statement (.ldg o) := wide rfl (by decide) (by decide)
theorem stg (o : FSM) : Statement (.stg o) := wide rfl (by decide) (by decide)
theorem amo (o : FSA) : Statement (.amo o) := wide rfl (by decide) (by decide)
theorem cas (o : FSA) : Statement (.cas o) := wide rfl (by decide) (by decide)
theorem csrr (o : FSC) : Statement (.csrr o) := wide rfl (by decide) (by decide)
theorem csrw (o : FSC) : Statement (.csrw o) := wide rfl (by decide) (by decide)
theorem csrs (o : FSC) : Statement (.csrs o) := wide rfl (by decide) (by decide)
theorem csrc (o : FSC) : Statement (.csrc o) := wide rfl (by decide) (by decide)
theorem engw (o : FSC) : Statement (.engw o) := wide rfl (by decide) (by decide)
theorem engr (o : FSC) : Statement (.engr o) := wide rfl (by decide) (by decide)
theorem hchk (o : FSR) : Statement (.hchk o) := wide rfl (by decide) (by decide)
theorem vadd (o : FVR) : Statement (.vadd o) := wide rfl (vslot_wide o.sl).1 (vslot_wide o.sl).2
theorem vsub (o : FVR) : Statement (.vsub o) := wide rfl (vslot_wide o.sl).1 (vslot_wide o.sl).2
theorem vmul (o : FVR) : Statement (.vmul o) := wide rfl (vslot_wide o.sl).1 (vslot_wide o.sl).2
theorem vmulh (o : FVR) : Statement (.vmulh o) := wide rfl (vslot_wide o.sl).1 (vslot_wide o.sl).2
theorem vmad (o : FVR) : Statement (.vmad o) := wide rfl (vslot_wide o.sl).1 (vslot_wide o.sl).2
theorem vmin (o : FVR) : Statement (.vmin o) := wide rfl (vslot_wide o.sl).1 (vslot_wide o.sl).2
theorem vmax (o : FVR) : Statement (.vmax o) := wide rfl (vslot_wide o.sl).1 (vslot_wide o.sl).2
theorem vabs (o : FVR) : Statement (.vabs o) := wide rfl (vslot_wide o.sl).1 (vslot_wide o.sl).2
theorem vneg (o : FVR) : Statement (.vneg o) := wide rfl (vslot_wide o.sl).1 (vslot_wide o.sl).2
theorem vand (o : FVR) : Statement (.vand o) := wide rfl (vslot_wide o.sl).1 (vslot_wide o.sl).2
theorem vor (o : FVR) : Statement (.vor o) := wide rfl (vslot_wide o.sl).1 (vslot_wide o.sl).2
theorem vxor (o : FVR) : Statement (.vxor o) := wide rfl (vslot_wide o.sl).1 (vslot_wide o.sl).2
theorem vandn (o : FVR) : Statement (.vandn o) := wide rfl (vslot_wide o.sl).1 (vslot_wide o.sl).2
theorem vshl (o : FVR) : Statement (.vshl o) := wide rfl (vslot_wide o.sl).1 (vslot_wide o.sl).2
theorem vshr (o : FVR) : Statement (.vshr o) := wide rfl (vslot_wide o.sl).1 (vslot_wide o.sl).2
theorem vsra (o : FVR) : Statement (.vsra o) := wide rfl (vslot_wide o.sl).1 (vslot_wide o.sl).2
theorem vpopc (o : FVR) : Statement (.vpopc o) := wide rfl (vslot_wide o.sl).1 (vslot_wide o.sl).2
theorem vclz (o : FVR) : Statement (.vclz o) := wide rfl (vslot_wide o.sl).1 (vslot_wide o.sl).2
theorem vadds (o : FVR) : Statement (.vadds o) := wide rfl (vslot_wide o.sl).1 (vslot_wide o.sl).2
theorem vsubs (o : FVR) : Statement (.vsubs o) := wide rfl (vslot_wide o.sl).1 (vslot_wide o.sl).2
theorem vshlImm (o : FVI) : Statement (.vshlImm o) := wide rfl (vslot_wide o.sl).1 (vslot_wide o.sl).2
theorem vshrImm (o : FVI) : Statement (.vshrImm o) := wide rfl (vslot_wide o.sl).1 (vslot_wide o.sl).2
theorem vsraImm (o : FVI) : Statement (.vsraImm o) := wide rfl (vslot_wide o.sl).1 (vslot_wide o.sl).2
theorem vfadd (o : FVR) : Statement (.vfadd o) := wide rfl (vslot_wide o.sl).1 (vslot_wide o.sl).2
theorem vfsub (o : FVR) : Statement (.vfsub o) := wide rfl (vslot_wide o.sl).1 (vslot_wide o.sl).2
theorem vfmul (o : FVR) : Statement (.vfmul o) := wide rfl (vslot_wide o.sl).1 (vslot_wide o.sl).2
theorem vfma (o : FVR) : Statement (.vfma o) := wide rfl (vslot_wide o.sl).1 (vslot_wide o.sl).2
theorem vfms (o : FVR) : Statement (.vfms o) := wide rfl (vslot_wide o.sl).1 (vslot_wide o.sl).2
theorem vfmin (o : FVR) : Statement (.vfmin o) := wide rfl (vslot_wide o.sl).1 (vslot_wide o.sl).2
theorem vfmax (o : FVR) : Statement (.vfmax o) := wide rfl (vslot_wide o.sl).1 (vslot_wide o.sl).2
theorem vfabs (o : FVR) : Statement (.vfabs o) := wide rfl (vslot_wide o.sl).1 (vslot_wide o.sl).2
theorem vfneg (o : FVR) : Statement (.vfneg o) := wide rfl (vslot_wide o.sl).1 (vslot_wide o.sl).2
theorem vcmp (o : FVC) : Statement (.vcmp o) := wide rfl (vslot_wide o.sl).1 (vslot_wide o.sl).2
theorem vfcmp (o : FVC) : Statement (.vfcmp o) := wide rfl (vslot_wide o.sl).1 (vslot_wide o.sl).2
theorem vsel (o : FVR) : Statement (.vsel o) := wide rfl (vslot_wide o.sl).1 (vslot_wide o.sl).2
theorem vclass (o : FVU) : Statement (.vclass o) := wide rfl (vslot_wide o.sl).1 (vslot_wide o.sl).2
theorem vcvt (o : FVU) : Statement (.vcvt o) := wide rfl (vslot_wide o.sl).1 (vslot_wide o.sl).2
theorem vwiden (o : FVU) : Statement (.vwiden o) := wide rfl (vslot_wide o.sl).1 (vslot_wide o.sl).2
theorem vnarrow (o : FVU) : Statement (.vnarrow o) := wide rfl (vslot_wide o.sl).1 (vslot_wide o.sl).2
theorem vmxq (o : FVU) : Statement (.vmxq o) := wide rfl (vslot_wide o.sl).1 (vslot_wide o.sl).2
theorem vmxd (o : FVU) : Statement (.vmxd o) := wide rfl (vslot_wide o.sl).1 (vslot_wide o.sl).2
theorem vrsum (o : FVU) : Statement (.vrsum o) := wide rfl (vslot_wide o.sl).1 (vslot_wide o.sl).2
theorem vrfsum (o : FVU) : Statement (.vrfsum o) := wide rfl (vslot_wide o.sl).1 (vslot_wide o.sl).2
theorem vrmax (o : FVU) : Statement (.vrmax o) := wide rfl (vslot_wide o.sl).1 (vslot_wide o.sl).2
theorem vrmin (o : FVU) : Statement (.vrmin o) := wide rfl (vslot_wide o.sl).1 (vslot_wide o.sl).2
theorem vperm (o : FVR) : Statement (.vperm o) := wide rfl (vslot_wide o.sl).1 (vslot_wide o.sl).2
theorem vslide (o : FVI) : Statement (.vslide o) := wide rfl (vslot_wide o.sl).1 (vslot_wide o.sl).2
theorem vbcast (o : FVI) : Statement (.vbcast o) := wide rfl (vslot_wide o.sl).1 (vslot_wide o.sl).2
theorem vextr (o : FVI) : Statement (.vextr o) := wide rfl (vslot_wide o.sl).1 (vslot_wide o.sl).2
theorem vins (o : FVI) : Statement (.vins o) := wide rfl (vslot_wide o.sl).1 (vslot_wide o.sl).2
theorem vzip (o : FVR) : Statement (.vzip o) := wide rfl (vslot_wide o.sl).1 (vslot_wide o.sl).2
theorem vunzip (o : FVR) : Statement (.vunzip o) := wide rfl (vslot_wide o.sl).1 (vslot_wide o.sl).2
theorem vcxs (o : FVX) : Statement (.vcxs o) := wide rfl (vslot_wide o.sl).1 (vslot_wide o.sl).2
theorem vexp2 (o : FVU) : Statement (.vexp2 o) := wide rfl (vslot_wide o.sl).1 (vslot_wide o.sl).2
theorem vlog2 (o : FVU) : Statement (.vlog2 o) := wide rfl (vslot_wide o.sl).1 (vslot_wide o.sl).2
theorem vrcp (o : FVU) : Statement (.vrcp o) := wide rfl (vslot_wide o.sl).1 (vslot_wide o.sl).2
theorem vrsqrt (o : FVU) : Statement (.vrsqrt o) := wide rfl (vslot_wide o.sl).1 (vslot_wide o.sl).2
theorem vsqrt (o : FVU) : Statement (.vsqrt o) := wide rfl (vslot_wide o.sl).1 (vslot_wide o.sl).2
theorem vtanh (o : FVU) : Statement (.vtanh o) := wide rfl (vslot_wide o.sl).1 (vslot_wide o.sl).2
theorem vsigm (o : FVU) : Statement (.vsigm o) := wide rfl (vslot_wide o.sl).1 (vslot_wide o.sl).2
theorem vsinp (o : FVU) : Statement (.vsinp o) := wide rfl (vslot_wide o.sl).1 (vslot_wide o.sl).2
theorem vcosp (o : FVU) : Statement (.vcosp o) := wide rfl (vslot_wide o.sl).1 (vslot_wide o.sl).2
theorem pand (o : FVP) : Statement (.pand o) := wide rfl (vslot_wide o.sl).1 (vslot_wide o.sl).2
theorem por (o : FVP) : Statement (.por o) := wide rfl (vslot_wide o.sl).1 (vslot_wide o.sl).2
theorem pxor (o : FVP) : Statement (.pxor o) := wide rfl (vslot_wide o.sl).1 (vslot_wide o.sl).2
theorem pnot (o : FVP) : Statement (.pnot o) := wide rfl (vslot_wide o.sl).1 (vslot_wide o.sl).2
theorem pcnt (o : FVP) : Statement (.pcnt o) := wide rfl (vslot_wide o.sl).1 (vslot_wide o.sl).2
theorem pfirst (o : FVP) : Statement (.pfirst o) := wide rfl (vslot_wide o.sl).1 (vslot_wide o.sl).2
theorem vld (o : FVM) : Statement (.vld o) := wide rfl (vslot_wide o.sl).1 (vslot_wide o.sl).2
theorem vst (o : FVM) : Statement (.vst o) := wide rfl (vslot_wide o.sl).1 (vslot_wide o.sl).2
theorem vldx (o : FVG) : Statement (.vldx o) := wide rfl (vslot_wide o.sl).1 (vslot_wide o.sl).2
theorem vstx (o : FVG) : Statement (.vstx o) := wide rfl (vslot_wide o.sl).1 (vslot_wide o.sl).2
theorem vlds (o : FVS) : Statement (.vlds o) := wide rfl (vslot_wide o.sl).1 (vslot_wide o.sl).2
theorem vmov (o : FVU) : Statement (.vmov o) := wide rfl (vslot_wide o.sl).1 (vslot_wide o.sl).2
theorem vli (o : FVI) : Statement (.vli o) := wide rfl (vslot_wide o.sl).1 (vslot_wide o.sl).2
theorem vchk (o : FVR) : Statement (.vchk o) := wide rfl (vslot_wide o.sl).1 (vslot_wide o.sl).2
theorem viota (o : FVU) : Statement (.viota o) := wide rfl (vslot_wide o.sl).1 (vslot_wide o.sl).2
theorem mmode (o : FMC) : Statement (.mmode o) := wide rfl (by decide) (by decide)
theorem mpageRd (o : FMC) : Statement (.mpageRd o) := wide rfl (by decide) (by decide)
theorem mpageClr (o : FMC) : Statement (.mpageClr o) := wide rfl (by decide) (by decide)
theorem mload (o : FML) : Statement (.mload o) := wide rfl (by decide) (by decide)
theorem mlatch (o : FMV) : Statement (.mlatch o) := wide rfl (by decide) (by decide)
theorem mdot (o : FMA) : Statement (.mdot o) := wide rfl (by decide) (by decide)
theorem mcoll (o : FMA) : Statement (.mcoll o) := wide rfl (by decide) (by decide)
theorem mchain (o : FMV) : Statement (.mchain o) := wide rfl (by decide) (by decide)
theorem moutl (o : FMV) : Statement (.moutl o) := wide rfl (by decide) (by decide)
theorem macz (o : FMC) : Statement (.macz o) := wide rfl (by decide) (by decide)
theorem macrd (o : FMV) : Statement (.macrd o) := wide rfl (by decide) (by decide)
theorem macwr (o : FMV) : Statement (.macwr o) := wide rfl (by decide) (by decide)
theorem mread (o : FMS) : Statement (.mread o) := wide rfl (by decide) (by decide)
theorem mwrite (o : FMS) : Statement (.mwrite o) := wide rfl (by decide) (by decide)
theorem mrmw (o : FMS) : Statement (.mrmw o) := wide rfl (by decide) (by decide)
theorem mmask (o : FMC) : Statement (.mmask o) := wide rfl (by decide) (by decide)
theorem mmaskClr (o : FMC) : Statement (.mmaskClr o) := wide rfl (by decide) (by decide)
theorem mwideOn (o : FMC) : Statement (.mwideOn o) := wide rfl (by decide) (by decide)
theorem mwideOff (o : FMC) : Statement (.mwideOff o) := wide rfl (by decide) (by decide)
theorem mrange (o : FMC) : Statement (.mrange o) := wide rfl (by decide) (by decide)
theorem lwake (o : FMC) : Statement (.lwake o) := wide rfl (by decide) (by decide)
theorem lsleep (o : FMC) : Statement (.lsleep o) := wide rfl (by decide) (by decide)
theorem mscrub (o : FMC) : Statement (.mscrub o) := wide rfl (by decide) (by decide)
theorem cpy (o : FC) : Statement (.cpy o) := wide rfl (chan_wide o.ch).1 (chan_wide o.ch).2
theorem cgo (o : FC) : Statement (.cgo o) := wide rfl (chan_wide o.ch).1 (chan_wide o.ch).2
theorem cgoClr (o : FC) : Statement (.cgoClr o) := wide rfl (chan_wide o.ch).1 (chan_wide o.ch).2
theorem cwin (o : FC) : Statement (.cwin o) := wide rfl (chan_wide o.ch).1 (chan_wide o.ch).2
theorem cadv (o : FC) : Statement (.cadv o) := wide rfl (chan_wide o.ch).1 (chan_wide o.ch).2
theorem cadvEnd (o : FC) : Statement (.cadvEnd o) := wide rfl (chan_wide o.ch).1 (chan_wide o.ch).2
theorem town (o : FC) : Statement (.town o) := wide rfl (chan_wide o.ch).1 (chan_wide o.ch).2
theorem ttake (o : FC) : Statement (.ttake o) := wide rfl (chan_wide o.ch).1 (chan_wide o.ch).2
theorem tstate (o : FC) : Statement (.tstate o) := wide rfl (chan_wide o.ch).1 (chan_wide o.ch).2
theorem tstateClaim (o : FC) : Statement (.tstateClaim o) := wide rfl (chan_wide o.ch).1 (chan_wide o.ch).2
theorem tstateRelease (o : FC) : Statement (.tstateRelease o) := wide rfl (chan_wide o.ch).1 (chan_wide o.ch).2
theorem tidld (o : FC) : Statement (.tidld o) := wide rfl (chan_wide o.ch).1 (chan_wide o.ch).2
theorem tidrd (o : FC) : Statement (.tidrd o) := wide rfl (chan_wide o.ch).1 (chan_wide o.ch).2
theorem tidinv (o : FC) : Statement (.tidinv o) := wide rfl (chan_wide o.ch).1 (chan_wide o.ch).2
theorem binit (o : FC) : Statement (.binit o) := wide rfl (chan_wide o.ch).1 (chan_wide o.ch).2
theorem barv (o : FC) : Statement (.barv o) := wide rfl (chan_wide o.ch).1 (chan_wide o.ch).2
theorem bexp (o : FC) : Statement (.bexp o) := wide rfl (chan_wide o.ch).1 (chan_wide o.ch).2
theorem bwatch (o : FC) : Statement (.bwatch o) := wide rfl (chan_wide o.ch).1 (chan_wide o.ch).2
theorem bwatchOff (o : FC) : Statement (.bwatchOff o) := wide rfl (chan_wide o.ch).1 (chan_wide o.ch).2
theorem cred (o : FC) : Statement (.cred o) := wide rfl (chan_wide o.ch).1 (chan_wide o.ch).2
theorem cbcst (o : FC) : Statement (.cbcst o) := wide rfl (chan_wide o.ch).1 (chan_wide o.ch).2
theorem cpref (o : FC) : Statement (.cpref o) := wide rfl (chan_wide o.ch).1 (chan_wide o.ch).2
theorem cflush (o : FC) : Statement (.cflush o) := wide rfl (chan_wide o.ch).1 (chan_wide o.ch).2
theorem cinv (o : FC) : Statement (.cinv o) := wide rfl (chan_wide o.ch).1 (chan_wide o.ch).2
theorem cmig (o : FC) : Statement (.cmig o) := wide rfl (chan_wide o.ch).1 (chan_wide o.ch).2
theorem gload (o : FC) : Statement (.gload o) := wide rfl (chan_wide o.ch).1 (chan_wide o.ch).2
theorem gloadFree (o : FC) : Statement (.gloadFree o) := wide rfl (chan_wide o.ch).1 (chan_wide o.ch).2
theorem glaunch (o : FC) : Statement (.glaunch o) := wide rfl (chan_wide o.ch).1 (chan_wide o.ch).2
theorem qlen (o : FQR) : Statement (.qlen o) := narrow rfl _ rfl
theorem qseedLfsr (o : FQS) : Statement (.qseedLfsr o) := narrow rfl _ rfl
theorem qseedRamp (o : FQS) : Statement (.qseedRamp o) := narrow rfl _ rfl
theorem qgen (o : FQV) : Statement (.qgen o) := narrow rfl _ rfl
theorem qregen (o : FQR) : Statement (.qregen o) := narrow rfl _ rfl
theorem qmul (o : FQR) : Statement (.qmul o) := narrow rfl _ rfl
theorem qmin (o : FQR) : Statement (.qmin o) := narrow rfl _ rfl
theorem qmax (o : FQR) : Statement (.qmax o) := narrow rfl _ rfl
theorem qabsd (o : FQR) : Statement (.qabsd o) := narrow rfl _ rfl
theorem qnot (o : FQR) : Statement (.qnot o) := narrow rfl _ rfl
theorem qmuxa (o : FQR) : Statement (.qmuxa o) := narrow rfl _ rfl
theorem qcnt (o : FQV) : Statement (.qcnt o) := narrow rfl _ rfl
theorem qcmp (o : FQP) : Statement (.qcmp o) := narrow rfl _ rfl
theorem qmov (o : FQR) : Statement (.qmov o) := narrow rfl _ rfl
theorem qclr (o : FQR) : Statement (.qclr o) := narrow rfl _ rfl
theorem exposedResultLand : Statement .exposedResultLand := device rfl rfl rfl
theorem trackedAccessComplete (k : Nat) : Statement (.trackedAccessComplete k) := device rfl rfl rfl
theorem walkComplete (k : Nat) : Statement (.walkComplete k) := device rfl rfl rfl
theorem fltretry : Statement .fltretry := device rfl rfl rfl
theorem tlbiVa (va : Word) : Statement (.tlbiVa va) := device rfl rfl rfl
theorem tlbiAsid : Statement .tlbiAsid := device rfl rfl rfl
theorem tlbiAsidGlobal : Statement .tlbiAsidGlobal := device rfl rfl rfl
theorem tlbiAll : Statement .tlbiAll := device rfl rfl rfl
theorem rds (req : BitVec 8) (line : Nat) : Statement (.rds req line) := device rfl rfl rfl
theorem rdx (req : BitVec 8) (line : Nat) : Statement (.rdx req line) := device rfl rfl rfl
theorem wbd (req : BitVec 8) (line : Nat) (dirty : BitVec 4) (data : BitVec 2048) :
    Statement (.wbd req line dirty data) := device rfl rfl rfl
theorem waitingRequestResolve (line : Nat) : Statement (.waitingRequestResolve line) := device rfl rfl rfl
theorem fwds (req : BitVec 8) (line : Nat) : Statement (.fwds req line) := device rfl rfl rfl
theorem fwdx (req : BitVec 8) (line : Nat) : Statement (.fwdx req line) := device rfl rfl rfl
theorem inv (req : BitVec 8) (line : Nat) : Statement (.inv req line) := device rfl rfl rfl
theorem rcl (req : BitVec 8) (line : Nat) : Statement (.rcl req line) := device rfl rfl rfl
theorem snoopAnswer (sender : Party) (line : Nat) (ans : SnoopAns) (data : LineData) :
    Statement (.snoopAnswer sender line ans data) := device rfl rfl rfl
theorem completion (line : Nat) (grant : LineSt) (data : Supply) : Statement (.completion line grant data) := device rfl rfl rfl
theorem coherenceTimeout (what : Silence) : Statement (.coherenceTimeout what) := device rfl rfl rfl
theorem memrd (pa : Nat) (excl : Bool) : Statement (.memrd pa excl) := device rfl rfl rfl
theorem memwr (pa : Nat) (enable : BitVec 64) (data : BitVec 512) (keeps : Bool) :
    Statement (.memwr pa enable data keeps) := device rfl rfl rfl
theorem hostSnoop (pa : Nat) (kind : SnoopKind) : Statement (.hostSnoop pa kind) := device rfl rfl rfl
theorem hostCacheGrant (pa : Nat) (grant : LineSt) (data : BitVec 512) : Statement (.hostCacheGrant pa grant data) := device rfl rfl rfl
theorem copySector (ch : Chan) : Statement (.copySector ch) := device rfl rfl rfl
theorem channelOpComplete (ch : Chan) : Statement (.channelOpComplete ch) := device rfl rfl rfl
theorem ringFillComplete (ch : Chan) : Statement (.ringFillComplete ch) := device rfl rfl rfl
theorem collectiveStart (g : BitVec 8) : Statement (.collectiveStart g) := device rfl rfl rfl
theorem tidldFill (slot : BitVec 6) : Statement (.tidldFill slot) := device rfl rfl rfl
theorem queuePacketServe (q : BitVec 6) : Statement (.queuePacketServe q) := device rfl rfl rfl
theorem queueTableWrite (q : BitVec 6) (hi : Bool) (v : Word) : Statement (.queueTableWrite q hi v) := device rfl rfl rfl
theorem barrierWaitEnd : Statement .barrierWaitEnd := device rfl rfl rfl
theorem fenceComplete : Statement .fenceComplete := device rfl rfl rfl
theorem bargEpisodeComplete : Statement .bargEpisodeComplete := device rfl rfl rfl
theorem waittComplete : Statement .waittComplete := device rfl rfl rfl
theorem mloadComplete (k : Nat) : Statement (.mloadComplete k) := device rfl rfl rfl
theorem mdotComplete (k : Nat) : Statement (.mdotComplete k) := device rfl rfl rfl
theorem mcollComplete (k : Nat) : Statement (.mcollComplete k) := device rfl rfl rfl
theorem outlierListComplete (k : Nat) : Statement (.outlierListComplete k) := device rfl rfl rfl
theorem clusterWakeComplete (c : BitVec 3) : Statement (.clusterWakeComplete c) := device rfl rfl rfl
theorem scrubTick : Statement .scrubTick := device rfl rfl rfl
theorem parityRefetchComplete : Statement .parityRefetchComplete := device rfl rfl rfl
theorem segmentWakeComplete (seg : BitVec 3) : Statement (.segmentWakeComplete seg) := device rfl rfl rfl
theorem canaryMeasure (region : BitVec 3) (drift : BitVec 8) : Statement (.canaryMeasure region drift) := device rfl rfl rfl
theorem temperatureSwing (temp : Int) : Statement (.temperatureSwing temp) := device rfl rfl rfl
theorem busRetest : Statement .busRetest := device rfl rfl rfl
theorem busRepair (failing : Nat) : Statement (.busRepair failing) := device rfl rfl rfl
theorem remapWrite (core : BitVec 10) (n : BitVec 4) (v : Word) : Statement (.remapWrite core n v) := device rfl rfl rfl
theorem kilnRefill : Statement .kilnRefill := device rfl rfl rfl
theorem nodeDispatch (kind : CoreKind) : Statement (.nodeDispatch kind) := device rfl rfl rfl
theorem positionBind (kind : CoreKind) : Statement (.positionBind kind) := device rfl rfl rfl
theorem priorityAging (slot : BitVec 12) : Statement (.priorityAging slot) := device rfl rfl rfl
theorem watchdogExpiry : Statement .watchdogExpiry := device rfl rfl rfl
theorem sequencerLaunch : Statement .sequencerLaunch := device rfl rfl rfl
theorem hcmdLoad (pa : Word) : Statement (.hcmdLoad pa) := device rfl rfl rfl
theorem hcmdLaunch (h : BitVec 16) (bucket : Option (BitVec 6)) : Statement (.hcmdLaunch h bucket) := device rfl rfl rfl
theorem hcmdFree (h : BitVec 16) : Statement (.hcmdFree h) := device rfl rfl rfl
theorem preempt (slot : BitVec 12) : Statement (.preempt slot) := device rfl rfl rfl
theorem positionSave : Statement .positionSave := device rfl rfl rfl
theorem singleStep : Statement .singleStep := device rfl rfl rfl
theorem debugHaltRequest (core : BitVec 10) : Statement (.debugHaltRequest core) := device rfl rfl rfl
theorem debugHalt : Statement .debugHalt := device rfl rfl rfl
theorem debugResume (core : BitVec 10) : Statement (.debugResume core) := device rfl rfl rfl
theorem powerGood : Statement .powerGood := device rfl rfl rfl
theorem firmwareVerify : Statement .firmwareVerify := device rfl rfl rfl
theorem hostLinkTrain (shape : HostLink) : Statement (.hostLinkTrain shape) := device rfl rfl rfl
theorem configurationChoice : Statement .configurationChoice := device rfl rfl rfl
theorem l2PoolInit : Statement .l2PoolInit := device rfl rfl rfl
theorem gcoreBringup : Statement .gcoreBringup := device rfl rfl rfl
theorem acoreGroupBringup (g : BitVec 5) : Statement (.acoreGroupBringup g) := device rfl rfl rfl
theorem shelfBringup (test : ShelfTest) : Statement (.shelfBringup test) := device rfl rfl rfl
theorem hbmStackBringup (k : BitVec 4) : Statement (.hbmStackBringup k) := device rfl rfl rfl
theorem portTrain (p : BitVec 4) (pass : BitVec 16) : Statement (.portTrain p pass) := device rfl rfl rfl
theorem recoveryMailboxImage (image : List Byte) : Statement (.recoveryMailboxImage image) := device rfl rfl rfl
theorem measExtend (index : Word) : Statement (.measExtend index) := device rfl rfl rfl
theorem attestationRequest : Statement .attestationRequest := device rfl rfl rfl
theorem attestationComplete : Statement .attestationComplete := device rfl rfl rfl
theorem retireAcoreSite (site : Nat) : Statement (.retireAcoreSite site) := device rfl rfl rfl
theorem retireGcoreSite (site : Nat) : Statement (.retireGcoreSite site) := device rfl rfl rfl
theorem retireSpare (site : Nat) (shelf : BitVec 3) (spare : Bool) : Statement (.retireSpare site shelf spare) := device rfl rfl rfl
theorem retireChannel (k : Nat) : Statement (.retireChannel k) := device rfl rfl rfl
theorem retireLane (port : Nat) (lane : Nat) : Statement (.retireLane port lane) := device rfl rfl rfl
theorem flitCrcFail (p : BitVec 4) : Statement (.flitCrcFail p) := device rfl rfl rfl
theorem portRetrain (p : BitVec 4) (good : BitVec 16) : Statement (.portRetrain p good) := device rfl rfl rfl
theorem registerWrite (off : BitVec 28) (v : Word) : Statement (.registerWrite off v) := device rfl rfl rfl
theorem trackedMSlotOperationComplete (k : Nat) : Statement (.trackedMSlotOperationComplete k) := device rfl rfl rfl
theorem graphLoadComplete (k : Nat) : Statement (.graphLoadComplete k) := device rfl rfl rfl
theorem tlbInvalidationComplete : Statement .tlbInvalidationComplete := device rfl rfl rfl
theorem csrWriteLands (k : Nat) : Statement (.csrWriteLands k) := device rfl rfl rfl
theorem barrierUpdatePerformed (k : Nat) : Statement (.barrierUpdatePerformed k) := device rfl rfl rfl
theorem catalogueRecordComplete : Statement .catalogueRecordComplete := device rfl rfl rfl
theorem measurementExtensionComplete : Statement .measurementExtensionComplete := device rfl rfl rfl

end Sys2Proof.Laws.Narrow
end

