-- ==== Sys2Proof/Laws/State.lean ====
section
/-! SUPPORT. The fields of a state after each named update, one lemma a field, so that no later proof unfolds a
record update. -/

namespace Sys2Proof.Machine


/-! ### State.setCore -/

@[simp] theorem State.setCore_core (s : State) (c : Core) : (s.setCore c).core = c := rfl
@[simp] theorem State.setCore_others (s : State) (c : Core) : (s.setCore c).others = s.others := rfl
@[simp] theorem State.setCore_cycle (s : State) (c : Core) : (s.setCore c).cycle = s.cycle := rfl
@[simp] theorem State.setCore_mem (s : State) (c : Core) : (s.setCore c).mem = s.mem := rfl
@[simp] theorem State.setCore_coh (s : State) (c : Core) : (s.setCore c).coh = s.coh := rfl
@[simp] theorem State.setCore_xlat (s : State) (c : Core) : (s.setCore c).xlat = s.xlat := rfl
@[simp] theorem State.setCore_queues (s : State) (c : Core) : (s.setCore c).queues = s.queues := rfl
@[simp] theorem State.setCore_served (s : State) (c : Core) : (s.setCore c).served = s.served := rfl
@[simp] theorem State.setCore_kiln (s : State) (c : Core) : (s.setCore c).kiln = s.kiln := rfl
@[simp] theorem State.setCore_plat (s : State) (c : Core) : (s.setCore c).plat = s.plat := rfl
@[simp] theorem State.setCore_pool (s : State) (c : Core) : (s.setCore c).pool = s.pool := rfl
@[simp] theorem State.setCore_outbox (s : State) (c : Core) : (s.setCore c).outbox = s.outbox := rfl
@[simp] theorem State.setCore_agenda (s : State) (c : Core) : (s.setCore c).agenda = s.agenda := rfl
@[simp] theorem State.setCore_free (s : State) (c : Core) : (s.setCore c).free = s.free := rfl

/-! ### State.setPool -/

@[simp] theorem State.setPool_core (s : State) (p : Pool) : (s.setPool p).core = s.core := rfl
@[simp] theorem State.setPool_others (s : State) (p : Pool) : (s.setPool p).others = s.others := rfl
@[simp] theorem State.setPool_cycle (s : State) (p : Pool) : (s.setPool p).cycle = s.cycle := rfl
@[simp] theorem State.setPool_mem (s : State) (p : Pool) : (s.setPool p).mem = s.mem := rfl
@[simp] theorem State.setPool_coh (s : State) (p : Pool) : (s.setPool p).coh = s.coh := rfl
@[simp] theorem State.setPool_xlat (s : State) (p : Pool) : (s.setPool p).xlat = s.xlat := rfl
@[simp] theorem State.setPool_queues (s : State) (p : Pool) : (s.setPool p).queues = s.queues := rfl
@[simp] theorem State.setPool_served (s : State) (p : Pool) : (s.setPool p).served = s.served := rfl
@[simp] theorem State.setPool_kiln (s : State) (p : Pool) : (s.setPool p).kiln = s.kiln := rfl
@[simp] theorem State.setPool_plat (s : State) (p : Pool) : (s.setPool p).plat = s.plat := rfl
@[simp] theorem State.setPool_pool (s : State) (p : Pool) : (s.setPool p).pool = p := rfl
@[simp] theorem State.setPool_outbox (s : State) (p : Pool) : (s.setPool p).outbox = s.outbox := rfl
@[simp] theorem State.setPool_agenda (s : State) (p : Pool) : (s.setPool p).agenda = s.agenda := rfl
@[simp] theorem State.setPool_free (s : State) (p : Pool) : (s.setPool p).free = s.free := rfl

/-! ### State.setPlat -/

@[simp] theorem State.setPlat_core (s : State) (p : Platform) : (s.setPlat p).core = s.core := rfl
@[simp] theorem State.setPlat_others (s : State) (p : Platform) : (s.setPlat p).others = s.others := rfl
@[simp] theorem State.setPlat_cycle (s : State) (p : Platform) : (s.setPlat p).cycle = s.cycle := rfl
@[simp] theorem State.setPlat_mem (s : State) (p : Platform) : (s.setPlat p).mem = s.mem := rfl
@[simp] theorem State.setPlat_coh (s : State) (p : Platform) : (s.setPlat p).coh = s.coh := rfl
@[simp] theorem State.setPlat_xlat (s : State) (p : Platform) : (s.setPlat p).xlat = s.xlat := rfl
@[simp] theorem State.setPlat_queues (s : State) (p : Platform) : (s.setPlat p).queues = s.queues := rfl
@[simp] theorem State.setPlat_served (s : State) (p : Platform) : (s.setPlat p).served = s.served := rfl
@[simp] theorem State.setPlat_kiln (s : State) (p : Platform) : (s.setPlat p).kiln = s.kiln := rfl
@[simp] theorem State.setPlat_plat (s : State) (p : Platform) : (s.setPlat p).plat = p := rfl
@[simp] theorem State.setPlat_pool (s : State) (p : Platform) : (s.setPlat p).pool = s.pool := rfl
@[simp] theorem State.setPlat_outbox (s : State) (p : Platform) : (s.setPlat p).outbox = s.outbox := rfl
@[simp] theorem State.setPlat_agenda (s : State) (p : Platform) : (s.setPlat p).agenda = s.agenda := rfl
@[simp] theorem State.setPlat_free (s : State) (p : Platform) : (s.setPlat p).free = s.free := rfl

/-! ### State.setXlat -/

@[simp] theorem State.setXlat_core (s : State) (x : Xlat) : (s.setXlat x).core = s.core := rfl
@[simp] theorem State.setXlat_others (s : State) (x : Xlat) : (s.setXlat x).others = s.others := rfl
@[simp] theorem State.setXlat_cycle (s : State) (x : Xlat) : (s.setXlat x).cycle = s.cycle := rfl
@[simp] theorem State.setXlat_mem (s : State) (x : Xlat) : (s.setXlat x).mem = s.mem := rfl
@[simp] theorem State.setXlat_coh (s : State) (x : Xlat) : (s.setXlat x).coh = s.coh := rfl
@[simp] theorem State.setXlat_xlat (s : State) (x : Xlat) : (s.setXlat x).xlat = x := rfl
@[simp] theorem State.setXlat_queues (s : State) (x : Xlat) : (s.setXlat x).queues = s.queues := rfl
@[simp] theorem State.setXlat_served (s : State) (x : Xlat) : (s.setXlat x).served = s.served := rfl
@[simp] theorem State.setXlat_kiln (s : State) (x : Xlat) : (s.setXlat x).kiln = s.kiln := rfl
@[simp] theorem State.setXlat_plat (s : State) (x : Xlat) : (s.setXlat x).plat = s.plat := rfl
@[simp] theorem State.setXlat_pool (s : State) (x : Xlat) : (s.setXlat x).pool = s.pool := rfl
@[simp] theorem State.setXlat_outbox (s : State) (x : Xlat) : (s.setXlat x).outbox = s.outbox := rfl
@[simp] theorem State.setXlat_agenda (s : State) (x : Xlat) : (s.setXlat x).agenda = s.agenda := rfl
@[simp] theorem State.setXlat_free (s : State) (x : Xlat) : (s.setXlat x).free = s.free := rfl

/-! ### State.setCoh -/

@[simp] theorem State.setCoh_core (s : State) (c : Coh) : (s.setCoh c).core = s.core := rfl
@[simp] theorem State.setCoh_others (s : State) (c : Coh) : (s.setCoh c).others = s.others := rfl
@[simp] theorem State.setCoh_cycle (s : State) (c : Coh) : (s.setCoh c).cycle = s.cycle := rfl
@[simp] theorem State.setCoh_mem (s : State) (c : Coh) : (s.setCoh c).mem = s.mem := rfl
@[simp] theorem State.setCoh_coh (s : State) (c : Coh) : (s.setCoh c).coh = c := rfl
@[simp] theorem State.setCoh_xlat (s : State) (c : Coh) : (s.setCoh c).xlat = s.xlat := rfl
@[simp] theorem State.setCoh_queues (s : State) (c : Coh) : (s.setCoh c).queues = s.queues := rfl
@[simp] theorem State.setCoh_served (s : State) (c : Coh) : (s.setCoh c).served = s.served := rfl
@[simp] theorem State.setCoh_kiln (s : State) (c : Coh) : (s.setCoh c).kiln = s.kiln := rfl
@[simp] theorem State.setCoh_plat (s : State) (c : Coh) : (s.setCoh c).plat = s.plat := rfl
@[simp] theorem State.setCoh_pool (s : State) (c : Coh) : (s.setCoh c).pool = s.pool := rfl
@[simp] theorem State.setCoh_outbox (s : State) (c : Coh) : (s.setCoh c).outbox = s.outbox := rfl
@[simp] theorem State.setCoh_agenda (s : State) (c : Coh) : (s.setCoh c).agenda = s.agenda := rfl
@[simp] theorem State.setCoh_free (s : State) (c : Coh) : (s.setCoh c).free = s.free := rfl

/-! ### State.send -/

@[simp] theorem State.send_core (s : State) (m : Msg) : (s.send m).core = s.core := rfl
@[simp] theorem State.send_others (s : State) (m : Msg) : (s.send m).others = s.others := rfl
@[simp] theorem State.send_cycle (s : State) (m : Msg) : (s.send m).cycle = s.cycle := rfl
@[simp] theorem State.send_mem (s : State) (m : Msg) : (s.send m).mem = s.mem := rfl
@[simp] theorem State.send_coh (s : State) (m : Msg) : (s.send m).coh = s.coh := rfl
@[simp] theorem State.send_xlat (s : State) (m : Msg) : (s.send m).xlat = s.xlat := rfl
@[simp] theorem State.send_queues (s : State) (m : Msg) : (s.send m).queues = s.queues := rfl
@[simp] theorem State.send_served (s : State) (m : Msg) : (s.send m).served = s.served := rfl
@[simp] theorem State.send_kiln (s : State) (m : Msg) : (s.send m).kiln = s.kiln := rfl
@[simp] theorem State.send_plat (s : State) (m : Msg) : (s.send m).plat = s.plat := rfl
@[simp] theorem State.send_pool (s : State) (m : Msg) : (s.send m).pool = s.pool := rfl
@[simp] theorem State.send_outbox (s : State) (m : Msg) : (s.send m).outbox = s.outbox ++ [m] := rfl
@[simp] theorem State.send_agenda (s : State) (m : Msg) : (s.send m).agenda = s.agenda := rfl
@[simp] theorem State.send_free (s : State) (m : Msg) : (s.send m).free = s.free := rfl

/-! ### State.report -/

@[simp] theorem State.report_others (s : State) (r : Report) : (s.report r).others = s.others := rfl
@[simp] theorem State.report_cycle (s : State) (r : Report) : (s.report r).cycle = s.cycle := rfl
@[simp] theorem State.report_mem (s : State) (r : Report) : (s.report r).mem = s.mem := rfl
@[simp] theorem State.report_coh (s : State) (r : Report) : (s.report r).coh = s.coh := rfl
@[simp] theorem State.report_xlat (s : State) (r : Report) : (s.report r).xlat = s.xlat := rfl
@[simp] theorem State.report_queues (s : State) (r : Report) : (s.report r).queues = s.queues := rfl
@[simp] theorem State.report_served (s : State) (r : Report) : (s.report r).served = s.served := rfl
@[simp] theorem State.report_kiln (s : State) (r : Report) : (s.report r).kiln = s.kiln := rfl
@[simp] theorem State.report_plat (s : State) (r : Report) : (s.report r).plat = s.plat := rfl
@[simp] theorem State.report_pool (s : State) (r : Report) : (s.report r).pool = s.pool := rfl
@[simp] theorem State.report_outbox (s : State) (r : Report) : (s.report r).outbox = s.outbox := rfl
@[simp] theorem State.report_agenda (s : State) (r : Report) : (s.report r).agenda = s.agenda := rfl
@[simp] theorem State.report_free (s : State) (r : Report) : (s.report r).free = s.free := rfl
@[simp] theorem State.report_core_region (s : State) (r : Report) : (s.report r).core.region = s.core.region := rfl
@[simp] theorem State.report_core_kind (s : State) (r : Report) : (s.report r).core.kind = s.core.kind := rfl
@[simp] theorem State.report_core_run (s : State) (r : Report) : (s.report r).core.run = s.core.run := rfl
@[simp] theorem State.report_core_mode (s : State) (r : Report) : (s.report r).core.mode = s.core.mode := rfl
@[simp] theorem State.report_core_pc (s : State) (r : Report) : (s.report r).core.pc = s.core.pc := rfl
@[simp] theorem State.report_core_vcore (s : State) (r : Report) : (s.report r).core.vcore = s.core.vcore := rfl
@[simp] theorem State.report_core_regs (s : State) (r : Report) : (s.report r).core.regs = s.core.regs := rfl
@[simp] theorem State.report_core_csr (s : State) (r : Report) : (s.report r).core.csr = s.core.csr := rfl
@[simp] theorem State.report_core_dbg (s : State) (r : Report) : (s.report r).core.dbg = s.core.dbg := rfl
@[simp] theorem State.report_core_copy (s : State) (r : Report) : (s.report r).core.copy = s.core.copy := rfl
@[simp] theorem State.report_core_mat (s : State) (r : Report) : (s.report r).core.mat = s.core.mat := rfl
@[simp] theorem State.report_core_shelf (s : State) (r : Report) : (s.report r).core.shelf = s.core.shelf := rfl
@[simp] theorem State.report_core_pad (s : State) (r : Report) : (s.report r).core.pad = s.core.pad := rfl
@[simp] theorem State.report_core_nodeXt (s : State) (r : Report) : (s.report r).core.nodeXt = s.core.nodeXt := rfl
@[simp] theorem State.report_core_sysXt (s : State) (r : Report) : (s.report r).core.sysXt = s.core.sysXt := rfl
@[simp] theorem State.report_core_inflight (s : State) (r : Report) :
    (s.report r).core.inflight = s.core.inflight := rfl
@[simp] theorem State.report_core_bank (s : State) (r : Report) : (s.report r).core.bank = s.core.bank := rfl
@[simp] theorem State.report_core_bankBase (s : State) (r : Report) :
    (s.report r).core.bankBase = s.core.bankBase := rfl
@[simp] theorem State.report_core_tracked (s : State) (r : Report) : (s.report r).core.tracked = s.core.tracked := rfl
@[simp] theorem State.report_core_failures (s : State) (r : Report) :
    (s.report r).core.failures = s.core.failures := rfl
@[simp] theorem State.report_core_wait (s : State) (r : Report) : (s.report r).core.wait = s.core.wait := rfl
@[simp] theorem State.report_core_waitPcb (s : State) (r : Report) : (s.report r).core.waitPcb = s.core.waitPcb := rfl
@[simp] theorem State.report_core_binding (s : State) (r : Report) : (s.report r).core.binding = s.core.binding := rfl
@[simp] theorem State.report_core_kilnPj (s : State) (r : Report) : (s.report r).core.kilnPj = s.core.kilnPj := rfl
@[simp] theorem State.report_core_kilnUnits (s : State) (r : Report) :
    (s.report r).core.kilnUnits = s.core.kilnUnits := rfl
@[simp] theorem State.report_core_kilnHolds (s : State) (r : Report) :
    (s.report r).core.kilnHolds = s.core.kilnHolds := rfl
@[simp] theorem State.report_core_uo (s : State) (r : Report) : (s.report r).core.uo = s.core.uo := rfl
@[simp] theorem State.report_core_publish (s : State) (r : Report) : (s.report r).core.publish = s.core.publish := rfl
@[simp] theorem State.report_core_stall (s : State) (r : Report) : (s.report r).core.stall = s.core.stall := rfl
@[simp] theorem State.report_core_l1Bad (s : State) (r : Report) : (s.report r).core.l1Bad = s.core.l1Bad := rfl
@[simp] theorem State.report_core_inner (s : State) (r : Report) : (s.report r).core.inner = s.core.inner := rfl
@[simp] theorem State.report_core_bankBad (s : State) (r : Report) : (s.report r).core.bankBad = s.core.bankBad := rfl
@[simp] theorem State.report_core_l1 (s : State) (r : Report) : (s.report r).core.l1 = s.core.l1 := rfl
@[simp] theorem State.report_core_gangPath (s : State) (r : Report) :
    (s.report r).core.gangPath = s.core.gangPath := rfl
@[simp] theorem State.report_core_ends (s : State) (r : Report) : (s.report r).core.ends = s.core.ends := rfl
@[simp] theorem State.report_core_ecc (s : State) (r : Report) : (s.report r).core.ecc = s.core.ecc := rfl
@[simp] theorem State.report_core_ctx (s : State) (r : Report) : (s.report r).core.ctx = s.core.ctx := rfl
@[simp] theorem State.report_core_report (s : State) (r : Report) : (s.report r).core.report = r := rfl

/-! ### State.setRegs -/

@[simp] theorem State.setRegs_others (s : State) (r : Regs) : (s.setRegs r).others = s.others := rfl
@[simp] theorem State.setRegs_cycle (s : State) (r : Regs) : (s.setRegs r).cycle = s.cycle := rfl
@[simp] theorem State.setRegs_mem (s : State) (r : Regs) : (s.setRegs r).mem = s.mem := rfl
@[simp] theorem State.setRegs_coh (s : State) (r : Regs) : (s.setRegs r).coh = s.coh := rfl
@[simp] theorem State.setRegs_xlat (s : State) (r : Regs) : (s.setRegs r).xlat = s.xlat := rfl
@[simp] theorem State.setRegs_queues (s : State) (r : Regs) : (s.setRegs r).queues = s.queues := rfl
@[simp] theorem State.setRegs_served (s : State) (r : Regs) : (s.setRegs r).served = s.served := rfl
@[simp] theorem State.setRegs_kiln (s : State) (r : Regs) : (s.setRegs r).kiln = s.kiln := rfl
@[simp] theorem State.setRegs_plat (s : State) (r : Regs) : (s.setRegs r).plat = s.plat := rfl
@[simp] theorem State.setRegs_pool (s : State) (r : Regs) : (s.setRegs r).pool = s.pool := rfl
@[simp] theorem State.setRegs_outbox (s : State) (r : Regs) : (s.setRegs r).outbox = s.outbox := rfl
@[simp] theorem State.setRegs_agenda (s : State) (r : Regs) : (s.setRegs r).agenda = s.agenda := rfl
@[simp] theorem State.setRegs_free (s : State) (r : Regs) : (s.setRegs r).free = s.free := rfl
@[simp] theorem State.setRegs_core_region (s : State) (r : Regs) : (s.setRegs r).core.region = s.core.region := rfl
@[simp] theorem State.setRegs_core_kind (s : State) (r : Regs) : (s.setRegs r).core.kind = s.core.kind := rfl
@[simp] theorem State.setRegs_core_run (s : State) (r : Regs) : (s.setRegs r).core.run = s.core.run := rfl
@[simp] theorem State.setRegs_core_mode (s : State) (r : Regs) : (s.setRegs r).core.mode = s.core.mode := rfl
@[simp] theorem State.setRegs_core_pc (s : State) (r : Regs) : (s.setRegs r).core.pc = s.core.pc := rfl
@[simp] theorem State.setRegs_core_vcore (s : State) (r : Regs) : (s.setRegs r).core.vcore = s.core.vcore := rfl
@[simp] theorem State.setRegs_core_regs (s : State) (r : Regs) : (s.setRegs r).core.regs = r := rfl
@[simp] theorem State.setRegs_core_csr (s : State) (r : Regs) : (s.setRegs r).core.csr = s.core.csr := rfl
@[simp] theorem State.setRegs_core_dbg (s : State) (r : Regs) : (s.setRegs r).core.dbg = s.core.dbg := rfl
@[simp] theorem State.setRegs_core_copy (s : State) (r : Regs) : (s.setRegs r).core.copy = s.core.copy := rfl
@[simp] theorem State.setRegs_core_mat (s : State) (r : Regs) : (s.setRegs r).core.mat = s.core.mat := rfl
@[simp] theorem State.setRegs_core_shelf (s : State) (r : Regs) : (s.setRegs r).core.shelf = s.core.shelf := rfl
@[simp] theorem State.setRegs_core_pad (s : State) (r : Regs) : (s.setRegs r).core.pad = s.core.pad := rfl
@[simp] theorem State.setRegs_core_nodeXt (s : State) (r : Regs) : (s.setRegs r).core.nodeXt = s.core.nodeXt := rfl
@[simp] theorem State.setRegs_core_sysXt (s : State) (r : Regs) : (s.setRegs r).core.sysXt = s.core.sysXt := rfl
@[simp] theorem State.setRegs_core_inflight (s : State) (r : Regs) :
    (s.setRegs r).core.inflight = s.core.inflight := rfl
@[simp] theorem State.setRegs_core_bank (s : State) (r : Regs) : (s.setRegs r).core.bank = s.core.bank := rfl
@[simp] theorem State.setRegs_core_bankBase (s : State) (r : Regs) :
    (s.setRegs r).core.bankBase = s.core.bankBase := rfl
@[simp] theorem State.setRegs_core_tracked (s : State) (r : Regs) : (s.setRegs r).core.tracked = s.core.tracked := rfl
@[simp] theorem State.setRegs_core_failures (s : State) (r : Regs) :
    (s.setRegs r).core.failures = s.core.failures := rfl
@[simp] theorem State.setRegs_core_wait (s : State) (r : Regs) : (s.setRegs r).core.wait = s.core.wait := rfl
@[simp] theorem State.setRegs_core_waitPcb (s : State) (r : Regs) : (s.setRegs r).core.waitPcb = s.core.waitPcb := rfl
@[simp] theorem State.setRegs_core_binding (s : State) (r : Regs) : (s.setRegs r).core.binding = s.core.binding := rfl
@[simp] theorem State.setRegs_core_kilnPj (s : State) (r : Regs) : (s.setRegs r).core.kilnPj = s.core.kilnPj := rfl
@[simp] theorem State.setRegs_core_kilnUnits (s : State) (r : Regs) :
    (s.setRegs r).core.kilnUnits = s.core.kilnUnits := rfl
@[simp] theorem State.setRegs_core_kilnHolds (s : State) (r : Regs) :
    (s.setRegs r).core.kilnHolds = s.core.kilnHolds := rfl
@[simp] theorem State.setRegs_core_uo (s : State) (r : Regs) : (s.setRegs r).core.uo = s.core.uo := rfl
@[simp] theorem State.setRegs_core_publish (s : State) (r : Regs) : (s.setRegs r).core.publish = s.core.publish := rfl
@[simp] theorem State.setRegs_core_stall (s : State) (r : Regs) : (s.setRegs r).core.stall = s.core.stall := rfl
@[simp] theorem State.setRegs_core_l1Bad (s : State) (r : Regs) : (s.setRegs r).core.l1Bad = s.core.l1Bad := rfl
@[simp] theorem State.setRegs_core_inner (s : State) (r : Regs) : (s.setRegs r).core.inner = s.core.inner := rfl
@[simp] theorem State.setRegs_core_bankBad (s : State) (r : Regs) : (s.setRegs r).core.bankBad = s.core.bankBad := rfl
@[simp] theorem State.setRegs_core_l1 (s : State) (r : Regs) : (s.setRegs r).core.l1 = s.core.l1 := rfl
@[simp] theorem State.setRegs_core_gangPath (s : State) (r : Regs) :
    (s.setRegs r).core.gangPath = s.core.gangPath := rfl
@[simp] theorem State.setRegs_core_ends (s : State) (r : Regs) : (s.setRegs r).core.ends = s.core.ends := rfl
@[simp] theorem State.setRegs_core_ecc (s : State) (r : Regs) : (s.setRegs r).core.ecc = s.core.ecc := rfl
@[simp] theorem State.setRegs_core_ctx (s : State) (r : Regs) : (s.setRegs r).core.ctx = s.core.ctx := rfl
@[simp] theorem State.setRegs_core_report (s : State) (r : Regs) : (s.setRegs r).core.report = s.core.report := rfl

/-! ### State.setCsr -/

@[simp] theorem State.setCsr_others (s : State) (r : Csrs) : (s.setCsr r).others = s.others := rfl
@[simp] theorem State.setCsr_cycle (s : State) (r : Csrs) : (s.setCsr r).cycle = s.cycle := rfl
@[simp] theorem State.setCsr_mem (s : State) (r : Csrs) : (s.setCsr r).mem = s.mem := rfl
@[simp] theorem State.setCsr_coh (s : State) (r : Csrs) : (s.setCsr r).coh = s.coh := rfl
@[simp] theorem State.setCsr_xlat (s : State) (r : Csrs) : (s.setCsr r).xlat = s.xlat := rfl
@[simp] theorem State.setCsr_queues (s : State) (r : Csrs) : (s.setCsr r).queues = s.queues := rfl
@[simp] theorem State.setCsr_served (s : State) (r : Csrs) : (s.setCsr r).served = s.served := rfl
@[simp] theorem State.setCsr_kiln (s : State) (r : Csrs) : (s.setCsr r).kiln = s.kiln := rfl
@[simp] theorem State.setCsr_plat (s : State) (r : Csrs) : (s.setCsr r).plat = s.plat := rfl
@[simp] theorem State.setCsr_pool (s : State) (r : Csrs) : (s.setCsr r).pool = s.pool := rfl
@[simp] theorem State.setCsr_outbox (s : State) (r : Csrs) : (s.setCsr r).outbox = s.outbox := rfl
@[simp] theorem State.setCsr_agenda (s : State) (r : Csrs) : (s.setCsr r).agenda = s.agenda := rfl
@[simp] theorem State.setCsr_free (s : State) (r : Csrs) : (s.setCsr r).free = s.free := rfl
@[simp] theorem State.setCsr_core_region (s : State) (r : Csrs) : (s.setCsr r).core.region = s.core.region := rfl
@[simp] theorem State.setCsr_core_kind (s : State) (r : Csrs) : (s.setCsr r).core.kind = s.core.kind := rfl
@[simp] theorem State.setCsr_core_run (s : State) (r : Csrs) : (s.setCsr r).core.run = s.core.run := rfl
@[simp] theorem State.setCsr_core_mode (s : State) (r : Csrs) : (s.setCsr r).core.mode = s.core.mode := rfl
@[simp] theorem State.setCsr_core_pc (s : State) (r : Csrs) : (s.setCsr r).core.pc = s.core.pc := rfl
@[simp] theorem State.setCsr_core_vcore (s : State) (r : Csrs) : (s.setCsr r).core.vcore = s.core.vcore := rfl
@[simp] theorem State.setCsr_core_regs (s : State) (r : Csrs) : (s.setCsr r).core.regs = s.core.regs := rfl
@[simp] theorem State.setCsr_core_csr (s : State) (r : Csrs) : (s.setCsr r).core.csr = r := rfl
@[simp] theorem State.setCsr_core_dbg (s : State) (r : Csrs) : (s.setCsr r).core.dbg = s.core.dbg := rfl
@[simp] theorem State.setCsr_core_copy (s : State) (r : Csrs) : (s.setCsr r).core.copy = s.core.copy := rfl
@[simp] theorem State.setCsr_core_mat (s : State) (r : Csrs) : (s.setCsr r).core.mat = s.core.mat := rfl
@[simp] theorem State.setCsr_core_shelf (s : State) (r : Csrs) : (s.setCsr r).core.shelf = s.core.shelf := rfl
@[simp] theorem State.setCsr_core_pad (s : State) (r : Csrs) : (s.setCsr r).core.pad = s.core.pad := rfl
@[simp] theorem State.setCsr_core_nodeXt (s : State) (r : Csrs) : (s.setCsr r).core.nodeXt = s.core.nodeXt := rfl
@[simp] theorem State.setCsr_core_sysXt (s : State) (r : Csrs) : (s.setCsr r).core.sysXt = s.core.sysXt := rfl
@[simp] theorem State.setCsr_core_inflight (s : State) (r : Csrs) :
    (s.setCsr r).core.inflight = s.core.inflight := rfl
@[simp] theorem State.setCsr_core_bank (s : State) (r : Csrs) : (s.setCsr r).core.bank = s.core.bank := rfl
@[simp] theorem State.setCsr_core_bankBase (s : State) (r : Csrs) :
    (s.setCsr r).core.bankBase = s.core.bankBase := rfl
@[simp] theorem State.setCsr_core_tracked (s : State) (r : Csrs) : (s.setCsr r).core.tracked = s.core.tracked := rfl
@[simp] theorem State.setCsr_core_failures (s : State) (r : Csrs) :
    (s.setCsr r).core.failures = s.core.failures := rfl
@[simp] theorem State.setCsr_core_wait (s : State) (r : Csrs) : (s.setCsr r).core.wait = s.core.wait := rfl
@[simp] theorem State.setCsr_core_waitPcb (s : State) (r : Csrs) : (s.setCsr r).core.waitPcb = s.core.waitPcb := rfl
@[simp] theorem State.setCsr_core_binding (s : State) (r : Csrs) : (s.setCsr r).core.binding = s.core.binding := rfl
@[simp] theorem State.setCsr_core_kilnPj (s : State) (r : Csrs) : (s.setCsr r).core.kilnPj = s.core.kilnPj := rfl
@[simp] theorem State.setCsr_core_kilnUnits (s : State) (r : Csrs) :
    (s.setCsr r).core.kilnUnits = s.core.kilnUnits := rfl
@[simp] theorem State.setCsr_core_kilnHolds (s : State) (r : Csrs) :
    (s.setCsr r).core.kilnHolds = s.core.kilnHolds := rfl
@[simp] theorem State.setCsr_core_uo (s : State) (r : Csrs) : (s.setCsr r).core.uo = s.core.uo := rfl
@[simp] theorem State.setCsr_core_publish (s : State) (r : Csrs) : (s.setCsr r).core.publish = s.core.publish := rfl
@[simp] theorem State.setCsr_core_stall (s : State) (r : Csrs) : (s.setCsr r).core.stall = s.core.stall := rfl
@[simp] theorem State.setCsr_core_l1Bad (s : State) (r : Csrs) : (s.setCsr r).core.l1Bad = s.core.l1Bad := rfl
@[simp] theorem State.setCsr_core_inner (s : State) (r : Csrs) : (s.setCsr r).core.inner = s.core.inner := rfl
@[simp] theorem State.setCsr_core_bankBad (s : State) (r : Csrs) : (s.setCsr r).core.bankBad = s.core.bankBad := rfl
@[simp] theorem State.setCsr_core_l1 (s : State) (r : Csrs) : (s.setCsr r).core.l1 = s.core.l1 := rfl
@[simp] theorem State.setCsr_core_gangPath (s : State) (r : Csrs) :
    (s.setCsr r).core.gangPath = s.core.gangPath := rfl
@[simp] theorem State.setCsr_core_ends (s : State) (r : Csrs) : (s.setCsr r).core.ends = s.core.ends := rfl
@[simp] theorem State.setCsr_core_ecc (s : State) (r : Csrs) : (s.setCsr r).core.ecc = s.core.ecc := rfl
@[simp] theorem State.setCsr_core_ctx (s : State) (r : Csrs) : (s.setCsr r).core.ctx = s.core.ctx := rfl
@[simp] theorem State.setCsr_core_report (s : State) (r : Csrs) : (s.setCsr r).core.report = s.core.report := rfl

/-! ### State.setMat -/

@[simp] theorem State.setMat_others (s : State) (m : Mat) : (s.setMat m).others = s.others := rfl
@[simp] theorem State.setMat_cycle (s : State) (m : Mat) : (s.setMat m).cycle = s.cycle := rfl
@[simp] theorem State.setMat_mem (s : State) (m : Mat) : (s.setMat m).mem = s.mem := rfl
@[simp] theorem State.setMat_coh (s : State) (m : Mat) : (s.setMat m).coh = s.coh := rfl
@[simp] theorem State.setMat_xlat (s : State) (m : Mat) : (s.setMat m).xlat = s.xlat := rfl
@[simp] theorem State.setMat_queues (s : State) (m : Mat) : (s.setMat m).queues = s.queues := rfl
@[simp] theorem State.setMat_served (s : State) (m : Mat) : (s.setMat m).served = s.served := rfl
@[simp] theorem State.setMat_kiln (s : State) (m : Mat) : (s.setMat m).kiln = s.kiln := rfl
@[simp] theorem State.setMat_plat (s : State) (m : Mat) : (s.setMat m).plat = s.plat := rfl
@[simp] theorem State.setMat_pool (s : State) (m : Mat) : (s.setMat m).pool = s.pool := rfl
@[simp] theorem State.setMat_outbox (s : State) (m : Mat) : (s.setMat m).outbox = s.outbox := rfl
@[simp] theorem State.setMat_agenda (s : State) (m : Mat) : (s.setMat m).agenda = s.agenda := rfl
@[simp] theorem State.setMat_free (s : State) (m : Mat) : (s.setMat m).free = s.free := rfl
@[simp] theorem State.setMat_core_region (s : State) (m : Mat) : (s.setMat m).core.region = s.core.region := rfl
@[simp] theorem State.setMat_core_kind (s : State) (m : Mat) : (s.setMat m).core.kind = s.core.kind := rfl
@[simp] theorem State.setMat_core_run (s : State) (m : Mat) : (s.setMat m).core.run = s.core.run := rfl
@[simp] theorem State.setMat_core_mode (s : State) (m : Mat) : (s.setMat m).core.mode = s.core.mode := rfl
@[simp] theorem State.setMat_core_pc (s : State) (m : Mat) : (s.setMat m).core.pc = s.core.pc := rfl
@[simp] theorem State.setMat_core_vcore (s : State) (m : Mat) : (s.setMat m).core.vcore = s.core.vcore := rfl
@[simp] theorem State.setMat_core_regs (s : State) (m : Mat) : (s.setMat m).core.regs = s.core.regs := rfl
@[simp] theorem State.setMat_core_csr (s : State) (m : Mat) : (s.setMat m).core.csr = s.core.csr := rfl
@[simp] theorem State.setMat_core_dbg (s : State) (m : Mat) : (s.setMat m).core.dbg = s.core.dbg := rfl
@[simp] theorem State.setMat_core_copy (s : State) (m : Mat) : (s.setMat m).core.copy = s.core.copy := rfl
@[simp] theorem State.setMat_core_mat (s : State) (m : Mat) : (s.setMat m).core.mat = m := rfl
@[simp] theorem State.setMat_core_shelf (s : State) (m : Mat) : (s.setMat m).core.shelf = s.core.shelf := rfl
@[simp] theorem State.setMat_core_pad (s : State) (m : Mat) : (s.setMat m).core.pad = s.core.pad := rfl
@[simp] theorem State.setMat_core_nodeXt (s : State) (m : Mat) : (s.setMat m).core.nodeXt = s.core.nodeXt := rfl
@[simp] theorem State.setMat_core_sysXt (s : State) (m : Mat) : (s.setMat m).core.sysXt = s.core.sysXt := rfl
@[simp] theorem State.setMat_core_inflight (s : State) (m : Mat) : (s.setMat m).core.inflight = s.core.inflight := rfl
@[simp] theorem State.setMat_core_bank (s : State) (m : Mat) : (s.setMat m).core.bank = s.core.bank := rfl
@[simp] theorem State.setMat_core_bankBase (s : State) (m : Mat) : (s.setMat m).core.bankBase = s.core.bankBase := rfl
@[simp] theorem State.setMat_core_tracked (s : State) (m : Mat) : (s.setMat m).core.tracked = s.core.tracked := rfl
@[simp] theorem State.setMat_core_failures (s : State) (m : Mat) : (s.setMat m).core.failures = s.core.failures := rfl
@[simp] theorem State.setMat_core_wait (s : State) (m : Mat) : (s.setMat m).core.wait = s.core.wait := rfl
@[simp] theorem State.setMat_core_waitPcb (s : State) (m : Mat) : (s.setMat m).core.waitPcb = s.core.waitPcb := rfl
@[simp] theorem State.setMat_core_binding (s : State) (m : Mat) : (s.setMat m).core.binding = s.core.binding := rfl
@[simp] theorem State.setMat_core_kilnPj (s : State) (m : Mat) : (s.setMat m).core.kilnPj = s.core.kilnPj := rfl
@[simp] theorem State.setMat_core_kilnUnits (s : State) (m : Mat) :
    (s.setMat m).core.kilnUnits = s.core.kilnUnits := rfl
@[simp] theorem State.setMat_core_kilnHolds (s : State) (m : Mat) :
    (s.setMat m).core.kilnHolds = s.core.kilnHolds := rfl
@[simp] theorem State.setMat_core_uo (s : State) (m : Mat) : (s.setMat m).core.uo = s.core.uo := rfl
@[simp] theorem State.setMat_core_publish (s : State) (m : Mat) : (s.setMat m).core.publish = s.core.publish := rfl
@[simp] theorem State.setMat_core_stall (s : State) (m : Mat) : (s.setMat m).core.stall = s.core.stall := rfl
@[simp] theorem State.setMat_core_l1Bad (s : State) (m : Mat) : (s.setMat m).core.l1Bad = s.core.l1Bad := rfl
@[simp] theorem State.setMat_core_inner (s : State) (m : Mat) : (s.setMat m).core.inner = s.core.inner := rfl
@[simp] theorem State.setMat_core_bankBad (s : State) (m : Mat) : (s.setMat m).core.bankBad = s.core.bankBad := rfl
@[simp] theorem State.setMat_core_l1 (s : State) (m : Mat) : (s.setMat m).core.l1 = s.core.l1 := rfl
@[simp] theorem State.setMat_core_gangPath (s : State) (m : Mat) : (s.setMat m).core.gangPath = s.core.gangPath := rfl
@[simp] theorem State.setMat_core_ends (s : State) (m : Mat) : (s.setMat m).core.ends = s.core.ends := rfl
@[simp] theorem State.setMat_core_ecc (s : State) (m : Mat) : (s.setMat m).core.ecc = s.core.ecc := rfl
@[simp] theorem State.setMat_core_ctx (s : State) (m : Mat) : (s.setMat m).core.ctx = s.core.ctx := rfl
@[simp] theorem State.setMat_core_report (s : State) (m : Mat) : (s.setMat m).core.report = s.core.report := rfl

/-! ### State.post -/

@[simp] theorem State.post_others (s : State) (sl : Slot) (n : Nat) (vs : List UVal) (fl : BitVec 5) (ft : Option (Nat × Word)) :
    (s.post sl n vs fl ft).others = s.others := rfl
@[simp] theorem State.post_cycle (s : State) (sl : Slot) (n : Nat) (vs : List UVal) (fl : BitVec 5) (ft : Option (Nat × Word)) :
    (s.post sl n vs fl ft).cycle = s.cycle := rfl
@[simp] theorem State.post_mem (s : State) (sl : Slot) (n : Nat) (vs : List UVal) (fl : BitVec 5) (ft : Option (Nat × Word)) :
    (s.post sl n vs fl ft).mem = s.mem := rfl
@[simp] theorem State.post_coh (s : State) (sl : Slot) (n : Nat) (vs : List UVal) (fl : BitVec 5) (ft : Option (Nat × Word)) :
    (s.post sl n vs fl ft).coh = s.coh := rfl
@[simp] theorem State.post_xlat (s : State) (sl : Slot) (n : Nat) (vs : List UVal) (fl : BitVec 5) (ft : Option (Nat × Word)) :
    (s.post sl n vs fl ft).xlat = s.xlat := rfl
@[simp] theorem State.post_queues (s : State) (sl : Slot) (n : Nat) (vs : List UVal) (fl : BitVec 5) (ft : Option (Nat × Word)) :
    (s.post sl n vs fl ft).queues = s.queues := rfl
@[simp] theorem State.post_served (s : State) (sl : Slot) (n : Nat) (vs : List UVal) (fl : BitVec 5) (ft : Option (Nat × Word)) :
    (s.post sl n vs fl ft).served = s.served := rfl
@[simp] theorem State.post_kiln (s : State) (sl : Slot) (n : Nat) (vs : List UVal) (fl : BitVec 5) (ft : Option (Nat × Word)) :
    (s.post sl n vs fl ft).kiln = s.kiln := rfl
@[simp] theorem State.post_plat (s : State) (sl : Slot) (n : Nat) (vs : List UVal) (fl : BitVec 5) (ft : Option (Nat × Word)) :
    (s.post sl n vs fl ft).plat = s.plat := rfl
@[simp] theorem State.post_pool (s : State) (sl : Slot) (n : Nat) (vs : List UVal) (fl : BitVec 5) (ft : Option (Nat × Word)) :
    (s.post sl n vs fl ft).pool = s.pool := rfl
@[simp] theorem State.post_outbox (s : State) (sl : Slot) (n : Nat) (vs : List UVal) (fl : BitVec 5) (ft : Option (Nat × Word)) :
    (s.post sl n vs fl ft).outbox = s.outbox := rfl
@[simp] theorem State.post_agenda (s : State) (sl : Slot) (n : Nat) (vs : List UVal) (fl : BitVec 5) (ft : Option (Nat × Word)) :
    (s.post sl n vs fl ft).agenda = s.agenda := rfl
@[simp] theorem State.post_free (s : State) (sl : Slot) (n : Nat) (vs : List UVal) (fl : BitVec 5) (ft : Option (Nat × Word)) :
    (s.post sl n vs fl ft).free = s.free := rfl
@[simp] theorem State.post_core_region (s : State) (sl : Slot) (n : Nat) (vs : List UVal) (fl : BitVec 5) (ft : Option (Nat × Word)) :
    (s.post sl n vs fl ft).core.region = s.core.region := rfl
@[simp] theorem State.post_core_kind (s : State) (sl : Slot) (n : Nat) (vs : List UVal) (fl : BitVec 5) (ft : Option (Nat × Word)) :
    (s.post sl n vs fl ft).core.kind = s.core.kind := rfl
@[simp] theorem State.post_core_run (s : State) (sl : Slot) (n : Nat) (vs : List UVal) (fl : BitVec 5) (ft : Option (Nat × Word)) :
    (s.post sl n vs fl ft).core.run = s.core.run := rfl
@[simp] theorem State.post_core_mode (s : State) (sl : Slot) (n : Nat) (vs : List UVal) (fl : BitVec 5) (ft : Option (Nat × Word)) :
    (s.post sl n vs fl ft).core.mode = s.core.mode := rfl
@[simp] theorem State.post_core_pc (s : State) (sl : Slot) (n : Nat) (vs : List UVal) (fl : BitVec 5) (ft : Option (Nat × Word)) :
    (s.post sl n vs fl ft).core.pc = s.core.pc := rfl
@[simp] theorem State.post_core_vcore (s : State) (sl : Slot) (n : Nat) (vs : List UVal) (fl : BitVec 5) (ft : Option (Nat × Word)) :
    (s.post sl n vs fl ft).core.vcore = s.core.vcore := rfl
@[simp] theorem State.post_core_regs (s : State) (sl : Slot) (n : Nat) (vs : List UVal) (fl : BitVec 5) (ft : Option (Nat × Word)) :
    (s.post sl n vs fl ft).core.regs = s.core.regs := rfl
@[simp] theorem State.post_core_csr (s : State) (sl : Slot) (n : Nat) (vs : List UVal) (fl : BitVec 5) (ft : Option (Nat × Word)) :
    (s.post sl n vs fl ft).core.csr = s.core.csr := rfl
@[simp] theorem State.post_core_dbg (s : State) (sl : Slot) (n : Nat) (vs : List UVal) (fl : BitVec 5) (ft : Option (Nat × Word)) :
    (s.post sl n vs fl ft).core.dbg = s.core.dbg := rfl
@[simp] theorem State.post_core_copy (s : State) (sl : Slot) (n : Nat) (vs : List UVal) (fl : BitVec 5) (ft : Option (Nat × Word)) :
    (s.post sl n vs fl ft).core.copy = s.core.copy := rfl
@[simp] theorem State.post_core_mat (s : State) (sl : Slot) (n : Nat) (vs : List UVal) (fl : BitVec 5) (ft : Option (Nat × Word)) :
    (s.post sl n vs fl ft).core.mat = s.core.mat := rfl
@[simp] theorem State.post_core_shelf (s : State) (sl : Slot) (n : Nat) (vs : List UVal) (fl : BitVec 5) (ft : Option (Nat × Word)) :
    (s.post sl n vs fl ft).core.shelf = s.core.shelf := rfl
@[simp] theorem State.post_core_pad (s : State) (sl : Slot) (n : Nat) (vs : List UVal) (fl : BitVec 5) (ft : Option (Nat × Word)) :
    (s.post sl n vs fl ft).core.pad = s.core.pad := rfl
@[simp] theorem State.post_core_nodeXt (s : State) (sl : Slot) (n : Nat) (vs : List UVal) (fl : BitVec 5) (ft : Option (Nat × Word)) :
    (s.post sl n vs fl ft).core.nodeXt = s.core.nodeXt := rfl
@[simp] theorem State.post_core_sysXt (s : State) (sl : Slot) (n : Nat) (vs : List UVal) (fl : BitVec 5) (ft : Option (Nat × Word)) :
    (s.post sl n vs fl ft).core.sysXt = s.core.sysXt := rfl
@[simp] theorem State.post_core_bank (s : State) (sl : Slot) (n : Nat) (vs : List UVal) (fl : BitVec 5) (ft : Option (Nat × Word)) :
    (s.post sl n vs fl ft).core.bank = s.core.bank := rfl
@[simp] theorem State.post_core_bankBase (s : State) (sl : Slot) (n : Nat) (vs : List UVal) (fl : BitVec 5) (ft : Option (Nat × Word)) :
    (s.post sl n vs fl ft).core.bankBase = s.core.bankBase := rfl
@[simp] theorem State.post_core_tracked (s : State) (sl : Slot) (n : Nat) (vs : List UVal) (fl : BitVec 5) (ft : Option (Nat × Word)) :
    (s.post sl n vs fl ft).core.tracked = s.core.tracked := rfl
@[simp] theorem State.post_core_failures (s : State) (sl : Slot) (n : Nat) (vs : List UVal) (fl : BitVec 5) (ft : Option (Nat × Word)) :
    (s.post sl n vs fl ft).core.failures = s.core.failures := rfl
@[simp] theorem State.post_core_wait (s : State) (sl : Slot) (n : Nat) (vs : List UVal) (fl : BitVec 5) (ft : Option (Nat × Word)) :
    (s.post sl n vs fl ft).core.wait = s.core.wait := rfl
@[simp] theorem State.post_core_waitPcb (s : State) (sl : Slot) (n : Nat) (vs : List UVal) (fl : BitVec 5) (ft : Option (Nat × Word)) :
    (s.post sl n vs fl ft).core.waitPcb = s.core.waitPcb := rfl
@[simp] theorem State.post_core_binding (s : State) (sl : Slot) (n : Nat) (vs : List UVal) (fl : BitVec 5) (ft : Option (Nat × Word)) :
    (s.post sl n vs fl ft).core.binding = s.core.binding := rfl
@[simp] theorem State.post_core_kilnPj (s : State) (sl : Slot) (n : Nat) (vs : List UVal) (fl : BitVec 5) (ft : Option (Nat × Word)) :
    (s.post sl n vs fl ft).core.kilnPj = s.core.kilnPj := rfl
@[simp] theorem State.post_core_kilnUnits (s : State) (sl : Slot) (n : Nat) (vs : List UVal) (fl : BitVec 5) (ft : Option (Nat × Word)) :
    (s.post sl n vs fl ft).core.kilnUnits = s.core.kilnUnits := rfl
@[simp] theorem State.post_core_kilnHolds (s : State) (sl : Slot) (n : Nat) (vs : List UVal) (fl : BitVec 5) (ft : Option (Nat × Word)) :
    (s.post sl n vs fl ft).core.kilnHolds = s.core.kilnHolds := rfl
@[simp] theorem State.post_core_uo (s : State) (sl : Slot) (n : Nat) (vs : List UVal) (fl : BitVec 5) (ft : Option (Nat × Word)) :
    (s.post sl n vs fl ft).core.uo = s.core.uo := rfl
@[simp] theorem State.post_core_publish (s : State) (sl : Slot) (n : Nat) (vs : List UVal) (fl : BitVec 5) (ft : Option (Nat × Word)) :
    (s.post sl n vs fl ft).core.publish = s.core.publish := rfl
@[simp] theorem State.post_core_stall (s : State) (sl : Slot) (n : Nat) (vs : List UVal) (fl : BitVec 5) (ft : Option (Nat × Word)) :
    (s.post sl n vs fl ft).core.stall = s.core.stall := rfl
@[simp] theorem State.post_core_l1Bad (s : State) (sl : Slot) (n : Nat) (vs : List UVal) (fl : BitVec 5) (ft : Option (Nat × Word)) :
    (s.post sl n vs fl ft).core.l1Bad = s.core.l1Bad := rfl
@[simp] theorem State.post_core_inner (s : State) (sl : Slot) (n : Nat) (vs : List UVal) (fl : BitVec 5) (ft : Option (Nat × Word)) :
    (s.post sl n vs fl ft).core.inner = s.core.inner := rfl
@[simp] theorem State.post_core_bankBad (s : State) (sl : Slot) (n : Nat) (vs : List UVal) (fl : BitVec 5) (ft : Option (Nat × Word)) :
    (s.post sl n vs fl ft).core.bankBad = s.core.bankBad := rfl
@[simp] theorem State.post_core_l1 (s : State) (sl : Slot) (n : Nat) (vs : List UVal) (fl : BitVec 5) (ft : Option (Nat × Word)) :
    (s.post sl n vs fl ft).core.l1 = s.core.l1 := rfl
@[simp] theorem State.post_core_gangPath (s : State) (sl : Slot) (n : Nat) (vs : List UVal) (fl : BitVec 5) (ft : Option (Nat × Word)) :
    (s.post sl n vs fl ft).core.gangPath = s.core.gangPath := rfl
@[simp] theorem State.post_core_ends (s : State) (sl : Slot) (n : Nat) (vs : List UVal) (fl : BitVec 5) (ft : Option (Nat × Word)) :
    (s.post sl n vs fl ft).core.ends = s.core.ends := rfl
@[simp] theorem State.post_core_ecc (s : State) (sl : Slot) (n : Nat) (vs : List UVal) (fl : BitVec 5) (ft : Option (Nat × Word)) :
    (s.post sl n vs fl ft).core.ecc = s.core.ecc := rfl
@[simp] theorem State.post_core_ctx (s : State) (sl : Slot) (n : Nat) (vs : List UVal) (fl : BitVec 5) (ft : Option (Nat × Word)) :
    (s.post sl n vs fl ft).core.ctx = s.core.ctx := rfl
@[simp] theorem State.post_core_report (s : State) (sl : Slot) (n : Nat) (vs : List UVal) (fl : BitVec 5) (ft : Option (Nat × Word)) :
    (s.post sl n vs fl ft).core.report = s.core.report := rfl

/-! ### State.track -/

@[simp] theorem State.track_others (s : State) (sl : Slot) (op : TOp) (o : Ord) (so : Bool) :
    (s.track sl op o so).others = s.others := rfl
@[simp] theorem State.track_cycle (s : State) (sl : Slot) (op : TOp) (o : Ord) (so : Bool) :
    (s.track sl op o so).cycle = s.cycle := rfl
@[simp] theorem State.track_mem (s : State) (sl : Slot) (op : TOp) (o : Ord) (so : Bool) :
    (s.track sl op o so).mem = s.mem := rfl
@[simp] theorem State.track_coh (s : State) (sl : Slot) (op : TOp) (o : Ord) (so : Bool) :
    (s.track sl op o so).coh = s.coh := rfl
@[simp] theorem State.track_xlat (s : State) (sl : Slot) (op : TOp) (o : Ord) (so : Bool) :
    (s.track sl op o so).xlat = s.xlat := rfl
@[simp] theorem State.track_queues (s : State) (sl : Slot) (op : TOp) (o : Ord) (so : Bool) :
    (s.track sl op o so).queues = s.queues := rfl
@[simp] theorem State.track_served (s : State) (sl : Slot) (op : TOp) (o : Ord) (so : Bool) :
    (s.track sl op o so).served = s.served := rfl
@[simp] theorem State.track_kiln (s : State) (sl : Slot) (op : TOp) (o : Ord) (so : Bool) :
    (s.track sl op o so).kiln = s.kiln := rfl
@[simp] theorem State.track_plat (s : State) (sl : Slot) (op : TOp) (o : Ord) (so : Bool) :
    (s.track sl op o so).plat = s.plat := rfl
@[simp] theorem State.track_pool (s : State) (sl : Slot) (op : TOp) (o : Ord) (so : Bool) :
    (s.track sl op o so).pool = s.pool := rfl
@[simp] theorem State.track_outbox (s : State) (sl : Slot) (op : TOp) (o : Ord) (so : Bool) :
    (s.track sl op o so).outbox = s.outbox := rfl
@[simp] theorem State.track_agenda (s : State) (sl : Slot) (op : TOp) (o : Ord) (so : Bool) :
    (s.track sl op o so).agenda = s.agenda := rfl
@[simp] theorem State.track_free (s : State) (sl : Slot) (op : TOp) (o : Ord) (so : Bool) :
    (s.track sl op o so).free = s.free := rfl
@[simp] theorem State.track_core_region (s : State) (sl : Slot) (op : TOp) (o : Ord) (so : Bool) :
    (s.track sl op o so).core.region = s.core.region := rfl
@[simp] theorem State.track_core_kind (s : State) (sl : Slot) (op : TOp) (o : Ord) (so : Bool) :
    (s.track sl op o so).core.kind = s.core.kind := rfl
@[simp] theorem State.track_core_run (s : State) (sl : Slot) (op : TOp) (o : Ord) (so : Bool) :
    (s.track sl op o so).core.run = s.core.run := rfl
@[simp] theorem State.track_core_mode (s : State) (sl : Slot) (op : TOp) (o : Ord) (so : Bool) :
    (s.track sl op o so).core.mode = s.core.mode := rfl
@[simp] theorem State.track_core_pc (s : State) (sl : Slot) (op : TOp) (o : Ord) (so : Bool) :
    (s.track sl op o so).core.pc = s.core.pc := rfl
@[simp] theorem State.track_core_vcore (s : State) (sl : Slot) (op : TOp) (o : Ord) (so : Bool) :
    (s.track sl op o so).core.vcore = s.core.vcore := rfl
@[simp] theorem State.track_core_regs (s : State) (sl : Slot) (op : TOp) (o : Ord) (so : Bool) :
    (s.track sl op o so).core.regs = s.core.regs := rfl
@[simp] theorem State.track_core_csr (s : State) (sl : Slot) (op : TOp) (o : Ord) (so : Bool) :
    (s.track sl op o so).core.csr = s.core.csr := rfl
@[simp] theorem State.track_core_dbg (s : State) (sl : Slot) (op : TOp) (o : Ord) (so : Bool) :
    (s.track sl op o so).core.dbg = s.core.dbg := rfl
@[simp] theorem State.track_core_copy (s : State) (sl : Slot) (op : TOp) (o : Ord) (so : Bool) :
    (s.track sl op o so).core.copy = s.core.copy := rfl
@[simp] theorem State.track_core_mat (s : State) (sl : Slot) (op : TOp) (o : Ord) (so : Bool) :
    (s.track sl op o so).core.mat = s.core.mat := rfl
@[simp] theorem State.track_core_shelf (s : State) (sl : Slot) (op : TOp) (o : Ord) (so : Bool) :
    (s.track sl op o so).core.shelf = s.core.shelf := rfl
@[simp] theorem State.track_core_pad (s : State) (sl : Slot) (op : TOp) (o : Ord) (so : Bool) :
    (s.track sl op o so).core.pad = s.core.pad := rfl
@[simp] theorem State.track_core_nodeXt (s : State) (sl : Slot) (op : TOp) (o : Ord) (so : Bool) :
    (s.track sl op o so).core.nodeXt = s.core.nodeXt := rfl
@[simp] theorem State.track_core_sysXt (s : State) (sl : Slot) (op : TOp) (o : Ord) (so : Bool) :
    (s.track sl op o so).core.sysXt = s.core.sysXt := rfl
@[simp] theorem State.track_core_inflight (s : State) (sl : Slot) (op : TOp) (o : Ord) (so : Bool) :
    (s.track sl op o so).core.inflight = s.core.inflight := rfl
@[simp] theorem State.track_core_bank (s : State) (sl : Slot) (op : TOp) (o : Ord) (so : Bool) :
    (s.track sl op o so).core.bank = s.core.bank := rfl
@[simp] theorem State.track_core_bankBase (s : State) (sl : Slot) (op : TOp) (o : Ord) (so : Bool) :
    (s.track sl op o so).core.bankBase = s.core.bankBase := rfl
@[simp] theorem State.track_core_failures (s : State) (sl : Slot) (op : TOp) (o : Ord) (so : Bool) :
    (s.track sl op o so).core.failures = s.core.failures := rfl
@[simp] theorem State.track_core_wait (s : State) (sl : Slot) (op : TOp) (o : Ord) (so : Bool) :
    (s.track sl op o so).core.wait = s.core.wait := rfl
@[simp] theorem State.track_core_waitPcb (s : State) (sl : Slot) (op : TOp) (o : Ord) (so : Bool) :
    (s.track sl op o so).core.waitPcb = s.core.waitPcb := rfl
@[simp] theorem State.track_core_binding (s : State) (sl : Slot) (op : TOp) (o : Ord) (so : Bool) :
    (s.track sl op o so).core.binding = s.core.binding := rfl
@[simp] theorem State.track_core_kilnPj (s : State) (sl : Slot) (op : TOp) (o : Ord) (so : Bool) :
    (s.track sl op o so).core.kilnPj = s.core.kilnPj := rfl
@[simp] theorem State.track_core_kilnUnits (s : State) (sl : Slot) (op : TOp) (o : Ord) (so : Bool) :
    (s.track sl op o so).core.kilnUnits = s.core.kilnUnits := rfl
@[simp] theorem State.track_core_kilnHolds (s : State) (sl : Slot) (op : TOp) (o : Ord) (so : Bool) :
    (s.track sl op o so).core.kilnHolds = s.core.kilnHolds := rfl
@[simp] theorem State.track_core_uo (s : State) (sl : Slot) (op : TOp) (o : Ord) (so : Bool) :
    (s.track sl op o so).core.uo = s.core.uo := rfl
@[simp] theorem State.track_core_publish (s : State) (sl : Slot) (op : TOp) (o : Ord) (so : Bool) :
    (s.track sl op o so).core.publish = s.core.publish := rfl
@[simp] theorem State.track_core_stall (s : State) (sl : Slot) (op : TOp) (o : Ord) (so : Bool) :
    (s.track sl op o so).core.stall = s.core.stall := rfl
@[simp] theorem State.track_core_l1Bad (s : State) (sl : Slot) (op : TOp) (o : Ord) (so : Bool) :
    (s.track sl op o so).core.l1Bad = s.core.l1Bad := rfl
@[simp] theorem State.track_core_inner (s : State) (sl : Slot) (op : TOp) (o : Ord) (so : Bool) :
    (s.track sl op o so).core.inner = s.core.inner := rfl
@[simp] theorem State.track_core_bankBad (s : State) (sl : Slot) (op : TOp) (o : Ord) (so : Bool) :
    (s.track sl op o so).core.bankBad = s.core.bankBad := rfl
@[simp] theorem State.track_core_l1 (s : State) (sl : Slot) (op : TOp) (o : Ord) (so : Bool) :
    (s.track sl op o so).core.l1 = s.core.l1 := rfl
@[simp] theorem State.track_core_gangPath (s : State) (sl : Slot) (op : TOp) (o : Ord) (so : Bool) :
    (s.track sl op o so).core.gangPath = s.core.gangPath := rfl
@[simp] theorem State.track_core_ends (s : State) (sl : Slot) (op : TOp) (o : Ord) (so : Bool) :
    (s.track sl op o so).core.ends = s.core.ends := rfl
@[simp] theorem State.track_core_ecc (s : State) (sl : Slot) (op : TOp) (o : Ord) (so : Bool) :
    (s.track sl op o so).core.ecc = s.core.ecc := rfl
@[simp] theorem State.track_core_ctx (s : State) (sl : Slot) (op : TOp) (o : Ord) (so : Bool) :
    (s.track sl op o so).core.ctx = s.core.ctx := rfl
@[simp] theorem State.track_core_report (s : State) (sl : Slot) (op : TOp) (o : Ord) (so : Bool) :
    (s.track sl op o so).core.report = s.core.report := rfl

/-! ### One core -/

@[simp] theorem Core.untrack_region (c : Core) (t : Tracked) : (c.untrack t).region = c.region := rfl
@[simp] theorem Core.untrack_kind (c : Core) (t : Tracked) : (c.untrack t).kind = c.kind := rfl
@[simp] theorem Core.untrack_run (c : Core) (t : Tracked) : (c.untrack t).run = c.run := rfl
@[simp] theorem Core.untrack_mode (c : Core) (t : Tracked) : (c.untrack t).mode = c.mode := rfl
@[simp] theorem Core.untrack_pc (c : Core) (t : Tracked) : (c.untrack t).pc = c.pc := rfl
@[simp] theorem Core.untrack_vcore (c : Core) (t : Tracked) : (c.untrack t).vcore = c.vcore := rfl
@[simp] theorem Core.untrack_regs (c : Core) (t : Tracked) : (c.untrack t).regs = c.regs := rfl
@[simp] theorem Core.untrack_csr (c : Core) (t : Tracked) : (c.untrack t).csr = c.csr := rfl
@[simp] theorem Core.untrack_dbg (c : Core) (t : Tracked) : (c.untrack t).dbg = c.dbg := rfl
@[simp] theorem Core.untrack_copy (c : Core) (t : Tracked) : (c.untrack t).copy = c.copy := rfl
@[simp] theorem Core.untrack_mat (c : Core) (t : Tracked) : (c.untrack t).mat = c.mat := rfl
@[simp] theorem Core.untrack_shelf (c : Core) (t : Tracked) : (c.untrack t).shelf = c.shelf := rfl
@[simp] theorem Core.untrack_pad (c : Core) (t : Tracked) : (c.untrack t).pad = c.pad := rfl
@[simp] theorem Core.untrack_nodeXt (c : Core) (t : Tracked) : (c.untrack t).nodeXt = c.nodeXt := rfl
@[simp] theorem Core.untrack_sysXt (c : Core) (t : Tracked) : (c.untrack t).sysXt = c.sysXt := rfl
@[simp] theorem Core.untrack_inflight (c : Core) (t : Tracked) : (c.untrack t).inflight = c.inflight := rfl
@[simp] theorem Core.untrack_bank (c : Core) (t : Tracked) : (c.untrack t).bank = c.bank := rfl
@[simp] theorem Core.untrack_bankBase (c : Core) (t : Tracked) : (c.untrack t).bankBase = c.bankBase := rfl
@[simp] theorem Core.untrack_tracked (c : Core) (t : Tracked) : (c.untrack t).tracked = c.tracked.erase t := rfl
@[simp] theorem Core.untrack_failures (c : Core) (t : Tracked) : (c.untrack t).failures = c.failures := rfl
@[simp] theorem Core.untrack_wait (c : Core) (t : Tracked) : (c.untrack t).wait = c.wait := rfl
@[simp] theorem Core.untrack_waitPcb (c : Core) (t : Tracked) : (c.untrack t).waitPcb = c.waitPcb := rfl
@[simp] theorem Core.untrack_binding (c : Core) (t : Tracked) : (c.untrack t).binding = c.binding := rfl
@[simp] theorem Core.untrack_kilnPj (c : Core) (t : Tracked) : (c.untrack t).kilnPj = c.kilnPj := rfl
@[simp] theorem Core.untrack_kilnUnits (c : Core) (t : Tracked) : (c.untrack t).kilnUnits = c.kilnUnits := rfl
@[simp] theorem Core.untrack_kilnHolds (c : Core) (t : Tracked) : (c.untrack t).kilnHolds = c.kilnHolds := rfl
@[simp] theorem Core.untrack_uo (c : Core) (t : Tracked) : (c.untrack t).uo = c.uo := rfl
@[simp] theorem Core.untrack_publish (c : Core) (t : Tracked) : (c.untrack t).publish = c.publish := rfl
@[simp] theorem Core.untrack_stall (c : Core) (t : Tracked) : (c.untrack t).stall = c.stall := rfl
@[simp] theorem Core.untrack_l1Bad (c : Core) (t : Tracked) : (c.untrack t).l1Bad = c.l1Bad := rfl
@[simp] theorem Core.untrack_inner (c : Core) (t : Tracked) : (c.untrack t).inner = c.inner := rfl
@[simp] theorem Core.untrack_bankBad (c : Core) (t : Tracked) : (c.untrack t).bankBad = c.bankBad := rfl
@[simp] theorem Core.untrack_l1 (c : Core) (t : Tracked) : (c.untrack t).l1 = c.l1 := rfl
@[simp] theorem Core.untrack_gangPath (c : Core) (t : Tracked) : (c.untrack t).gangPath = c.gangPath := rfl
@[simp] theorem Core.untrack_ends (c : Core) (t : Tracked) : (c.untrack t).ends = c.ends := rfl
@[simp] theorem Core.untrack_ecc (c : Core) (t : Tracked) : (c.untrack t).ecc = c.ecc := rfl
@[simp] theorem Core.untrack_ctx (c : Core) (t : Tracked) : (c.untrack t).ctx = c.ctx := rfl
@[simp] theorem Core.untrack_report (c : Core) (t : Tracked) : (c.untrack t).report = c.report := rfl
@[simp] theorem Core.putSpan_region (c : Core) (st w v : Nat) : (c.putSpan st w v).region = c.region := rfl
@[simp] theorem Core.putSpan_kind (c : Core) (st w v : Nat) : (c.putSpan st w v).kind = c.kind := rfl
@[simp] theorem Core.putSpan_run (c : Core) (st w v : Nat) : (c.putSpan st w v).run = c.run := rfl
@[simp] theorem Core.putSpan_mode (c : Core) (st w v : Nat) : (c.putSpan st w v).mode = c.mode := rfl
@[simp] theorem Core.putSpan_pc (c : Core) (st w v : Nat) : (c.putSpan st w v).pc = c.pc := rfl
@[simp] theorem Core.putSpan_vcore (c : Core) (st w v : Nat) : (c.putSpan st w v).vcore = c.vcore := rfl
@[simp] theorem Core.putSpan_csr (c : Core) (st w v : Nat) : (c.putSpan st w v).csr = c.csr := rfl
@[simp] theorem Core.putSpan_dbg (c : Core) (st w v : Nat) : (c.putSpan st w v).dbg = c.dbg := rfl
@[simp] theorem Core.putSpan_copy (c : Core) (st w v : Nat) : (c.putSpan st w v).copy = c.copy := rfl
@[simp] theorem Core.putSpan_mat (c : Core) (st w v : Nat) : (c.putSpan st w v).mat = c.mat := rfl
@[simp] theorem Core.putSpan_shelf (c : Core) (st w v : Nat) : (c.putSpan st w v).shelf = c.shelf := rfl
@[simp] theorem Core.putSpan_pad (c : Core) (st w v : Nat) : (c.putSpan st w v).pad = c.pad := rfl
@[simp] theorem Core.putSpan_nodeXt (c : Core) (st w v : Nat) : (c.putSpan st w v).nodeXt = c.nodeXt := rfl
@[simp] theorem Core.putSpan_sysXt (c : Core) (st w v : Nat) : (c.putSpan st w v).sysXt = c.sysXt := rfl
@[simp] theorem Core.putSpan_inflight (c : Core) (st w v : Nat) : (c.putSpan st w v).inflight = c.inflight := rfl
@[simp] theorem Core.putSpan_bank (c : Core) (st w v : Nat) : (c.putSpan st w v).bank = c.bank := rfl
@[simp] theorem Core.putSpan_bankBase (c : Core) (st w v : Nat) : (c.putSpan st w v).bankBase = c.bankBase := rfl
@[simp] theorem Core.putSpan_tracked (c : Core) (st w v : Nat) : (c.putSpan st w v).tracked = c.tracked := rfl
@[simp] theorem Core.putSpan_failures (c : Core) (st w v : Nat) : (c.putSpan st w v).failures = c.failures := rfl
@[simp] theorem Core.putSpan_wait (c : Core) (st w v : Nat) : (c.putSpan st w v).wait = c.wait := rfl
@[simp] theorem Core.putSpan_waitPcb (c : Core) (st w v : Nat) : (c.putSpan st w v).waitPcb = c.waitPcb := rfl
@[simp] theorem Core.putSpan_binding (c : Core) (st w v : Nat) : (c.putSpan st w v).binding = c.binding := rfl
@[simp] theorem Core.putSpan_kilnPj (c : Core) (st w v : Nat) : (c.putSpan st w v).kilnPj = c.kilnPj := rfl
@[simp] theorem Core.putSpan_kilnUnits (c : Core) (st w v : Nat) : (c.putSpan st w v).kilnUnits = c.kilnUnits := rfl
@[simp] theorem Core.putSpan_kilnHolds (c : Core) (st w v : Nat) : (c.putSpan st w v).kilnHolds = c.kilnHolds := rfl
@[simp] theorem Core.putSpan_uo (c : Core) (st w v : Nat) : (c.putSpan st w v).uo = c.uo := rfl
@[simp] theorem Core.putSpan_publish (c : Core) (st w v : Nat) : (c.putSpan st w v).publish = c.publish := rfl
@[simp] theorem Core.putSpan_stall (c : Core) (st w v : Nat) : (c.putSpan st w v).stall = c.stall := rfl
@[simp] theorem Core.putSpan_l1Bad (c : Core) (st w v : Nat) : (c.putSpan st w v).l1Bad = c.l1Bad := rfl
@[simp] theorem Core.putSpan_bankBad (c : Core) (st w v : Nat) : (c.putSpan st w v).bankBad = c.bankBad := rfl
@[simp] theorem Core.putSpan_l1 (c : Core) (st w v : Nat) : (c.putSpan st w v).l1 = c.l1 := rfl
@[simp] theorem Core.putSpan_gangPath (c : Core) (st w v : Nat) : (c.putSpan st w v).gangPath = c.gangPath := rfl
@[simp] theorem Core.putSpan_ends (c : Core) (st w v : Nat) : (c.putSpan st w v).ends = c.ends := rfl
@[simp] theorem Core.putSpan_ecc (c : Core) (st w v : Nat) : (c.putSpan st w v).ecc = c.ecc := rfl
@[simp] theorem Core.putSpan_ctx (c : Core) (st w v : Nat) : (c.putSpan st w v).ctx = c.ctx := rfl
@[simp] theorem Core.putSpan_report (c : Core) (st w v : Nat) : (c.putSpan st w v).report = c.report := rfl
@[simp] theorem Core.recordFailure_region (c : Core) (t : Tracked) (k : Nat) (v : Word) (m : List Nat) :
    (c.recordFailure t k v m).region = c.region := rfl
@[simp] theorem Core.recordFailure_kind (c : Core) (t : Tracked) (k : Nat) (v : Word) (m : List Nat) :
    (c.recordFailure t k v m).kind = c.kind := rfl
@[simp] theorem Core.recordFailure_run (c : Core) (t : Tracked) (k : Nat) (v : Word) (m : List Nat) :
    (c.recordFailure t k v m).run = c.run := rfl
@[simp] theorem Core.recordFailure_mode (c : Core) (t : Tracked) (k : Nat) (v : Word) (m : List Nat) :
    (c.recordFailure t k v m).mode = c.mode := rfl
@[simp] theorem Core.recordFailure_pc (c : Core) (t : Tracked) (k : Nat) (v : Word) (m : List Nat) :
    (c.recordFailure t k v m).pc = c.pc := rfl
@[simp] theorem Core.recordFailure_vcore (c : Core) (t : Tracked) (k : Nat) (v : Word) (m : List Nat) :
    (c.recordFailure t k v m).vcore = c.vcore := rfl
@[simp] theorem Core.recordFailure_regs (c : Core) (t : Tracked) (k : Nat) (v : Word) (m : List Nat) :
    (c.recordFailure t k v m).regs = c.regs := rfl
@[simp] theorem Core.recordFailure_csr (c : Core) (t : Tracked) (k : Nat) (v : Word) (m : List Nat) :
    (c.recordFailure t k v m).csr = c.csr := rfl
@[simp] theorem Core.recordFailure_dbg (c : Core) (t : Tracked) (k : Nat) (v : Word) (m : List Nat) :
    (c.recordFailure t k v m).dbg = c.dbg := rfl
@[simp] theorem Core.recordFailure_copy (c : Core) (t : Tracked) (k : Nat) (v : Word) (m : List Nat) :
    (c.recordFailure t k v m).copy = c.copy := rfl
@[simp] theorem Core.recordFailure_mat (c : Core) (t : Tracked) (k : Nat) (v : Word) (m : List Nat) :
    (c.recordFailure t k v m).mat = c.mat := rfl
@[simp] theorem Core.recordFailure_shelf (c : Core) (t : Tracked) (k : Nat) (v : Word) (m : List Nat) :
    (c.recordFailure t k v m).shelf = c.shelf := rfl
@[simp] theorem Core.recordFailure_pad (c : Core) (t : Tracked) (k : Nat) (v : Word) (m : List Nat) :
    (c.recordFailure t k v m).pad = c.pad := rfl
@[simp] theorem Core.recordFailure_nodeXt (c : Core) (t : Tracked) (k : Nat) (v : Word) (m : List Nat) :
    (c.recordFailure t k v m).nodeXt = c.nodeXt := rfl
@[simp] theorem Core.recordFailure_sysXt (c : Core) (t : Tracked) (k : Nat) (v : Word) (m : List Nat) :
    (c.recordFailure t k v m).sysXt = c.sysXt := rfl
@[simp] theorem Core.recordFailure_inflight (c : Core) (t : Tracked) (k : Nat) (v : Word) (m : List Nat) :
    (c.recordFailure t k v m).inflight = c.inflight := rfl
@[simp] theorem Core.recordFailure_bank (c : Core) (t : Tracked) (k : Nat) (v : Word) (m : List Nat) :
    (c.recordFailure t k v m).bank = c.bank := rfl
@[simp] theorem Core.recordFailure_bankBase (c : Core) (t : Tracked) (k : Nat) (v : Word) (m : List Nat) :
    (c.recordFailure t k v m).bankBase = c.bankBase := rfl
@[simp] theorem Core.recordFailure_wait (c : Core) (t : Tracked) (k : Nat) (v : Word) (m : List Nat) :
    (c.recordFailure t k v m).wait = c.wait := rfl
@[simp] theorem Core.recordFailure_waitPcb (c : Core) (t : Tracked) (k : Nat) (v : Word) (m : List Nat) :
    (c.recordFailure t k v m).waitPcb = c.waitPcb := rfl
@[simp] theorem Core.recordFailure_binding (c : Core) (t : Tracked) (k : Nat) (v : Word) (m : List Nat) :
    (c.recordFailure t k v m).binding = c.binding := rfl
@[simp] theorem Core.recordFailure_kilnPj (c : Core) (t : Tracked) (k : Nat) (v : Word) (m : List Nat) :
    (c.recordFailure t k v m).kilnPj = c.kilnPj := rfl
@[simp] theorem Core.recordFailure_kilnUnits (c : Core) (t : Tracked) (k : Nat) (v : Word) (m : List Nat) :
    (c.recordFailure t k v m).kilnUnits = c.kilnUnits := rfl
@[simp] theorem Core.recordFailure_kilnHolds (c : Core) (t : Tracked) (k : Nat) (v : Word) (m : List Nat) :
    (c.recordFailure t k v m).kilnHolds = c.kilnHolds := rfl
@[simp] theorem Core.recordFailure_uo (c : Core) (t : Tracked) (k : Nat) (v : Word) (m : List Nat) :
    (c.recordFailure t k v m).uo = c.uo := rfl
@[simp] theorem Core.recordFailure_publish (c : Core) (t : Tracked) (k : Nat) (v : Word) (m : List Nat) :
    (c.recordFailure t k v m).publish = c.publish := rfl
@[simp] theorem Core.recordFailure_stall (c : Core) (t : Tracked) (k : Nat) (v : Word) (m : List Nat) :
    (c.recordFailure t k v m).stall = c.stall := rfl
@[simp] theorem Core.recordFailure_l1Bad (c : Core) (t : Tracked) (k : Nat) (v : Word) (m : List Nat) :
    (c.recordFailure t k v m).l1Bad = c.l1Bad := rfl
@[simp] theorem Core.recordFailure_inner (c : Core) (t : Tracked) (k : Nat) (v : Word) (m : List Nat) :
    (c.recordFailure t k v m).inner = c.inner := rfl
@[simp] theorem Core.recordFailure_bankBad (c : Core) (t : Tracked) (k : Nat) (v : Word) (m : List Nat) :
    (c.recordFailure t k v m).bankBad = c.bankBad := rfl
@[simp] theorem Core.recordFailure_l1 (c : Core) (t : Tracked) (k : Nat) (v : Word) (m : List Nat) :
    (c.recordFailure t k v m).l1 = c.l1 := rfl
@[simp] theorem Core.recordFailure_gangPath (c : Core) (t : Tracked) (k : Nat) (v : Word) (m : List Nat) :
    (c.recordFailure t k v m).gangPath = c.gangPath := rfl
@[simp] theorem Core.recordFailure_ends (c : Core) (t : Tracked) (k : Nat) (v : Word) (m : List Nat) :
    (c.recordFailure t k v m).ends = c.ends := rfl
@[simp] theorem Core.recordFailure_ecc (c : Core) (t : Tracked) (k : Nat) (v : Word) (m : List Nat) :
    (c.recordFailure t k v m).ecc = c.ecc := rfl
@[simp] theorem Core.recordFailure_ctx (c : Core) (t : Tracked) (k : Nat) (v : Word) (m : List Nat) :
    (c.recordFailure t k v m).ctx = c.ctx := rfl
@[simp] theorem Core.recordFailure_report (c : Core) (t : Tracked) (k : Nat) (v : Word) (m : List Nat) :
    (c.recordFailure t k v m).report = c.report := rfl

end Sys2Proof.Machine
end

