-- ==== Sys2Proof/Laws/Traps.lean ====
section
/-! SUPPORT. Taking a trap and issuing from a plan, each said once: what they can answer, and what they leave. -/

namespace Sys2Proof.Machine

/-- Register files that differ at most in how far their clusters have woken. -/
def SameRegs (r q : Regs) : Prop := ∃ l, q = { r with clusters := l }

/-- Shelves that differ at most in their error record. -/
def SameShelf (x y : Shelf) : Prop := ∃ e, y = { x with sherr := e }

/-- What a capture and a trap leave of a core: its files, its memory and its operations. -/
def SameFiles (c d : Core) : Prop :=
  SameRegs c.regs d.regs ∧ SameShelf c.shelf d.shelf ∧ d.pad = c.pad ∧ d.mat = c.mat ∧ d.copy = c.copy ∧
  d.tracked = c.tracked ∧ d.ends = c.ends ∧ d.binding = c.binding ∧ d.region = c.region ∧ d.kind = c.kind

/-- What a trap leaves of the chip. -/
def SameChip (s t : State) : Prop :=
  t.mem = s.mem ∧ t.coh = s.coh ∧ t.pool = s.pool ∧ t.kiln = s.kiln ∧ t.queues = s.queues ∧ t.cycle = s.cycle

theorem SameRegs.refl (r : Regs) : SameRegs r r := ⟨r.clusters, rfl⟩
theorem SameRegs.trans {a b c : Regs} : SameRegs a b → SameRegs b c → SameRegs a c := by
  rintro ⟨l, rfl⟩ ⟨m, rfl⟩
  exact ⟨m, rfl⟩
theorem SameShelf.refl (x : Shelf) : SameShelf x x := ⟨x.sherr, rfl⟩
theorem SameShelf.trans {a b c : Shelf} : SameShelf a b → SameShelf b c → SameShelf a c := by
  rintro ⟨l, rfl⟩ ⟨m, rfl⟩
  exact ⟨m, rfl⟩

theorem SameFiles.refl (c : Core) : SameFiles c c :=
  ⟨.refl _, .refl _, rfl, rfl, rfl, rfl, rfl, rfl, rfl, rfl⟩
theorem SameChip.refl (s : State) : SameChip s s := ⟨rfl, rfl, rfl, rfl, rfl, rfl⟩

theorem SameFiles.trans {a b c : Core} (h : SameFiles a b) (k : SameFiles b c) : SameFiles a c := by
  obtain ⟨h1, h2, h3, h4, h5, h6, h7, h8, h9, h10⟩ := h
  obtain ⟨k1, k2, k3, k4, k5, k6, k7, k8, k9, k10⟩ := k
  exact ⟨h1.trans k1, h2.trans k2, k3.trans h3, k4.trans h4, k5.trans h5, k6.trans h6, k7.trans h7, k8.trans h8,
    k9.trans h9, k10.trans h10⟩

theorem SameChip.trans {a b c : State} (h : SameChip a b) (k : SameChip b c) : SameChip a c := by
  obtain ⟨h1, h2, h3, h4, h5, h6⟩ := h
  obtain ⟨k1, k2, k3, k4, k5, k6⟩ := k
  exact ⟨k1.trans h1, k2.trans h2, k3.trans h3, k4.trans h4, k5.trans h5, k6.trans h6⟩

theorem captureBank_files (c : Core) (n : Nat) : SameFiles c (captureBank c n) := by
  unfold captureBank
  split <;> exact SameFiles.refl c

theorem carryWakes_files (c : Core) (m : Mode) : SameFiles c (c.carryWakes m) :=
  ⟨⟨_, rfl⟩, .refl _, rfl, rfl, rfl, rfl, rfl, rfl, rfl, rfl⟩

/-- A trap leaves the register files, the scratchpad and the operations of the core. -/
theorem takeTrap_files (s : State) (x : TrapInfo) : SameFiles s.core (takeTrap s x).core := by
  unfold takeTrap
  split
  · exact SameFiles.refl s.core
  · exact (carryWakes_files s.core .sys).trans (captureBank_files (s.core.carryWakes .sys) x.resumeXt)

/-- A trap leaves memory and the chip. -/
theorem takeTrap_chip (s : State) (x : TrapInfo) : SameChip s (takeTrap s x) := by
  unfold takeTrap
  split <;> exact SameChip.refl s

/-- What the record of a finding in a storage view leaves. -/
theorem trapFinding_files (s : State) (k : Nat) (v : Word) : SameFiles s.core (s.trapFinding k v).core := by
  unfold State.trapFinding
  dsimp only
  split
  · unfold State.shelfFinding
    split
    · exact SameFiles.refl s.core
    · rename_i c hc
      simp only [State.coreAt] at hc
      split at hc
      · rename_i hi
        obtain rfl := Option.some.inj hc
        dsimp only [logError]
        rw [State.setCoreAt, if_pos hi]
        exact ⟨.refl _, ⟨_, rfl⟩, rfl, rfl, rfl, rfl, rfl, rfl, rfl, rfl⟩
      · rename_i hi
        dsimp only [logError]
        rw [State.setCoreAt, if_neg hi]
        exact SameFiles.refl s.core
  · split <;> exact SameFiles.refl s.core

theorem trapFinding_chip (s : State) (k : Nat) (v : Word) : SameChip s (s.trapFinding k v) := by
  unfold State.trapFinding
  dsimp only
  split
  · unfold State.shelfFinding
    split
    · exact SameChip.refl s
    · dsimp only [logError]
      unfold State.setCoreAt
      split <;> exact ⟨rfl, rfl, rfl, rfl, rfl, rfl⟩
  · split <;> exact SameChip.refl s

theorem enterHalt_files (s : State) (k : Nat) (p : Word) (n : Nat) : SameFiles s.core (enterHalt s k p n).core :=
  captureBank_files s.core n

theorem enterHalt_chip (s : State) (k : Nat) (p : Word) (n : Nat) : SameChip s (enterHalt s k p n) :=
  SameChip.refl s

/-- A breakpoint or a single step under HOT halts; everything else takes its trap. -/
theorem trapOrHalt_cases (s : State) (x : TrapInfo) :
    trapOrHalt s x = takeTrap s x ∨ ∃ k, trapOrHalt s x = enterHalt s k x.tpc x.resumeXt := by
  unfold trapOrHalt
  split
  · exact .inr ⟨_, rfl⟩
  · exact .inl rfl

theorem trapOrHalt_files (s : State) (x : TrapInfo) : SameFiles s.core (trapOrHalt s x).core := by
  rcases trapOrHalt_cases s x with h | ⟨k, h⟩ <;> rw [h]
  · exact takeTrap_files s x
  · exact enterHalt_files s k _ _

theorem trapOrHalt_chip (s : State) (x : TrapInfo) : SameChip s (trapOrHalt s x) := by
  rcases trapOrHalt_cases s x with h | ⟨k, h⟩ <;> rw [h]
  · exact takeTrap_chip s x
  · exact enterHalt_chip s k _ _

theorem trapHere_files (s : State) (sl : Option Slot) (k : Nat) (v : Word) :
    SameFiles s.core (trapHere s sl k v).core := (trapFinding_files s k v).trans (trapOrHalt_files _ _)

theorem trapHere_chip (s : State) (sl : Option Slot) (k : Nat) (v : Word) : SameChip s (trapHere s sl k v) :=
  (trapFinding_chip s k v).trans (trapOrHalt_chip _ _)

theorem trapDeferred_files (s : State) (n k : Nat) (v p : Word) : SameFiles s.core (trapDeferred s n k v p).core :=
  takeTrap_files s _

theorem trapDeferred_chip (s : State) (n k : Nat) (v p : Word) : SameChip s (trapDeferred s n k v p) :=
  takeTrap_chip s _

theorem dropResult_files (c : Core) (r : Result) : SameFiles c (c.dropResult r) := SameFiles.refl c

theorem kilnCharge_files (c : Core) (pj : Nat) : SameFiles c (kilnCharge c pj) := by
  unfold kilnCharge
  split
  · exact SameFiles.refl c
  · exact ⟨.refl _, .refl _, rfl, rfl, rfl, rfl, rfl, rfl, rfl, rfl⟩

/-- What the issue of a plan can come to: a fault of the instruction's own, the delivery of an earlier one, a machine
check, a wait, which starts what the plan says, the wait for energy, or the effect. -/
theorem runPlan_cases {i : Instr} {s t : State} {p : Plan} (h : runPlan i s p = .next t) :
    (∃ k v, t = (trapHere s (slotOf i) k v).report (.trapped k v p.pj)) ∨
    (∃ d : State, SameFiles s.core d.core ∧ SameChip s d ∧ ∃ n k v q,
      t = (trapDeferred d n k v q).report (.deferred k v q n)) ∨
    t = (machineCheck s 5 0x7F 0).report .ended ∨
    (∃ w, t = s.report (.stalled w)) ∨
    (∃ w, p.waits = some w ∧ t = (p.onStall s).report (.stalled w)) ∨
    t = (p.eff (s.setCore (kilnCharge s.core p.pj))).report .issued := by
  unfold runPlan at h
  dsimp only at h
  split at h
  · exact .inl ⟨_, _, (Host.Outcome.next.inj h).symm⟩
  · split at h
    · rename_i r _
      exact .inr (.inl ⟨s.setCore (s.core.dropResult r), SameFiles.refl s.core, SameChip.refl s, _, _, _, _,
        (Host.Outcome.next.inj h).symm⟩)
    · split at h
      · exact .inr (.inl ⟨s.setCore { s.core with failures := [] }, SameFiles.refl s.core, SameChip.refl s, _, _, _,
          _, (Host.Outcome.next.inj h).symm⟩)
      · split at h
        · exact .inr (.inr (.inl (Host.Outcome.next.inj h).symm))
        · split at h
          · exact .inr (.inr (.inr (.inl ⟨_, (Host.Outcome.next.inj h).symm⟩)))
          · split at h
            · exact .inl ⟨_, _, (Host.Outcome.next.inj h).symm⟩
            · split at h
              · rename_i w hw
                exact .inr (.inr (.inr (.inr (.inl ⟨w, hw, (Host.Outcome.next.inj h).symm⟩))))
              · split at h
                · exact .inr (.inr (.inr (.inr (.inr (Host.Outcome.next.inj h).symm))))
                · exact .inr (.inr (.inr (.inl ⟨_, (Host.Outcome.next.inj h).symm⟩)))

theorem check_files (s : State) (syn cause : Nat) (a : Word) :
    SameFiles s.core (machineCheck s syn cause a).core := SameFiles.refl s.core

theorem report_files {c : Core} {t : State} (h : SameFiles c t.core) (r : Report) :
    SameFiles c (t.report r).core := h

theorem report_chip {s t : State} (h : SameChip s t) (r : Report) : SameChip s (t.report r) := h

/-- What the effect and the waits of a plan leave, its issue leaves. -/
theorem runPlan_files {i : Instr} {s t : State} {p : Plan} (h : runPlan i s p = .next t)
    (he : ∀ u, SameFiles u.core (p.eff u).core) (hs : SameFiles s.core (p.onStall s).core) :
    SameFiles s.core t.core := by
  rcases runPlan_cases h with ⟨k, v, rfl⟩ | ⟨d, hd, _, n, k, v, q, rfl⟩ | rfl | ⟨w, rfl⟩ | ⟨w, _, rfl⟩ | rfl
  · exact report_files (trapHere_files s _ k v) _
  · exact report_files (hd.trans (trapDeferred_files d n k v q)) _
  · exact report_files (check_files s _ _ _) _
  · exact report_files (SameFiles.refl s.core) _
  · exact report_files hs _
  · exact report_files ((kilnCharge_files s.core p.pj).trans (he _)) _

end Sys2Proof.Machine
end

