-- ==== Sys2Proof/Laws/Vector.lean ====
section
/-! SUPPORT. The vector slots and the Q slot: an instruction whose operands are in order issues as its plan says,
and packed arrays are read element by element. -/

namespace Sys2Proof.Machine

/-! ### Packed arrays -/

theorem packN_lt (b n : Nat) (f : Nat → Nat) : packN b n f < 2 ^ (b * n) := by
  induction n with
  | zero => simp [packN]
  | succ n ih =>
    have h : f n % 2 ^ b < 2 ^ b := Nat.mod_lt _ (Nat.two_pow_pos _)
    have e : 2 ^ (b * (n + 1)) = 2 ^ b * 2 ^ (b * n) := by rw [← pow_add]; ring_nf
    rw [packN, e]
    nlinarith [Nat.two_pow_pos (b * n)]

/-- A packed array depends on its own elements only. -/
theorem packN_congr {b n : Nat} {f g : Nat → Nat} (h : ∀ i < n, f i % 2 ^ b = g i % 2 ^ b) :
    packN b n f = packN b n g := by
  induction n with
  | zero => rfl
  | succ n ih => rw [packN, packN, ih fun i hi => h i (by omega), h n (by omega)]

/-- Element i of a packed array. -/
theorem elemN_packN (b n : Nat) (f : Nat → Nat) (i : Nat) (hi : i < n) :
    elemN b (packN b n f) i = f i % 2 ^ b := by
  induction n with
  | zero => omega
  | succ n ih =>
    simp only [packN, elemN, Nat.shiftRight_eq_div_pow]
    rcases Nat.lt_succ_iff_lt_or_eq.mp hi with h | rfl
    · have ih' := ih h
      simp only [elemN, Nat.shiftRight_eq_div_pow] at ih'
      have e : 2 ^ (b * n) = 2 ^ (b * i) * (2 ^ b * 2 ^ (b * (n - i - 1))) := by
        rw [← pow_add, ← pow_add]
        congr 1
        obtain ⟨k, rfl⟩ : ∃ k, n = i + 1 + k := ⟨n - i - 1, by omega⟩
        simp only [show i + 1 + k - i - 1 = k by omega]
        ring
      rw [e, show (f n % 2 ^ b) * (2 ^ (b * i) * (2 ^ b * 2 ^ (b * (n - i - 1)))) =
        2 ^ (b * i) * (2 ^ b * ((f n % 2 ^ b) * 2 ^ (b * (n - i - 1)))) by ring,
        Nat.add_mul_div_left _ _ (Nat.two_pow_pos _), Nat.add_mul_mod_self_left, ih']
    · have hlt := packN_lt b i f
      rw [Nat.add_mul_div_right _ _ (Nat.two_pow_pos _), Nat.div_eq_of_lt hlt, Nat.zero_add,
        Nat.mod_mod]

/-! ### Operands in order -/

theorem clusterWhere_none {ps : List Nat} {bad : Nat → Bool}
    (h : ∀ p ∈ ps, bad (clusterOf p) = false) : clusterWhere ps bad = none := by
  rw [clusterWhere, List.find?_eq_none]
  intro k _
  simp only [Bool.and_eq_true, List.any_eq_true, beq_iff_eq, not_and, not_exists]
  rintro hb p hp rfl
  simp [h p hp] at hb

theorem physOf_ok {c : Csrs} {l : List VOp} (h : ∀ o ∈ l, o.bad = false) :
    physOf c l = l.flatMap (VOp.phys c) := by
  have e : l.filter (fun o => !o.bad) = l := by
    rw [List.filter_eq_self]
    intro o ho
    simp [h o ho]
  rw [physOf, e]

theorem vopFaults_ok {s : State} {i : Instr} {own : Nat} {srcs dsts : List VOp}
    (h : operandsOk s own srcs dsts = true) : vopFaults s.view i own srcs dsts = [] := by
  simp only [operandsOk, Bool.and_eq_true, List.all_eq_true, beq_iff_eq, Bool.not_eq_true'] at h
  obtain ⟨⟨hb, ha⟩, ho⟩ := h
  have hd : ∀ o ∈ dsts, o.bad = false := fun o m => hb o (List.mem_append_right _ m)
  have e1 : (srcs ++ dsts).any VOp.bad = false := by
    rw [List.any_eq_false]
    intro o m
    simp [hb o m]
  have e2 : clusterWhere (physOf s.view.csr (srcs ++ dsts))
      (fun k => !clusterAwake s.view.regs s.view.mode s.view.xt k) = none := by
    refine clusterWhere_none fun p m => ?_
    rw [physOf_ok hb] at m
    simp [ha p m]
  have e3 : clusterWhere (physOf s.view.csr dsts)
      (fun k => (lget 0 s.view.regs.owners k).toNat != own) = none := by
    refine clusterWhere_none fun p m => ?_
    rw [physOf_ok hd] at m
    show ((lget 0 s.view.regs.owners (clusterOf p)).toNat != own) = false
    rw [ho p m]
    simp
  unfold vopFaults
  rw [e1, e2, e3]
  rfl

/-- A vector-slot instruction whose operands are in order issues: it draws and puts its result in flight. -/
theorem runPlan_vec {i : Instr} {s : State} {k : VWork} (hc : clear s = true) (hw : wellFormed i = true)
    (ho : vectorOk s k.sl k.srcs k.dsts = true) (hs : k.scal.any SOp.bad = false)
    (hf : ∀ x ∈ k.faults, x.1 = false) :
    runPlan i s (planVec s.view i k) = .next (vectorResult s k.sl k.lat k.draws k.vals k.flags) := by
  have hF : (planVec s.view i k).faults = [] := by
    show vopFaults _ _ _ _ _ ++ _ ++ faultsOf _ = []
    rw [vopFaults_ok ho, hs, faultsOf_eq_nil _ hf]
    rfl
  rw [runPlan_free hc hw hF rfl rfl rfl]
  rfl

/-- A Q-slot instruction whose operands are in order, and that the core can pay, issues. -/
theorem runPlan_q {i : Instr} {s : State} {k : QWork} (hc : clear s = true) (hw : wellFormed i = true)
    (ho : operandsOk s 3 k.srcs k.dsts = true) (hf : ∀ x ∈ k.faults, x.1 = false)
    (hj : kilnPays s.core k.pj = true) :
    runPlan i s (planQ s.view i k) = .next (posted (charged s k.pj) .q (2 + k.len / 64) k.vals) := by
  have hF : (planQ s.view i k).faults = [] := by
    show vopFaults _ _ _ _ _ ++ faultsOf _ = []
    rw [vopFaults_ok ho, faultsOf_eq_nil _ hf]
    rfl
  rw [runPlan_clear hc hw hF rfl rfl hj]
  rfl

end Sys2Proof.Machine
end

