-- ==== Sys2Proof/Tests/Slice0.lean ====
section
/-! SUPPORT. The model's own tests: words of the spec's encodings, ill-formed terms, one step of small states, and
a state that meets the hypotheses of each statement for the provers. -/

namespace Sys2Proof.Tests

set_option Elab.async false

open Sys2Proof.Machine

/-! ### Words, written out from the formats of R81 to R86 and the maps of R88 to R93

A span is its start above its width less one (R78). -/

def x (n : Nat) : SSpan := ⟨BitVec.ofNat 9 (16 * n), 15⟩
def v (n : Nat) : VSpan := ⟨BitVec.ofNat 12 (8 * n), 7⟩
def z : SSpan := ⟨0, 0⟩
def vz : VSpan := ⟨0, 0⟩
/-- The fields of `x n` and `v n`. -/
def fx (n : Nat) : Nat := 16 * n * 16 + 15
def fv (n : Nat) : Nat := 8 * n * 8 + 7

/-- Fields at their lowest bits. -/
def fields (l : List (Nat × Nat)) : Word := BitVec.ofNat 64 (l.map fun p => p.2 * 2 ^ p.1).sum

/-- A word decodes in its slot to an instruction, and the instruction encodes to the word. -/
def reads (sl : Slot) (w : Word) (i : Instr) : Bool :=
  (match decodeSlot .a sl w none with
   | .ok j => j == i
   | .error _ => false) && encode i == w && wellFormed i

/-- A word earns a fault. -/
def refused (sl : Slot) (w : Word) (e : Option Word) (cause : Nat) : Bool :=
  match decodeSlot .a sl w e with
  | .ok _ => false
  | .error c => c == cause

theorem test_decode_b :
    (reads .b (fields [(13, 0x7FFF4), (12, 1), (6, 3), (0, 0x01)]) (.br ⟨0x7FFF4, true, 3, none⟩) &&
     reads .b (fields [(19, 0x1FFF), (6, fx 5), (0, 0x02)]) (.brz ⟨0x1FFF, x 5⟩) &&
     reads .b (fields [(19, 2), (6, fx 5), (0, 0x03)]) (.brnz ⟨2, x 5⟩) &&
     reads .b (fields [(6, 0x2000001), (0, 0x04)]) (.jmp ⟨0x2000001, none⟩) &&
     reads .b (fields [(19, 9), (6, fx 5), (0, 0x05)]) (.jmpi ⟨9, x 5⟩) &&
     reads .b (fields [(6, 7), (0, 0x06)]) (.call ⟨7, none⟩) &&
     reads .b (fields [(19, 9), (6, fx 5), (0, 0x07)]) (.calli ⟨9, x 5⟩) &&
     reads .b 0x000043C8 (.ret (x 1)) && reads .b 0xFFFF0009 (.cloop 0x7FFF8) &&
     reads .b 0x00F8000A (.waitt 0x1F) && reads .b 0x000A43CB (.waita 1 (x 9)) &&
     reads .b 0x0028000C (.barg 5) && reads .b 0x0028000D (.trig 5) && reads .b 0x0800000D .trigNode &&
     reads .b 0x0000000E .exit && reads .b 0x0030000F (.fence .acqRel .node) &&
     reads .b 0x0098000F (.fence .sc .system) && reads .b 0x00280010 (.trap 5) && reads .b 0x00000011 .tret &&
     reads .b 0x00080012 (.bkpt 1) && reads .b (fields [(19, 0x15), (0, 0x13)]) (.rfcl 0x15) &&
     reads .b (fields [(22, 2), (19, 4), (0, 0x14)]) (.lend 2 4)) = true := by decide +kernel

/-- S.R: SRC2 52:40, SRC1 39:27, DST 26:14, FN 13:10. -/
theorem test_decode_s_registers :
    let w (op : Nat) (b : Nat) : Word := fields [(40, b), (27, fx 1), (14, fx 3), (0, op)]
    let o (b : SSpan) : FSR := ⟨b, x 1, x 3, 0, false⟩
    (([(0x001, Instr.add), (0x002, .sub), (0x004, .mul), (0x005, .mulh), (0x006, .mulhn), (0x007, .div),
       (0x008, .divn), (0x009, .rem), (0x00A, .remn), (0x010, .and), (0x011, .or), (0x012, .xor), (0x013, .andn),
       (0x014, .shl), (0x015, .shr), (0x016, .sra), (0x017, .rotl), (0x020, .min), (0x021, .max), (0x022, .minn),
       (0x023, .maxn)].all fun p => reads .s (w p.1 (fx 2)) (p.2 (o (x 2)))) &&
     ([(0x018, Instr.clz), (0x019, .ctz), (0x01A, .popc), (0x031, .movs), (0x056, .hchk)].all fun p =>
       reads .s (w p.1 0) (p.2 (o z))) &&
     reads .s (fields [(40, fx 2), (27, fx 1), (14, fx 3), (10, 2), (9, 1), (0, 1)])
       (.add ⟨x 2, x 1, x 3, 2, true⟩) &&
     reads .s 0x00050F207800C824 (.cmp ⟨x 5, x 4, 3, 2⟩) &&
     reads .s (fields [(53, 33), (40, fx 2), (27, fx 1), (14, fx 3), (0, 0x025)]) (.sel ⟨33, x 2, x 1, x 3, false⟩))
      = true := by decide +kernel

theorem test_decode_s_rest :
    let i (op imm fn : Nat) : Word := fields [(40, imm), (27, fx 1), (14, fx 3), (10, fn), (0, op)]
    let fi (imm : BitVec 24) (fn : BitVec 4) : FSI := ⟨imm, x 1, x 3, fn, false, none⟩
    let m (op ord fn : Nat) : Word :=
      fields [(48, 0x8001), (45, 7), (42, 4), (40, ord), (27, fx 1), (14, fx 3), (10, fn), (0, op)]
    let fm (ord : Ord) (fn : BitVec 4) : FSM := ⟨0x8001, 7, .system, ord, x 1, x 3, fn, false, none⟩
    let c (op csr src dst : Nat) : Word := fields [(40, csr), (27, src), (14, dst), (0, op)]
    (reads .s (i 0x003 0x800001 0) (.addi (fi 0x800001 0)) && reads .s (i 0x032 0xFC1 1) (.exts (fi 0xFC1 1)) &&
     reads .s (i 0x033 0xFC1 0) (.inss (fi 0xFC1 0)) && reads .s (i 0x034 0x800001 6) (.lea (fi 0x800001 6)) &&
     reads .s (fields [(32, 0x80000001), (14, fx 3), (9, 1), (0, 0x030)]) (.li ⟨0x80000001, x 3, true, none⟩) &&
     reads .s (m 0x040 1 0) (.ld (fm .acq 0)) && reads .s (m 0x041 2 0) (.st (fm .rel 0)) &&
     reads .s (m 0x042 1 7) (.ldg (fm .acq 7)) && reads .s (m 0x043 0 3) (.stg (fm .relaxed 3)) &&
     reads .s 0x01690F187A03C444 (.amo ⟨0, .chip, .acqRel, x 9, x 3, x 8, 1⟩) &&
     reads .s (fields [(58, 5), (55, 3), (53, 1), (40, fx 9), (27, fx 3), (14, fx 8), (0, 0x045)])
       (.cas ⟨5, .domain, .acq, x 9, x 3, x 8, 0⟩) &&
     reads .s (c 0x050 0x14D 0 (fx 3)) (.csrr ⟨0x14D, z, x 3, false⟩) &&
     ([(0x051, Instr.csrw), (0x052, .csrs), (0x053, .csrc)].all fun p =>
       reads .s (c p.1 0x145 (fx 1) 0) (p.2 ⟨0x145, x 1, z, false⟩)) &&
     reads .s (c 0x054 0x27 (fx 1) 0) (.engw ⟨0x27, x 1, z, false⟩) &&
     reads .s (c 0x055 0x3F 0 (fx 3)) (.engr ⟨0x3F, z, x 3, false⟩)) = true := by decide +kernel

/-- V.R: PM5 63:59, VB 58:44, VA 43:29, VD 28:14, TYPE 13:10. -/
theorem test_decode_v_registers :
    let w (op ty b : Nat) : Word := fields [(59, 17), (44, b), (29, fv 9), (14, fv 8), (10, ty), (9, 1), (0, op)]
    let o (ty : ETy) (b : VSpan) : FVR := ⟨.va, 17, b, v 9, v 8, ty, true⟩
    (([(0x001, Instr.vadd), (0x002, .vsub), (0x003, .vmul), (0x004, .vmulh), (0x005, .vmad), (0x006, .vmin),
       (0x007, .vmax), (0x00A, .vand), (0x00B, .vor), (0x00C, .vxor), (0x00D, .vandn), (0x00E, .vshl), (0x00F, .vshr),
       (0x010, .vsra), (0x013, .vadds), (0x014, .vsubs)].all fun p =>
       reads .va (w p.1 0x2 (fv 7)) (p.2 (o .i16 (v 7)))) &&
     ([(0x008, Instr.vabs), (0x009, .vneg), (0x011, .vpopc), (0x012, .vclz)].all fun p =>
       reads .va (w p.1 0x3 0) (p.2 (o .i32 vz))) &&
     ([(0x040, Instr.vfadd), (0x041, .vfsub), (0x042, .vfmul), (0x043, .vfma), (0x044, .vfms), (0x045, .vfmin),
       (0x046, .vfmax)].all fun p => reads .va (w p.1 0xA (fv 7)) (p.2 (o .bf16 (v 7)))) &&
     ([(0x047, Instr.vfabs), (0x048, .vfneg)].all fun p => reads .va (w p.1 0xB 0) (p.2 (o .f16 vz))) &&
     ([(0x062, Instr.vsel), (0x0C0, .vperm), (0x0C5, .vzip), (0x0C6, .vunzip)].all fun p =>
       reads .va (w p.1 0xE (fv 7)) (p.2 (o .mxf4 (v 7)))) &&
     reads .va 0x00887010E0000142 (.vchk ⟨.va, 0, v 34, v 2, vz, .i4, false⟩)) = true := by decide +kernel

/-- V.U: PM 61:56, NS 55, CLS 54:51, RM 50:48, TYPE2 47:44. -/
theorem test_decode_v_unary :
    let w (op pm ns cls rm ty2 a ty : Nat) : Word :=
      fields [(56, pm), (55, ns), (51, cls), (48, rm), (44, ty2), (29, a), (14, fv 8), (10, ty), (0, op)]
    let o (ns : Bool) (cls : BitVec 4) (rm : BitVec 3) (ty2 : ETy) (a : VSpan) (ty : ETy) : FVU :=
      ⟨.va, 33, ns, cls, rm, ty2, a, v 8, ty, false⟩
    (reads .va (w 0x063 33 0 0 0 0 (fv 9) 0xC) (.vclass (o false 0 0 .i4 (v 9) .f32)) &&
     reads .va (w 0x080 33 1 9 5 0x9 (fv 9) 0x8) (.vcvt (o true 9 5 .e5m2 (v 9) .e4m3)) &&
     reads .va (w 0x081 33 0 0 0 0x5 (fv 9) 0x6) (.vwiden (o false 0 0 .n8 (v 9) .n16)) &&
     reads .va 0x000030A0E0A1C482 (.vnarrow ⟨.va, 0, false, 0, 0, .i32, v 20, v 10, .i8, false⟩) &&
     reads .va 0x008030A0E0A1C482 (.vnarrow ⟨.va, 0, true, 0, 0, .i32, v 20, v 10, .i8, false⟩) &&
     reads .va (w 0x083 0 0 0 3 0xC (fv 9) 0xD) (.vmxq { o false 0 3 .f32 (v 9) .mxi8 with pm := 0 }) &&
     reads .va (w 0x084 33 0 0 2 0xE (fv 9) 0xA) (.vmxd (o false 0 2 .mxf4 (v 9) .bf16)) &&
     reads .va (w 0x0A0 33 0 0 0 0 (fv 9) 0x4) (.vrsum (o false 0 0 .i4 (v 9) .n4)) &&
     reads .va (w 0x0A1 33 0 0 6 0xC (fv 9) 0xA) (.vrfsum (o false 0 6 .f32 (v 9) .bf16)) &&
     ([(0x0A2, Instr.vrmax), (0x0A3, .vrmin)].all fun p =>
       reads .va (w p.1 33 0 0 0 0 (fv 9) 0x9) (p.2 (o false 0 0 .i4 (v 9) .e5m2))) &&
     ([(0x0E0, Instr.vexp2), (0x0E1, .vlog2), (0x0E2, .vrcp), (0x0E3, .vrsqrt), (0x0E4, .vsqrt), (0x0E5, .vtanh),
       (0x0E6, .vsigm), (0x0E7, .vsinp), (0x0E8, .vcosp)].all fun p =>
       reads .va (w p.1 33 0 9 5 0 (fv 9) 0xB) (p.2 (o false 9 5 .i4 (v 9) .f16))) &&
     reads .va (w 0x140 33 0 0 0 0 (fv 9) 0xE) (.vmov (o false 0 0 .i4 (v 9) .mxf4)) &&
     reads .va (w 0x143 33 0 0 0 0 0 0x2) (.viota (o false 0 0 .i4 vz .i16))) = true := by decide +kernel

theorem test_decode_v_rest :
    let c (op ty : Nat) : Word :=
      fields [(59, 17), (44, fv 7), (29, fv 9), (26, 5), (14, 33), (10, ty), (0, op)]
    let i (op imm a : Nat) : Word := fields [(44, imm), (29, a), (14, fv 8), (10, 2), (0, op)]
    let fi (imm : BitVec 20) (a : VSpan) : FVI := ⟨.va, imm, a, v 8, .i16, false, none⟩
    let m (op : Nat) : Word := fields [(48, 0x8040), (42, 33), (29, fx 3), (14, fv 8), (10, 3), (0, op)]
    let g (op : Nat) : Word := fields [(48, fv 7), (42, 33), (29, fx 3), (14, fv 8), (0, op)]
    let p (op sd pb pd : Nat) : Word := fields [(32, sd), (26, pb), (20, 34), (14, pd), (0, op)]
    (reads .vb (c 0x060 1) (.vcmp ⟨.vb, 17, v 7, v 9, 5, 33, .i8, false⟩) &&
     reads .vb (c 0x061 0xC) (.vfcmp ⟨.vb, 17, v 7, v 9, 5, 33, .f32, false⟩) &&
     ([(0x018, Instr.vshlImm), (0x019, .vshrImm), (0x01A, .vsraImm)].all fun q =>
       reads .va (i q.1 63 (fv 9)) (q.2 (fi 63 (v 9)))) &&
     ([(0x0C1, Instr.vslide), (0x0C2, .vbcast), (0x0C3, .vextr), (0x0C4, .vins)].all fun q =>
       reads .va (i q.1 0x80001 (fv 9)) (q.2 (fi 0x80001 (v 9)))) &&
     reads .va (i 0x141 0x80001 0) (.vli (fi 0x80001 vz)) &&
     reads .va 0x00021048E081F0C7 (.vcxs ⟨.va, false, 2, 1, v 9, v 8, .f32, false⟩) &&
     reads .va 0x00121048E081F0C7 (.vcxs ⟨.va, true, 2, 1, v 9, v 8, .f32, false⟩) &&
     reads .va (m 0x120) (.vld ⟨.va, 0x8040, 33, x 3, v 8, .i32, false⟩) &&
     reads .va (m 0x121) (.vst ⟨.va, 0x8040, 33, x 3, v 8, .i32, false⟩) &&
     reads .va (g 0x122) (.vldx ⟨.va, v 7, 33, x 3, v 8, .i4, false⟩) &&
     reads .va (g 0x123) (.vstx ⟨.va, v 7, 33, x 3, v 8, .i4, false⟩) &&
     reads .va (fields [(48, fx 4), (42, 33), (29, fx 3), (14, fv 8), (10, 0xA), (0, 0x124)])
       (.vlds ⟨.va, x 4, 33, x 3, v 8, .bf16, false⟩) &&
     ([(0x100, Instr.pand), (0x101, .por), (0x102, .pxor)].all fun q =>
       reads .va (p q.1 0 35 33) (q.2 ⟨.va, z, 35, 34, 33, .i4, false⟩)) &&
     reads .va (p 0x103 0 0 33) (.pnot ⟨.va, z, 0, 34, 33, .i4, false⟩) &&
     ([(0x104, Instr.pcnt), (0x105, .pfirst)].all fun q =>
       reads .va (p q.1 (fx 3) 35 0) (q.2 ⟨.va, x 3, 35, 34, 0, .i4, false⟩))) = true := by decide +kernel

/-- The worked words of R84 and R91, and the other rows of the M-slot map. -/
theorem test_decode_m :
    let mc (op fn mac ct sa imm : Nat) : Word := fields [(39, imm), (26, sa), (21, ct), (13, mac), (9, fn), (0, op)]
    let f (imm : BitVec 25) (sa : SSpan) (ct : BitVec 5) (mac : BitVec 8) (fn : BitVec 4) : FMC :=
      ⟨imm, sa, ct, mac, fn, none⟩
    let ms (op ty : Nat) : Word := fields [(39, 0x81), (37, 2), (36, 1), (28, 0xC1), (13, fv 8), (9, ty), (0, op)]
    let s (ty : ETy) : FMS := ⟨0x81, 2, true, 0xC1, v 8, ty⟩
    (reads .m 0x0000000000000201 (.mmode (f 0 z 0 0 1)) &&
     reads .m 0x000000307B461A02 (.mload ⟨0, x 6, 1, true, 70, .mxi8⟩) &&
     reads .m (fields [(40, 6), (27, fx 4), (25, 3), (16, 255), (9, 5), (0, 2)]) (.mload ⟨6, x 4, 3, false, 255, .n8⟩) &&
     reads .m (mc 0x003 1 255 0 (fx 4) 7) (.mpageRd (f 7 (x 4) 0 255 1)) &&
     reads .m (mc 0x003 2 255 0 0 7) (.mpageClr (f 7 z 0 255 2)) &&
     reads .m 0x000000F040E01A04 (.mlatch ⟨false, 0, 0, x 0, v 8, 0, 0, .mxi8⟩) &&
     reads .m 0x0000000302464005 (.mdot ⟨3, 0, 1, false, 70, 2, .i4⟩) &&
     reads .m 0x000000032046BA06 (.mcoll ⟨3, 4, 0, false, 70, 5, .mxi8⟩) &&
     reads .m (fields [(52, 9), (49, 5), (36, fx 4), (16, 17), (13, 6), (9, 0xE), (0, 7)])
       (.mchain ⟨false, 9, 5, x 4, vz, 17, 6, .mxf4⟩) &&
     reads .m (fields [(36, fx 4), (16, 17), (9, 0xA), (0, 8)]) (.moutl ⟨false, 0, 0, x 4, vz, 17, 0, .bf16⟩) &&
     reads .m 0x0000018000800009 (.macz (f 3 z 4 0 0)) &&
     reads .m 0x000050F800E4180A (.macrd ⟨false, 0, 0, x 5, v 256, 4, 0, .f32⟩) &&
     reads .m (fields [(49, 1), (36, fx 4), (21, fv 8), (16, 17), (9, 3), (0, 0xB)])
       (.macwr ⟨false, 0, 1, x 4, v 8, 17, 0, .i32⟩) &&
     reads .m (ms 0xC 0) (.mread (s .i4)) && reads .m (ms 0xD 0) (.mwrite (s .i4)) && reads .m (ms 0xE 2) (.mrmw (s .i16)) &&
     reads .m (mc 0x00F 0 0 0 (fx 4) 0) (.mmask (f 0 (x 4) 0 0 0)) && reads .m (mc 0x00F 1 0 0 0 0) (.mmaskClr (f 0 z 0 0 1)) &&
     reads .m (mc 0x010 0 0 30 0 0x1FFFFFF) (.mwideOn (f 0x1FFFFFF z 30 0 0)) &&
     reads .m (mc 0x010 1 0 30 0 0) (.mwideOff (f 0 z 30 0 1)) &&
     reads .m (mc 0x011 2 0 0 (fx 4) 0) (.mrange (f 0 (x 4) 0 0 2)) &&
     reads .m (mc 0x012 0 0 0 0 0x81) (.lwake (f 0x81 z 0 0 0)) && reads .m (mc 0x013 0 0 0 0 0x81) (.lsleep (f 0x81 z 0 0 0)) &&
     reads .m (mc 0x014 0 255 0 0 7) (.mscrub (f 7 z 0 255 0))) = true := by decide +kernel

/-- Format C: EVICT 59:57, SCOPE 56:54, SC 51:39, SB 38:26, SA 25:13, FN 12:9; FN chooses among forms of one OP. -/
theorem test_decode_c :
    let w (op fn ev sc c b a : Nat) : Word := fields [(57, ev), (54, sc), (39, c), (26, b), (13, a), (9, fn), (0, op)]
    let f (fn : BitVec 4) (ev : BitVec 3) (sc : Scope) (c b a : SSpan) : FC := ⟨.b, ev, sc, .relaxed, c, b, a, fn, none⟩
    let abc (op fn : Nat) : Word := w op fn 6 3 (fx 5) (fx 4) (fx 3)
    let o (fn : BitVec 4) : FC := f fn 6 .domain (x 5) (x 4) (x 3)
    let ab (fn : BitVec 4) : FC := f fn 0 .core z (x 4) (x 3)
    let a (fn : BitVec 4) : FC := f fn 0 .core z z (x 3)
    let n (fn : BitVec 4) : FC := f fn 0 .core z z z
    (reads .ca 0x008287A83DA1E201 (.cpy { f 1 0 .chip (x 5) (x 10) (x 13) with ch := .a }) &&
     ([(0x001, 2, Instr.cpy), (0x003, 0, .cwin), (0x008, 0, .tidld), (0x00F, 10, .cred), (0x010, 0, .cbcst),
       (0x014, 0, .cmig)].all fun p => reads .cb (abc p.1 p.2.1) (p.2.2 (o (BitVec.ofNat 4 p.2.1)))) &&
     ([(0x007, 0, Instr.tstate), (0x007, 1, .tstateClaim), (0x007, 2, .tstateRelease), (0x009, 1, .tidrd),
       (0x00B, 0, .binit), (0x00D, 0, .bexp), (0x00E, 7, .bwatch), (0x00E, 15, .bwatchOff), (0x013, 0, .cinv),
       (0x019, 1, .glaunch), (0x018, 0, .gload), (0x011, 1, .cpref), (0x012, 0, .cflush)].all fun p =>
       reads .cb (w p.1 p.2.1 0 0 0 (fx 4) (fx 3)) (p.2.2 (ab (BitVec.ofNat 4 p.2.1)))) &&
     reads .cb (w 0x00C 0 0 0 (fx 5) (fx 4) (fx 3)) (.barv (f 0 0 .core (x 5) (x 4) (x 3))) &&
     ([(0x004, 0, Instr.cadv), (0x005, 3, .town), (0x006, 0, .ttake), (0x00A, 1, .tidinv), (0x018, 1, .gloadFree)].all
       fun p => reads .cb (w p.1 p.2.1 0 0 0 0 (fx 3)) (p.2.2 (a (BitVec.ofNat 4 p.2.1)))) &&
     ([(0x002, 0, Instr.cgo), (0x002, 1, .cgoClr), (0x004, 1, .cadvEnd)].all fun p =>
       reads .cb (w p.1 p.2.1 0 0 0 0 0) (p.2.2 (n (BitVec.ofNat 4 p.2.1))))) = true := by decide +kernel

/-- The worked words of the Q slot, and the other rows of its map. -/
theorem test_decode_q :
    let r (op b a : Nat) : Word := fields [(12, b), (9, a), (6, 7), (0, op)]
    let o (qb qa : BitVec 3) : FQR := ⟨0, 0, 0, qb, qa, 7⟩
    (reads .q (fields [(22, 3), (9, 5), (6, 7), (0, 1)]) (.qlen ⟨3, 0, 0, 0, 5, 7⟩) &&
     reads .q 0x008943C2 (.qseedRamp ⟨1, x 5⟩) && reads .q 0x000943C2 (.qseedLfsr ⟨1, x 5⟩) &&
     reads .q 0x0000C6C3 (.qgen ⟨0, ⟨12, 3⟩, 3⟩) && reads .q 0x00CC0B84 (.qregen ⟨3, 3, 0, 0, 5, 6⟩) &&
     reads .q 0x00003B85 (.qmul ⟨0, 0, 0, 3, 5, 6⟩) &&
     ([(0x06, Instr.qmin), (0x07, .qmax), (0x08, .qabsd)].all fun p => reads .q (r p.1 4 5) (p.2 (o 4 5))) &&
     reads .q (r 0x09 0 5) (.qnot (o 0 5)) && reads .q (fields [(15, 6), (12, 4), (9, 5), (6, 7), (0, 0x0A)])
       (.qmuxa ⟨0, 0, 6, 4, 5, 7⟩) &&
     reads .q 0x0020898B (.qcnt ⟨0, ⟨520, 4⟩, 6⟩) && reads .q 0x0002604C (.qcmp ⟨4, 6, 1⟩) &&
     reads .q (r 0x0D 0 5) (.qmov (o 0 5)) && reads .q (fields [(22, 2), (6, 7), (0, 0x0E)]) (.qclr ⟨2, 0, 0, 0, 0, 7⟩))
      = true := by decide +kernel

/-- Words that the spec refuses: unassigned opcodes (0x03) and fields that must be zero (0x04). -/
theorem test_decode_refused :
    (refused .b 0 none 3 && refused .b 0x15 none 3 && refused .s 0x057 none 3 && refused .va 0x144 none 3 &&
     refused .m 0x015 none 3 && refused .ca 0x017 none 3 && refused .q 0x0F none 3 &&
     refused .q 0x00403B85 none 4 && refused .b 0x00A8000F none 4 &&
     refused .s (fields [(40, fx 2), (27, fx 1), (14, fx 3), (10, 3), (0, 1)]) none 3 &&
     refused .s (fields [(63, 1), (40, fx 2), (27, fx 1), (14, fx 3), (0, 1)]) none 4 &&
     refused .s 0x01690C187A03C444 none 4 &&
     refused .va (fields [(44, fv 7), (29, fv 9), (14, fv 8), (10, 0xF), (0, 1)]) none 3) = true := by decide +kernel

/-! ### Ill-formed terms: one for each check -/

/-- FN, COND, TYPE and type pairs that no entry lists. -/
theorem test_ill_formed_unlisted :
    let r (fn : BitVec 4) : FSR := ⟨z, x 1, x 3, fn, false⟩
    let i (fn : BitVec 4) : FSI := ⟨0, x 1, x 3, fn, false, none⟩
    let m (fn : BitVec 4) : FSM := ⟨0, 0, .core, .relaxed, x 1, x 3, fn, false, none⟩
    let a (fn : BitVec 4) : FSA := ⟨0, .core, .relaxed, x 9, x 3, x 8, fn⟩
    let vr (t : ETy) : FVR := ⟨.va, 0, vz, v 1, v 2, t, false⟩
    let vu (t u : ETy) : FVU := ⟨.va, 0, false, 0, 0, u, v 1, v 2, t, false⟩
    let mc (fn : BitVec 4) : FMC := ⟨0, z, 0, 0, fn, none⟩
    let mv (t : ETy) : FMV := ⟨false, 0, 0, x 1, v 8, 0, 0, t⟩
    let c (fn : BitVec 4) : FC := ⟨.a, 0, .core, .relaxed, z, z, z, fn, none⟩
    ([Instr.add (r 3), .mul (r 1), .movs (r 2), .hchk (r 3), .cmp ⟨z, z, 0, 7⟩, .addi (i 1), .exts (i 2), .inss (i 1),
      .lea (i 7), .ld (m 1), .st (m 1), .ldg (m 8), .stg (m 4), .amo (a 9), .cas (a 1), .vadd (vr .f32), .vabs (vr .n8),
      .vfadd (vr .i8), .vcmp ⟨.va, 0, v 1, v 2, 7, 0, .i8, false⟩, .vfcmp ⟨.va, 0, v 1, v 2, 0, 0, .i8, false⟩,
      .vclass (vu .i8 .i4), .vcvt (vu .f32 .f16), .vwiden (vu .i8 .i16), .vnarrow (vu .i32 .i8), .vmxq (vu .mxf4 .f32),
      .vmxd (vu .f32 .mxf4), .vrsum (vu .f32 .i4), .vrfsum (vu .bf16 .f16), .vrmax (vu .mxi8 .i4), .vexp2 (vu .i32 .i4),
      .viota (vu .f32 .i4), .vshlImm ⟨.va, 0, v 1, v 2, .f32, false, none⟩, .vcxs ⟨.va, false, 2, 1, v 1, v 2, .mxi8, false⟩,
      .mmode (mc 2), .mpageRd (mc 3), .mload ⟨0, x 1, 0, false, 0, .i8⟩, .mlatch (mv .i8), .mcoll ⟨0, 0, 0, false, 0, 0, .i8⟩,
      .mchain (mv .f32), .moutl (mv .f16), .macz (mc 1), .macrd (mv .n8), .macwr (mv .mxi8), .mrmw ⟨0, 0, false, 0, v 8, .n8⟩,
      .mmask (mc 2), .mwideOn (mc 2), .mrange (mc 3), .cpy (c 3), .cgo (c 2), .cwin (c 1), .town (c 0), .ttake (c 1), .tstate (c 3),
      .tidld (c 1), .tidrd (c 2), .tidinv (c 2), .cred (c 3), .cbcst (c 1), .cpref (c 2), .glaunch (c 2), .pand ⟨.va, z, 1, 1, 1, .i8, false⟩].all fun j =>
        fieldFault j == some 3) = true := by decide +kernel

/-- Unused fields that are not zero, and values that R77, R79, R82 and the entries call faulting. -/
theorem test_ill_formed_reserved :
    let r : FSR := ⟨x 2, x 1, x 3, 0, false⟩
    let m (o : Ord) (d : Bool) : FSM := ⟨0, 0, .core, o, x 1, x 3, 0, d, none⟩
    let sc (src dst : SSpan) : FSC := ⟨0x40, src, dst, false⟩
    let vr : FVR := ⟨.va, 1, v 3, v 1, v 2, .i8, true⟩
    let vu (t u : ETy) (rm : BitVec 3) (cls : BitVec 4) (ns : Bool) : FVU := ⟨.va, 1, ns, cls, rm, u, v 1, v 2, t, false⟩
    let vp (sd : SSpan) (pd pb : BitVec 6) (t : ETy) : FVP := ⟨.va, sd, pb, 1, pd, t, false⟩
    let mc (imm : BitVec 25) (sa : SSpan) (ct : BitVec 5) (mac : BitVec 8) (fn : BitVec 4) : FMC := ⟨imm, sa, ct, mac, fn, none⟩
    let mv (t : ETy) (rm : BitVec 3) (vs : VSpan) (at' : BitVec 5) (l : BitVec 3) : FMV := ⟨false, 0, rm, x 1, vs, at', l, t⟩
    let c (a b k : SSpan) (s : Scope) (e : BitVec 3) (o : Ord) (fn : BitVec 4) : FC := ⟨.a, e, s, o, k, b, a, fn, none⟩
    let q (len : BitVec 2) (cls : BitVec 4) (qs qb qa : BitVec 3) : FQR := ⟨len, cls, qs, qb, qa, 1⟩
    ([Instr.br ⟨1, false, 0, some 4⟩, .jmp ⟨0, some 2⟩, .call ⟨1, some 4⟩, .rfcl 0x1E, .lend 0 5, .clz r, .popc r, .movs r,
      .hchk r, .exts ⟨0x1000, x 1, x 3, 0, false, none⟩, .inss ⟨0x1000, x 1, x 3, 0, false, none⟩, .ld (m .rel false),
      .ldg (m .acqRel false), .st (m .acq false), .stg (m .relaxed true), .amo ⟨0, .core, .relaxed, ⟨0, 11⟩, x 3, x 8, 0⟩,
      .cas ⟨0, .core, .relaxed, ⟨0, 11⟩, x 3, x 8, 0⟩, .csrr (sc (x 1) (x 2)), .csrw (sc (x 1) (x 2)), .csrs (sc (x 1) (x 2)),
      .csrc (sc (x 1) (x 2)), .engw (sc (x 1) z), .engr (sc z (x 1)), .vabs vr, .vfabs { vr with ty := .f32 }, .vchk vr,
      .vclass (vu .f32 .i8 0 0 false), .vcvt (vu .f32 .i32 7 0 false), .vcvt (vu .f32 .i32 0 1 false),
      .vcvt (vu .f32 .i32 0 0 true), .vwiden (vu .i16 .i8 1 0 false), .vnarrow (vu .bf16 .f32 0 0 true),
      .vmxq (vu .mxi8 .f32 0 0 false), .vmxd (vu .f32 .mxi8 0 0 true), .vrfsum (vu .f32 .f32 5 0 false),
      .vsqrt (vu .f16 .i4 4 0 false), .vmov (vu .i8 .i4 1 0 false), .viota (vu .i8 .i4 0 0 false),
      .vshlImm ⟨.va, 64, v 1, v 2, .i8, false, none⟩, .vslide ⟨.va, 1, v 1, v 2, .i8, false, some 1⟩,
      .vli ⟨.va, 1, v 1, v 2, .i8, false, none⟩, .pand (vp (x 1) 1 1 .i4), .pnot (vp z 1 1 .i4),
      .pcnt (vp (x 1) 1 1 .i4), .pfirst (vp (x 1) 1 1 .i4), .vst ⟨.va, 0, 0, x 1, v 1, .i8, true⟩,
      .vldx ⟨.va, v 1, 0, x 1, v 2, .i8, false⟩, .vstx ⟨.va, v 1, 0, x 1, v 2, .i4, true⟩,
      .mmode (mc 1 z 0 0 0), .mpageRd (mc 8 (x 1) 0 0 0), .mpageClr (mc 0 (x 1) 0 0 2), .mlatch (mv .mxi8 0 ⟨1, 7⟩ 0 0),
      .mdot ⟨0, 1, 0, false, 0, 0, .i4⟩, .mcoll ⟨0, 0, 1, false, 0, 0, .mxi8⟩, .mchain (mv .mxi8 0 (v 1) 0 0),
      .moutl (mv .bf16 0 vz 0 1), .macz (mc 32 z 0 0 0), .macrd (mv .f32 7 (v 1) 0 0), .macwr (mv .f32 1 (v 1) 0 0),
      .mread ⟨0, 0, false, 0, v 8, .i8⟩, .mwrite ⟨0, 0, false, 0, v 8, .i8⟩, .mmask (mc 1 (x 1) 0 0 0),
      .mmaskClr (mc 0 (x 1) 0 0 1), .mwideOn (mc 0 z 0 1 0), .mwideOff (mc 1 z 0 0 1), .mrange (mc 0 (x 1) 1 0 0),
      .lwake (mc 256 z 0 0 0), .lsleep (mc 0 z 0 0 1), .mscrub (mc 0 z 1 0 0),
      .cpy (c (x 1) (x 2) (x 3) .core 0 .acq 0), .cgo (c (x 1) z z .core 0 .relaxed 0), .cgoClr (c z (x 1) z .core 0 .relaxed 1),
      .cadv (c (x 1) z z .node 0 .relaxed 0), .cadvEnd (c z z z .core 1 .relaxed 1), .town (c (x 1) (x 2) z .core 0 .relaxed 1),
      .ttake (c (x 1) z (x 2) .core 0 .relaxed 0), .tstate (c (x 1) (x 2) (x 3) .core 0 .relaxed 0),
      .tidrd (c (x 1) (x 2) (x 3) .core 0 .relaxed 1), .tidinv (c (x 1) (x 2) z .core 0 .relaxed 0),
      .binit (c (x 1) (x 2) z .core 1 .relaxed 0), .barv (c (x 1) (x 2) (x 3) .node 0 .relaxed 0),
      .bexp (c (x 1) (x 2) (x 3) .core 0 .relaxed 0), .bwatch (c (x 1) (x 2) (x 3) .core 0 .relaxed 0),
      .cflush (c (x 1) (x 2) z .core 1 .relaxed 0), .cinv (c (x 1) (x 2) z .node 0 .relaxed 0),
      .gload (c (x 1) (x 2) z .node 0 .relaxed 0), .gloadFree (c (x 1) (x 2) z .core 0 .relaxed 1),
      .glaunch (c (x 1) (x 2) z .core 0 .relaxed 0), .qlen (q 0 1 0 0 1), .qregen (q 0 0 1 0 1), .qmul (q 1 0 0 2 1),
      .qnot (q 0 0 0 2 1), .qmuxa (q 0 1 3 2 1), .qcnt ⟨1, v 1, 1⟩, .qmov (q 1 0 0 0 1), .qclr (q 1 0 0 0 1)].all fun j =>
        fieldFault j == some 4) = true := by decide +kernel

/-! ### Small states -/

/-- A core that runs, in the group whose bundle is at 0x1000. -/
def core0 : Core :=
  { Reset.core 0 .a with
    run := .running, kilnUnits := 4096,
    ctx := { Reset.ctx with grp := 1, pcb := 0x1000, groupPc := 0x1000, fall := 0x1008, next := 0x1008 } }

def withCore (c : Core) : State := { State.reset with core := c }

/-- Registers x1 = a, x2 = b: x<n> starts at slice 16n. -/
def regs2 (a b : Nat) : Core :=
  { core0 with regs := { core0.regs with scalar := BitVec.ofNat 2048 (a * 2 ^ 64 + b * 2 ^ 128) } }

/-- Registers x1, x2 and x3 = a, b and c. -/
def regs3 (a b c : Nat) : Core :=
  { core0 with regs := { core0.regs with scalar := BitVec.ofNat 2048 (a * 2 ^ 64 + b * 2 ^ 128 + c * 2 ^ 192) } }

/-- The same core in system mode. -/
def sysMode (s : State) : State := { s with core := { s.core with mode := .sys } }

/-- A page at virtual 0x4000, readable and writable from node mode, at physical 0x8000 (R50). -/
def paged (s : State) : State := { s with xlat := { s.xlat with tlb := [⟨0, 0x4000, 0x8000, 14, 0x2C⟩] } }

/-- The core bound to position 0 of a resident node in node slot 3, a member of group 255. -/
def bound (s : State) : State :=
  { s with
    core := { s.core with binding := some ⟨3, 0, 1, 1, 0, false, 0, false, false, false, 0, 0⟩ }
    pool := { s.pool with
      nodes := [(3, { nodeDefault with desc := BitVec.ofNat 512 (2 ^ 75), st := .running, live := [(0, 0)] })]
      groups := [(255, { groupDefault with held := true, tpend := 1, map := 1 })] } }

theorem test_reset_memory_wf : Memory.wf State.reset.mem = true := by decide

/-! ### States that meet the hypotheses of the statements -/

theorem witness_ScalarIntegerResults :
    let s := withCore (regs2 7 5)
    let o (fn : BitVec 4) : FSR := ⟨⟨32, 15⟩, ⟨16, 0⟩, ⟨496, 15⟩, fn, false⟩
    clear s = true ∧ scalarOk s false [(o 0).dst, (o 0).src1, (o 0).src2] = true ∧
    wellFormed (.add (o 2)) = true ∧ wellFormed (.sub (o 1)) = true ∧
    ([Instr.mul, .mulh, .mulhn, .and, .or, .xor, .andn, .min, .max, .minn, .maxn].all fun i =>
      wellFormed (i (o 0))) = true := by decide +kernel

theorem witness_ScalarShiftCountResults :
    let s := withCore (regs2 0x8000000000000001 63)
    let o : FSR := ⟨z, x 1, x 1, 0, true⟩
    clear s = true ∧ scalarOk s true [o.dst, o.src1, o.src2] = true ∧
    ([Instr.shl, .shr, .sra, .rotl, .popc, .clz, .ctz].all fun i =>
      wellFormed (i { o with d := false })) = true ∧
    ([Instr.shl, .shr, .sra, .rotl].all fun i => wellFormed (i o)) = true := by decide +kernel

/-- A divisor other than zero, zero without DZTRAP, and zero under DZTRAP. -/
theorem witness_ScalarDivision :
    let o : FSR := ⟨x 2, x 1, x 3, 0, false⟩
    let dz (c : Core) : Core := { c with csr := { c.csr with cctl := 4 } }
    let val (s : State) : Int := valS s.view false o.src2
    let ok (s : State) : Prop := clear s = true ∧ scalarOk s o.d [o.dst, o.src1, o.src2] = true
    ok (withCore (regs2 7 2)) ∧ val (withCore (regs2 7 2)) = 2 ∧
    ok (withCore (regs2 7 0)) ∧ val (withCore (regs2 7 0)) = 0 ∧
    (withCore (regs2 7 0)).view.csr.cctl.getLsbD 2 = false ∧
    ok (withCore (dz (regs2 7 0))) ∧ val (withCore (dz (regs2 7 0))) = 0 ∧
    (withCore (dz (regs2 7 0))).view.csr.cctl.getLsbD 2 = true ∧
    wellFormed (.div o) = true ∧ wellFormed (.rem o) = true ∧ wellFormed (.divn o) = true ∧
    wellFormed (.remn o) = true := by decide +kernel

theorem witness_ScalarCompare :
    let s := withCore (regs2 7 7)
    let o (fn : BitVec 4) : FSCmp := ⟨x 2, x 1, 63, fn⟩
    clear s = true ∧ scalarOk s false [(o 0).src1, (o 0).src2] = true ∧
    ([0, 1, 2, 3, 4, 5, 6].all fun f => wellFormed (.cmp (o f))) = true ∧
    valS s.view false (o 0).src1 = valS s.view false (o 0).src2 := by decide +kernel

/-- A condition that is not assigned, a bit of 26:20, and a word in order. -/
theorem witness_ScalarCompare_words :
    let w (fn b : Nat) : Word := fields [(40, fx 5), (27, fx 4), (b, 1), (14, 3), (10, fn), (0, 0x24)]
    ([w 7 14, w 15 14, w 6 20, w 0 26, w 6 9, w 6 14].all fun u => u.extractLsb' 0 9 == 0x024#9) = true ∧
    (w 7 14).extractLsb' 10 4 = 7#4 ∧ (w 6 20).extractLsb' 20 7 ≠ 0 ∧ (w 0 26).extractLsb' 20 7 ≠ 0 ∧
    (w 6 9).getLsbD 9 = true ∧ (w 6 14).getLsbD 9 = false ∧ (w 6 14).extractLsb' 20 7 = 0 ∧
    (w 6 14).extractLsb' 53 11 = 0 := by decide +kernel

theorem witness_ScalarMoveResults :
    let s := withCore (regs2 0x1234 5)
    let i (fn : BitVec 4) (imm : BitVec 24) : FSI := ⟨imm, x 1, x 2, fn, false, none⟩
    clear s = true ∧ scalarOk s false [x 1, x 2, x 3] = true ∧
    wellFormed (.sel ⟨63, x 1, x 2, x 3, false⟩) = true ∧ wellFormed (.li ⟨5, x 2, false, none⟩) = true ∧
    wellFormed (.addi (i 0 7)) = true ∧ wellFormed (.movs ⟨z, x 1, x 2, 1, false⟩) = true ∧
    wellFormed (.exts (i 1 0xFFF)) = true ∧ wellFormed (.inss (i 0 0x1C4)) = true ∧
    wellFormed (.lea (i 3 8)) = true := by decide +kernel

/-- The last bytes of the scratchpad window and of the accumulators, and a page of memory. -/
theorem witness_ScalarLoads :
    let s (p : Nat) := paged (withCore (regs2 p 5))
    let o (fn : BitVec 4) (off : BitVec 16) : FSM := ⟨off, 0, .core, .relaxed, x 1, x 2, fn, false, none⟩
    let ok (p : Nat) (off : BitVec 16) (n : Nat) (here : Bool) : Prop :=
      let a : Word := BitVec.ofNat 64 (valZ (s p).view false (x 1)) + (o 0 off).long
      clear (s p) = true ∧ scalarOk (s p) false [x 1, x 2] = true ∧ accessOk (s p) .read a n = true ∧
      (access (s p) .read a n).place.isLocal = here ∧ localEcc (s p).core (access (s p) .read a n) n = false
    ([0, 1, 2, 3, 4, 5, 6, 7].all fun f => wellFormed (.ldg (o f 0))) = true ∧ wellFormed (.ld (o 0 0)) = true ∧
    ok 0xC000000000100000 0xFFF8 8 true ∧ ok 0xD00000000001FFFF 0 1 true ∧ ok 0x4000 0x3FF8 8 false := by
  decide +kernel

theorem witness_ScalarStores :
    let s (p : Nat) := paged (withCore (regs2 p 5))
    let o (fn : BitVec 4) (off : BitVec 16) : FSM := ⟨off, 0, .core, .relaxed, x 1, x 2, fn, false, none⟩
    let ok (p : Nat) (off : BitVec 16) (here : Bool) : Prop :=
      let a : Word := BitVec.ofNat 64 (valZ (s p).view false (x 1)) + (o 0 off).long
      let bytes := leBytes 8 (valZ (s p).view false (x 2))
      clear (s p) = true ∧ scalarOk (s p) false [x 1, x 2] = true ∧ accessOk (s p) .write a 8 = true ∧
      (access (s p) .write a 8).place.isLocal = here ∧
      storeFaults (s p) (access (s p) .write a 8) a bytes = []
    ([0, 1, 2, 3].all fun f => wellFormed (.stg (o f 0))) = true ∧ wellFormed (.st (o 0 0)) = true ∧
    ok 0xC000000000100000 0xFFF8 true ∧ ok 0xD00000000001FFF8 0 true ∧ ok 0x4000 0x3FF8 false := by
  decide +kernel

theorem witness_ScalarAtomics :
    let s (p : Nat) := paged (withCore (regs2 p 5))
    let o (fn : BitVec 4) (src : SSpan) : FSA := ⟨0, .core, .acqRel, src, x 1, x 3, fn⟩
    let ok (p n : Nat) (src : SSpan) : Prop := clear (s p) = true ∧
      scalarOk (s p) false [x 1, src, x 3] = true ∧
      accessOk (s p) .atomic (BitVec.ofNat 64 (valZ (s p).view false (x 1))) n = true
    ([0, 1, 2, 3, 4, 5, 6, 7, 8].all fun f => wellFormed (.amo (o f (x 2)))) = true ∧
    wellFormed (.cas (o 0 ⟨32, 7⟩)) = true ∧ ok 0x7FF8 8 (x 2) ∧ ok 0x7FFC 4 ⟨32, 7⟩ ∧
    ok 0xC0000000000FFFF8 8 (x 2) := by decide +kernel

/-- Registers below 0x100 in node mode and from 0x100 to 0x14B in system mode; engine registers 0 and 63. -/
theorem witness_ScalarRegisterAccess :
    let s := withCore (regs2 0 5)
    let o (n : BitVec 12) (src dst : SSpan) : FSC := ⟨n, src, dst, false⟩
    clear s = true ∧ clear (sysMode s) = true ∧ s.core.mode = .node ∧ (sysMode s).core.mode = .sys ∧
    scalarOk s false [x 1, x 2] = true ∧ scalarOk (sysMode s) false [x 1] = true ∧
    (s.view.csrRead 9).isSome = true ∧ ((sysMode s).view.csrRead 0x100).isSome = true ∧
    ((sysMode s).view.csrRead 0x14D).isSome = true ∧
    ([0, 0x14B].all fun n => ((sysMode s).view.csrRead n).isSome && !csrReadOnly n) = true ∧
    wellFormed (.csrr (o 0x14D z (x 2))) = true ∧ wellFormed (.csrw (o 0 (x 2) z)) = true ∧
    wellFormed (.csrs (o 0 (x 2) z)) = true ∧ wellFormed (.csrc (o 0 (x 2) z)) = true ∧
    wellFormed (.engr (o 0 z (x 2))) = true ∧ wellFormed (.engr (o 63 z (x 2))) = true ∧
    wellFormed (.engw (o 32 (x 2) z)) = true ∧ wellFormed (.engw (o 63 (x 2) z)) = true ∧
    ([0, 1, 2].all fun f => wellFormed (.hchk ⟨z, x 1, x 2, f, false⟩)) = true := by decide +kernel

theorem witness_Branches :
    let s := withCore (regs2 0x2000 0)
    clear s = true ∧ scalarOk s false [x 1, x 2] = true ∧ valZ s.view false (x 2) = 0 ∧
    valZ s.view false (x 1) ≠ 0 ∧ wellFormed (.br ⟨1, false, 0, none⟩) = true ∧
    wellFormed (.br ⟨0, true, 63, some 0x4000⟩) = true ∧
    ([Instr.jmp, .call].all fun i => wellFormed (i ⟨0, some 0x4000⟩) && wellFormed (i ⟨1, none⟩)) = true := by
  decide +kernel

/-- A loop with no stage live, and one with the last of 32 stages live. -/
theorem witness_LoopClose :
    let s (live : BitVec 32) := withCore { core0 with csr := { core0.csr with lpDepth := 31, lplive := live } }
    clear (s 0) = true ∧ (s 0).view.csr.lplive = 0 ∧ clear (s 0x80000000) = true ∧
    (s 0x80000000).view.csr.lplive ≠ 0 := by decide +kernel

theorem witness_WaitsIssue :
    let s := bound (withCore core0)
    let past (g : Option (BitVec 8)) : State := s.setWait (.passed g) 0
    let found (k : Nat) : State := s.setWait (.found k) 0
    let t := s.track .s (.store 0x4000 [(0x8000, 8)] 0 (leBytes 8 0))
    let behind : State := { t with core := { t.core with ctx := { t.core.ctx with bundle := 1 } } }
    clear (found 0) = true ∧ clear (found 8) = true ∧ clear behind = true ∧ fenceOpen behind.core .rel = true ∧
    clear (behind.setWait (.passed none) 0) = true ∧ fenceOpen s.core .acq = false ∧ clear s = true ∧ scalarOk s false [x 31] = true ∧ (31 : BitVec 5) ≠ 0 ∧
    (s.core.wait = .none ∧ published s = true) ∧
    (clear (past none) = true ∧ clear (past (some 255)) = true ∧ (past (some 255)).member 255 = true) ∧
    ∃ b, s.core.binding = some b ∧ nodeRes (s.pool.node b.nodeSlot) = true ∧ s.member 255 = true := by
  refine ⟨?_, ?_, ?_, ?_, ?_, ?_, ?_, ?_, ?_, ?_, ?_, ⟨3, 0, 1, 1, 0, false, 0, false, false, false, 0, 0⟩, ?_⟩ <;> decide +kernel

/-- The first trigger of a member, and a repeat. -/
theorem witness_Triggers :
    let s := bound (withCore core0)
    let again := { s with pool := { s.pool with groups := [(255,
      { groupDefault with held := true, tpend := 1, map := 1, triggered := [0] })] } }
    let behind := s.track .s (.store 0x4000 [(0x8000, 8)] 0 (leBytes 8 0))
    let ok (s : State) : Prop :=
      clear s = true ∧ s.core.binding.isSome = true ∧ s.member 255 = true ∧ published s = true
    ok s ∧ noOwnAccess s = true ∧ ok behind ∧ noOwnAccess behind = false ∧ 0 ∉ (s.pool.group 255).triggered ∧ ok again ∧ 0 ∈ (again.pool.group 255).triggered ∧
    0 ∉ (s.pool.node 3).triggered := by decide +kernel

/-- No node; the last virtual core of its position and of its node, with an access of its own group or without; one
that has more; one whose node has other positions, and one whose node is abandoned. -/
theorem witness_ExitEnds :
    let s := withCore core0
    let b := bound s
    let node (n : NodeSlot) (bd : Binding) : State :=
      { b with core := { b.core with binding := some bd }, pool := b.pool.setNode 3 n }
    let two : NodeSlot := { b.pool.node 3 with desc := BitVec.ofNat 512 (2 * 2 ^ 75 + 2 ^ 96) }
    let behind := b.track .s (.store 0x4000 [(0x8000, 8)] 0 (leBytes 8 0))
    let more (t : State) : Bool := t.core.binding.any fun d =>
      decide (d.v + 1 < d.width ∧ (d.v + 1) * d.positions / d.width = d.pos)
    let ok (t : State) : Prop := clear t = true ∧ t.core.inflight = [] ∧ t.core.copy.idle = true ∧
      published t = true ∧ (t.core.binding.all fun d => (t.pool.node d.nodeSlot).st != .free) = true
    ok s ∧ s.core.tracked = [] ∧ s.core.binding = none ∧
    ok b ∧ b.core.binding.isSome = true ∧ b.core.tracked = [] ∧ more b = false ∧
    ok behind ∧ behind.core.tracked ≠ [] ∧
    ok (node two ⟨3, 0, 1, 2, 0, false, 0, false, false, false, 0, 0⟩) ∧
    more (node two ⟨3, 0, 1, 2, 0, false, 0, false, false, false, 0, 0⟩) = true ∧
    ok (node two ⟨3, 0, 2, 2, 0, false, 0, false, false, false, 0, 0⟩) ∧
    more (node two ⟨3, 0, 2, 2, 0, false, 0, false, false, false, 0, 0⟩) = false ∧
    ok (node { two with st := .abandoned } ⟨3, 0, 1, 2, 0, false, 0, false, false, false, 0, 0⟩) := by decide +kernel

theorem witness_SoftwareTraps :
    clear (withCore core0) = true ∧ (withCore core0).core.endGroup.csr.tact = false := by decide +kernel

theorem witness_TrapReturn :
    let s := withCore core0
    let bad : State := sysMode (withCore { core0 with bankBad := true })
    let nested := sysMode (withCore { core0 with
      bankBad := true, csr := { core0.csr with pm := true }, inflight := [⟨3, 0, 0, 1, [.slices 16 16 7], 0, none, 0⟩] })
    clear s = true ∧ s.core.mode = .node ∧ clear (sysMode s) = true ∧ (sysMode s).core.mode = .sys ∧
    s.core.inflight = [] ∧ s.core.bankBad = false ∧ clear bad = true ∧ bad.core.mode = .sys ∧
    bad.core.bankBad = true ∧ bad.core.csr.pm = false ∧ clear nested = true ∧
    nested.core.endGroup.expire.landAll.csr.pm = true ∧
    (nested.core.inflight.all fun r => r.fault.isNone && !r.excepts nested.core) = true := by decide +kernel

/-- All clusters kept but cluster 4, and cluster 4 awake and asleep before; a cluster lent, 0 and 4. -/
theorem witness_ClustersAndIdling :
    let s := withCore core0
    clear s = true ∧ wellFormed (.rfcl 0x0F) = true ∧ wellFormed (.rfcl 0x1F) = true ∧
    s.core.regs.clusters.length = 5 ∧ clusterAwake s.core.regs s.core.mode s.core.xt 4 = true ∧
    wellFormed (.lend 2 4) = true ∧ wellFormed (.lend 0 0) = true ∧ s.core.kind = .a ∧
    s.view.inflight = [] ∧ s.core.bank = [] := by decide +kernel

/-! The vector slots: VA writes clusters 0 and 1, up to v127. A register-view and a lane-view form of each. -/

def sv : State := withCore (regs2 0xC000000000000000 64)
def op (sp : VSpan) : VOp := vop sv.view.csr false sp
def lane (n : Nat) : VSpan := ⟨BitVec.ofNat 12 n, 3⟩

theorem witness_VectorIntegerResults :
    let o (t : ETy) (d a b : VSpan) : FVR := ⟨.va, 1, b, a, d, t, false⟩
    let all (t : ETy) (d a b : VSpan) : Bool := vectorOk sv .va [op a, op b] [op d] &&
      [Instr.vadd, .vsub, .vmul, .vmulh, .vmad, .vmin, .vmax, .vand, .vor, .vxor, .vandn, .vadds, .vsubs].all
        fun i => wellFormed (i (o t d a b))
    clear sv = true ∧ all .i8 (v 127) (v 319) (v 127) = true ∧ all .n32 (lane 0) (lane 4) (lane 8) = true ∧
    vectorOk sv .vb [op (v 0)] [op (v 128)] = true := by decide +kernel

theorem witness_VectorShiftCountResults :
    let r (d : VSpan) (b : VSpan) : FVR := ⟨.va, 0, b, v 1, d, .i16, false⟩
    let i (x : Option Word) (imm : BitVec 20) : FVI := ⟨.va, imm, v 1, v 127, .n16, false, x⟩
    clear sv = true ∧ vectorOk sv .va [op (v 1), op (v 2)] [op (v 127)] = true ∧
    vectorOk sv .va [op (v 1)] [op (v 127)] = true ∧
    ([Instr.vshl, .vshr, .vsra].all fun f => wellFormed (f (r (v 127) (v 2)))) = true ∧
    ([Instr.vabs, .vneg, .vpopc, .vclz].all fun f => wellFormed (f (r (v 127) vz))) = true ∧
    ([Instr.vshlImm, .vshrImm, .vsraImm].all fun f =>
      wellFormed (f (i none 63)) && wellFormed (f (i (some 63) 0))) = true := by decide +kernel

theorem witness_VectorFloatResults :
    let o (t : ETy) (d a b : VSpan) : FVR := ⟨.va, 0, b, a, d, t, false⟩
    let ok (t : ETy) (d a b : VSpan) : Bool := vectorOk sv .va [op a, op b] [op d] &&
      floatOk t [op d, op a, op b] &&
      [Instr.vfadd, .vfsub, .vfmul, .vfma, .vfms, .vfmin, .vfmax].all (fun i => wellFormed (i (o t d a b)))
    clear sv = true ∧ ok .bf16 (v 127) (v 319) (v 0) = true ∧ ok .f32 ⟨1, 7⟩ ⟨9, 7⟩ ⟨17, 7⟩ = true ∧
    vectorOk sv .va [op (v 1)] [op (v 2)] = true ∧ floatOk .e4m3 [op (v 2), op (v 1)] = true ∧
    wellFormed (.vfabs (o .e4m3 (v 2) (v 1) vz)) = true ∧
    wellFormed (.vfneg (o .e5m2 (v 2) (v 1) vz)) = true := by decide +kernel

theorem witness_VectorCompareResults :
    let c (t : ETy) (n : BitVec 3) : FVC := ⟨.va, 0, v 2, v 1, n, 63, t, false⟩
    clear sv = true ∧ vectorOk sv .va [op (v 1), op (v 2)] [] = true ∧ floatOk .f16 [op (v 1), op (v 2)] = true ∧
    ([0, 1, 2, 3, 4, 5, 6].all fun n => wellFormed (.vcmp (c .i4 n))) = true ∧
    ([0, 1, 2, 3, 4, 5, 6, 7].all fun n => wellFormed (.vfcmp (c .f16 n))) = true ∧
    vectorOk sv .va [op (v 1), op (v 2)] [op (v 3)] = true ∧
    wellFormed (.vsel ⟨.va, 31, v 2, v 1, v 3, .i4, false⟩) = true ∧
    vectorOk sv .va [op (v 1)] [op (v 3)] = true ∧ floatOk .f32 [op (v 3), op (v 1)] = true ∧
    wellFormed (.vclass ⟨.va, 0, false, 0, 0, .i4, v 1, v 3, .f32, false⟩) = true := by decide +kernel

/-- VCVT in both views; VWIDEN and VNARROW in both views, the group ending at v127. -/
theorem witness_VectorConversionResults :
    let o (t u : ETy) (d a : VSpan) : FVU := ⟨.va, 0, false, 0, 0, u, a, d, t, false⟩
    let g (sp : VSpan) := groupRegs (op sp)
    clear sv = true ∧
    wellFormed (.vcvt (o .bf16 .f16 (v 2) (v 1))) = true ∧ vectorOk sv .va [op (v 1)] [op (v 2)] = true ∧
    (op (v 2)).reg = true ∧ (op (v 1)).reg = true ∧
    wellFormed (.vcvt (o .f32 .i32 ⟨1, 7⟩ (lane 12))) = true ∧
    vectorOk sv .va [op (lane 12)] [op ⟨1, 7⟩] = true ∧ (op ⟨1, 7⟩).reg = false ∧ (op ⟨1, 7⟩).w = 8 ∧
    wellFormed (.vwiden (o .i32 .i8 (v 124) (v 1))) = true ∧ (op (v 124)).groupBad 4 = false ∧
    vectorOk sv .va [op (v 1)] (g (v 124) 4) = true ∧
    wellFormed (.vwiden (o .i16 .i8 (lane 0) (lane 4))) = true ∧ (op (lane 0)).reg = false ∧
    vectorOk sv .va [op (lane 4)] [op (lane 0)] = true ∧
    wellFormed (.vnarrow (o .i8 .i32 (v 2) (v 124))) = true ∧
    vectorOk sv .va (g (v 124) 4) [op (v 2)] = true ∧
    wellFormed (.vnarrow (o .i8 .i16 (lane 0) (lane 4))) = true := by decide +kernel

theorem witness_VectorBlockScaleResults :
    let o (t u : ETy) (d a : VSpan) : FVU := ⟨.va, 0, false, 0, 0, u, a, d, t, false⟩
    let g (sp : VSpan) := groupRegs (op sp)
    clear sv = true ∧ (op (v 126)).reg = true ∧ (op (v 4)).reg = true ∧
    wellFormed (.vmxq (o .mxi8 .f32 (v 126) (v 4))) = true ∧ (op (v 4)).groupBad 4 = false ∧
    (op (v 126)).groupBad 2 = false ∧ vectorOk sv .va (g (v 4) 4) (g (v 126) 2) = true ∧
    wellFormed (.vmxq (o .mxf4 .f16 (v 126) (v 4))) = true ∧
    wellFormed (.vmxd (o .bf16 .mxf4 (v 124) (v 4))) = true ∧ (op (v 4)).groupBad 2 = false ∧
    (op (v 124)).groupBad 4 = false ∧ vectorOk sv .va (g (v 4) 2) (g (v 124) 4) = true := by decide +kernel

theorem witness_VectorReductionResults :
    let o (t u : ETy) : FVU := ⟨.va, 0, false, 0, 0, u, v 1, v 2, t, false⟩
    clear sv = true ∧ vectorOk sv .va [op (v 1)] [op (v 2)] = true ∧
    floatOk .bf16 [op (v 2), op (v 1)] = true ∧ wellFormed (.vrsum (o .n4 .i4)) = true ∧
    wellFormed (.vrfsum (o .bf16 .bf16)) = true ∧ wellFormed (.vrfsum (o .bf16 .f32)) = true ∧
    wellFormed (.vrmax (o .bf16 .i4)) = true ∧ wellFormed (.vrmin (o .bf16 .i4)) = true ∧
    wellFormed (.vrmax (o .i32 .i4)) = true ∧ wellFormed (.vrmin (o .n32 .i4)) = true := by decide +kernel

theorem witness_VectorSpecialResults :
    let o (t : ETy) (d a : VSpan) (rm : BitVec 3) : FVU := ⟨.va, 0, false, 0, rm, .i4, a, d, t, false⟩
    let all (t : ETy) (d a : VSpan) (rm : BitVec 3) : Bool :=
      vectorOk sv .va [op a] [op d] && floatOk t [op d, op a] &&
      [Instr.vexp2, .vlog2, .vrcp, .vrsqrt, .vsqrt, .vtanh, .vsigm, .vsinp, .vcosp].all
        fun i => wellFormed (i (o t d a rm))
    clear sv = true ∧ all .f32 ⟨1, 7⟩ ⟨9, 7⟩ 4 = true ∧ all .e5m2 (v 127) (v 319) 5 = true := by decide +kernel

/-- A pair of registers that ends at v127; every extraction and slide immediate; a sort step of the top level. -/
theorem witness_VectorPermuteResults :
    let r (d a b : VSpan) : FVR := ⟨.va, 0, b, a, d, .i32, false⟩
    let i (imm : BitVec 20) (x : Option Word) : FVI := ⟨.va, imm, v 1, v 2, .i4, false, x⟩
    let c : FVX := ⟨.va, true, 10, 9, v 2, v 1, .i4, false⟩
    clear sv = true ∧ vectorOk sv .va [op (v 1), op (v 2)] [op (v 3)] = true ∧
    wellFormed (.vperm (r (v 3) (v 1) (v 2))) = true ∧ vectorOk sv .va [op (v 1)] [op (v 2)] = true ∧
    ([Instr.vslide, .vbcast, .vextr, .vins].all fun f =>
      wellFormed (f (i 0xFFFFF none)) && wellFormed (f (i 0 (some 0xFFFFFFFFFFFFFFFF)))) = true ∧
    wellFormed (.vzip (r (v 126) (v 1) (v 2))) = true ∧ wellFormed (.vunzip (r (v 126) (v 1) (v 2))) = true ∧
    (op (v 126)).reg = true ∧ (op (v 1)).reg = true ∧ (op (v 126)).groupBad 2 = false ∧
    vectorOk sv .va [op (v 1), op (v 2)] [(op (v 126)).regOf 0, (op (v 126)).regOf 1] = true ∧
    wellFormed (.vcxs c) = true ∧ c.j.toNat < c.k.toNat ∧
    c.k.toNat ≤ Nat.log2 (vshape c.ty [op c.key, op c.pay]).n ∧
    vectorOk sv .va [op (v 1), op (v 2)] [op (v 1), op (v 2)] = true ∧
    wellFormed (.vcxs { c with ty := .bf16, k := 8, j := 7 }) = true := by decide +kernel

/-- Equal planes, and planes that differ first in their last nibble. -/
theorem witness_VectorMoveResults :
    let s := withCore { core0 with regs := { core0.regs with planes := [(15, BitVec.ofNat 512 (2 ^ 511))] } }
    let nib (p : VOp) (k : Nat) : Nat :=
      bitsN (planeRead s.view.regs (rotPlane s.view.csr.vrb (p.start + k / 128))).toNat (4 * (k % 128)) 4
    let o : FVR := ⟨.va, 0, ⟨8, 7⟩, ⟨0, 7⟩, vz, .i4, false⟩
    clear s = true ∧ vectorOk s .va [op (v 0)] [op (v 1)] = true ∧ vectorOk s .va [] [op (v 1)] = true ∧
    wellFormed (.vmov ⟨.va, 63, false, 0, 0, .i4, v 0, v 1, .mxf4, false⟩) = true ∧
    wellFormed (.vli ⟨.va, 0x80000, vz, v 1, .i4, false, none⟩) = true ∧
    wellFormed (.vli ⟨.va, 0, vz, v 1, .f32, false, some 1⟩) = true ∧
    wellFormed (.viota ⟨.va, 63, false, 0, 0, .i4, vz, v 1, .i8, false⟩) = true ∧
    wellFormed (.vchk o) = true ∧ vectorOk s .va [op (v 0), op (v 1)] [] = true ∧
    (∀ k < 1023, nib (op (v 0)) k = nib (op (v 1)) k) ∧ nib (op (v 0)) 1023 ≠ nib (op (v 1)) 1023 ∧
    vectorOk s .va [op (v 0), op (v 2)] [] = true ∧
    ∀ k < 1024, nib (op (v 0)) k = nib (op (v 2)) k := by decide +kernel

theorem witness_PredicateResults :
    let o (pd pb : BitVec 6) (sd : SSpan) : FVP := ⟨.va, sd, pb, 63, pd, .i4, false⟩
    clear sv = true ∧ scalarOk sv false [x 31] = true ∧
    ([Instr.pand, .por, .pxor].all fun i => wellFormed (i (o 0 62 z)) && wellFormed (i (o 63 62 z))) = true ∧
    wellFormed (.pnot (o 63 0 z)) = true ∧ wellFormed (.pcnt (o 0 62 (x 31))) = true ∧
    wellFormed (.pfirst (o 0 62 (x 31))) = true := by decide +kernel

/-- The last 512 bytes of the scratchpad, sound and with a word that cannot be corrected; a gather of every lane; a
strided load of nibbles. -/
theorem witness_VectorMemoryResults :
    let s := withCore (regs2 0xC0000000000FFE00 1)
    let reach (l : List (Word × Nat)) : Prop := ∀ e ∈ l, padCheck s e.1 e.2 = none
    let m : FVM := ⟨.va, 0, 0, x 1, v 1, .i8, false⟩
    let g : FVG := ⟨.va, lane 16, 0, x 1, ⟨8, 1⟩, .i4, false⟩
    let t : FVS := ⟨.va, x 2, 0, x 1, v 1, .i4, false⟩
    let bad : Core := { s.core with ecc := [(0x1FFFF, .uncorrectable)] }
    clear s = true ∧ scalarOk s false [x 1, x 2] = true ∧ reach [(0xC0000000000FFE00, 512)] ∧
    padEcc s.core [(0xC0000000000FFE00, 512)] = none ∧
    padEcc bad [(0xC0000000000FFE00, 512)] = some 0xC0000000000FFE00 ∧ clear (withCore bad) = true ∧
    wellFormed (.vld m) = true ∧ wellFormed (.vst m) = true ∧ vectorOk s .va [] [op (v 1)] = true ∧
    vectorOk s .va [op (v 1)] [] = true ∧
    wellFormed (.vldx g) = true ∧ wellFormed (.vstx g) = true ∧ (op ⟨8, 1⟩).w % 2 = 0 ∧
    vectorOk s .va [op (lane 16)] [op ⟨8, 1⟩] = true ∧ vectorOk s .va [op ⟨8, 1⟩, op (lane 16)] [] = true ∧
    reach ((List.range 128).map fun l =>
      (BitVec.ofNat 64 (valZ s.view false (x 1) + elemN 16 (vread s.view (op (lane 16))) l), 1)) ∧
    wellFormed (.vlds t) = true ∧
    reach ((List.range 1024).map fun j => (BitVec.ofNat 64 (0xC0000000000FFE00 + j / 2), 1)) ∧
    valS s.view false t.stride = 1 := by decide +kernel

/-! The Q slot. -/

theorem witness_StreamResults :
    let one : StreamTag := ⟨3, true, 0x8000⟩
    let s := withCore { regs2 9 0 with regs := { (regs2 9 0).regs with
      tags := [(1, one), (2, one), (3, ⟨3, true, 1⟩), (4, ⟨3, false, 2⟩)] } }
    let tag (q : Nat) := tagRead s.view.regs q
    let o (qs qb qa : BitVec 3) : FQR := ⟨0, 0, qs, qb, qa, 7⟩
    let g : FQR := ⟨3, 15, 0, 0, 1, 7⟩
    clear s = true ∧ kilnPays s.core (128 * 512 / 64) = true ∧ scalarOk s false [x 1] = true ∧
    wellFormed (.qregen g) = true ∧ wellFormed (.qlen { g with cls := 0 }) = true ∧
    wellFormed (.qclr { g with cls := 0, qa := 0 }) = true ∧
    ([Instr.qmov, .qnot].all fun i => wellFormed (i (o 0 0 1))) = true ∧
    ([Instr.qmul, .qmin, .qmax, .qabsd].all fun i => wellFormed (i (o 0 2 1))) = true ∧
    wellFormed (.qmuxa (o 4 3 1)) = true ∧
    (tag 1).len = (tag 2).len ∧ (tag 1).mask = (tag 2).mask ∧ (tag 1).pris = true ∧ (tag 2).pris = true ∧
    (tag 1).mask = BitVec.ofNat 16 (2 ^ 15) ∧ (tag 1).mask &&& (tag 3).mask = 0 ∧
    (tag 4).mask &&& ((tag 1).mask ||| (tag 3).mask) = 0 ∧ (tag 4).len = (tag 1).len ∧
    operandsOk s 3 [vop s.view.csr false (v 0)] [] = true ∧ wellFormed (.qgen ⟨15, v 0, 7⟩) = true ∧
    wellFormed (.qcnt ⟨0, v 0, 7⟩) = true ∧ wellFormed (.qcmp ⟨2, 1, 63⟩) = true ∧
    wellFormed (.qseedLfsr ⟨15, x 1⟩) = true ∧ wellFormed (.qseedRamp ⟨15, x 1⟩) = true ∧
    valZ s.view false (x 1) = 9 := by decide +kernel

/-- A cluster lent to the Q slot may take the counts of QCNT. -/
theorem witness_StreamResults_count :
    let s := withCore { core0 with regs := { core0.regs with owners := [0, 3, 1, 1, 2] } }
    clear s = true ∧ operandsOk s 3 [] [vop s.view.csr false (v 127)] = true := by decide +kernel

/-! The M slot. -/

def compute (c : Core) : State := withCore { c with mat := { c.mat with modes := BitVec.allOnes 256 } }
def mc (mac : BitVec 8) (ct : BitVec 5) (fn : BitVec 4) (imm : BitVec 25) (sa : SSpan) : FMC :=
  ⟨imm, sa, ct, mac, fn, none⟩

theorem witness_MatrixTrackedStart :
    let s := compute (regs2 0 0)
    clear s = true ∧ scalarOk s false [x 1] = true ∧ kilnPays s.core 1474560 = true ∧
    macrosReady s true [255] = true ∧ macrosReady s true (rangeFrom 224 32) = true ∧
    wellFormed (.mpageRd (mc 255 0 1 7 (x 1))) = true ∧ wellFormed (.mpageClr (mc 255 0 2 7 z)) = true ∧
    wellFormed (.mscrub (mc 255 0 0 7 z)) = true ∧
    wellFormed (.mwideOn (mc 0 30 0 320 z)) = true ∧ (mc 0 30 0 320 z).long.toInt = 320 ∧
    (mc 0 30 0 (BitVec.ofInt 25 (-320)) z).long.toInt = -320 ∧
    wellFormed (.mwideOff (mc 0 30 1 0 z)) = true ∧ wellFormed (.macz (mc 0 0 0 31 z)) = true ∧
    s.core.mat.nameable 0 = true ∧ s.core.mat.inWide 31 = false ∧
    wellFormed (.mrange (mc 0 0 2 0 (x 1))) = true ∧
    wellFormed (.mdot ⟨31, 0, 3, true, 224, 7, .i4⟩) = true ∧
    wellFormed (.mcoll ⟨31, 0, 0, true, 224, 7, .mxi8⟩) = true ∧
    (∀ k < 256, bufferFormat s.core k = .mxi8) ∧
    (∀ j < 32, tileSpan s.core.mat 0 * j ≤ 31 ∧ s.core.mat.nameable (tileSpan s.core.mat 0 * j) = true ∧
      s.core.mat.inWide (tileSpan s.core.mat 0 * j) = (s.core.mat.anchor 0).isSome) := by decide +kernel

/-- A reload of the last page of a 2 MiB page of near memory; an outlier list of one entry. -/
theorem witness_MatrixTrackedStart_memory :
    let s := { compute (regs2 0x3FC000 0) with
      xlat := { State.reset.xlat with tlb := [⟨0, 0x200000, 0x400000, 21, 0xC2C⟩] } }
    let t := withCore { regs2 0xC000000000000000 0 with pad := [(0, 1)] }
    let list (n : Nat) : Nat := leNat (localBytes t.core (access t .read 0xC000000000000000 n) n)
    clear s = true ∧ scalarOk s false [x 1] = true ∧ accessOk s .read 0x3FC000 16384 = true ∧
    (∀ p ∈ pagesOf 0x3FC000 16384, nearLeaf s.xlat s.core.walker s.core.csr.tasid p.1 = true) ∧
    macrosReady s true [255] = true ∧ kilnPays s.core 2048 = true ∧
    wellFormed (.mload ⟨0, x 1, 3, true, 255, .mxf4⟩) = true ∧
    wellFormed (.mload ⟨0, x 1, 3, true, 255, .n8⟩) = true ∧
    clear t = true ∧ scalarOk t false [x 1] = true ∧ accessOk t .read 0xC000000000000000 8 = true ∧
    accessOk t .read 0xC000000000000000 16 = true ∧ list 8 = 1 ∧ elemN 64 (list 16) 1 = 0 ∧
    localEcc t.core (access t .read 0xC000000000000000 16) 16 = false ∧ t.core.mat.nameable 30 = true ∧
    wellFormed (.moutl ⟨false, 0, 0, x 1, vz, 30, 0, .bf16⟩) = true ∧ kilnPays t.core 44 = true := by
  decide +kernel

theorem witness_MatrixAccumulatorAccess :
    let s := withCore (regs2 14 0)
    let o (rm : BitVec 3) : FMV := ⟨false, 0, rm, x 1, v 256, 31, 0, .f32⟩
    let bad := withCore { s.core with ecc := [(0x23FFF, .uncorrectable)] }
    let i : FMV := { o 1 with ty := .i32, sa := x 2 }
    let w : FMV := { o 0 with sa := x 2, vs := v 256 }
    let reg := vop s.view.csr false (v 256)
    let r : FMS := ⟨248, 3, true, 255, v 256, .i16⟩
    clear s = true ∧ scalarOk s false [x 1, x 2] = true ∧ kilnPays s.core 384 = true ∧
    valZ s.view false (x 1) % 16 = 14 ∧ valZ s.view false (x 2) = 0 ∧ s.core.mat.nameable 31 = true ∧
    operandsOk s 2 [] [reg] = true ∧ operandsOk s 2 [reg] [] = true ∧
    wellFormed (.macrd { o 0 with sa := x 2 }) = true ∧ wellFormed (.macwr w) = true ∧
    wellFormed (.macwr i) = true ∧ wellFormed (.mrmw r) = true ∧ macrosReady s false [255] = true ∧
    accSound s 31 896 128 = true ∧ accSound bad 31 896 128 = false ∧ clear bad = true ∧
    r.row.toNat + reg.w = 256 ∧ s.core.mat.refetch = [] := by decide +kernel

theorem witness_MatrixImmediateResults :
    let asleep := withCore { regs2 3 0xC000000000000000 with
      pad := [(0, 1), (64, 0x3F), (128, 1)],
      shelf := { Reset.shelf with segs := List.replicate 7 .awake ++ [.asleep] } }
    let s := withCore (regs2 3 0xC000000000000000)
    let latch (ty : ETy) : FMV := ⟨false, 0, 0, x 1, v 126, 0, 7, ty⟩
    let reg := vop s.view.csr false (v 126)
    let row : FMS := ⟨248, 3, true, 255, v 256, .i4⟩
    let rg := vop s.view.csr false (v 256)
    let block := leNat (localBytes asleep.core (access asleep .read 0xC000000000000000 896) 896)
    clear s = true ∧ clear asleep = true ∧ scalarOk s false [x 1, x 2] = true ∧ kilnPays s.core 320000 = true ∧
    wellFormed (.mmode (mc 255 0 1 0 z)) = true ∧ wellFormed (.mmode (mc 224 31 0 0 z)) = true ∧
    (∀ k ∈ rangeFrom 224 32, segNow s.core.shelf s.cycle (k / 32) = .awake) ∧
    inFlightBefore s (rangeFrom 224 32).contains = false ∧
    wellFormed (.mlatch (latch .mxf4)) = true ∧ valZ s.view false (x 1) = 3 ∧ reg.groupBad 2 = false ∧
    operandsOk s 2 [reg.regOf 0, reg.regOf 1] [] = true ∧
    wellFormed (.mchain ⟨false, 0, 0, x 1, vz, 31, 7, .mxi8⟩) = true ∧ s.core.mat.nameable 31 = true ∧
    macrosReady s false [255] = true ∧ wellFormed (.mread row) = true ∧ wellFormed (.mwrite row) = true ∧
    operandsOk s 2 [] [rg] = true ∧ operandsOk s 2 [rg] [] = true ∧ row.row.toNat + rg.w = 256 ∧
    (∀ w ∈ viewWords (rowOp s row).off (64 * rg.w), let x := viewAt s.core.shelf w
      s.core.mat.errAt x.pid x.row (x.k / 8) = none) ∧
    wellFormed (.mmask (mc 0 0 0 0 (x 2))) = true ∧ accessOk asleep .read 0xC000000000000000 896 = true ∧
    localEcc asleep.core (access asleep .read 0xC000000000000000 896) 896 = false ∧ mskFault block = none ∧
    wellFormed (.mmaskClr (mc 0 0 1 0 z)) = true ∧
    wellFormed (.lwake (mc 0 0 0 0xFF z)) = true ∧ wellFormed (.lsleep (mc 0 0 0 0xFF z)) = true ∧
    asleep.core.shelf.segs.length = 8 ∧ segNow asleep.core.shelf asleep.cycle 7 = .asleep ∧
    inFlightBefore asleep (fun _ => true) = false ∧ s.core.shelf.segs.length = 8 := by decide +kernel

/-! The copy slots: tiles 5 and 6 of the core are ready, slot 9 of the TID table holds a record of 128 bytes in
windows of 64, and x1 to x3 hold the operands. -/

def rec128 : BitVec 768 := BitVec.ofNat 768 (2 ^ 64 + 2 ^ 70 + 128 * 2 ^ 128 + 64 * 2 ^ 512)
def ready : Tile := { tileDefault with st := .ready }
def copySt (a b c : Nat) : State :=
  let k := { Reset.copy with tiles := [(5, ready), (6, ready)], tids := [(9, ⟨rec128, 0, .live, 0, false⟩)] }
  withCore { regs3 a b c with copy := k, ctx := { core0.ctx with before := k } }
def fc (fn : BitVec 4) (sa sb sc : SSpan) : FC := ⟨.b, 0, .core, .relaxed, sc, sb, sa, fn, none⟩

/-- A copy of 64 bytes, a window in and out, a ring of two windows. -/
theorem witness_CopyStaging :
    let s := copySt 0xC000000000000000 0xC0000000000FFFC0 64
    let w := copySt 5 9 1
    let t := copySt 9 5 1
    let r := copySt 5 9 2
    let o (fn : BitVec 4) := fc fn (x 1) (x 2) (x 3)
    let sh : EngRegs := Reset.engRegs
    let set (kind : Nat) (d e : Nat) : EngRegs := { sh with
      edst := wordOf d, esrc := wordOf e, ectl := ectlSet 0 kind 0 0 }
    let count (q : EngRegs) (n : Nat) : EngRegs := { q with ectl := wordOf (setBitsN q.ectl.toNat 16 6 (n + 63)) }
    let cpyFaults := rangeTest s 0xC000000000000000 64 ++ rangeTest s 0xC0000000000FFFC0 64 ++
      slotFault (decide (2 ^ 22 ≤ 64)) 0x41 (.cpy (o 0))
    let ok (s : State) : Prop := clear s = true ∧ scalarOk s false [x 1, x 2, x 3] = true
    ok s ∧ ok w ∧ ok t ∧ ok r ∧
    wellFormed (.cpy (o 0)) = true ∧ wellFormed (.cpy (o 1)) = true ∧ wellFormed (.cpy (o 2)) = true ∧
    stagingOk s .b 0 { faults := cpyFaults, owed := 2 } = true ∧
    stagingOk w .b 0 (stageWindow w (.cpy (o 1)) .b (count (set 1 5 9) 1) 5 9 1) = true ∧
    stagingOk t .b 0 (stageWindow t (.cpy (o 2)) .b (count (set 2 9 5) 1) 5 9 1) = true ∧
    wellFormed (.cwin (o 0)) = true ∧
    stagingOk r .b 0 (stageRing r (.cwin (o 0)) .b (count (set 3 5 9) 2) 2) = true ∧
    wellFormed (.cgo (fc 0 z z z)) = true ∧ sh.kind ≠ 3 ∧ sh.scope ≤ 4 ∧
    stagingOk s .b sh.ebar (stageKind s (.cgo (fc 0 z z z)) .b sh (sh.tcnt + 1) sh.elen.toNat) = true := by
  decide +kernel

/-- A collective of the lowest member of group 255, one page of lines, and a migration in system mode. -/
theorem witness_CopyStaging_rest :
    let s := bound (copySt 0xC000000000000000 0xC0000000000FFFC0 (255 + 16 * 256))
    let l := copySt 0x4000 256 0
    let m := sysMode (copySt 0x200000 0x600000 0x200000)
    let o (fn : BitVec 4) := fc fn (x 1) (x 2) (x 3)
    let base : EngRegs := Reset.engRegs
    let set (kind : Nat) (d e n aux : Nat) : EngRegs := { base with
      edst := wordOf d, esrc := wordOf e, ectl := ectlSet 0 kind 0 0, elen := BitVec.ofNat 22 n,
      aux := BitVec.ofNat 12 aux }
    let coll (kind : Nat) := set kind 0xC000000000000000 0xC0000000000FFFC0 16 255
    let ok (s : State) : Prop := clear s = true ∧ scalarOk s false [x 1, x 2, x 3] = true
    ok s ∧ ok l ∧ ok m ∧
    wellFormed (.cred (o 0)) = true ∧ wellFormed (.cred (o 10)) = true ∧
    stagingOk s .b 0 (stageColl s (.cred (o 0)) (coll 4) 4 16) = true ∧
    wellFormed (.cbcst (o 0)) = true ∧ stagingOk s .b 0 (stageColl s (.cbcst (o 0)) (coll 5) 5 16) = true ∧
    wellFormed (.cpref (fc 1 (x 1) (x 2) z)) = true ∧
    stagingOk l .b 0 (stageKind l (.cpref (fc 1 (x 1) (x 2) z)) .b (set 7 0x4000 0 256 256) 1 256) = true ∧
    wellFormed (.cflush (fc 0 (x 1) (x 2) z)) = true ∧
    stagingOk l .b 0 (stageKind l (.cflush (fc 0 (x 1) (x 2) z)) .b (set 8 0x4000 0 256 0) 1 256) = true ∧
    wellFormed (.cinv (fc 0 (x 1) (x 2) z)) = true ∧
    stagingOk l .b 0 (stageKind l (.cinv (fc 0 (x 1) (x 2) z)) .b (set 9 0x4000 0 256 0) 1 256) = true ∧
    wellFormed (.cmig (o 0)) = true ∧
    stagingOk m .b 0 (stageKind m (.cmig (o 0)) .b (set 6 0x200000 0x600000 0x200000 0) 1 0x200000) = true := by
  decide +kernel

def ringOp : ChanOp :=
  { regs := { Reset.engRegs with ectl := 3 }, sys := false, record := rec128, tid := some 9, tiles := [5, 6],
    barrier := none, owed := 0, credit := 0, pos := 0, ringN := 2, fills := [], filled := 0, ready := false,
    failing := none, grp := 0, image := [], srcErr := none }

theorem witness_CopySteering :
    let s := (copySt 2 0 0).setChan .b { Reset.chan with op := some ringOp }
    let held : State := { s with core := { s.core with
      pad := [(0, 0x10), (2, 2)],
      copy := { s.core.copy with tiles := [(5, { ready with st := .filling, owner := 2 }), (6, { ready with st := .draining, owner := 2, released := true })] } } }
    let owing : ChanOp := { ringOp with barrier := some 0xE000000000000000, owed := 3 }
    let cr (bs : List Byte) : List Byte := leBytes 16 (barFail 3 owing.regs.arrive (leNat bs))
    spWf tileDefault held.core.copy.tiles = true ∧
    (ringOp.tiles.all fun q => (held.core.copy.tile q).owner.toNat == 2) = true ∧
    (match engUpdate (held.core.channelAgent .b false 0) held .barrier 0xE000000000000000 16 cr with
     | .done _ _ => true | _ => false) = true ∧
    clear s = true ∧ wellFormed (.cgoClr (fc 1 z z z)) = true ∧ clearProbe s .b = none ∧
    wellFormed (.cadv (fc 0 (x 1) z z)) = true ∧ scalarOk s false [x 1] = true ∧
    ringOf (s.chan .b) = some ringOp ∧ valZ s.view false (x 1) = ringOp.ringN ∧
    (∀ j < 2, (s.core.copy.tile (5 + j)).st = .ready ∧ (s.core.copy.tile (5 + j)).owner = 0 ∧
      lget 0 (origins ringOp.regs) ringOp.regs.kdim + j * recWin rec128 ringOp.regs.kdim <
        recDim rec128 ringOp.regs.kdim) ∧
    ringEdgeHit rec128 ringOp.regs.kdim (origins ringOp.regs) 2 = false ∧
    wellFormed (.cadvEnd (fc 1 z z z)) = true ∧ ringOp.fills = [] ∧ ringOp.credit = 0 := by decide +kernel

/-- A tile that is ready, one that is empty, and the last of the 64. -/
theorem witness_TileInstructions :
    let s := copySt 5 63 6
    let b := s.core.ctx.before
    let behind := s.track .s (.store 0x4000 [(0x8000, 8)] 0 (leBytes 8 0))
    published s = true ∧ noOwnAccess s = true ∧ clear behind = true ∧ noOwnAccess behind = false ∧
    behind.core.ctx.before = b ∧ clear s = true ∧ scalarOk s false [x 1, x 2, x 3] = true ∧
    b.tileLive 5 = true ∧ (b.tile (handleSlot 5)).st = .ready ∧ (b.tile (handleSlot 5)).owner = 0 ∧
    ([1, 2, 3].all fun f => wellFormed (.town (fc f (x 1) z z))) = true ∧
    wellFormed (.ttake (fc 0 (x 1) z z)) = true ∧ foreignAccess s 5 = false ∧
    wellFormed (.tstate (fc 0 (x 4) (x 2) z)) = true ∧ wellFormed (.tstateClaim (fc 1 (x 4) (x 2) z)) = true ∧
    (s.core.copy.tile (valZ s.view false (x 2) % 64)).st = .empty ∧
    (s.core.copy.tile (valZ s.view false (x 3) % 64)).st ≠ .empty ∧
    wellFormed (.tstateRelease (fc 2 ⟨0, 15⟩ (x 3) z)) = true ∧ b.tileLive (valZ s.view false (x 3)) = true := by
  decide +kernel

/-- The record of 128 bytes in the scratchpad, to be loaded in slot 63, and the live record of slot 9. -/
theorem witness_RecordInstructions :
    let s0 := copySt 9 0xC000000000000000 63
    let s := { s0 with core := { s0.core with pad := [(8, 0x41), (16, 0x80), (64, 0x40)] } }
    clear s = true ∧ published s = true ∧ scalarOk s false [x 1, x 2, x 3] = true ∧
    wellFormed (.tidld (fc 0 (x 4) (x 2) (x 3))) = true ∧ accessOk s .read 0xC000000000000000 96 = true ∧
    (match readRecord s 0 0xC000000000000000 with | .got r => r == rec128 | _ => false) = true ∧
    recFault rec128 = none ∧
    wellFormed (.tidrd (fc 0 (x 4) (x 1) z)) = true ∧ wellFormed (.tidrd (fc 1 (x 4) (x 3) z)) = true ∧
    slotBad s (.tidrd (fc 1 (x 4) (x 3) z)) 63 = [] ∧ slotBad s (.tidinv (fc 1 (x 3) z z)) 9 = [] ∧
    (stageTid s (valZ s.view false (x 1))).1 = [] ∧ valZ s.view false (x 3) = 63 ∧
    wellFormed (.tidinv (fc 0 (x 1) z z)) = true ∧ wellFormed (.tidinv (fc 1 (x 3) z z)) = true := by decide +kernel

/-- A barrier that waits for one arrival, and the largest number of arrivals and the last phase. -/
theorem witness_BarrierInstructions :
    let s (u : Nat) := withCore { regs2 0xC000000000000000 u with pad := [(0, 0x10)] }
    clear (s 5) = true ∧ published (s 5) = true ∧ scalarOk (s 5) false [x 1, x 2, x 3, z] = true ∧
    barrierOk (s 5) 0xC000000000000000 .ok = true ∧ valZ (s 0xFFFFF).view false (x 2) = 0xFFFFF ∧
    barrierOk (s 5) 0xC000000000000000 (barExpect 0xFFFFFFFF) = true ∧
    barrierOk (s 5) 0xC000000000000000 (barVisit 5) = true ∧
    accessOk (s 15) .barrier 0xC000000000000000 16 = true ∧
    wellFormed (.binit (fc 0 (x 1) (x 2) z)) = true ∧ wellFormed (.bexp (fc 0 (x 1) (x 2) z)) = true ∧
    wellFormed (.barv (fc 0 (x 1) (x 2) (x 3))) = true ∧
    ([0, 7].all fun f => wellFormed (.bwatch (fc f (x 1) (x 2) z))) = true ∧
    ([8, 15].all fun f => wellFormed (.bwatchOff (fc f z z z))) = true := by decide +kernel

theorem witness_GraphInstructions :
    let s0 := withCore (regs2 0 0x4000)
    let s := sysMode { s0 with pool := { s0.pool with graphs := [(0, { graphDefault with st := .loaded })] } }
    clear s = true ∧ s.core.mode = .sys ∧ clear s0 = true ∧ s0.core.mode = .node ∧
    scalarOk s false [x 1, x 2] = true ∧ scalarOk s0 false [x 1, x 2] = true ∧
    wellFormed (.gload (fc 0 (x 1) (x 2) z)) = true ∧ wellFormed (.gloadFree (fc 1 (x 1) z z)) = true ∧
    wellFormed (.glaunch (fc 0 (x 1) z z)) = true ∧ wellFormed (.glaunch (fc 1 (x 1) (x 2) z)) = true ∧
    valZ s.view false (x 1) = 0 ∧ graphLive s.pool 0 = true ∧ (s.pool.graph 0).st ≠ .running ∧
    published s = true ∧ launchFault s.pool 0 = none := by decide +kernel

/-! Steps of the device. -/

theorem witness_ResultsLand :
    let r : Result := ⟨3, 0, 0, 1, [.slices 16 16 7], 0, none, 0⟩
    let slow : Result := { r with land := 9 }
    let s := withCore { core0 with inflight := [slow, r], nodeXt := 3 }
    s.core.inflight = [slow] ++ r :: [] ∧ slow.due s.core.xt = false ∧ r.due s.core.xt = true ∧
    r.excepts s.core = false ∧
    spWf 0 s.core.regs.preds = true ∧ spWf 0 s.core.regs.planes = true := by decide +kernel

/-- Line 0x80 of memory held by the L2 in a state; one tracked operation. -/
def held (st : LineSt) (s : State) : State := { s with coh := { s.coh with l2 := [(0x80, ⟨st, 0, 5, 0⟩)] } }
def tracking (slot : Nat) (op : TOp) (s : State) : State :=
  { s with core := { s.core with tracked := [⟨0, 0, slot, 0x1000, .relaxed, false, false, op⟩] } }

/-- A load of a held line and of one whose request failed, a store and an atomic on a line held exclusively; a span
of slot S; a CSR and an engine register; a flip and a trigger; a store to an unordered page, and one that a release
publishes; the first and the last bytes of the scratchpad through window 0xE, and a register through window 0xF. -/
theorem witness_TrackedAccesses :
    let base := withCore core0
    let load : TOp := .load 0x4000 [(0x80FF, 1)] 1 0 16 16 .zero
    let s := tracking 1 load (held .s base)
    let bad := tracking 1 load { base with coh := { base.coh with failed := [(0x80, 0x37)] } }
    let x := held .e base
    let uo := held .e (withCore { core0 with publish := 1, uo := [⟨0, 0, 1, 0x1000, .relaxed, false, true,
      .store 0x4000 [(0x8000, 8)] 0 (leBytes 8 0)⟩] })
    let first (s : State) : Prop := ∀ e ∈ s.core.tracked.take 0, False
    first s ∧ s.coh.l2Err = [] ∧ linesHeld s false [(0x80FF, 1)] = true ∧
    (match perform (l1Check bad [(0x80FF, 1)]) 0x4000 [(0x80FF, 1)] 1 0 (fun _ => none) true false with
     | .fail _ c => c == 0x37 | _ => false) = true ∧ l2Bad x.coh 0x80 = 0 ∧
    waitsUo s.core (s.core.tracked.headD ⟨0, 0, 0, 0, .relaxed, false, false, .trig none⟩) = false ∧
    ([TOp.flip 5 1, .trig none, .trig (some 255)].all fun op =>
      (publishStores (fun q => decide (q.grp ≤ 0)) (tracking 0 op base)).2) = true ∧
    uo.core.leaving = false ∧ uo.core.tracked.length ≤ 0 ∧ (uo.core.uo.all fun t => decide (t.grp ≤ uo.core.publish)) = true ∧
    (publishStores (fun q => decide (q.grp ≤ 1)) uo).2 = true ∧
    chipArea base 0 = some (0, .pad, 0) ∧ chipArea base (2 ^ 20 - 8) = some (0, .pad, 2 ^ 20 - 8) ∧
    refetchMet base 0 .pad 0 8 = false ∧ eccBad base.core 0 8 = none ∧ Area.bad .pad base.core 0 8 = false ∧
    (base.coreAt 0).isSome = true ∧ sysWaits base 0x02000000 (leBytes 8 0) = false ∧
    linesHeld x true [(0x8000, 256)] = true ∧ runsApart [(0x8000, 8), (0x8008, 248)] = true ∧
    linesHeld x true [(0x80F8, 8)] = true ∧
    (tracking 1 (.span 16 16 7) base).core.tracked.length = 1 ∧
    (tracking 1 (.csrWrite 0x14B 2 1) base).core.tracked.length = 1 ∧
    (tracking 1 (.engWrite .b 7 1) base).core.tracked.length = 1 := by decide +kernel

/-- A walk whose root is a table that the L2 holds: its entry is a leaf of 2^36 bytes, or not present. -/
def walking (fwait : Bool) (entry : Nat) (s : State) : State :=
  { s with
    plat := { s.plat with desc := Reset.desc0 }
    coh := { s.coh with l2 := [(0x80, ⟨.s, 0, BitVec.ofNat 2048 (entry * 2 ^ 64), 0⟩), (0x81, ⟨.m, 0, 0, 0⟩)] }
    xlat := { s.xlat with
      fwait := fwait, fltring := 0x8000, flthead := 16,
      walks := [⟨⟨0, false⟩, [⟨1, true⟩], 7, 0x8000, 2 ^ 47, false, false, false⟩], invals := [⟨some 0, .asid 7⟩],
      tlb := [⟨7, 0x4000, 0x8000, 14, 0x2C⟩] } }

theorem witness_TranslationEvents :
    let ends (s : State) : Nat := match walkFrom 7 (2 ^ 47) 4 0x8000 s with
      | .done _ _ => 1 | .fault _ c => c | .wait _ => 0
    let none' := walking true 0 (withCore core0)
    let table := walking false (0x8000 + 1) (withCore core0)
    let leaf := { table with coh := { table.coh with
      l2 := [(0x80, ⟨.s, 0, BitVec.ofNat 2048 ((0x8000 + 1) * 2 ^ 64 + 0x2F), 0⟩)] } }
    ends none' = 0x30 ∧ none'.xlat.fwait = true ∧ none'.xlat.flthead - none'.xlat.flttail ≠ 256 ∧
    ends (walking false 0 (withCore core0)) = 0x30 ∧ ends (walking false 2 (withCore core0)) = 0x35 ∧
    ends leaf = 1 ∧ none'.xlat.walks.length = 1 ∧ none'.coh.puts = [] ∧
    (match cohWrite none' [(0x8100, 16)] 0 (List.replicate 16 0) with | .done _ _ => true | _ => false) = true ∧
    spWf [] none'.xlat.tlb1 = true ∧ none'.xlat.invals = [⟨some 0, .asid 7⟩] := by decide +kernel

/-- A line of the first of the chip's memory that nobody holds, one that is busy, and one owned by chip 3. -/
def homely (c : Coh) : State := 
  { State.reset with
    plat := { Reset.plat with desc := Reset.desc0, channels := List.range 512, hbmUp := 0xFFFF }, coh := c }

theorem witness_HomeRequests :
    let s := homely Reset.coh
    let busy := homely { Reset.coh with
      resol := [⟨9, .recall 3, [.chip 3], none, 0, 0, false, false, 0, false⟩], waiting := [⟨9, .rds 4⟩] }
    let rebuilt := homely { Reset.coh with resol := [⟨9, .mend, [.chip 3], none, 0, 0, false, false, 0, true⟩] }
    let later := homely { Reset.coh with waiting := [⟨9, .rds 4⟩] }
    let owner := homely { Reset.coh with meta_ := [(9, (⟨3, 3, 3, 0⟩ : Meta).word)] }
    let m := Meta.ofWord (spGet 0 owner.coh.meta_ 9)
    Memory.wf s.mem = true ∧ unheld s 0 = true ∧ unheld s (2 ^ 32 - 1) = true ∧
    homeLine busy 9 = true ∧ busy.coh.puts = [] ∧ (busy.coh.resol.any fun x => x.line == 9) = true ∧
    (lineFree busy 9 = false ∧ lineFree later 9 = true ∧ later.coh.puts = [] ∧
      (rebuilt.coh.resol.any fun x => x.line == 9 && x.rebuild) = true ∧ metaBroken owner.coh 9 = false ∧
      later.coh.waiting.find? (fun w => w.line == 9) = some ⟨9, .rds 4⟩) ∧
    homeLine owner 9 = true ∧ m.owner = 3 ∧ m.st = 3 ∧ spWf 0 owner.coh.meta_ = true ∧
    (Meta.ofWord (spGet 0 owner.coh.meta_ 8)).st = 0 := by decide +kernel

/-- Lines of chip 1 and of the host in every state; the last and another answer; a grant, an acknowledgement and a
timeout. -/
theorem witness_SnoopsAndAnswers :
    let far : Nat := 2 ^ 32
    let host : Nat := 2 ^ 43
    let l2 (line : Nat) (st : LineSt) := homely { Reset.coh with l2 := [(line, ⟨st, 8, 5, 0⟩)] }
    let r (ans : List Party) : Resol := ⟨9, .rds 4, ans, none, 0, 0, false, false, 0, false⟩
    let one := homely { Reset.coh with resol := [r [.chip 3]] }
    let two := homely { Reset.coh with resol := [r [.chip 3, .host 2]] }
    let miss (line : Nat) := homely { Reset.coh with misses := [(line, true)], writebacks := [line] }
    let fill : HostFill := ⟨host, 4, .m, 5, 4, 2⟩
    let part := homely { Reset.coh with misses := [(host, true)], writebacks := [host], fills := [fill] }
    (part.coh.fills.find? fun f => f.line == host) = some fill ∧ fill.got.getLsbD 2 = true ∧
    fill.again.getLsbD 1 = true ∧ part.coh.puts = [] ∧ (miss host).coh.fills = [] ∧
    ([LineSt.m, .o, .e, .s].all fun st => spWf l2None (l2 far st).coh.l2 && ((l2Get (l2 far st).coh far).st == st))
      = true ∧
    hostTier (256 * far) = false ∧ isHome Reset.plat far = false ∧ hostTier (256 * host + 255) = true ∧
    (one.coh.resol.find? fun x => x.line == 9 && x.awaiting.contains (.chip 3)) = some (r [.chip 3]) ∧
    (homeAnswer (r [.chip 3]) (.chip 3) .notHeld (some ⟨0, 0⟩)).awaiting = [] ∧ (r [.chip 3]).rebuild = false ∧
    (two.coh.resol.find? fun x => x.line == 9 && x.awaiting.contains (.chip 3)) = some (r [.chip 3, .host 2]) ∧
    (homeAnswer (r [.chip 3, .host 2]) (.chip 3) .clean (some ⟨0, 0⟩)).awaiting ≠ [] ∧
    far ∈ (miss far).coh.writebacks ∧ (miss far).coh.misses = [(far, true)] ∧ (miss far).coh.puts = [] ∧
    (miss far).coh.resol = [] ∧ (miss host).coh.misses = [(host, true)] ∧ spWf l2None one.coh.l2 = true := by
  decide +kernel

/-- An operation of channel B on tile 0, which it owns: kind 0 copies 100 bytes, kind 4 reduces 16 elements. -/
def copyOp (kind n pos : Nat) : ChanOp :=
  { ringOp with
    regs := { Reset.engRegs with
      edst := 0xC000000000000000, esrc := 0xC000000000000100, elen := BitVec.ofNat 22 n, ectl := wordOf kind, aux := 255 }
    tid := none, tiles := [], ringN := 0, owed := 4, pos := pos }
def copying (o : ChanOp) : State :=
  let k := { Reset.copy with tiles := [(0, { ready with owner := 2 }), (5, { ready with st := .filling, owner := 2 })] }
  withCore { core0 with copy := { k with b := { Reset.chan with op := some o } } }

/-- A copy before its first sector, before a credit, at its end with a tile to return, and one that fails. -/
theorem witness_CopyEvents :
    let s := copying (copyOp 0 100 0)
    let bad := copying { copyOp 0 100 0 with regs := { (copyOp 0 100 0).regs with esrc := 2 ^ 63 } }
    let last := { copyOp 0 100 2 with tiles := [5] }
    let g (s : State) (o : ChanOp) : Agent := { opAgent s .b o with evict := 0 }
    let moves (s : State) (o : ChanOp) : Bool := match moveSector (g s o) s o with
      | .done _ _ => true | _ => false
    let fails (s : State) (o : ChanOp) : Bool := match moveSector (g s o) s o with
      | .fail _ _ _ => true | _ => false
    let reads : Bool := match engRead (g s (copyOp 0 100 0)) s 0xC000000000000100 64 with
      | .done u bs => (match engWrite (g s (copyOp 0 100 0)) u 0xC000000000000000 bs with
        | .done _ _ => true | _ => false) | _ => false
    let ring := { ringOp with fills := [(5, [0])], filled := 1, owed := 4 }
    let tile := (copying last).core.copy.tile 5
    let red := { copyOp 4 16 0 with ready := true, image := leBytes 64 5 }
    red.isColl = true ∧ red.mayRun core0 = true ∧ red.moving = true ∧ moves (copying red) red = true ∧
    (piece 64 red.regs.edst.toNat 64 0) = (0xC000000000000000, 64) ∧ chipArea (copying red) 0 = some (0, .pad, 0) ∧
    ((tilesOf 0 64).all fun k => ((copying red).core.copy.tile k).owner.toNat == 2) = true ∧
    (copyOp 0 100 0).mayRun s.core = true ∧ (copyOp 0 100 0).moving = true ∧ moves s (copyOp 0 100 0) = true ∧
    reads = true ∧ fails bad ((bad.chan .b).op.getD ringOp) = true ∧
    ({ copyOp 0 100 1 with credit := 2 }).barrier = none ∧
    last.finished (copying last).coh = true ∧ ((copying last).chan .b).pending = none ∧
    tile.st = .filling ∧ tile.owner.toNat = 2 ∧ tile.released = false ∧
    (copying last).core.leaving = false ∧
    ({ copying last with core := { (copying last).core with binding := some ⟨3, 0, 1, 1, 0, false, 0, false, false, true, 0, 0⟩ } }).core.leaving = true ∧
    ring.total ≤ ring.filled ∧ ring.credit = 0 ∧ ring.barrier = none := by decide +kernel

/-- A collective of one member, before and after its source is read, and one whose source cannot be; a record for a
slot that is free. -/
theorem witness_CopyEvents_rest :
    let coll (o : ChanOp) : State :=
      let s := bound (copying o)
      { s with pool := { s.pool with staged := [(255, 0, 1)] } }
    let first := copyOp 4 16 0
    let read := { first with image := leBytes 64 5 }
    let bad := { first with regs := { first.regs with esrc := 2 ^ 63 } }
    let reads (s : State) (ok : Bool) : Bool := match collMembers s 255 with
      | some [m] => m.same && m.op.regs.evict != 7 && (match m.wants 64 with
        | some q => (match engRead (m.agent s) s q.1 q.2 with
          | .done _ _ => ok
          | .fail _ _ _ => !ok
          | .wait _ => false)
        | none => false)
      | _ => false
    let t := tracking 6 (.tidFill 63 16 16 rec128) (withCore core0)
    reads (coll first) true = true ∧ reads (coll bad) false = true ∧
    (match collMembers (coll read) 255 with
     | some [m] => m.same && (m.wants 64).isNone && m.region == 0
     | _ => false) = true ∧
    ((coll read).coreAt 0).isSome = true ∧
    (t.core.tracked.find? (fillsSlot 63)).isSome = true ∧ (t.core.copy.tid 63).st = .free ∧
    t.core.tracked.length = 1 := by decide +kernel

/-- Queue 63 at virtual 0x4000 with 16 slots, engine 15: its write index is w, and slot 0 holds a packet. -/
def queued (w : Nat) (packet : Nat) : State :=
  let s := paged (withCore core0)
  { s with
    coh := { s.coh with l2 := [(0x80, ⟨.m, 0, BitVec.ofNat 2048 w, 0⟩), (0x81, ⟨.m, 0, BitVec.ofNat 2048 packet, 0⟩)] }
    queues := [(63, ⟨0x4000, 0, true, 4, 15, 0, none⟩)] }

/-- An engine with nothing to do, a malformed packet, indices out of reach, a packet of a bad form and a good one; the
good one captured, performed and ended; registers in reach and not, and a queue whose slot drains. -/
theorem witness_QueuesAndRegisters :
    let good := 2 + 2 ^ 448
    let s := queued 1 good
    let q := spGet queueDefault s.queues 63
    let a := bulkAgent s 0 0
    let looks (s : State) : Nat := match lookQueue s q with
      | .idle _ => 1
      | .malformed u _ => if (lineHeld a u (q.start + 128) 16).2 then 2 else 0
      | .packet u r b => if pkBad b then (if (lineHeld a u (q.start + 128) 16).2 then 4 else 0) else
          (match engWrite a u (q.start + 64) (leBytes 8 (r + 1)) with | .done _ _ => 3 | _ => 0)
      | .fail u _ _ => if (lineHeld a u (q.start + 128) 16).2 then 5 else 0
      | _ => 0
    let away := { s with xlat := { s.xlat with tlb := [], fails := [⟨a.who, 0, 0x4000, 0x30⟩] } }
    let taken : Packet := ⟨0, leBytes 64 good, 0x4000, 4, 0, 0, none⟩
    let ends : Bool := pkWord taken.bytes 4 == 0 && decide (pkTotal taken.bytes ≤ 0) &&
      (pkRange a s taken.bytes).isNone && (match lineHeld a s (0x4000 + 128) 16 with
      | (h, held) => held && (settlePacket a taken.bytes none h).2.isNone && (settlePacket a taken.bytes (some 0x30) h).2.isSome)
    -- a packet that fills 8 bytes at 0x4100 with 5, and one that fills past the pages that are mapped
    let fills (dst : Nat) : List Byte := leBytes 64 (1 + 5 * 2 ^ 64 + dst * 2 ^ 128 + 8 * 2 ^ 192)
    let moves (dst : Nat) : Nat := match movePacket a { taken with bytes := fills dst } away with
      | .done _ _ => 1
      | .fail _ c _ => c
      | .wait _ => 0
    let moved : Nat := match engWrite a s 0x4100 (List.replicate 8 5) with
      | .done _ _ => pkTotal (fills 0x4100)
      | _ => 0
    let drains := { s with queues := [(63, ⟨0x4000, 0, false, 4, 15, 0, some taken⟩)] }
    let c := withCore { core0 with shelf := { Reset.shelf with remap := 0x8000 :: List.replicate 15 0 } }
    spWf queueDefault s.queues = true ∧ q.en = true ∧ q.packet = none ∧ otherFirst s 63 q = false ∧
    looks s = 3 ∧ looks (queued 0 good) = 1 ∧ looks (queued 1 (2 + 5 * 2 ^ 448)) = 2 ∧ looks (queued 1 (15 + 2 ^ 448)) = 4 ∧
    looks away = 5 ∧ ends = true ∧ moved = 1 ∧ pkEvict (fills 0x4100) = 0 ∧ moves 0x4100 = 0x30 ∧
    pkRange a s (fills (2 ^ 60 - 1)) = some 0x30 ∧ s.plat.held = [] ∧
    (spGet queueDefault drains.queues 63).packet.isSome = true ∧ (spGet queueDefault drains.queues 63).en = false ∧
    remapBad c 0 c.core c.core.shelf.remap 1 0x8000 = true ∧ remapBad c 0 c.core c.core.shelf.remap 15 0 = false ∧
    (c.coreAt 0).isSome = true ∧ c.plat.recovery = false ∧ queueWaits c 0x02000000 0 (BitVec.allOnes 64) = false ∧
    sysTest c 0x02000000 8 = none ∧ sysTest c 0x009000A8 8 = some 0x30 := by
  decide +kernel

/-- Each wait, the watch table with nothing armed and with a barrier that has moved on, a cluster that wakes, a
barrier operation and the load of a graph of one node. -/
theorem witness_WaitsEnd :
    let s := bound (withCore core0)
    let pend := tracking 1 (.span 16 16 7) s
    let watch := withCore { core0 with
      pad := [(0, 0x10)], wait := .waita 0x80,
      copy := { Reset.copy with watch := [(7, ⟨0xE000000000000000, 1, true⟩)] } }
    let wake := withCore { core0 with
      nodeXt := 24, regs := { core0.regs with clusters := List.replicate 4 .awake ++ [.waking .node 24] } }
    let graph := { held .s (paged (withCore core0)) with
      coh := { Reset.coh with l2 := [(0x80, ⟨.s, 0, 1, 0⟩)] } }
    let old := { core0 with tracked := [⟨0, 0, 1, 0x1000, .acq, false, false, .store 0x4000 [(0x8000, 8)] 0 (leBytes 8 0)⟩] }
    let later : Tracked := ⟨1, 0, 1, 0x1000, .acq, false, false, .load 0x4000 [(0x8000, 8)] 8 0 16 16 .zero⟩
    let before (t : Tracked) : Prop := t.grp ≠ s.core.ctx.grp ∨ t.bundle < s.core.ctx.bundle
    let uo := held .e (withCore { core0 with wait := .fence .rel .core, uo := [⟨7, 0, 1, 0x1000, .relaxed, false, true,
      .store 0x4000 [(0x8000, 8)] 0 (leBytes 8 0)⟩] })
    let away := watch.setCore { watch.core with
      copy := { watch.core.copy with watch := [(7, ⟨0x8000000000000000, 1, true⟩)] } }
    let still := watch.setCore { watch.core with
      copy := { watch.core.copy with watch := [(7, ⟨0xE000000000000000, 0, true⟩)] } }
    let look (s : State) : Look := lookAt 0x80 ((List.range 8).map fun j => (s.core.copy.next.toNat + j) % 8) false s
    (publishStores uo.core.before uo).2 = true ∧ (publishStores uo.core.before uo).1.core.failures = [] ∧
    (match look away with | .fail .. => true | _ => false) = true ∧
    (match look still with | .none _ true => true | _ => false) = true ∧
    s.core.failures = [] ∧ s.core.uo = [] ∧ ¬before later ∧
    (∀ t ∈ old.tracked, t.op.isRead = false) ∧ (∀ t ∈ old.tracked, inClass 0x1C t = false) ∧
    chanOpen s.core .a = false ∧ chanOpen s.core .b = false ∧ s.core.binding.isSome = true ∧
    (∀ u < 1024, (s.pool.group 255).map.getLsbD u = true → bargsOf (s.pool.group 255) 0 ≤ bargsOf (s.pool.group 255) u) ∧
    (∀ k < 8, (core0.copy.watchAt k).valid = false) ∧
    (match lookAt 0x80 ((List.range 8).map fun j => (watch.core.copy.next.toNat + j) % 8) false watch with
     | .hit _ k => k == 7 | _ => false) = true ∧
    lget .awake wake.core.regs.clusters 4 = .waking wake.core.mode 24 ∧ 24 ≤ wake.core.xt ∧
    (match (TOp.bexp 0xE000000000000000 5).barrierFn with
     | some (p, f) => (match barUpdate (watch.core.selfAgent 0) watch p f with | .done _ _ => true | _ => false)
     | none => false) = true ∧
    (match (TOp.barv 0xE000000000000000 5 16 16).barrierFn with
     | some (p, f) => (match barUpdate (watch.core.selfAgent 0) watch p f with | .done _ _ => true | _ => false)
     | none => false) = true ∧
    (match loadGraph graph (imageByVa (graph.core.selfAgent 0) 0x4000) with | .done _ _ => true | _ => false) = true ∧
    pend.core.tracked.length = 1 := by decide +kernel

/-- Each tracked operation of the M slot stands first on its half or buffer; the reload finds its 64 lines. -/
theorem witness_MatrixCompletions :
    let s (op : TOp) := tracking 4 op (withCore core0)
    let l : Latch := ⟨0, 0, .mxi8⟩
    let ops : List TOp := [.reload 255 2175 .mxf4 0x8000 [(0x8000, 16384)] 0, .reload 0 0 .n8 0x8000 [(0x8000, 1024)] 0,
      .dot 224 3 32 true l, .coll 0 1 15 224 32 .mxi8, .outl 31 1 [0], .pageRd 2175 true 16 16, .span 16 16 7,
      .pageClr 255 2175, .accZero 0 32, .wideOn 30 (-320), .wideOff 30, .accWrite 31 1 14 .f32 0 [] 0,
      .planes [.plane 0 1 1] 0, .scrub 255 2175, .rmw 255 2175 248 8 .i16 [0, 1, 2, 3, 4, 5, 6, 7] 0]
    let near := { s (.span 16 16 7) with coh := { Reset.coh with l2 := (List.range 64).map fun k => (0x80 + k, ⟨.s, 0, 5, 0⟩) } }
    (ops.all fun op => columnFree (s op).core 0 op && !underRefetch (s op).core op && ((s op).core.tracked.map Tracked.slot == [4])) = true ∧
    (match cohRead near [(0x8000, 16384)] 0 with | .done _ b => b.length == 16384 | _ => false) = true ∧
    spWf blockDefault core0.mat.bufs = true ∧ core0.mat.wide.length = 16 ∧ core0.mat.errs = [] ∧
    core0.mat.refetch = [] ∧ spWf 0 core0.mat.rows = true ∧
    segNow core0.shelf 0 7 = .awake := by decide +kernel

/-- The scrub in its last place, with its half idle, busy and busy again, and at the page of a refetch; a page to
restore that was never loaded, from memory, and with its line failed; a segment that wakes, a bus that has been idle
for 1,024 cycles, and a refill of the core and of a second one. -/
theorem witness_ShelfAndKilnEvents :
    let sh := Reset.shelf
    let page (loaded : Bool) (c : Coh) : State := { withCore { core0 with mat := { Reset.mat with
      refetch := [2175], recs := [(2175, { loaded := loaded, fmt := .mxi8, dirty := false, wsrc := 0x8000, ssrc := 0 })] } }
      with coh := c }
    let near := page true { Reset.coh with l2 := (List.range 64).map fun k => (0x80 + k, ⟨.s, 0, 5, 0⟩) }
    let lost := page true { Reset.coh with failed := [(0x80, 0x37)] }
    let up := { withCore core0 with plat := { Reset.plat with upAt := some 0, aSites := [0, 1], gSites := [0] } }
    let halfBusy := tracking 4 (.dot 0 0 1 false ⟨0, 0, .mxi8⟩) up
    let idle := { up with cycle := 1024 }
    sh.scrubEn = true ∧ core0.kind = .a ∧ core0.mat.errs = [] ∧ core0.tracked = [] ∧
    segNow sh 0 0 = .awake ∧ posRetired up 0 = false ∧ posRetired { up with plat := { up.plat with
      spares := [(0, 1)] } } 32 = true ∧ posRetired up 32 = false ∧ lost.core.run = .running ∧
    (halfBusy.core.tracked.any fun t => (t.op.column sh).contains (true, 0)) = true ∧
    (page false Reset.coh).core.mat.refetch = [2175] ∧ spWf 0 near.core.mat.rows = true ∧
    (page false Reset.coh).core.mat.pageRec 2175 = { loaded := false, fmt := .mxi8, dirty := false, wsrc := 0x8000, ssrc := 0 } ∧
    (match cohRead near [((near.core.mat.pageRec 2175).wsrc.toNat, 16384)] 0 with
     | .done u _ => u.core == near.core | _ => false) = true ∧
    (match cohRead lost [((lost.core.mat.pageRec 2175).wsrc.toNat, 16384)] 0 with
     | .fail _ c => c == 0x37 | _ => false) = true ∧
    lget SegSt.awake (List.replicate 7 SegSt.awake ++ [SegSt.waking 2000]) 7 = .waking 2000 ∧
    busQuiet idle = true ∧ sh.busLast + 1024 ≤ idle.cycle ∧ up.plat.upAt.isSome = true ∧ (up.coreAt 1).isSome = true ∧
    coresOf up.plat .a ++ coresOf up.plat .g = [0, 1, 512] := by decide +kernel

/-- A chip with three A-cores whose node 5 is ready, and what its host and its sequencer find. -/
def pooled (n : NodeSlot) (f : Pool → Pool) : State :=
  { withCore { core0 with run := .idle } with
    plat := { Reset.plat with poolUp := true, acoreUp := true, aSites := [0, 1, 2] }
    pool := f { Reset.pool with
      nodes := [(5, n)], graphs := [(0, { graphDefault with st := .loaded, nodes := [5] })] } }
def node (cost : Nat) (st : NodeSt) : NodeSlot :=
  { nodeDefault with desc := BitVec.ofNat 512 (2 ^ 64 + cost * 2 ^ 128), st := st, sinceReady := 4096, prio := 7 }

theorem witness_PoolEvents :
    let s := pooled (node 1 .ready) id
    let dear := pooled (node 4505601 .ready) id
    let part := pooled { node 1 .running with next := 1, live := [(0, 0)] } id
    let q := pooled (node 1 .loaded) fun p => { p with occ := 1, buckets := [(63, ⟨true, 0, 0, 1, 1, 0⟩)] }
    let run := pooled (node 1 .loaded) fun p => { p with graphs := [(0, { graphDefault with st := .running, nodes := [5] })] }
    let todo := (unbound s.plat (s.pool.node 5)).take 1
    headOf s.pool .a = some 5 ∧ s.pool.preempting = none ∧ bindingNode s .a = none ∧
    dCost (node 1 .ready).desc ≤ s.kiln.allow.toNat ∧ todo ≠ [] ∧ todo.length ≤ (freeCores s .a).length ∧
    affords s (node 1 .ready).desc todo.length = true ∧
    headOf dear.pool .a = some 5 ∧ bindingNode dear .a = none ∧
    dear.kiln.allow.toNat < dCost (node 4505601 .ready).desc ∧
    bindingNode part .a = some 5 ∧ (unbound part.plat (part.pool.node 5)).isEmpty = false ∧
    (freeCores part .a).isEmpty = false ∧ affords part (part.pool.node 5).desc 1 = true ∧
    spWf nodeDefault s.pool.nodes = true ∧ (s.pool.node 5).st = .ready ∧ 4096 ≤ (s.pool.node 5).sinceReady ∧
    chooseBucket q.pool = some (63, ⟨true, 0, 0, 1, 1, 0⟩) ∧ chooseBucket s.pool = none ∧
    graphLive q.pool 0 = true ∧ launchOpen q.pool 0 = false ∧ launchFault q.pool 0 = none ∧
    graphLive run.pool 0 = true ∧ launchOpen run.pool 0 = true ∧ graphLive q.pool 1 = false ∧ q.pool.seqJob = none ∧
    s.pool.hcmd = .none ∧ s.plat.poolUp = true ∧ spWf graphDefault s.pool.graphs = true := by decide +kernel

/-- A launch that an entry held by another graph refuses; the watchdog and a pre-emption of the core's node; the
barrier of the sequencer, and a host image of one node and of none. -/
theorem witness_PoolEvents_rest :
    let s0 := bound (withCore core0)
    let s := { s0 with pool := { s0.pool with preempting := some 3 } }
    let dog := { s0 with
      core := { s0.core with binding := some ⟨3, 0, 1, 1, 0, false, 1, false, false, false, 0, 0⟩ }
      pool := { s0.pool with nodes := [(3, { nodeDefault with desc := BitVec.ofNat 512 (2 ^ 160) })] } }
    let g : Graph := { graphDefault with st := .loaded, groups := [⟨255, 0, 1⟩] }
    let taken := { s0.pool with graphs := [(0, g)] }
    let img (n : Nat) : State := { homely Reset.coh with coh := { Reset.coh with l2 := [(0x80, ⟨.s, 0, BitVec.ofNat 2048 n, 0⟩)] } }
    let bar (s : State) : Nat := match barRead (bulkAgent s 0 0) s 0xE000000000000000 with
      | .done u _ => if u.pool = s.pool then 1 else 0 | .fail _ c _ => c | .wait _ => 0
    let load (n : Nat) : Nat := match loadGraph (img n) (imageByPa 0x8000) with
      | .done _ _ => 1 | .fail _ c _ => c | .wait _ => 0
    s.core.binding.isSome = true ∧ s.pool.preempting = some 3 ∧ (s.pool.node 3).st ≠ .abandoned ∧
    s.core.run = .running ∧ s.core.mode = .node ∧ s.core.pathDone = true ∧ s.core.inHold = false ∧
    s.core.wait.issued = false ∧ s.core.failures = [] ∧ s.plat.recovery = false ∧
    drained s s.core = true ∧ wdogOf dog dog.core = 1 ∧ (dog.core.binding.any fun b => b.cycles == 1 && !b.fired) = true ∧
    (launchFault taken 0).isSome = true ∧ graphLive taken 0 = true ∧ launchOpen taken 0 = false ∧
    bar s0 = 1 ∧ (match barRead (bulkAgent s0 0 0) s0 (2 ^ 63) with | .fail .. => true | _ => false) = true ∧
    load 1 = 1 ∧ load 0 = 0x6B := by decide +kernel

/-- A chip that has its configuration, of the sites and channels that the descriptor asks for. -/
theorem witness_BringUpEvents :
    let c := Reset.catalogue
    let spoilt := { c with aSites := BitVec.allOnes 272 }
    let p := { Reset.plat with
      good := true, fw := true, cat := true, desc := Reset.desc0, aSites := [0, 271], groupsUp := 0x10001, channels := [0, 511] }
    Reset.plat.good = false ∧ (∀ b : Bool, b = true ∨ b = false) ∧ c.descs.find? (descFits c) = some Reset.desc0 ∧
    spoilt.descs.find? (descFits spoilt) = none ∧ Reset.plat.cfgnum ≠ 0xFF ∧
    p.l2Up = false ∧ p.gcoreUp = false ∧ p.groupsUp.getLsbD 15 = false ∧
    (∀ x ∈ p.aSites, p.groupsUp.getLsbD (x / 16) = true) ∧ p.shelvesUp.getLsbD 7 = false ∧
    15 ∈ stacksUsed p ∧ p.hbmUp.getLsbD 15 = false ∧ p.ports.length = 12 ∧ descWidth p.desc 11 ≠ 0 ∧
    (lget Reset.port p.ports 11).tried = false ∧ p.recovery = false ∧ spWf 0 c.lanes = true := by decide +kernel

theorem witness_CatalogueAndLinkEvents :
    let p := Reset.plat
    let port : Port := { Reset.port with ready := true, inRow := 8 }
    p.measured.length = 8 ∧ p.extending = none ∧ p.catBusy = none ∧ p.recovery = false ∧ p.ports ≠ [] ∧
    spWf 0 p.catalogue.spares = true ∧ spWf 0 p.catalogue.lanes = true ∧
    (lget Reset.port (List.replicate 12 port) 11).ready = true ∧
    8 ≤ (lget Reset.port (List.replicate 12 port) 11).inRow ∧
    (let q : Platform := { p with ports := List.replicate 12 port, routes := [(1, 0x6)] }
     let left : Platform := { q with ports := lset q.ports 1 { port with ready := false } }
     hostTier (2 ^ 40) = false ∧ isHome q (2 ^ 32) = false ∧ portTo q (homeChip (2 ^ 40)) (2 ^ 32) = some 1 ∧
     portTo left (homeChip (2 ^ 40)) (2 ^ 32) = some 2) ∧
    (lget Reset.port (List.replicate 12 { port with inRow := 7 }) 11).inRow < 8 := by decide +kernel

/-- No frame live, and one live; the debugger's registers; a core that is halted. -/
theorem witness_TrapEntryAndDebug :
    let s := withCore core0
    let step := withCore { core0 with csr := { core0.csr with dbgctl := 3 } }
    let nested := withCore { core0 with csr := { core0.csr with tact := true } }
    let gang (v : Nat) := bound { step with core := { step.core with binding := some ⟨3, 0, 4, 4, v, true, 0, false, false, false, 0, 0⟩ } }
    let ask := withCore { core0 with dbg := { Reset.debug with hreq := true } }
    let off (bad : Bool) := { core0 with run := .halted, bankBad := bad }
    s.core.csr.tact = false ∧ nested.core.csr.tact = true ∧ (gang 0).core.run = .running ∧ (gang 1).core.wait = .none ∧
    ask.core.dbg.hreq = true ∧ ask.core.inHold = false ∧
    ({ ask.core with report := .stalled .energy } : Core).inHold = true ∧
    (off true).run = .halted ∧ (off false).mode = .node ∧
    fieldFault (.rfcl 0) = some 4 ∧ fieldFault (.cmp ⟨z, z, 0, 7⟩) = some 3 ∧
    step.core.csr.dbgctl.getLsbD 0 = true ∧ step.core.csr.dbgctl.getLsbD 1 = true ∧ step.core.mode = .node ∧
    step.core.run = .running ∧ step.core.wait = .none ∧ (s.coreAt 0).isSome = true ∧
    (tcauseWord 0x3FF 127 (some 7) true).toNat = 0x3FF00008F7F := by decide +kernel

/-- An addition and a stochastic rounding, which advances its class, answer a next state and issue. -/
theorem witness_RegisterFrames :
    let s := withCore (regs2 7 5)
    let i : Instr := .add ⟨x 2, x 1, x 3, 0, false⟩
    let j : Instr := .vcvt ⟨.va, 0, false, 9, 5, .i32, v 1, v 2, .f32, false⟩
    leavesFiles i = true ∧ postsOnly i = true ∧
    (match exec i s with | .next t => t.core.report == .issued | _ => false) = true ∧
    leavesFiles j = true ∧ (drawMode j s).cls = some 9 ∧ spWf genDefault s.core.regs.gens = true ∧
    (match exec j s with
     | .next t => t.core.report == .issued && genRead t.core.regs 9 != genRead s.core.regs 9 | _ => false) = true := by
  decide +kernel

/-- The last bytes of the scratchpad and of the accumulators, a store of VST and a scatter of VSTX. -/
theorem witness_StoreFrames :
    let s (p : Nat) := withCore (regs2 p 5)
    let o : FSM := ⟨0, 0, .core, .relaxed, x 1, x 2, 3, false, none⟩
    let issues (i : Instr) (s : State) : Bool := match exec i s with
      | .next t => t.core.report == .issued
      | _ => false
    issues (.st { o with fn := 0 }) (s 0xC0000000000FFFF8) = true ∧ issues (.stg o) (s 0xD00000000001FFF8) = true ∧
    issues (.vst ⟨.va, 0, 0, x 1, v 1, .i8, false⟩) (s 0xC0000000000FFE00) = true ∧
    issues (.vstx ⟨.va, ⟨128, 3⟩, 0, x 1, ⟨8, 1⟩, .i4, false⟩) (s 0xC0000000000FFFFF) = true ∧
    (access (s 0xD00000000001FFF8) .write 0xD00000000001FFF8 8).place = .acc 0x1FFF8 ∧
    (s 0).core.ends = [] ∧ spWf 0 (s 0).core.pad = true ∧ spWf 0 (s 0).core.mat.acc = true := by decide +kernel

/-! ### One step and one instruction

Expected values: the spec's own worked examples, and hand calculation from the rules named. -/

/-- The files after the exposed results of an instruction have landed. -/
def after (i : Instr) (s : State) : Core :=
  match exec i s with
  | .next t => { t.core with nodeXt := t.core.nodeXt + 1000 }.view
  | _ => core0

/-- A core whose lane 0 of consecutive full registers, from v<n>, holds 32-bit values. -/
def lanes (n : Nat) (vals : List Nat) : Core :=
  vals.zipIdx.foldl (init := core0) fun c p =>
    (vwrite c.csr (vop c.csr false (v (n + p.2))) p.1 (2 ^ 32 - 1)).foldl landVal c

/-- Lane 0 of v<n>. -/
def lane0 (c : Core) (n : Nat) : Nat := vread c (vop c.csr false (v n)) % 2 ^ 32

/-- R66, R67. The bundle of ADD x3, x1, x2 is 12 bytes; its word is read, executed, and the program counter moves. -/
theorem test_step_add :
    let w := (fields [(40, fx 2), (27, fx 1), (14, fx 3), (0, 1)]).toNat
    let s := withCore (regs2 7 5)
    decodeTableWord 64 w = some (.add ⟨x 2, x 1, x 3, 0, false⟩) ∧
    (match step (s.withFetchWord 64 w) with
     | .next t => t.core.pc == 0xC00000000000000C &&
         scalarRead ({ t.core with nodeXt := t.core.nodeXt + 1 }).view.regs.scalar (sop t.core.csr false (x 3)) == 12
     | _ => false) = true := by decide +kernel

/-- R182. In 8 bits 100 + 100 saturates at 127, and wraps to 200. -/
theorem test_add_saturates :
    let s := withCore (regs2 100 100)
    let o (fn : BitVec 4) : FSR := ⟨x 2, x 1, ⟨48, 1⟩, fn, false⟩
    let r (fn : BitVec 4) := scalarRead (after (.add (o fn)) s).regs.scalar ⟨48, 2⟩
    r 1 = 127 ∧ r 0 = 200 := by decide +kernel

/-- R184. SRA of 0xF0 in 8 bits by 2 is 0xFC. -/
theorem test_sra :
    let c := landVal (regs2 0 2) (.slices 40 2 0xF0)
    let t := after (.sra ⟨x 2, ⟨40, 1⟩, ⟨40, 1⟩, 0, false⟩) (withCore c)
    scalarRead t.regs.scalar ⟨40, 2⟩ = 0xFC := by decide +kernel

/-- R183. Division of -2^63 by -1 wraps; -7 by 2 rounds towards zero. -/
theorem test_div :
    let r (a b : Nat) (f : FSR → Instr) :=
      scalarRead (after (f ⟨x 2, x 1, x 3, 0, false⟩) (withCore (regs2 a b))).regs.scalar ⟨48, 16⟩
    r (2 ^ 63) (2 ^ 64 - 1) .div = 2 ^ 63 ∧ r (2 ^ 63) (2 ^ 64 - 1) .rem = 0 ∧ r (2 ^ 64 - 7) 2 .div = 2 ^ 64 - 3 ∧
    r (2 ^ 64 - 7) 2 .rem = 2 ^ 64 - 1 ∧ r 7 0 .divn = 2 ^ 64 - 1 ∧ r 7 0 .remn = 7 := by decide +kernel

/-- R248's example: the quad v20 to v23 narrowed into lane 0 of v10, clamped and wrapped. -/
theorem test_vnarrow :
    let c := lanes 20 [300, 2 ^ 32 - 5, 2 ^ 32 - 200, 65]
    let o (ns : Bool) : FVU := ⟨.va, 0, ns, 0, 0, .i32, v 20, v 10, .i8, false⟩
    lane0 (after (.vnarrow (o false)) (withCore c)) 10 = 0x4180FB7F ∧
    lane0 (after (.vnarrow (o true)) (withCore c)) 10 = 0x4138FB2C := by decide +kernel

/-- R255's example: one stage over lanes 0 to 7, keys and payloads. -/
theorem test_vcxs :
    let keys := [0x40000000, 0x80000000, 0x3F800000, 0, 0x7FC00000, 0x40A00000, 0xC0400000, 0x40E00000]
    let pack (l : List Nat) := packN 32 8 fun n => l.getD n 0
    let s : State := withCore ((vwrite core0.csr (op (v 8)) (pack keys) (2 ^ 256 - 1) ++
      vwrite core0.csr (op (v 9)) (pack [10, 11, 12, 13, 14, 15, 16, 17]) (2 ^ 256 - 1)).foldl landVal core0)
    let r (dir : Bool) := after (.vcxs ⟨.va, dir, 2, 1, v 9, v 8, .f32, false⟩) s
    let got (dir : Bool) (n : Nat) := vread (r dir) (op (v n)) % 2 ^ 256
    got false 8 = pack [0x3F800000, 0x80000000, 0x40000000, 0, 0x7FC00000, 0x40E00000, 0xC0400000, 0x40A00000] ∧
    got false 9 = pack [12, 11, 10, 13, 14, 17, 16, 15] ∧
    got true 8 = pack [0x40000000, 0, 0x3F800000, 0x80000000, 0xC0400000, 0x40A00000, 0x7FC00000, 0x40E00000] ∧
    got true 9 = pack [10, 13, 12, 11, 16, 15, 14, 17] := by decide +kernel

/-- The table after R218: a result, and NV in bit 4 of the flags (R222). -/
theorem test_vfma :
    let r (a b c : Nat) := fmaF fmtF32 .rne 0 a b c
    r 0 0x7F800000 0x7FA00001 = (0x7FE00001, 16) ∧ r 0 0x7F800000 0xFFC00002 = (0xFFC00002, 16) ∧
    r 0 0x7F800000 0x3F800000 = (0x7FC00000, 16) ∧ r 0x7FC00003 0x7FC00004 0x3F800000 = (0x7FC00003, 0) ∧
    r 0x7F800000 0x3F800000 0xFF800000 = (0x7FC00000, 16) := by decide +kernel

/-- R77, R395. TRAP 5 in a placed program enters the trap with cause 0x78 and the 5 as its value. -/
theorem test_step_trap :
    (match step (State.reset.withFetchWord 32 0x00280010) with
     | .next t => t.core.csr.tact && (t.core.csr.tcause &&& 0xFF) == 0x78 && t.core.csr.tval == 5 &&
         t.core.mode == .sys
     | _ => false) = true := by decide +kernel

/-- The bundle at the end of spec/04_bundle.md: LI with a long immediate through template 1, VFADD and QNOT; placed at
offset 0x28 it crosses the line. -/
theorem test_bundle_example :
    let h : Header := 0x187
    let body := leBytes 4 0x12 ++ leBytes 8 0x3456789A0143C030 ++ leBytes 8 0x00187028E041F040 ++ leBytes 4 0x449
    let b := bundleOf .a 0x1000 h body
    b.insts = [.li ⟨0x3456789A, x 5, false, some 0x12⟩, .vfadd ⟨.va, 0, v 6, v 5, v 4, .f32, false⟩,
      .qnot ⟨0, 0, 0, 0, 2, 1⟩] ∧ b.faults = [] ∧ h.size = 28 ∧
    crosses 0x1000 h = false ∧ crosses 0x1028 h = true := by decide +kernel

/-- R420. SHA3-512 of nothing: the published known answer, byte 0 in the low bits. -/
theorem test_sha3 : leBytes 64 (sha3 []).toNat =
    (leBytes 64 0xa69f73cca23a9ac5c8b567dc185a756e97c982164fe25859e0d1dcc1475c80a615b2123af1f5f94c11e3e9402c3ac558f500199d95b6d3e301758586281dcd26).reverse := by
  decide +kernel

/-! ### The statements about the whole machine -/

/-- A core with a bundle of EXIT at the start of its scratchpad. -/
def exiting : State := { State.reset with core := placeBundle State.reset.core (leBytes 4 1 ++ leBytes 4 0xE) }

/-- A state with the invariant whose step answers a next state. -/
theorem witness_StepKeepsMemory :
    Memory.wf exiting.mem = true ∧ (match step exiting with | .next _ => true | _ => false) = true := by decide +kernel

/-- An instruction of each length, and one with an extension word. -/
theorem witness_EncodeDecode :
    let i : Instr := .li ⟨0x3456789A, x 5, false, some 0x12⟩
    slotOf i = some .s ∧ wellFormed i = true ∧ slotOf (.ret (x 1)) = some .b ∧ wellFormed (.ret (x 1)) = true ∧
    slotOf (.mscrub ⟨0, z, 0, 0, 0, none⟩) = some .m ∧ wellFormed (.mscrub ⟨0, z, 0, 0, 0, none⟩) = true := by
  decide +kernel

/-- An event stands on the agenda, and a bundle of one instruction at the program counter. -/
theorem witness_StepRunsDecoded :
    let s := State.reset.withFetchWord 64 (fields [(40, fx 2), (27, fx 1), (14, fx 3), (0, 1)]).toNat
    let e := exiting
    let u := tick s
    isEvent .exposedResultLand = true ∧ s.agenda = [] ∧ coresTurn u = true ∧ fetches u = true ∧
    (match fetchGroup u u.core.pc with
     | .ok w g => w.core == u.core && (dueFault (openGroup w g).core).isNone &&
         (deferredIn (dropWait (openGroup w g)) g).isNone &&
         kilnPays (openGroup w g).core.view (groupCharge ((openGroup w g).setCore (openGroup w g).core.view) g) &&
         g.bundles.map (fun b => (b.insts, b.faults.length, b.closed)) ==
           [([.add ⟨x 2, x 1, x 3, 0, false⟩], 0, false)] &&
         (g.bundles.all fun b => match exec (.add ⟨x 2, x 1, x 3, 0, false⟩) (atBundle ((openGroup w g).setCore (openGroup w g).core.view) 0 b) with
           | .next r => r.core.report == .issued
           | _ => false)
     | _ => false) = true ∧
    (match fetchGroup (tick e) (tick e).core.pc with
     | .ok w g => w.core == (tick e).core && g.bundles.map (·.insts) == [[Instr.exit]]
     | _ => false) = true := by decide +kernel

/-- How an instruction that stands alone in the group at the program counter answers, before and after the program
counter has moved past the group. -/
def answers (s : State) (i : Instr) : List (Option Report) :=
  let u := tick s
  let report (o : Host.Outcome State Fault Refusal) : Option Report := match o with
    | .next r => some r.core.report
    | _ => none
  match fetchGroup u u.core.pc with
  | .ok w g => match g.bundles with
    | [b] =>
      let s0 := openGroup w g
      let t := atBundle (s0.setCore s0.core.view) 0 b
      if w.core == u.core && b.insts == [i] && b.faults.isEmpty && !b.closed && (dueFault s0.core).isNone then
        [report (exec i t), report (exec i (atBundle (fallThrough t g) 0 b))]
      else []
    | _ => []
  | _ => []

/-- A core with a bundle of one B-slot word at the start of its scratchpad. -/
def placed (w : Nat) : State := { State.reset with core := placeBundle State.reset.core (leBytes 4 1 ++ leBytes 4 w) }

/-- A branch issues, an exit ends its group, and TRET in node mode traps. -/
theorem witness_StepRunsDecoded_reports :
    answers (placed 0x000001C4) (.jmp ⟨7, none⟩) = [some .issued, some .issued] ∧
    answers exiting .exit = [some .ended, some .ended] ∧
    ((answers (placed 0x11) .tret).all fun r => match r with
      | some (.trapped k _ _) => k == 0x08
      | _ => false) = true ∧ (answers (placed 0x11) .tret).length = 2 := by decide +kernel

/-- The bytes of a header of one slot without a template, and of the next header. -/
theorem witness_StepRunsDecoded_bytes :
    let s := State.reset.withFetchWord 64 (fields [(40, fx 2), (27, fx 1), (14, fx 3), (0, 1)]).toNat
    let p : Word := 0xC000000000000000
    let h : Header := 2
    h.isFiller = false ∧ headerFault .a h = none ∧ crosses p h = false ∧ h.size = 12 ∧ h.slots = [.s] ∧ h.tmpl = 0 ∧
    (match fetchBytes s p 4 with
     | .ok a raw => leNat raw == 2 &&
         (match fetchBytes a (p + 4) 8 with
          | .ok b body => leNat body == (fields [(40, fx 2), (27, fx 1), (14, fx 3), (0, 1)]).toNat &&
              (match fetchBytes b (p + 12) 4 with
               | .ok _ next => leNat next == 0
               | _ => false)
          | _ => false)
     | _ => false) = true := by decide +kernel

end Sys2Proof.Tests
end

section
/-! PROOFS. The shifts, counts, divisions and the compare of the S slot (R183 to R185). -/

namespace Sys2Proof.Machine

/-! ### Numbers: the model's fields and counts in the library's terms -/

theorem SSpan.four_w_pos (sp : SSpan) : 0 < 4 * sp.w := Nat.mul_pos (by decide) (Nat.succ_pos _)

theorem SSpan.four_w_le (sp : SSpan) : 4 * sp.w ≤ 64 := by
  have h : sp.w ≤ 16 := sp.w1.isLt
  omega

theorem valZ_lt (v : Core) (d : Bool) (sp : SSpan) : valZ v d sp < 2 ^ (4 * sp.w) :=
  Nat.mod_lt _ (Nat.two_pow_pos _)

theorem wrapI_natCast (n m : Nat) : wrapI n (m : Int) = m % 2 ^ n := by
  have e : (m : Int) % 2 ^ n = ((m % 2 ^ n : Nat) : Int) := by push_cast; rfl
  rw [wrapI, e, Int.toNat_natCast]

/-- Two's complement as the model reads it is that of `BitVec`. -/
theorem toSigned_eq_toInt {n x : Nat} (hn : 0 < n) (hx : x < 2 ^ n) : toSigned n x = (BitVec.ofNat n x).toInt := by
  have half : 2 ^ n = 2 * 2 ^ (n - 1) := by rw [← pow_succ', Nat.sub_add_cancel hn]
  have sign : x < 2 ^ (n - 1) ↔ 2 * x < 2 ^ n := by omega
  simp [toSigned, BitVec.toInt_eq_toNat_cond, Nat.mod_eq_of_lt hx, sign]

theorem popN_eq_countP (v n : Nat) : popN v n = (List.range n).countP fun i => v.testBit i := by
  induction n with
  | zero => rfl
  | succ n ih => simp [popN, ih, List.range_succ, List.countP_append, List.countP_singleton]

theorem clzN_spec (v n : Nat) : clzN v n ≤ n ∧ (∀ i, n - clzN v n ≤ i → i < n → v.testBit i = false) ∧
    (clzN v n < n → v.testBit (n - 1 - clzN v n) = true) := by
  induction n with
  | zero => exact ⟨Nat.le_refl 0, fun i _ hi => absurd hi (Nat.not_lt_zero i), fun h => absurd h (Nat.lt_irrefl 0)⟩
  | succ n ih =>
    obtain ⟨le, zeros, top⟩ := ih
    rw [clzN]
    split
    · rename_i one
      exact ⟨Nat.zero_le _, fun i lo hi => by omega, fun _ => one⟩
    · rename_i zero
      refine ⟨by omega, fun i lo hi => ?_, fun h => ?_⟩
      · rcases Nat.lt_succ_iff_lt_or_eq.mp hi with below | rfl
        · exact zeros i (by omega) below
        · simpa using zero
      · rw [show n + 1 - 1 - (1 + clzN v n) = n - 1 - clzN v n by omega]
        exact top (by omega)

theorem ctzFrom_spec (v k n : Nat) : ctzFrom v k n ≤ n ∧
    (∀ i, k ≤ i → i < k + ctzFrom v k n → v.testBit i = false) ∧
    (ctzFrom v k n < n → v.testBit (k + ctzFrom v k n) = true) := by
  induction n generalizing k with
  | zero => exact ⟨Nat.le_refl 0, fun i lo hi => absurd hi (Nat.not_lt.mpr lo), fun h => absurd h (Nat.lt_irrefl 0)⟩
  | succ n ih =>
    obtain ⟨le, zeros, top⟩ := ih (k + 1)
    rw [ctzFrom]
    split
    · rename_i one
      exact ⟨Nat.zero_le _, fun i lo hi => by omega, fun _ => one⟩
    · rename_i zero
      refine ⟨by omega, fun i lo hi => ?_, fun h => ?_⟩
      · rcases Nat.eq_or_lt_of_le lo with rfl | above
        · simpa using zero
        · exact zeros i above (by omega)
      · rw [show k + (1 + ctzFrom v (k + 1) n) = k + 1 + ctzFrom v (k + 1) n by omega]
        exact top (by omega)

theorem ctzN_spec (v n : Nat) : ctzN v n ≤ n ∧ (∀ i, i < ctzN v n → v.testBit i = false) ∧
    (ctzN v n < n → v.testBit (ctzN v n) = true) := by
  obtain ⟨le, zeros, top⟩ := ctzFrom_spec v 0 n
  rw [Nat.zero_add] at zeros top
  exact ⟨le, fun i => zeros i (Nat.zero_le i), top⟩

/-! ### Shifts of a field of n bits (R184) -/

theorem shlN_eq_toNat {n x : Nat} (hx : x < 2 ^ n) (k : Nat) : shlN n x k = (BitVec.ofNat n x <<< k).toNat := by
  simp [shlN, Nat.mod_eq_of_lt hx, Nat.shiftLeft_eq]

theorem shrN_eq_toNat {n x : Nat} (hx : x < 2 ^ n) (k : Nat) : shrN n x k = (BitVec.ofNat n x >>> k).toNat := by
  simp [shrN, Nat.mod_eq_of_lt hx, Nat.shiftRight_eq_div_pow]

theorem sraN_eq_toInt {n x : Nat} (hn : 0 < n) (hx : x < 2 ^ n) (k : Nat) :
    sraN n x k = ((BitVec.ofNat n x).sshiftRight k).toInt := by
  rw [sraN, toSigned_eq_toInt hn hx, BitVec.toInt_sshiftRight, Int.shiftRight_eq_div_pow, Nat.cast_pow, Nat.cast_ofNat]

/-- The two parts of a rotated field share no bit, so that the model's sum of them is their union. -/
theorem rotlN_eq_toNat {n x : Nat} (hn : 0 < n) (hx : x < 2 ^ n) (k : Nat) :
    rotlN n x k = ((BitVec.ofNat n x).rotateLeft k).toNat := by
  have hm : k % n < n := Nat.mod_lt k hn
  have whole : 2 ^ n = 2 ^ (k % n) * 2 ^ (n - k % n) := by rw [← pow_add]; congr 1; omega
  have low : x / 2 ^ (n - k % n) < 2 ^ (k % n) := Nat.div_lt_of_lt_mul (by rwa [Nat.mul_comm, ← whole])
  have high : x * 2 ^ (k % n) % 2 ^ n = 2 ^ (k % n) * (x % 2 ^ (n - k % n)) := by
    rw [whole, Nat.mul_comm x, Nat.mul_mod_mul_left]
  rw [rotlN, BitVec.toNat_rotateLeft, BitVec.toNat_ofNat, Nat.mod_eq_of_lt hx, Nat.shiftLeft_eq,
    Nat.shiftRight_eq_div_pow, high, Nat.two_pow_add_eq_or_of_lt low]

/-! ### Quotient and remainder (R183) -/

theorem divQ_zero (a : Int) : divQ a 0 = -1 := rfl
theorem divR_zero (a : Int) : divR a 0 = a := rfl

theorem divQ_mul_add_divR {a b : Int} (hb : b ≠ 0) : a = divQ a b * b + divR a b := by
  rw [divQ, divR, if_neg hb, if_neg hb, Int.mul_comm, Int.mul_tdiv_add_tmod]

theorem abs_divR_lt {a b : Int} (hb : b ≠ 0) : |divR a b| < |b| := by
  rw [divR, if_neg hb, Int.abs_eq_natAbs, Int.abs_eq_natAbs, Int.natAbs_tmod, Int.ofNat_lt]
  exact Nat.mod_lt _ (Int.natAbs_pos.mpr hb)

theorem divR_nonneg {a b : Int} (hb : b ≠ 0) (ha : 0 ≤ a) : 0 ≤ divR a b := by
  rw [divR, if_neg hb]
  exact Int.tmod_nonneg b ha

theorem divR_nonpos {a b : Int} (hb : b ≠ 0) (ha : a ≤ 0) : divR a b ≤ 0 := by
  have h : 0 ≤ (-a).tmod b := Int.tmod_nonneg b (by omega)
  rw [Int.neg_tmod] at h
  rw [divR, if_neg hb]
  omega

/-- All ones and −1 leave the same bits in a field of at most 64. -/
theorem all_ones_emod_eq {n : Nat} (hn : n ≤ 64) : (-1 : Int) % 2 ^ n = (2 ^ 64 - 1) % 2 ^ n :=
  (Int.emod_emod_of_dvd (-1) (pow_dvd_pow 2 hn)).symm

/-! ### The issue of the S slot's plans -/

/-- An instruction whose plan finds a fault traps with the lowest one when nothing else stands in its way. -/
theorem runPlan_traps {i : Instr} {s : State} {p : Plan} {f : Nat × Word} (hc : clear s = true)
    (hw : wellFormed i = true) (hf : lowestFault p.faults = some f) (hk : p.walk = false) :
    runPlan i s p = .next ((trapHere s (slotOf i) f.1 f.2).report (.trapped f.1 f.2 p.pj)) := by
  have hw' : fieldFault i = none := by simpa [wellFormed] using hw
  simp [runPlan, hw', clear_dueFault hc, failureFor_clear hc, badUnit_clear hc, csrPending_clear hc, busyUnits_clear hc,
    meets_nil, lchk_clear hc, dueNow, hk, hf]

theorem scalarOk_one_source {s : State} {d : Bool} {a b c : SSpan} (h : scalarOk s d [a, b, c] = true) :
    scalarOk s d [a, b] = true := by
  obtain ⟨ha, hbc⟩ := scalarOk_cons.mp h
  exact scalarOk_cons.mpr ⟨ha, scalarOk_cons.mpr ⟨(scalarOk_cons.mp hbc).1, scalarOk_nil⟩⟩

section
variable {i : Instr} {o : FSR} {s : State} (hc : clear s = true) (hok : scalarOk s o.d [o.dst, o.src1, o.src2] = true)
  (hw : wellFormed i = true)
include hc hok hw

theorem runPlan_planShift (f : Nat → Nat → Nat → Int) :
    runPlan i s (planShift s i o f) = .next (scalarResult s o.d o.dst 1
      (f (4 * o.src1.w) (valZ s.view o.d o.src1) (valZ s.view o.d o.src2 % 64) % 2 ^ (4 * o.dst.w)).toNat) :=
  runPlan_scalar hc hw hok (List.forall_mem_nil _)

theorem runPlan_planSR1 (f : Nat → Nat → Nat) :
    runPlan i s (planSR1 s i o f) = .next (scalarResult s o.d o.dst 1
      (((f (4 * o.src1.w) (valZ s.view o.d o.src1) : Nat) : Int) % 2 ^ (4 * o.dst.w)).toNat) := by
  rw [← wrapI, wrapI_natCast]
  exact runPlan_scalar hc hw (scalarOk_one_source hok) (List.forall_mem_nil _)

/-- A division whose divisor is not zero, or under DZTRAP = 0, puts its result in flight. -/
theorem runPlan_division {e : SExt} (h : (srSrc s.view o e).2 ≠ 0 ∨ s.view.csr.cctl.getLsbD 2 = false)
    (f : Int → Int → Int) :
    runPlan i s (planSR s i o e 18 (dzFault s i o e) f) = .next (scalarResult s o.d o.dst 18
      (f (srSrc s.view o e).1 (srSrc s.view o e).2 % 2 ^ (4 * o.dst.w)).toNat) := by
  refine runPlan_scalar hc hw hok fun x hx => ?_
  obtain rfl := List.mem_singleton.mp hx
  rcases h with nonzero | off
  · rw [decide_eq_false nonzero, Bool.and_false]
  · rw [off, Bool.false_and]

/-- A zero divisor under DZTRAP = 1 is the only fault that a division finds. -/
theorem runPlan_division_traps {e : SExt} (hs : slotOf i = some .s)
    (h : (srSrc s.view o e).2 = 0 ∧ s.view.csr.cctl.getLsbD 2 = true) (f : Int → Int → Int) :
    runPlan i s (planSR s i o e 18 (dzFault s i o e) f) =
      .next ((trapHere s (some .s) 0x20 (encode i)).report (.trapped 0x20 (encode i) 0)) := by
  have only : (planSR s i o e 18 (dzFault s i o e) f).faults = [(0x20, encode i)] := by
    show faultsOf ((_, 0x10, encode i) :: dzFault s i o e) = _
    rw [faultsOf_cons _ _ _ _ (scalarOk_any hok)]
    simp [dzFault, faultsOf, h]
  rw [runPlan_traps (f := (0x20, encode i)) hc hw (by rw [only]; rfl) rfl, hs]
  rfl

end

/-! ### CMP (R185) -/

/-- CMP issues and puts its whole predicate in flight. -/
theorem execCmp_clear {o : FSCmp} {s : State} (hc : clear s = true) (hok : scalarOk s false [o.src1, o.src2] = true)
    (hw : wellFormed (.cmp o) = true) :
    exec (.cmp o) s = .next (posted s .s 1
      [.pred (rotPred s.view.csr.prb o.pd.toNat) (if cmpHolds s.view o then predOnes else 0) predOnes]) := by
  have inRange : (spanBad s.view false o.src1 || spanBad s.view false o.src2) = false := by
    simpa using scalarOk_any hok
  exact runPlan_free hc hw (faultsOf_cons _ _ _ _ inRange) rfl rfl rfl

/-- The two outcomes of CMP, for any reading of its condition. -/
theorem exec_cmp_of_cmpHolds_iff {o : FSCmp} {s : State} {c : Prop} (hc : clear s = true)
    (hok : scalarOk s false [o.src1, o.src2] = true) (hw : wellFormed (.cmp o) = true)
    (h : cmpHolds s.view o = true ↔ c) :
    (c → exec (.cmp o) s = .next (posted s .s 1
      [.pred (rotPred s.view.csr.prb o.pd.toNat) (BitVec.allOnes 1024) (BitVec.allOnes 1024)])) ∧
    (¬c → exec (.cmp o) s = .next (posted s .s 1
      [.pred (rotPred s.view.csr.prb o.pd.toNat) 0 (BitVec.allOnes 1024)])) := by
  rw [execCmp_clear hc hok hw]
  exact ⟨fun yes => by rw [if_pos (h.mpr yes)]; rfl, fun no => by rw [if_neg fun k => no (h.mp k)]; rfl⟩

section
variable {v : Core} {o : FSCmp}

theorem cmpHolds_eq (h : o.fn = 0) : cmpHolds v o = true ↔ valS v false o.src1 = valS v false o.src2 := by
  simp [cmpHolds, h]

theorem cmpHolds_ne (h : o.fn = 1) : cmpHolds v o = true ↔ valS v false o.src1 ≠ valS v false o.src2 := by
  simp [cmpHolds, h]

theorem cmpHolds_lt (h : o.fn = 2) : cmpHolds v o = true ↔ valS v false o.src1 < valS v false o.src2 := by
  simp [cmpHolds, h]

theorem cmpHolds_ge (h : o.fn = 3) : cmpHolds v o = true ↔ valS v false o.src1 ≥ valS v false o.src2 := by
  simp [cmpHolds, h]

theorem cmpHolds_ltn (h : o.fn = 4) : cmpHolds v o = true ↔ valZ v false o.src1 < valZ v false o.src2 := by
  simp [cmpHolds, h]

theorem cmpHolds_gen (h : o.fn = 5) : cmpHolds v o = true ↔ valZ v false o.src1 ≥ valZ v false o.src2 := by
  simp [cmpHolds, h]

theorem cmpHolds_tst (h : o.fn = 6) : cmpHolds v o = true ↔ valZ v false o.src1 &&& valZ v false o.src2 ≠ 0 := by
  simp [cmpHolds, h]

end

/-- p0 takes no write (R169). -/
theorem landVal_p0 (c : Core) (v m : Pred) : landVal c (.pred (rotPred c.csr.prb 0) v m) = c := rfl

/-- An OP with an FN that is not listed earns 0x03 (R87). -/
theorem checkDec_unlisted {c : Bool} (h : c = false) (r : Dec) : checkDec (listed c r) = .error 0x03 := by
  rw [h]
  rfl

/-- With the FN listed, and no fault of the instruction's own, the reserved fields decide (R87). -/
theorem checkDec_listed {c : Bool} {i : Instr} (h : c = true) (hf : fieldFault i = none) (ok : Bool) :
    checkDec (listed c (accIf ok i)) = if ok then .ok i else .error 0x04 := by
  rw [h]
  simp [listed, accIf, checkDec, hf]

theorem fieldFault_cmp (o : FSCmp) : fieldFault (.cmp o) = verdict (o.fn.toNat ≤ 6) true := rfl

section
variable {w : Word} (hop : w.extractLsb' 0 9 = 0x024#9) (k : CoreKind)
include hop

/-- What a word of the S slot with the OP of CMP decodes to. -/
theorem decodeSlot_cmp : decodeSlot k .s w none = checkDec (listed ((w.extractLsb' 10 4).toNat ≤ 6)
    (accIf (!w.getLsbD 9 && zeroBits w 20 7 && zeroBits w 53 11)
      (.cmp ⟨sspanAt w 40, sspanAt w 27, w.extractLsb' 14 6, w.extractLsb' 10 4⟩))) := by
  have unfolded : decodeSlot k .s w none = checkDec (decodeS w none) := rfl
  simp only [unfolded, decodeS, hop]
  rfl

theorem decodeSlot_cmp_unlisted (h : 7 ≤ (w.extractLsb' 10 4).toNat) : decodeSlot k .s w none = .error 0x03 := by
  rw [decodeSlot_cmp hop k, checkDec_unlisted (decide_eq_false (Nat.not_le.mpr h))]

theorem decodeSlot_cmp_listed (h : (w.extractLsb' 10 4).toNat ≤ 6) :
    decodeSlot k .s w none = if !w.getLsbD 9 && zeroBits w 20 7 && zeroBits w 53 11 then
      .ok (.cmp ⟨sspanAt w 40, sspanAt w 27, w.extractLsb' 14 6, w.extractLsb' 10 4⟩) else .error 0x04 := by
  have own : fieldFault (.cmp ⟨sspanAt w 40, sspanAt w 27, w.extractLsb' 14 6, w.extractLsb' 10 4⟩) = none := by
    rw [fieldFault_cmp, decide_eq_true h]
    rfl
  rw [decodeSlot_cmp hop k, checkDec_listed (decide_eq_true h) own]

end

/-! ### The statements -/

/-- Settles O2: each plan issues, and its value is that shift or count of the field by the lemmas above. -/
theorem scalarShiftCountResults : Obligations.ScalarShiftCountResults := by
  unfold Obligations.ScalarShiftCountResults
  intro o s hc hok n x f k res
  have hn : 0 < n := SSpan.four_w_pos o.src1
  have hx : x < 2 ^ n := valZ_lt s.view o.d o.src1
  refine ⟨fun hw => ?shl, fun hw => ?shr, fun hw => ?sra, fun hw => ?rotl, fun hw => ?popc, fun hw => ?clz,
    fun hw => ?ctz⟩
  case shl => exact shlN_eq_toNat hx k ▸ runPlan_planShift hc hok hw _
  case shr => exact shrN_eq_toNat hx k ▸ runPlan_planShift hc hok hw _
  case sra => exact sraN_eq_toInt hn hx k ▸ runPlan_planShift hc hok hw _
  case rotl => exact rotlN_eq_toNat hn hx k ▸ runPlan_planShift hc hok hw _
  case popc => exact popN_eq_countP x n ▸ runPlan_planSR1 hc hok hw _
  case clz => exact ⟨clzN x n, runPlan_planSR1 hc hok hw _, clzN_spec x n⟩
  case ctz => exact ⟨ctzN x n, runPlan_planSR1 hc hok hw _, ctzN_spec x n⟩

/-- Settles O3, by cases on the divisor and DZTRAP. -/
theorem scalarDivision : Obligations.ScalarDivision := by
  unfold Obligations.ScalarDivision
  intro o s hc hok a b x y dz res traps
  refine ⟨fun issues => ?signed, fun issues => ?unsigned, fun zero => ?signedTrap, fun zero => ?unsignedTrap⟩
  case signed =>
    refine ⟨divQ a b, divR a b, fun hw => runPlan_division (e := .sign) hc hok hw issues divQ,
      fun hw => runPlan_division (e := .sign) hc hok hw issues divR, fun hb => ?_, fun hb => ?_⟩
    · rw [hb]
      exact ⟨divQ_zero a, divR_zero a⟩
    · exact ⟨divQ_mul_add_divR hb, abs_divR_lt hb, divR_nonneg hb, divR_nonpos hb⟩
  case unsigned =>
    have div (hw : wellFormed (.divn o) = true) : exec (.divn o) s = res (divQ x y) :=
      runPlan_division (e := .zero) hc hok hw issues divQ
    have rem (hw : wellFormed (.remn o) = true) : exec (.remn o) s = res (divR x y) :=
      runPlan_division (e := .zero) hc hok hw issues divR
    have hx : 0 ≤ x := Int.natCast_nonneg _
    have hy : 0 ≤ y := Int.natCast_nonneg _
    by_cases hz : y = 0
    · have ones : res (divQ x y) = res (2 ^ 64 - 1) := by
        simp only [res, hz, divQ_zero, all_ones_emod_eq (SSpan.four_w_le o.dst)]
      exact ⟨2 ^ 64 - 1, divR x y, fun hw => (div hw).trans ones, rem, fun _ => ⟨rfl, by rw [hz, divR_zero]⟩,
        fun hb => absurd hz hb⟩
    · have bound : divR x y < y := by
        have h := abs_divR_lt (a := x) hz
        rwa [abs_of_nonneg hy, abs_of_nonneg (divR_nonneg hz hx)] at h
      exact ⟨divQ x y, divR x y, div, rem, fun hb => absurd hb hz,
        fun _ => ⟨divQ_mul_add_divR hz, divR_nonneg hz hx, bound⟩⟩
  case signedTrap =>
    exact ⟨fun hw => runPlan_division_traps (e := .sign) hc hok hw rfl zero divQ,
      fun hw => runPlan_division_traps (e := .sign) hc hok hw rfl zero divR⟩
  case unsignedTrap =>
    exact ⟨fun hw => runPlan_division_traps (e := .zero) hc hok hw rfl zero divQ,
      fun hw => runPlan_division_traps (e := .zero) hc hok hw rfl zero divR⟩

/-- Settles O4: the condition of each FN, the discarded write of p0, and the word. -/
theorem scalarCompare : Obligations.ScalarCompare := by
  unfold Obligations.ScalarCompare
  refine ⟨fun o s hc hok hw => ?conditions, landVal_p0, fun k w hop => ?word⟩
  case conditions =>
    exact ⟨fun h => exec_cmp_of_cmpHolds_iff hc hok hw (cmpHolds_eq h),
      fun h => exec_cmp_of_cmpHolds_iff hc hok hw (cmpHolds_ne h),
      fun h => exec_cmp_of_cmpHolds_iff hc hok hw (cmpHolds_lt h),
      fun h => exec_cmp_of_cmpHolds_iff hc hok hw (cmpHolds_ge h),
      fun h => exec_cmp_of_cmpHolds_iff hc hok hw (cmpHolds_ltn h),
      fun h => exec_cmp_of_cmpHolds_iff hc hok hw (cmpHolds_gen h),
      fun h => exec_cmp_of_cmpHolds_iff hc hok hw (cmpHolds_tst h)⟩
  case word =>
    intro fn r
    refine ⟨decodeSlot_cmp_unlisted hop k, fun h reserved => (decodeSlot_cmp_listed hop k h).trans (if_neg ?_),
      fun h hd hz hh => (decodeSlot_cmp_listed hop k h).trans (if_pos ?_)⟩
    · rcases reserved with hd | hz
      · rw [hd, Bool.not_true, Bool.false_and]
        exact Bool.false_ne_true
      · rw [zeroBits, beq_false_of_ne hz, Bool.and_false, Bool.false_and]
        exact Bool.false_ne_true
    · rw [hd, zeroBits, zeroBits, hz, hh]
      rfl

end Sys2Proof.Machine
end
